-- ==== Sys2Proof/Word.lean ====
section
/-! DEFINITION. The word types of the LN-768 and their plainest arithmetic (R40, R41). -/

namespace Sys2Proof

/-- One 32-bit lane slice of a register (R10). -/
abbrev Word := BitVec 32
/-- A 64-bit scalar register, address or system word (R66). -/
abbrev DWord := BitVec 64
/-- One byte of memory (R205). -/
abbrev Byte := BitVec 8

/-- A sparse map from numbers to values: the entries that differ from what an unlisted number reads as. -/
abbrev SMap (β : Type) := List (Nat × β)

/-- `x[lo+n-1 : lo]` as a number (R40). -/
abbrev fld (x lo n : Nat) : Nat := x / 2 ^ lo % 2 ^ n

/-- Bit `i` of `x` (R40). -/
abbrev bitAt (x i : Nat) : Bool := x / 2 ^ i % 2 == 1

end Sys2Proof
end

