-- ==== Sys2Proof/Config.lean ====
section
/-! DEFINITION. What the manual leaves to the device or leaves open: opaque constants without a body, which no proof can
evaluate. Each is named in the assumption log. -/

namespace Sys2Proof

/-- The words that the capability list names (R453). Their addresses are the device's own. -/
inductive DevWord where
  | channel (stack chan : Nat)
  | toggle (stack chan : Nat)
  | scrub (stack : Nat)
  | gang (stack w : Nat)
  | core (c : Nat)
  | ring (fn : Nat)
  | link (l : Nat)
  | boot
  | nonce
  | ageing (region : Nat)
  deriving DecidableEq, Repr, Inhabited

namespace Config

/-- The k-th value that the manual leaves undefined or unstated (DESIGN CHOICE, log 5, DESIGN CHOICE, log 22). -/
opaque freeWord : Nat → Word
/-- How many core cycles beyond one the k-th step of the model takes (DESIGN CHOICE, log 6). -/
opaque stepCycles : Nat → Nat
/-- The fixed hash that gives the channel of a physical line (R187; DESIGN CHOICE, log 11). -/
opaque lineHash : Nat → Nat
/-- The map of addresses onto the two pseudo-channels of a channel (R187; DESIGN CHOICE, log 21). -/
opaque sectorHash : Nat → Nat
/-- Whether the decoder detects a pattern of more than four erroneous symbols (R299; DESIGN CHOICE, log 81). -/
opaque rsDetects : (sector : Nat) → List (Nat × Byte) → Bool
/-- The encryption of a 16-byte block of main memory under a key instance: AES-256-XTS with the tweak of the block's sector,
of which nothing but its being a permutation is used (R196; DESIGN CHOICE, log 4). -/
opaque aes : (inst block : Nat) → Equiv.Perm (BitVec 128)
/-- The chip's own number (R380, R458; DESIGN CHOICE, log 12). -/
opaque thisChip : BitVec 16
/-- How far above 0x80000000 the first word of a capability stands, in words (R453; DESIGN CHOICE, log 23). -/
opaque capFirst : Nat → Nat
/-- The word at any other device-word address (R453; DESIGN CHOICE, log 23). -/
opaque otherWordAt : Nat → Option DevWord
/-- The least path margin that a region's monitors show at a device time, in mV (R462, R463; DESIGN CHOICE, log 111). -/
opaque pathMargin : (region ns : Nat) → Nat
/-- The cores of the region that have no safe point left then (R464; DESIGN CHOICE, log 111). -/
opaque unsafeCores : (region ns : Nat) → List Nat
/-- Energy in pJ measured on a core over the k-th tick (R347; DESIGN CHOICE, log 6). -/
opaque coreEnergy : (core k : Nat) → Nat

/-- The result bits of the transcendental forms, within the bounds of R151 (DESIGN CHOICE, log 5). -/
opaque rcpBits : Word → Word
opaque rsqBits : Word → Word
opaque ex2Bits : Word → Word
opaque lg2Bits : Word → Word
opaque sinBits : Word → Word
opaque cosBits : Word → Word
opaque tanhBits : Word → Word

/-- Whether the digest of an image matches its header (R460; DESIGN CHOICE, log 19). -/
opaque digestOk : List Byte → Bool
/-- Whether the header's signature verifies (R460; DESIGN CHOICE, log 19). -/
opaque signatureOk : List Byte → Bool
/-- Whether the flash can be read (R461; DESIGN CHOICE, log 19). -/
opaque flashReadable : Nat → Bool
/-- The version field of an image header (R461; DESIGN CHOICE, log 19). -/
opaque imageVersion : List Byte → Word
/-- The signed report over a nonce and an image (R461; DESIGN CHOICE, log 19). -/
opaque attestation : DWord → List Byte → List Byte

end Config

end Sys2Proof
end

