-- ==== Sys2Proof/Syntax.lean ====
section
/-! DEFINITION. The steps of the LN-768: one constructor for each row of the table, the instruction forms of R60 with
their operands, and the events that the table lists beside them (95_what_each_step_holds). -/

namespace Sys2Proof

/-- The identity names (R71). -/
inductive IdName where
  | lane | quad | group | wg | coh | grid | core | region | ctx | clk
  deriving DecidableEq, Repr, Inhabited

/-- A source selector (R31, R54). Register numbers are window-relative. -/
inductive Src where
  | v (n : Nat)
  | b (n : Nat)
  | s (n : Nat)
  | m (n : Nat)
  | idn (i : IdName)
  | imm (i : BitVec 11)
  deriving DecidableEq, Repr, Inhabited

/-- A destination selector (R54); `off` is the suppressed destination 0x800. -/
inductive Dst where
  | v (n : Nat)
  | s (n : Nat)
  | m (n : Nat)
  | off
  deriving DecidableEq, Repr, Inhabited

/-- The integer layout's wide, signed and .sat bits (R56). -/
structure IMod where
  wide : Bool
  signed : Bool
  sat : Bool
  deriving DecidableEq, Repr, Inhabited

/-- The float layout's types (R56). -/
inductive FTy where
  | f32 | f16 | bf16
  deriving DecidableEq, Repr, Inhabited

/-- The float layout: a type and the source modifiers of a and b (R34, R56). -/
structure FMod where
  ty : FTy
  negA : Bool
  absA : Bool
  negB : Bool
  absB : Bool
  deriving DecidableEq, Repr, Inhabited

/-- Rounding suffixes (R35, R58). -/
inductive Rm where
  | rne | rz | rup | rdn | rna
  deriving DecidableEq, Repr, Inhabited

/-- Conditions of icmp (R95). -/
inductive ICond where
  | eq | ne | lt | le | gt | ge
  deriving DecidableEq, Repr, Inhabited

/-- Conditions of fcmp (R58, R147). -/
inductive FCond where
  | eq | ne | lt | le | gt | ge | num | nan
  deriving DecidableEq, Repr, Inhabited

/-- Scopes (R35, R208). -/
inductive Scope where
  | qd | gp | wg | co | cx | sy
  deriving DecidableEq, Repr, Inhabited

/-- Orders (R35, R56). -/
inductive Order where
  | rlx | acq | rel | ar
  deriving DecidableEq, Repr, Inhabited

/-- Load types (R58, R232). -/
inductive LdTy where
  | s8 | n8 | s16 | n16 | b32 | b64 | b128
  deriving DecidableEq, Repr, Inhabited

/-- Store types (R58, R233). -/
inductive StTy where
  | b8 | b16 | b32 | b64 | b128
  deriving DecidableEq, Repr, Inhabited

/-- Operations of atom and red (R58, R234); red has no `exch` and no `cas`. -/
inductive AtOp where
  | add | and | or | xor | exch | cas | mins | maxs | minu | maxu
  deriving DecidableEq, Repr, Inhabited

/-- Scalar types that cvt admits (R57, R153). -/
inductive CTy where
  | s8 | s16 | s32 | s64 | n8 | n16 | n32 | n64 | f32 | f16 | bf16 | e4m3 | e5m2
  deriving DecidableEq, Repr, Inhabited

/-- Twin-scale formats of quant and dequant (R156). -/
inductive TsFmt where
  | ts4 | ts8 | ts12
  deriving DecidableEq, Repr, Inhabited

/-- Formats that fpack packs (R159). -/
inductive PkFmt where
  | f16 | bf16 | e4m3 | e5m2
  deriving DecidableEq, Repr, Inhabited

/-- Patterns of qxch (R113). -/
inductive QPat where
  | x1 | x2 | x3 | r1
  deriving DecidableEq, Repr, Inhabited

/-- Segment widths of the shuffles (R113, R115). -/
inductive ShW where
  | w32 | w16 | w8 | w4 | w2
  deriving DecidableEq, Repr, Inhabited

/-- Operations of vote (R113, R116). -/
inductive VoteOp where
  | any | all | ballot | eq
  deriving DecidableEq, Repr, Inhabited

/-- Fold operations of gred and gscan (R113, R117). -/
inductive RedOp where
  | add | min | max | and | or | xor
  deriving DecidableEq, Repr, Inhabited

/-- Words that adstat selects (R282, R286). -/
inductive AdSel where
  | m | f | n
  deriving DecidableEq, Repr, Inhabited

/-- A memory operand `[base + index*scale + offset]` (R33); `scale` is its two-bit code. -/
structure MemOp where
  base : Nat
  index : Src
  scale : Nat
  off : BitVec 16
  deriving DecidableEq, Repr, Inhabited

/-- The condition of a bra (R171). -/
inductive BrCond where
  | al
  | m (n : Nat)
  | nm (n : Nat)
  | nz (x : Src)
  | z (x : Src)
  deriving DecidableEq, Repr, Inhabited

/-- What a scrub finds in a sector of its atom (R301). -/
inductive ScrubFind where
  | clean | corrected | uncorrectable
  deriving DecidableEq, Repr, Inhabited

/-- The atom that a scrub reads: its first physical sector, and what it finds in that one and, of a ganged atom, in the
next (R292, R301). -/
structure ScrubAtom where
  sector : Nat
  lo : ScrubFind
  hi : ScrubFind
  deriving DecidableEq, Repr, Inhabited

/-- Where an uncorrectable error strikes (R199). -/
inductive ErrSite where
  | l1 (core line sector : Nat)
  | cache (line sector : Nat)
  | main (sector : Nat)
  | pinned (coh wg off : Nat)
  | acc (coh wg off : Nat)
  | row (group reg lane : Nat)
  | adapter (seg : Nat)
  deriving DecidableEq, Repr, Inhabited

/-- Rings whose consumer's HEAD a producer observes (R468). -/
inductive RingRef where
  | handler (ctx : Nat)
  | mailbox (ctx : Nat)
  | replay (ctx : Nat)
  | copies (copy : Nat)
  | host (fn : Nat)
  deriving DecidableEq, Repr, Inhabited

/-- Every step of the table. An instruction form carries its decoded operands; an event carries the names of what it
concerns (a group's, launch's or copy's number in the model's state). -/
inductive Instr where
  -- Integer and bit forms (R93 to R111)
  | iadd (mo : IMod) (d : Dst) (a b : Src)
  | isub (mo : IMod) (d : Dst) (a b : Src)
  | imul (mo : IMod) (d : Dst) (a b : Src)
  | imulh (wide signed : Bool) (d : Dst) (a b : Src)
  | imad (mo : IMod) (d : Dst) (a b c : Src)
  | iabs (mo : IMod) (d : Dst) (a : Src)
  | ineg (mo : IMod) (d : Dst) (a : Src)
  | imin (wide signed : Bool) (d : Dst) (a b : Src)
  | imax (wide signed : Bool) (d : Dst) (a b : Src)
  | idp4 (signed sat : Bool) (d : Dst) (a b c : Src)
  | and (wide : Bool) (d : Dst) (a b : Src)
  | or (wide : Bool) (d : Dst) (a b : Src)
  | xor (wide : Bool) (d : Dst) (a b : Src)
  | andn (wide : Bool) (d : Dst) (a b : Src)
  | orn (wide : Bool) (d : Dst) (a b : Src)
  | shl (wide : Bool) (d : Dst) (a b : Src)
  | shr (wide : Bool) (d : Dst) (a b : Src)
  | sar (wide : Bool) (d : Dst) (a b : Src)
  | rot (wide : Bool) (d : Dst) (a b : Src)
  | shf (left wide : Bool) (d : Dst) (a b c : Src)
  | bfx (wide signed : Bool) (d : Dst) (a b c : Src)
  | bfi (wide : Bool) (d : Dst) (a b c : Src)
  | popc (wide : Bool) (d : Dst) (a : Src)
  | clz (wide : Bool) (d : Dst) (a : Src)
  | ctz (wide : Bool) (d : Dst) (a : Src)
  | brev (wide : Bool) (d : Dst) (a : Src)
  | perm (d : Dst) (a b c : Src)
  | icmp (cc : ICond) (wide signed : Bool) (d : Dst) (a b : Src)
  | sel (wide : Bool) (d : Dst) (a b c : Src)
  | mov (wide signed : Bool) (d : Dst) (a : Src)
  | movGetv (d : Dst) (i : IdName)
  | movi (wide signed : Bool) (d : Dst) (i : BitVec 24)
  | moviH1 (wide signed : Bool) (d : Dst) (i : BitVec 24)
  | moviH2 (signed : Bool) (d : Dst) (i : BitVec 24)
  | lea (wide : Bool) (d : Dst) (mem : MemOp)
  -- Lane exchange (R112 to R119)
  | qxch (pat : QPat) (wide : Bool) (d : Dst) (a : Src)
  | qbc (wide : Bool) (d : Dst) (a b : Src)
  | shfl (w : ShW) (wide : Bool) (d : Dst) (a b : Src)
  | shflx (w : ShW) (wide : Bool) (d : Dst) (a b : Src)
  | shflup (w : ShW) (wide : Bool) (d : Dst) (a b : Src)
  | shfldn (w : ShW) (wide : Bool) (d : Dst) (a b : Src)
  | vote (op : VoteOp) (d : Dst) (a : Src)
  | gred (op : RedOp) (wide signed : Bool) (d : Dst) (a : Src)
  | gscan (op : RedOp) (ex wide signed : Bool) (d : Dst) (a : Src)
  | lget (wide : Bool) (d a : Nat) (b : Src)
  | lgetLanding (g k : Nat)
  | lput (wide : Bool) (a : Nat) (b c : Src)
  -- Floating point, conversion and quantising (R142 to R163)
  | fadd (rm : Rm) (fm : FMod) (d : Dst) (a b : Src)
  | fmul (rm : Rm) (fm : FMod) (d : Dst) (a b : Src)
  | fma (rm : Rm) (fm : FMod) (d : Dst) (a b c : Src)
  | fdp2 (rm : Rm) (fm : FMod) (d : Dst) (a b c : Src)
  | frnd (rm : Rm) (fm : FMod) (d : Dst) (a : Src)
  | fcmp (cc : FCond) (fm : FMod) (d : Dst) (a b : Src)
  | fmin (fm : FMod) (d : Dst) (a b : Src)
  | fmax (fm : FMod) (d : Dst) (a b : Src)
  | cvt (rm : Rm) (sat : Bool) (dt sf : CTy) (d : Dst) (a : Src)
  | quant (f : TsFmt) (d sp a : Nat)
  | dequant (f : TsFmt) (d a sp : Nat)
  | fpack (f : PkFmt) (rm : Rm) (d : Dst) (a b c : Src)
  | fpackFlags (d : Dst) (a : Src)
  | fsqrt (rm : Rm) (fm : FMod) (d : Dst) (a : Src)
  | frcp (fm : FMod) (d : Dst) (a : Src)
  | frsq (fm : FMod) (d : Dst) (a : Src)
  | fex2 (fm : FMod) (d : Dst) (a : Src)
  | flg2 (fm : FMod) (d : Dst) (a : Src)
  | fsin (fm : FMod) (d : Dst) (a : Src)
  | fcos (fm : FMod) (d : Dst) (a : Src)
  | ftanh (fm : FMod) (d : Dst) (a : Src)
  | transcendentalLanding (g k : Nat)
  -- Memory forms (R224 to R245) and clause fetch (R242)
  | ld (ty : LdTy) (sc : Scope) (acq : Bool) (d : Dst) (mem : MemOp)
  | loadLanding (g k : Nat)
  | st (ty : StTy) (sc : Scope) (rel : Bool) (x : Src) (mem : MemOp)
  | atom (op : AtOp) (wide : Bool) (sc : Scope) (o : Order) (d : Dst) (mem : MemOp)
  | red (op : AtOp) (wide : Bool) (sc : Scope) (rel : Bool) (x : Src) (mem : MemOp)
  | fence (sc : Scope) (o : Order)
  | bpref (x : Nat) (mem : MemOp)
  | bprefDone (k : Nat)
  | cflush (sc : Scope) (mem : MemOp)
  | cinv (sc : Scope) (mem : MemOp)
  | ipref (n : Nat) (mem : MemOp)
  | clauseFetch (g p : Nat)
  | instructionFill (core line : Nat)
  -- Accumulator, matrix and stream forms (R251 to R268)
  | accw (o a n c : Nat)
  | accr (o a n c : Nat)
  | accrLanding (g k : Nat)
  | accz (o n c : Nat)
  | mfmt (d b : Nat) (k : BitVec 9)
  | mma (reuse z : Bool) (o a d h j : Nat)
  | mmaAd (reuse z : Bool) (o a d h j i : Nat)
  | mmaUpdate (g k : Nat)
  | sopen (d r w h : Nat)
  | sadv (h n : Nat)
  | sclose (h : Nat)
  | sstat (d h : Nat)
  | slotFetch (g h j : Nat)
  -- Adapter forms (R282 to R289)
  | adbind (b n : Nat)
  | adfetchP (x : Nat)
  | adfetchQ (x : Nat)
  | adapply (o i n : Nat)
  | adstat (sel : AdSel) (clr : Bool) (d : Nat)
  | adstatLanding (g k : Nat)
  | adinvId (x : Nat)
  | adinvGen (x : Nat)
  | adinvAll
  | adapterFill (k : Nat)
  -- Control forms (R171 to R179, R81)
  | bra (c : BrCond) (off : BitVec 32)
  | brp (np : Bool) (x : Src) (off : BitVec 32)
  | mjoin (off : BitVec 32)
  | join
  | regang
  | call (l f8 : Nat) (off : BitVec 32)
  | calli (l t f8 : Nat)
  | ret (t f8 : Nat)
  | exit
  | suspend (c v e p : Nat)
  | yield
  | trap (code : BitVec 24)
  | brk (code : BitVec 24)
  | nop
  | rgn (i : BitVec 24)
  -- The spill handler's events (R76, R318)
  | spill (g : Nat)
  | fill (g : Nat)
  | deferCapacity (g : Nat)
  -- Deferral (R310 to R315)
  | dmodeOn
  | dmodeOff
  | drain
  | defer (w : DWord)
  | closureRun (g : Nat)
  -- Work creation (R323 to R337)
  | spawn (e p : Nat)
  | binTimer (region bin : Nat)
  | launch (d p q : Nat)
  | launchChild (d p q : Nat)
  | launchPacketRead (l : Nat)
  | graphNode (l : Nat)
  | gridComplete (l : Nat)
  -- Scheduling events (R341 to R352)
  | dispatchStep
  | ageStep (ctx : Nat)
  | serviceTick
  | energyWindow
  | actmaxUpdate (region : Nat) (temp : Int)
  | activeSetSwap (core part : Nat)
  -- Block transfers (R354 to R369)
  | cpy (d a : Nat)
  | cpyl (d a : Nat)
  | copyComplete (k : Nat)
  | cbatch (d : Nat)
  | cwait (d : Dst) (n : Src)
  -- Barriers, event counters and clocks (R423 to R428)
  | bar
  | barc
  | arrive
  | evinc (d c v : Nat)
  | evincI (d c : Nat) (n : BitVec 24)
  | evset (d c v : Nat)
  | evrd (d c : Nat)
  | clk (d : Nat)
  | clkNs (d : Nat)
  -- System forms (R379 to R399, R408, R446)
  | dcreate (d p : Nat)
  | dgrant (d c v kind : Nat)
  | dtake (d c v kind : Nat)
  | dfreeze (d c : Nat)
  | dthaw (d c : Nat)
  | dckptSave (d c a l : Nat)
  | dckptLoad (d a l : Nat)
  | drevoke (d c : Nat)
  | dsnapOpen (d c a : Nat)
  | dsnapClose (d c : Nat)
  | xinv (a l : Nat)
  | xinvAll
  | keygen (d : Nat)
  | keykill (d x : Nat)
  | hqpop (d : Nat)
  | hqdoneResume (d r : Nat)
  | hqdoneKill (d r : Nat)
  | hqdoneRedirect (d r m : Nat)
  | sysr (d a : Nat)
  | sysw (d a v : Nat)
  | hctl (d a v : Nat)
  | qreset (d a v : Nat)
  | debugWordWrite (d a v : Nat)
  -- mbox by the command it submits (R446, R447)
  | resume (d a b c : Nat) (tag : BitVec 24)
  | step (d a b c : Nat) (tag : BitVec 24)
  | halt (d a b c : Nat) (tag : BitVec 24)
  | rdreg (d a b c : Nat) (tag : BitVec 24)
  | wrreg (d a b c : Nat) (tag : BitVec 24)
  | dump (d a b c : Nat) (tag : BitVec 24)
  -- Hub, ladder, stack, link and system events
  | handlerRecord (k : Nat)
  | headAdvanceSeen (r : RingRef)
  | dusk (core ctx : Nat)
  | cohortEvict (coh : Nat)
  | grace (core ctx : Nat)
  | midnight (core ctx : Nat)
  | uncorrectableError (at_ : ErrSite)
  | poisonNotice (sector : Nat)
  | scrub (stack : Nat) (atom : ScrubAtom)
  | refresh (stack chan : Nat)
  | toggleWindowEnd (stack chan : Nat)
  | gangingChange (region : Nat) (ganged : Bool)
  | linkReplay (l : Nat)
  | linkDown (l : Nat)
  | hostLaunch (fn : Nat)
  | hostSysr (fn : Nat)
  | hostSysw (fn : Nat)
  | functionLevelReset (fn : Nat)
  | boot
  | recoveryImage
  | nonce (n : DWord)
  | replan (region margin : Nat) (unsafeCores : List Nat)
  | clockThrottle (down : Bool)
  | sample (core part : Nat)
  | traceFlush (l : Nat)
  | rplctl (d a v : Nat)
  | writePerformed (g k : Nat)
  | linkTrained (l peer : Nat)
  deriving DecidableEq, Repr, Inhabited

end Sys2Proof
end

