-- ==== Sys2Proof/WellFormed.lean ====
section
/-! DEFINITION. Which operands each instruction form admits (R53, R54, R94, R95, R108, R113, R143, R153, R156, R232 to
R236, R251 and the encodings of the other chapters). What depends on the group's window W is checked at issue. -/

namespace Sys2Proof

/-- A source that any vector form admits: a v register, latch, s register or immediate (R54). -/
def Src.plain : Src → Bool
  | .v n => n < 1536
  | .b n => n < 8
  | .s n => n < 64
  | .imm _ => true
  | .m _ => false
  | .idn _ => false

/-- A source of a uniform instruction: an s register or an immediate (R94). -/
def Src.uni : Src → Bool
  | .s n => n < 64
  | .imm _ => true
  | _ => false

/-- A source of 32 or 64 bits in a vector form: no odd v register and no latch in a 64-bit position (R54). -/
def Src.vec (wide : Bool) : Src → Bool
  | .v n => n < 1536 && (!wide || n % 2 == 0)
  | .b n => n < 8 && !wide
  | .s n => n < 64
  | .imm _ => true
  | _ => false

/-- A source of a form that is uniform or vector by its destination (R94). -/
def Src.arg (uniform wide : Bool) (x : Src) : Bool := if uniform then x.uni else x.vec wide

/-- A v, s or suppressed destination (R54, R95). -/
def Dst.vs (wide : Bool) : Dst → Bool
  | .v n => n < 1536 && (!wide || n % 2 == 0)
  | .s n => n < 64
  | .m _ => false
  | .off => true

/-- A v or suppressed destination. -/
def Dst.vOnly (wide : Bool) : Dst → Bool
  | .v n => n < 1536 && (!wide || n % 2 == 0)
  | .off => true
  | _ => false

/-- An m, s or suppressed destination (icmp, fcmp; R95, R143). -/
def Dst.ms : Dst → Bool
  | .m n => n < 16
  | .s n => n < 64
  | .off => true
  | .v _ => false

/-- A uniform form is one whose destination is an s register (R36). -/
def Dst.isS : Dst → Bool
  | .s _ => true
  | _ => false

/-- The index of a memory operand (R33): a vector form admits any plain source, a uniform one an s register or an
immediate (R94). -/
def MemOp.ok (uniform : Bool) (m : MemOp) : Bool :=
  m.base < 64 && m.scale < 4 && (if uniform then m.index.uni else m.index.plain)

/-- A source modifier that the form does not read is zero (R142). -/
def FMod.onlyA (f : FMod) : Bool := !f.negB && !f.absB

/-- A 64-bit integer type (R153). -/
def CTy.wide : CTy → Bool
  | .s64 | .n64 => true
  | _ => false

/-- An integer type. -/
def CTy.isInt : CTy → Bool
  | .s8 | .s16 | .s32 | .s64 | .n8 | .n16 | .n32 | .n64 => true
  | _ => false

/-- Element registers of a block (R132, R156). -/
def TsFmt.regs : TsFmt → Nat
  | .ts4 => 4
  | .ts8 => 8
  | .ts12 => 12

/-- The 8-bit formats of fpack take a c source (R160). -/
def PkFmt.narrow : PkFmt → Bool
  | .e4m3 | .e5m2 => true
  | _ => false

/-- An integer vector of 24 bits that is zero above bit n (R110). -/
def immFits (i : BitVec 24) (n : Nat) : Bool := i.toNat < 2 ^ n

/-- The m source of mov (R108) and of vote (R116). -/
def Src.isM : Src → Bool
  | .m n => n < 16
  | _ => false

/-- mov's table of source and destination kinds (R108). -/
def movOk (wide : Bool) (d : Dst) (a : Src) : Bool :=
  match d with
  | .s n => n < 64 && (a.uni || (a.isM && !wide))
  | .m n => n < 16 && !wide && (a.plain || a.isM)
  | _ => d.vOnly wide && (a.vec wide || (a.isM && !wide))

/-- mov.getv: an s destination takes the uniform names only (R109). -/
def getvOk (d : Dst) (i : IdName) : Bool :=
  match d with
  | .s n => n < 64 && i != .lane && i != .quad
  | _ => d.vOnly false

/-- The data register of an ld (R232). -/
def ldDst (ty : LdTy) (d : Dst) : Bool :=
  match d with
  | .v n =>
    n < 1536 &&
      (match ty with
       | .b64 => n % 2 == 0
       | .b128 => n % 4 == 0
       | _ => true)
  | .s n => n < 64 && ty != .b128
  | _ => false

/-- The data of a st (R233). -/
def stSrc (ty : StTy) (x : Src) : Bool :=
  match ty with
  | .b128 => match x with
    | .v n => n < 1536 && n % 4 == 0
    | _ => false
  | .b64 => x.vec true
  | _ => x.plain

/-- The register of an atom (R235). -/
def atomReg (op : AtOp) (wide : Bool) (d : Dst) : Bool :=
  match d with
  | .v n =>
    n < 1536 &&
      (match op, wide with
       | .cas, true => n % 4 == 0
       | .cas, false => n % 2 == 0
       | _, true => n % 2 == 0
       | _, false => true)
  | .s n => if op = .cas then n ≤ 62 else n < 64
  | _ => false

/-- An operand that bra.nz and bra.z test (R171). -/
def braSrc (x : Src) : Bool :=
  match x with
  | .v n => n < 1536
  | .b n => n < 8
  | .s n => n < 64
  | _ => false

/-- A register that brp tests (R172). -/
def brpSrc (x : Src) : Bool :=
  match x with
  | .v n => n < 1536
  | .s n => n < 64
  | _ => false

/-- A form that encodes as an instruction word; the others are events of the table. -/
def Instr.isWord : Instr → Bool
  | .lgetLanding .. | .transcendentalLanding .. | .loadLanding .. | .bprefDone .. | .clauseFetch ..
  | .instructionFill .. | .accrLanding .. | .mmaUpdate .. | .slotFetch .. | .adstatLanding .. | .adapterFill ..
  | .spill .. | .fill .. | .deferCapacity .. | .defer .. | .closureRun .. | .binTimer .. | .launchPacketRead ..
  | .graphNode .. | .gridComplete .. | .dispatchStep | .ageStep .. | .serviceTick | .energyWindow
  | .actmaxUpdate .. | .activeSetSwap .. | .copyComplete .. | .hctl .. | .qreset .. | .debugWordWrite ..
  | .step .. | .halt .. | .rdreg .. | .wrreg .. | .dump .. | .handlerRecord .. | .headAdvanceSeen .. | .dusk ..
  | .cohortEvict .. | .grace .. | .midnight .. | .uncorrectableError .. | .poisonNotice .. | .scrub .. | .refresh ..
  | .toggleWindowEnd .. | .gangingChange .. | .linkReplay .. | .linkDown .. | .hostLaunch .. | .hostSysr ..
  | .hostSysw .. | .functionLevelReset .. | .boot | .recoveryImage | .nonce .. | .replan .. | .clockThrottle ..
  | .sample .. | .traceFlush .. | .rplctl .. | .writePerformed .. | .linkTrained .. => false
  | _ => true

/-- The operands that each form admits. An event is well formed whatever it names. -/
def Instr.wf : Instr → Bool
  | .iadd mo d a b | .isub mo d a b | .imul mo d a b =>
    d.vs mo.wide && a.arg d.isS mo.wide && b.arg d.isS mo.wide
  | .imulh w _ d a b | .imin w _ d a b | .imax w _ d a b => d.vs w && a.arg d.isS w && b.arg d.isS w
  | .imad mo d a b c => d.vs mo.wide && a.arg d.isS mo.wide && b.arg d.isS mo.wide && c.arg d.isS mo.wide
  | .iabs mo d a | .ineg mo d a => d.vs mo.wide && a.arg d.isS mo.wide
  | .idp4 _ _ d a b c => d.vs false && a.arg d.isS false && b.arg d.isS false && c.arg d.isS false
  | .and w d a b | .or w d a b | .xor w d a b | .andn w d a b | .orn w d a b =>
    d.vs w && a.arg d.isS w && b.arg d.isS w
  | .shl w d a b | .shr w d a b | .sar w d a b | .rot w d a b => d.vs w && a.arg d.isS w && b.arg d.isS false
  | .shf _ w d a b c => d.vs w && a.arg d.isS w && b.arg d.isS w && c.arg d.isS false
  | .bfx w _ d a b c => d.vs w && a.arg d.isS w && b.arg d.isS false && c.arg d.isS false
  | .bfi w d a b c => d.vs w && a.arg d.isS w && b.arg d.isS w && c.arg d.isS false
  | .popc w d a | .clz w d a | .ctz w d a | .brev w d a => d.vs w && a.arg d.isS w
  | .perm d a b c => d.vs false && a.arg d.isS false && b.arg d.isS false && c.arg d.isS false
  | .icmp _ w _ d a b => d.ms && a.arg d.isS w && b.arg d.isS w
  | .sel w d a b c =>
    d.vs w && a.arg d.isS w && b.arg d.isS w && (if d.isS then c.uni else c.isM)
  | .mov w _ d a => movOk w d a
  | .movGetv d i => getvOk d i
  | .movi w _ d _ => d.vs w
  | .moviH1 w _ d i => d.vs w && (w || immFits i 8)
  | .moviH2 _ d i => d.vs true && immFits i 16
  | .lea w d mem => d.vs w && mem.ok d.isS
  | .qxch _ w d a => d.vOnly w && a.vec w
  | .qbc w d a b => d.vOnly w && a.vec w && b.plain
  | .shfl _ w d a b | .shflx _ w d a b | .shflup _ w d a b | .shfldn _ w d a b => d.vOnly w && a.vec w && b.plain
  | .vote _ d a =>
    (match d with
     | .m n => n < 16
     | _ => d.vs false) && (a.plain || a.isM)
  | .gred _ w _ d a => d.vs w && a.vec w
  | .gscan _ _ w _ d a => d.vOnly w && a.vec w
  | .lget w d a b => (Src.v d).vec w && (Src.v a).vec w && b.plain
  | .lput w a b c => (Src.v a).vec w && b.plain && c.vec w
  | .fadd _ _ d a b | .fmul _ _ d a b | .fmin _ d a b | .fmax _ d a b =>
    d.vs false && a.arg d.isS false && b.arg d.isS false
  | .fma _ _ d a b c => d.vs false && a.arg d.isS false && b.arg d.isS false && c.arg d.isS false
  | .fdp2 _ fm d a b c =>
    d.vs false && a.arg d.isS false && b.arg d.isS false && c.arg d.isS false && fm.ty != .f32 &&
      (match a, b with
       | .imm _, _ => false
       | _, .imm _ => false
       | _, _ => true)
  | .frnd _ fm d a => d.vs false && a.arg d.isS false && fm.onlyA
  | .fcmp _ _ d a b => d.ms && a.arg d.isS false && b.arg d.isS false
  | .cvt _ sat dt sf d a =>
    d.vs dt.wide && a.arg d.isS sf.wide && (!sat || dt.isInt == sf.isInt)
  | .quant f d sp a => d + f.regs ≤ 1536 && sp < 1536 && a + 32 ≤ 1536 && !(d ≤ sp && sp < d + f.regs)
  | .dequant f d a sp => d + 32 ≤ 1536 && a + f.regs ≤ 1536 && sp < 1536
  | .fpack f _ d a b c =>
    d.vs false && a.arg d.isS false && b.arg d.isS false && (if f.narrow then c.arg d.isS false else c = .v 0)
  | .fpackFlags d a => d.vs false && a.uni
  | .fsqrt _ fm d a => d.vOnly false && a.plain && fm.onlyA
  | .frcp fm d a | .frsq fm d a | .fex2 fm d a | .flg2 fm d a | .fsin fm d a | .fcos fm d a | .ftanh fm d a =>
    d.vOnly false && a.plain && fm.onlyA && fm.ty = .f32
  | .ld ty _ _ d mem => ldDst ty d && mem.ok d.isS
  | .st ty _ _ x mem => stSrc ty x && mem.ok false
  | .atom op w _ _ d mem => atomReg op w d && mem.ok d.isS
  | .red op w _ _ x mem => op != .exch && op != .cas && x.vec w && mem.ok false
  | .fence _ _ => true
  | .bpref x mem => x < 64 && mem.ok true
  | .cflush _ mem | .cinv _ mem => mem.ok false
  | .ipref n mem => 1 ≤ n && n ≤ 8 && mem.ok true
  | .accw o a n c | .accr o a n c => o < 64 && a + n ≤ 1536 && 1 ≤ n && n ≤ 16 && c + n ≤ 32
  | .accz o n c => o < 64 && 1 ≤ n && n ≤ 16 && c + n ≤ 32
  | .mfmt d b _ => d < 8 && b < 64
  | .mma _ _ o a d h j => o < 64 && a < 1536 && d < 8 && h < 4 && j < 8
  | .mmaAd _ _ o a d h j i => o < 64 && a < 1536 && d < 8 && h < 4 && j < 8 && i < 1536
  | .sopen d r w h => d < 64 && r < 64 && 1 ≤ w && w ≤ 8 && h < 4
  | .sadv h n => h < 4 && 1 ≤ n && n ≤ 8
  | .sclose h => h < 4
  | .sstat d h => d < 64 && h < 4
  | .adbind b n => b < 64 && n < 64
  | .adfetchP x | .adfetchQ x => x < 64
  | .adapply o i n => o < 64 && i < 1536 && n < 64
  | .adstat _ _ d => d < 64
  | .adinvId x | .adinvGen x => x < 64
  | .bra c _ =>
    (match c with
     | .al => true
     | .m n | .nm n => n < 16
     | .nz x | .z x => braSrc x)
  | .brp _ x _ => brpSrc x
  | .call l f8 _ => l < 64 && 1 ≤ f8 && f8 ≤ 192
  | .calli l t f8 => l < 64 && t < 64 && 1 ≤ f8 && f8 ≤ 192
  | .ret t f8 => t < 64 && 1 ≤ f8 && f8 ≤ 192
  | .suspend c v e p => c < 64 && v < 64 && e < 64 && p + 13 < 1536
  | .spawn e p => e < 64 && p + 13 < 1536
  | .launch d p q | .launchChild d p q => d < 64 && p < 64 && q < 64
  | .cpy d a | .cpyl d a => d < 64 && 1 ≤ a && a ≤ 60
  | .cbatch d => d < 64
  | .cwait d n =>
    (match d with
     | .s k => k < 64
     | .off => true
     | _ => false) && n.uni
  | .evinc d c v | .evset d c v => d < 64 && c < 64 && v < 64
  | .evincI d c _ | .evrd d c => d < 64 && c < 64
  | .clk d | .clkNs d => d < 64
  | .dcreate d p => d < 64 && p < 64
  | .dgrant d c v k | .dtake d c v k => d < 64 && c < 64 && v < 64 && k ≤ 10
  | .dfreeze d c | .dthaw d c | .drevoke d c | .dsnapClose d c => d < 64 && c < 64
  | .dckptSave d c a l => d < 64 && c < 64 && a < 64 && l < 64
  | .dckptLoad d a l => d < 64 && a < 64 && l < 64
  | .dsnapOpen d c a => d < 64 && c < 64 && a < 64
  | .xinv a l => a < 64 && l < 64
  | .keygen d | .hqpop d => d < 64
  | .keykill d x => d < 64 && x < 64
  | .hqdoneResume d r | .hqdoneKill d r => d < 64 && r < 64
  | .hqdoneRedirect d r m => d < 64 && r < 64 && m < 64
  | .sysr d a => 1 ≤ d && d ≤ 62 && a < 64
  | .sysw d a v | .hctl d a v | .qreset d a v | .debugWordWrite d a v | .rplctl d a v => d < 64 && a < 64 && v < 64
  | .resume d a b c _ | .step d a b c _ | .halt d a b c _ | .rdreg d a b c _ | .wrreg d a b c _
  | .dump d a b c _ => d < 64 && a < 64 && b < 64 && c < 64
  | .lgetLanding .. | .transcendentalLanding .. | .loadLanding .. | .bprefDone .. | .clauseFetch ..
  | .instructionFill .. | .accrLanding .. | .mmaUpdate .. | .slotFetch .. | .adstatLanding .. | .adapterFill ..
  | .spill .. | .fill .. | .deferCapacity .. | .defer .. | .closureRun .. | .binTimer .. | .launchPacketRead ..
  | .graphNode .. | .gridComplete .. | .dispatchStep | .ageStep .. | .serviceTick | .energyWindow
  | .actmaxUpdate .. | .activeSetSwap .. | .copyComplete .. | .handlerRecord .. | .headAdvanceSeen .. | .dusk ..
  | .cohortEvict .. | .grace .. | .midnight .. | .uncorrectableError .. | .poisonNotice .. | .scrub .. | .refresh ..
  | .toggleWindowEnd .. | .gangingChange .. | .linkReplay .. | .linkDown .. | .hostLaunch .. | .hostSysr ..
  | .hostSysw .. | .functionLevelReset .. | .boot | .recoveryImage | .nonce .. | .replan .. | .clockThrottle ..
  | .sample .. | .traceFlush .. | .writePerformed .. | .linkTrained .. => true
  | .adinvAll | .mjoin _ | .join | .regang | .exit | .yield | .trap _ | .brk _ | .nop | .rgn _ | .dmodeOn
  | .dmodeOff | .drain | .bar | .barc | .arrive | .xinvAll => true

end Sys2Proof
end

