-- ==== Sys2Proof/Decode.lean ====
section
/-! DEFINITION. The decoder of instruction words and the encoder beside it, from the formats of R51, the selectors of
R31 and R54, the mod layouts of R56 and the opcode map of R58 to R60. -/

namespace Sys2Proof

/-! ### Formats (R51) -/

/-- Opcode and mod field in bits [63:48]. -/
def packTop (op md : Nat) : Nat := op * 2 ^ 54 + md * 2 ^ 48
/-- T format. -/
def packT (op md d a b c : Nat) : Nat := packTop op md + d * 2 ^ 36 + a * 2 ^ 24 + b * 2 ^ 12 + c
/-- I format. -/
def packI (op md d a imm : Nat) : Nat := packTop op md + d * 2 ^ 36 + a * 2 ^ 24 + imm
/-- M format. -/
def packM (op md data base index scale off : Nat) : Nat :=
  packTop op md + data * 2 ^ 36 + base * 2 ^ 30 + index * 2 ^ 18 + scale * 2 ^ 16 + off
/-- B format. -/
def packB (op md mask sel off : Nat) : Nat := packTop op md + mask * 2 ^ 44 + sel * 2 ^ 32 + off
/-- X format. -/
def packX (op md sx va sy dr vb imm9 : Nat) : Nat :=
  packTop op md + sx * 2 ^ 42 + va * 2 ^ 30 + sy * 2 ^ 24 + dr * 2 ^ 21 + vb * 2 ^ 9 + imm9
/-- S format. -/
def packS (op md sd sa sb sc imm : Nat) : Nat :=
  packTop op md + sd * 2 ^ 42 + sa * 2 ^ 36 + sb * 2 ^ 30 + sc * 2 ^ 24 + imm

/-- The opcode of a word. -/
def opOf (w : Nat) : Nat := fld w 54 10
/-- The mod field of a word. -/
def modOf (w : Nat) : Nat := fld w 48 6

/-! ### Selectors (R31, R54) -/

/-- The identity names' codes above 0x660 (R71). -/
def IdName.code : IdName → Nat
  | .lane => 0 | .quad => 1 | .group => 2 | .wg => 3 | .coh => 4
  | .grid => 5 | .core => 6 | .region => 7 | .ctx => 8 | .clk => 9

def IdName.ofCode : Nat → Option IdName
  | 0 => some .lane | 1 => some .quad | 2 => some .group | 3 => some .wg | 4 => some .coh
  | 5 => some .grid | 6 => some .core | 7 => some .region | 8 => some .ctx | 9 => some .clk
  | _ => none

/-- The 12-bit selector of a source. -/
def Src.code : Src → Nat
  | .v n => n
  | .b n => 0x600 + n
  | .s n => 0x610 + n
  | .m n => 0x650 + n
  | .idn i => 0x660 + i.code
  | .imm i => 0x800 + i.toNat

/-- The source that a selector names; the codes that R54 refuses in any field name none. -/
def Src.ofCode (c : Nat) : Option Src :=
  if c < 0x600 then some (.v c)
  else if c < 0x608 then some (.b (c - 0x600))
  else if c < 0x610 then none
  else if c < 0x650 then some (.s (c - 0x610))
  else if c < 0x660 then some (.m (c - 0x650))
  else if c < 0x680 then (IdName.ofCode (c - 0x660)).map .idn
  else if c < 0x800 then none
  else if c < 0x1000 then some (.imm (BitVec.ofNat 11 (c - 0x800)))
  else none

/-- The 12-bit selector of a destination. -/
def Dst.code : Dst → Nat
  | .v n => n
  | .s n => 0x610 + n
  | .m n => 0x650 + n
  | .off => 0x800

/-- The destination that a selector names (R54). -/
def Dst.ofCode (c : Nat) : Option Dst :=
  if c < 0x600 then some (.v c)
  else if c < 0x610 then none
  else if c < 0x650 then some (.s (c - 0x610))
  else if c < 0x660 then some (.m (c - 0x650))
  else if c = 0x800 then some .off
  else none

/-! ### Suffix codes (R56 to R58, R95, R113, R156, R159) -/

def Rm.code : Rm → Nat
  | .rne => 0 | .rz => 1 | .rup => 2 | .rdn => 3 | .rna => 4
def Rm.ofCode : Nat → Option Rm
  | 0 => some .rne | 1 => some .rz | 2 => some .rup | 3 => some .rdn | 4 => some .rna
  | _ => none

def FTy.code : FTy → Nat
  | .f32 => 0 | .f16 => 1 | .bf16 => 2
def FTy.ofCode : Nat → Option FTy
  | 0 => some .f32 | 1 => some .f16 | 2 => some .bf16
  | _ => none

def FCond.code : FCond → Nat
  | .eq => 0 | .ne => 1 | .lt => 2 | .le => 3 | .gt => 4 | .ge => 5 | .num => 6 | .nan => 7
def FCond.ofCode : Nat → Option FCond
  | 0 => some .eq | 1 => some .ne | 2 => some .lt | 3 => some .le
  | 4 => some .gt | 5 => some .ge | 6 => some .num | 7 => some .nan
  | _ => none

def ICond.code : ICond → Nat
  | .eq => 0 | .ne => 1 | .lt => 2 | .le => 3 | .gt => 4 | .ge => 5
def ICond.ofCode : Nat → Option ICond
  | 0 => some .eq | 1 => some .ne | 2 => some .lt | 3 => some .le | 4 => some .gt | 5 => some .ge
  | _ => none

def Scope.code : Scope → Nat
  | .qd => 0 | .gp => 1 | .wg => 2 | .co => 3 | .cx => 4 | .sy => 5
def Scope.ofCode : Nat → Option Scope
  | 0 => some .qd | 1 => some .gp | 2 => some .wg | 3 => some .co | 4 => some .cx | 5 => some .sy
  | _ => none

def Order.code : Order → Nat
  | .rlx => 0 | .acq => 1 | .rel => 2 | .ar => 3
def Order.ofCode : Nat → Option Order
  | 0 => some .rlx | 1 => some .acq | 2 => some .rel | 3 => some .ar
  | _ => none

def LdTy.code : LdTy → Nat
  | .s8 => 0 | .n8 => 1 | .s16 => 2 | .n16 => 3 | .b32 => 4 | .b64 => 5 | .b128 => 6
def LdTy.ofCode : Nat → Option LdTy
  | 0 => some .s8 | 1 => some .n8 | 2 => some .s16 | 3 => some .n16 | 4 => some .b32 | 5 => some .b64
  | 6 => some .b128
  | _ => none

def StTy.code : StTy → Nat
  | .b8 => 0 | .b16 => 2 | .b32 => 4 | .b64 => 5 | .b128 => 6
def StTy.ofCode : Nat → Option StTy
  | 0 => some .b8 | 2 => some .b16 | 4 => some .b32 | 5 => some .b64 | 6 => some .b128
  | _ => none

def AtOp.code : AtOp → Nat
  | .add => 0 | .and => 1 | .or => 2 | .xor => 3 | .exch => 4 | .cas => 5 | .mins => 6 | .maxs => 7
  | .minu => 8 | .maxu => 9
def AtOp.ofCode : Nat → Option AtOp
  | 0 => some .add | 1 => some .and | 2 => some .or | 3 => some .xor | 4 => some .exch | 5 => some .cas
  | 6 => some .mins | 7 => some .maxs | 8 => some .minu | 9 => some .maxu
  | _ => none

/-- Type codes of R57 for the types of cvt. -/
def CTy.code : CTy → Nat
  | .s8 => 0x05 | .s16 => 0x06 | .s32 => 0x07 | .s64 => 0x08 | .n8 => 0x09 | .n16 => 0x0A | .n32 => 0x0B
  | .n64 => 0x0C | .f32 => 0x0D | .f16 => 0x0E | .bf16 => 0x0F | .e4m3 => 0x10 | .e5m2 => 0x11
def CTy.ofCode : Nat → Option CTy
  | 0x05 => some .s8 | 0x06 => some .s16 | 0x07 => some .s32 | 0x08 => some .s64 | 0x09 => some .n8
  | 0x0A => some .n16 | 0x0B => some .n32 | 0x0C => some .n64 | 0x0D => some .f32 | 0x0E => some .f16
  | 0x0F => some .bf16 | 0x10 => some .e4m3 | 0x11 => some .e5m2
  | _ => none

def TsFmt.code : TsFmt → Nat
  | .ts4 => 0 | .ts8 => 1 | .ts12 => 2
def TsFmt.ofCode : Nat → Option TsFmt
  | 0 => some .ts4 | 1 => some .ts8 | 2 => some .ts12
  | _ => none

def PkFmt.code : PkFmt → Nat
  | .f16 => 0 | .bf16 => 1 | .e4m3 => 2 | .e5m2 => 3
def PkFmt.ofCode : Nat → Option PkFmt
  | 0 => some .f16 | 1 => some .bf16 | 2 => some .e4m3 | 3 => some .e5m2
  | _ => none

def QPat.code : QPat → Nat
  | .x1 => 0 | .x2 => 1 | .x3 => 2 | .r1 => 3
def QPat.ofCode : Nat → Option QPat
  | 0 => some .x1 | 1 => some .x2 | 2 => some .x3 | 3 => some .r1
  | _ => none

def ShW.code : ShW → Nat
  | .w32 => 0 | .w16 => 1 | .w8 => 2 | .w4 => 3 | .w2 => 4
def ShW.ofCode : Nat → Option ShW
  | 0 => some .w32 | 1 => some .w16 | 2 => some .w8 | 3 => some .w4 | 4 => some .w2
  | _ => none

def VoteOp.code : VoteOp → Nat
  | .any => 0 | .all => 1 | .ballot => 2 | .eq => 3
def VoteOp.ofCode : Nat → Option VoteOp
  | 0 => some .any | 1 => some .all | 2 => some .ballot | 3 => some .eq
  | _ => none

def RedOp.code : RedOp → Nat
  | .add => 0 | .min => 1 | .max => 2 | .and => 3 | .or => 4 | .xor => 5
def RedOp.ofCode : Nat → Option RedOp
  | 0 => some .add | 1 => some .min | 2 => some .max | 3 => some .and | 4 => some .or | 5 => some .xor
  | _ => none

def AdSel.code : AdSel → Nat
  | .m => 0 | .f => 1 | .n => 2
def AdSel.ofCode : Nat → Option AdSel
  | 0 => some .m | 1 => some .f | 2 => some .n
  | _ => none

/-- The integer layout (R56). -/
def intMod (wide signed sat : Bool) (op : Nat) : Nat :=
  wide.toNat * 32 + signed.toNat * 16 + sat.toNat * 8 + op
/-- The float layout (R56). -/
def FMod.code (f : FMod) : Nat :=
  f.ty.code * 16 + f.negA.toNat * 8 + f.absA.toNat * 4 + f.negB.toNat * 2 + f.absB.toNat
def FMod.ofCode (md : Nat) : Option FMod := do
  let ty ← FTy.ofCode (md / 16)
  pure ⟨ty, bitAt md 3, bitAt md 2, bitAt md 1, bitAt md 0⟩
/-- The memory layout (R56). -/
def memMod (sc : Scope) (o : Order) (wide : Bool) : Nat := sc.code * 8 + o.code * 2 + wide.toNat

/-! ### The encoder -/

def encT (op md : Nat) (d : Dst) (a b c : Nat) : Nat := packT op md d.code a b c
def encM (op md data : Nat) (m : MemOp) : Nat := packM op md data m.base m.index.code m.scale m.off.toNat

/-- The word of a well-formed instruction form; an event has none. (DEDUCED, log 15) -/
def encode : Instr → Option Nat
  | .iadd mo d a b => some (encT 0x000 (intMod mo.wide mo.signed mo.sat 0) d a.code b.code 0)
  | .isub mo d a b => some (encT 0x001 (intMod mo.wide mo.signed mo.sat 0) d a.code b.code 0)
  | .imul mo d a b => some (encT 0x002 (intMod mo.wide mo.signed mo.sat 0) d a.code b.code 0)
  | .imulh w sg d a b => some (encT 0x003 (intMod w sg false 0) d a.code b.code 0)
  | .imad mo d a b c => some (encT 0x004 (intMod mo.wide mo.signed mo.sat 0) d a.code b.code c.code)
  | .iabs mo d a => some (encT 0x005 (intMod mo.wide mo.signed mo.sat 0) d a.code 0 0)
  | .ineg mo d a => some (encT 0x006 (intMod mo.wide mo.signed mo.sat 0) d a.code 0 0)
  | .imin w sg d a b => some (encT 0x007 (intMod w sg false 0) d a.code b.code 0)
  | .imax w sg d a b => some (encT 0x008 (intMod w sg false 0) d a.code b.code 0)
  | .idp4 sg sat d a b c => some (encT 0x009 (intMod false sg sat 0) d a.code b.code c.code)
  | .and w d a b => some (encT 0x00A (intMod w false false 0) d a.code b.code 0)
  | .or w d a b => some (encT 0x00B (intMod w false false 0) d a.code b.code 0)
  | .xor w d a b => some (encT 0x00C (intMod w false false 0) d a.code b.code 0)
  | .andn w d a b => some (encT 0x00D (intMod w false false 0) d a.code b.code 0)
  | .orn w d a b => some (encT 0x00E (intMod w false false 0) d a.code b.code 0)
  | .shl w d a b => some (encT 0x00F (intMod w false false 0) d a.code b.code 0)
  | .shr w d a b => some (encT 0x010 (intMod w false false 0) d a.code b.code 0)
  | .sar w d a b => some (encT 0x011 (intMod w false false 0) d a.code b.code 0)
  | .rot w d a b => some (encT 0x012 (intMod w false false 0) d a.code b.code 0)
  | .shf left w d a b c => some (encT 0x013 (intMod w false false left.toNat) d a.code b.code c.code)
  | .bfx w sg d a b c => some (encT 0x014 (intMod w sg false 0) d a.code b.code c.code)
  | .bfi w d a b c => some (encT 0x015 (intMod w false false 0) d a.code b.code c.code)
  | .popc w d a => some (encT 0x016 (intMod w false false 0) d a.code 0 0)
  | .clz w d a => some (encT 0x017 (intMod w false false 0) d a.code 0 0)
  | .ctz w d a => some (encT 0x018 (intMod w false false 0) d a.code 0 0)
  | .brev w d a => some (encT 0x019 (intMod w false false 0) d a.code 0 0)
  | .perm d a b c => some (encT 0x01A 0 d a.code b.code c.code)
  | .icmp cc w sg d a b => some (encT 0x01B (intMod w sg false cc.code) d a.code b.code 0)
  | .sel w d a b c => some (encT 0x01C (intMod w false false 0) d a.code b.code c.code)
  | .mov w sg d a => some (encT 0x01D (intMod w sg false 0) d a.code 0 0)
  | .movGetv d i => some (encT 0x01D 1 d (Src.idn i).code 0 0)
  | .movi w sg d i => some (packI 0x01E (intMod w sg false 0) d.code 0 i.toNat)
  | .moviH1 w sg d i => some (packI 0x01E (intMod w sg false 1) d.code 0 i.toNat)
  | .moviH2 sg d i => some (packI 0x01E (intMod true sg false 2) d.code 0 i.toNat)
  | .lea w d mem => some (encM 0x01F (intMod w false false 0) d.code mem)
  | .qxch pat w d a => some (encT 0x020 (w.toNat * 32 + pat.code) d a.code 0 0)
  | .qbc w d a b => some (encT 0x021 (w.toNat * 32) d a.code b.code 0)
  | .shfl sw w d a b => some (encT 0x022 (w.toNat * 32 + sw.code) d a.code b.code 0)
  | .shflx sw w d a b => some (encT 0x023 (w.toNat * 32 + sw.code) d a.code b.code 0)
  | .shflup sw w d a b => some (encT 0x024 (w.toNat * 32 + sw.code) d a.code b.code 0)
  | .shfldn sw w d a b => some (encT 0x025 (w.toNat * 32 + sw.code) d a.code b.code 0)
  | .vote op d a => some (encT 0x026 op.code d a.code 0 0)
  | .gred op w sg d a => some (encT 0x027 (w.toNat * 32 + sg.toNat * 16 + op.code) d a.code 0 0)
  | .gscan op ex w sg d a =>
    some (encT 0x028 (w.toNat * 32 + sg.toNat * 16 + ex.toNat * 8 + op.code) d a.code 0 0)
  | .lget w d a b => some (packT 0x029 (w.toNat * 32) d a b.code 0)
  | .lput w a b c => some (packT 0x02A (w.toNat * 32) 0 a b.code c.code)
  | .fadd rm fm d a b => some (encT (0x040 + rm.code) fm.code d a.code b.code 0)
  | .fmul rm fm d a b => some (encT (0x048 + rm.code) fm.code d a.code b.code 0)
  | .fma rm fm d a b c => some (encT (0x050 + rm.code) fm.code d a.code b.code c.code)
  | .fdp2 rm fm d a b c => some (encT (0x058 + rm.code) fm.code d a.code b.code c.code)
  | .frnd rm fm d a => some (encT (0x060 + rm.code) fm.code d a.code 0 0)
  | .fcmp cc fm d a b => some (encT (0x068 + cc.code) fm.code d a.code b.code 0)
  | .fmin fm d a b => some (encT 0x070 fm.code d a.code b.code 0)
  | .fmax fm d a b => some (encT 0x071 fm.code d a.code b.code 0)
  | .cvt rm sat dt sf d a => some (encT (0x080 + rm.code) (sat.toNat * 32) d a.code 0 (dt.code * 32 + sf.code))
  | .quant f d sp a => some (packT 0x088 (f.code * 16) d a sp 0)
  | .dequant f d a sp => some (packT 0x089 (f.code * 16) d a sp 0)
  | .fpack f rm d a b c => some (encT 0x08A (f.code * 8 + rm.code) d a.code b.code c.code)
  | .fpackFlags d a => some (encT 0x08A 56 d a.code 0 0)
  | .fsqrt rm fm d a => some (encT (0x0C0 + rm.code) fm.code d a.code 0 0)
  | .frcp fm d a => some (encT 0x0C8 fm.code d a.code 0 0)
  | .frsq fm d a => some (encT 0x0C9 fm.code d a.code 0 0)
  | .fex2 fm d a => some (encT 0x0CA fm.code d a.code 0 0)
  | .flg2 fm d a => some (encT 0x0CB fm.code d a.code 0 0)
  | .fsin fm d a => some (encT 0x0CC fm.code d a.code 0 0)
  | .fcos fm d a => some (encT 0x0CD fm.code d a.code 0 0)
  | .ftanh fm d a => some (encT 0x0CE fm.code d a.code 0 0)
  | .ld ty sc acq d mem => some (encM (0x100 + ty.code) (memMod sc (if acq then .acq else .rlx) false) d.code mem)
  | .st ty sc rel x mem => some (encM (0x108 + ty.code) (memMod sc (if rel then .rel else .rlx) false) x.code mem)
  | .atom op w sc o d mem => some (encM (0x110 + op.code) (memMod sc o w) d.code mem)
  | .red op w sc rel x mem => some (encM (0x120 + op.code) (memMod sc (if rel then .rel else .rlx) w) x.code mem)
  | .fence sc o => some (packM 0x130 (memMod sc o false) 0 0 0 0 0)
  | .bpref x mem => some (encM 0x131 0 (Src.s x).code mem)
  | .ipref n mem => some (encM 0x132 0 (0x800 + n) mem)
  | .cflush sc mem => some (encM 0x133 (memMod sc .rlx false) 0 mem)
  | .cinv sc mem => some (encM 0x134 (memMod sc .rlx false) 0 mem)
  | .accw o a n c => some (packX 0x135 0 o a 0 0 0 ((n - 1) * 32 + c))
  | .accr o a n c => some (packX 0x136 0 o a 0 0 0 ((n - 1) * 32 + c))
  | .accz o n c => some (packX 0x137 0 o 0 0 0 0 ((n - 1) * 32 + c))
  | .mfmt d b k => some (packX 0x180 0 b 0 0 d 0 k.toNat)
  | .mma reuse z o a d h j => some (packX 0x181 (z.toNat * 32 + reuse.toNat * 16) o a 0 d 0 (j * 4 + h))
  | .mmaAd reuse z o a d h j i => some (packX 0x181 (z.toNat * 32 + reuse.toNat * 16 + 8) o a 0 d i (j * 4 + h))
  | .sopen d r w h => some (packX 0x182 0 d 0 r 0 0 ((w - 1) * 8 + h))
  | .sadv h n => some (packX 0x183 0 0 0 0 0 0 ((n - 1) * 4 + h))
  | .sclose h => some (packX 0x184 0 0 0 0 0 0 h)
  | .sstat d h => some (packX 0x185 0 d 0 0 0 0 h)
  | .adbind b n => some (packX 0x188 0 b 0 n 0 0 0)
  | .adfetchP x => some (packX 0x189 0 x 0 0 0 0 0)
  | .adfetchQ x => some (packX 0x189 1 x 0 0 0 0 0)
  | .adapply o i n => some (packX 0x18A 0 o 0 n 0 i 0)
  | .adstat sel clr d => some (packX 0x18B (clr.toNat * 16 + sel.code) d 0 0 0 0 0)
  | .adinvId x => some (packX 0x18C 0 x 0 0 0 0 0)
  | .adinvGen x => some (packX 0x18C 1 x 0 0 0 0 0)
  | .adinvAll => some (packX 0x18C 2 0 0 0 0 0 0)
  | .bra c off =>
    some (match c with
      | .al => packB 0x1C0 0 0 0 off.toNat
      | .m n => packB 0x1C0 8 n 0 off.toNat
      | .nm n => packB 0x1C0 16 n 0 off.toNat
      | .nz x => packB 0x1C0 24 0 x.code off.toNat
      | .z x => packB 0x1C0 32 0 x.code off.toNat)
  | .brp np x off => some (packB 0x1C1 (np.toNat * 8) 0 x.code off.toNat)
  | .mjoin off => some (packB 0x1C2 0 0 0 off.toNat)
  | .join => some (packT 0x1C3 0 0 0 0 0)
  | .regang => some (packT 0x1C4 0 0 0 0 0)
  | .call l f8 off => some (packB 0x1C5 l 0 f8 off.toNat)
  | .calli l t f8 => some (packT 0x1C6 0 (0x610 + l) (0x610 + t) (0x800 + f8) 0)
  | .ret t f8 => some (packT 0x1C7 0 0 (0x610 + t) (0x800 + f8) 0)
  | .exit => some (packT 0x1C8 0 0 0 0 0)
  | .suspend c v e p => some (packS 0x1C9 0 0 c v e p)
  | .yield => some (packT 0x1CA 0 0 0 0 0)
  | .trap code => some (packI 0x1CB 0 0 0 code.toNat)
  | .brk code => some (packI 0x1CC 0 0 0 code.toNat)
  | .nop => some (packT 0x1CD 0 0 0 0 0)
  | .rgn i => some (packI 0x1CE 0 0 0 i.toNat)
  | .dmodeOn => some (packT 0x200 1 0 0 0 0)
  | .dmodeOff => some (packT 0x200 0 0 0 0 0)
  | .drain => some (packT 0x201 0 0 0 0 0)
  | .spawn e p => some (packX 0x202 0 e p 0 0 0 0)
  | .launch d p q => some (packX 0x203 0 d 0 p 0 0 q)
  | .launchChild d p q => some (packX 0x203 1 d 0 p 0 0 q)
  | .cpy d a => some (packX 0x204 0 d 0 a 0 0 0)
  | .cpyl d a => some (packX 0x205 0 d 0 a 0 0 0)
  | .cbatch d => some (packT 0x206 0 (0x610 + d) 0 0 0)
  | .cwait d n => some (packT 0x207 0 d.code n.code 0 0)
  | .bar => some (packT 0x208 0 0 0 0 0)
  | .barc => some (packT 0x209 0 0 0 0 0)
  | .arrive => some (packT 0x20A 0 0 0 0 0)
  | .evinc d c v => some (packS 0x20B 0 d c v 0 0)
  | .evincI d c n => some (packS 0x20B 1 d c 0 0 n.toNat)
  | .evrd d c => some (packS 0x20C 0 d c 0 0 0)
  | .evset d c v => some (packS 0x20D 0 d c v 0 0)
  | .clk d => some (packT 0x20E 0 (0x610 + d) 0 0 0)
  | .clkNs d => some (packT 0x20E 1 (0x610 + d) 0 0 0)
  | .dcreate d p => some (packS 0x380 0 d p 0 0 0)
  | .dgrant d c v k => some (packS 0x381 0 d c v 0 k)
  | .dtake d c v k => some (packS 0x382 0 d c v 0 k)
  | .dfreeze d c => some (packS 0x383 0 d c 0 0 0)
  | .dthaw d c => some (packS 0x384 0 d c 0 0 0)
  | .dckptSave d c a l => some (packS 0x385 0 d c a l 0)
  | .dckptLoad d a l => some (packS 0x385 1 d 0 a l 0)
  | .drevoke d c => some (packS 0x386 0 d c 0 0 0)
  | .dsnapOpen d c a => some (packS 0x387 0 d c a 0 0)
  | .dsnapClose d c => some (packS 0x387 1 d c 0 0 0)
  | .xinv a l => some (packS 0x388 0 0 a l 0 0)
  | .xinvAll => some (packS 0x388 1 0 0 0 0 0)
  | .keygen d => some (packS 0x389 0 d 0 0 0 0)
  | .keykill d x => some (packS 0x38A 0 d x 0 0 0)
  | .hqpop d => some (packS 0x38B 0 d 0 0 0 0)
  | .hqdoneResume d r => some (packS 0x38C 0 d r 0 0 0)
  | .hqdoneKill d r => some (packS 0x38C 0 d r 0 0 1)
  | .hqdoneRedirect d r m => some (packS 0x38C 0 d r m 0 2)
  | .sysr d a => some (packS 0x38D 0 d a 0 0 0)
  | .sysw d a v => some (packS 0x38E 0 d a v 0 0)
  | .resume d a b c tag => some (packS 0x38F 0 d a b c tag.toNat)
  | _ => none

/-! ### The decoder

It takes the fields of a word, refuses a non-zero unused field, an unassigned variant or mod value and an unassigned
opcode (R62), and then asks `Instr.wf` for the operand limits (R54). -/

/-- The selectors and raw fields of a word. -/
def tD (w : Nat) : Nat := fld w 36 12
def tA (w : Nat) : Nat := fld w 24 12
def tB (w : Nat) : Nat := fld w 12 12
def tC (w : Nat) : Nat := fld w 0 12
def mIdx (w : Nat) : Nat := fld w 18 12
def imm24Of (w : Nat) : Nat := fld w 0 24
def off32Of (w : Nat) : BitVec 32 := BitVec.ofNat 32 (fld w 0 32)
def fSa (w : Nat) : Nat := fld w 36 6
def fSd (w : Nat) : Nat := fld w 42 6
def fSb (w : Nat) : Nat := fld w 30 6
def fSc (w : Nat) : Nat := fld w 24 6
def xVa (w : Nat) : Nat := fld w 30 12
def xDr (w : Nat) : Nat := fld w 21 3
def xVb (w : Nat) : Nat := fld w 9 12
def xImm (w : Nat) : Nat := fld w 0 9

/-- The memory operand of an M-format word. -/
def memOf (w : Nat) : Option MemOp :=
  (Src.ofCode (mIdx w)).map fun x => ⟨fSb w, x, fld w 16 2, BitVec.ofNat 16 (fld w 0 16)⟩

/-- A form with destination and sources a; b and c unused. -/
def decDA (w : Nat) (f : Dst → Src → Instr) : Option Instr := do
  guard (tB w = 0 ∧ tC w = 0)
  let d ← Dst.ofCode (tD w)
  let a ← Src.ofCode (tA w)
  pure (f d a)
def decDAB (w : Nat) (f : Dst → Src → Src → Instr) : Option Instr := do
  guard (tC w = 0)
  let d ← Dst.ofCode (tD w)
  let a ← Src.ofCode (tA w)
  let b ← Src.ofCode (tB w)
  pure (f d a b)
def decDABC (w : Nat) (f : Dst → Src → Src → Src → Instr) : Option Instr := do
  let d ← Dst.ofCode (tD w)
  let a ← Src.ofCode (tA w)
  let b ← Src.ofCode (tB w)
  let c ← Src.ofCode (tC w)
  pure (f d a b c)

def mW (md : Nat) : Bool := bitAt md 5
def mSg (md : Nat) : Bool := bitAt md 4
def mSat (md : Nat) : Bool := bitAt md 3
def mOp (md : Nat) : Nat := md % 8

/-- A T-format word of all zeros below its mod field. -/
def decZero (w md : Nat) (i : Instr) : Option Instr := do
  guard (modOf w = md ∧ fld w 0 48 = 0)
  pure i

/-- Integer and bit forms, opcodes 0x000 to 0x01F (R95). -/
def decInt (op w : Nat) : Option Instr :=
  let md := modOf w
  let ws := mW md
  let sg := mSg md
  let mo : IMod := ⟨mW md, mSg md, mSat md⟩
  let plain : Option Unit := guard (mSg md = false ∧ mSat md = false ∧ mOp md = 0)
  let noSat : Option Unit := guard (mSat md = false ∧ mOp md = 0)
  let op0 : Option Unit := guard (mOp md = 0)
  match op with
  | 0x000 => do op0; decDAB w (.iadd mo)
  | 0x001 => do op0; decDAB w (.isub mo)
  | 0x002 => do op0; decDAB w (.imul mo)
  | 0x003 => do noSat; decDAB w (.imulh ws sg)
  | 0x004 => do op0; decDABC w (.imad mo)
  | 0x005 => do op0; decDA w (.iabs mo)
  | 0x006 => do op0; decDA w (.ineg mo)
  | 0x007 => do noSat; decDAB w (.imin ws sg)
  | 0x008 => do noSat; decDAB w (.imax ws sg)
  | 0x009 => do op0; guard (ws = false); decDABC w (.idp4 sg mo.sat)
  | 0x00A => do plain; decDAB w (.and ws)
  | 0x00B => do plain; decDAB w (.or ws)
  | 0x00C => do plain; decDAB w (.xor ws)
  | 0x00D => do plain; decDAB w (.andn ws)
  | 0x00E => do plain; decDAB w (.orn ws)
  | 0x00F => do plain; decDAB w (.shl ws)
  | 0x010 => do plain; decDAB w (.shr ws)
  | 0x011 => do plain; decDAB w (.sar ws)
  | 0x012 => do plain; decDAB w (.rot ws)
  | 0x013 => do guard (sg = false ∧ mo.sat = false ∧ mOp md < 2); decDABC w (.shf (mOp md == 1) ws)
  | 0x014 => do noSat; decDABC w (.bfx ws sg)
  | 0x015 => do plain; decDABC w (.bfi ws)
  | 0x016 => do plain; decDA w (.popc ws)
  | 0x017 => do plain; decDA w (.clz ws)
  | 0x018 => do plain; decDA w (.ctz ws)
  | 0x019 => do plain; decDA w (.brev ws)
  | 0x01A => do plain; guard (ws = false); decDABC w .perm
  | 0x01B => do
    guard (mo.sat = false)
    let cc ← ICond.ofCode (mOp md)
    decDAB w (.icmp cc ws sg)
  | 0x01C => do plain; decDABC w (.sel ws)
  | 0x01D =>
    if mOp md = 1 then do
      guard (md = 1 ∧ tB w = 0 ∧ tC w = 0)
      let d ← Dst.ofCode (tD w)
      match Src.ofCode (tA w) with
      | some (.idn i) => pure (.movGetv d i)
      | _ => none
    else do noSat; decDA w (.mov ws sg)
  | 0x01E => do
    guard (mo.sat = false ∧ tA w = 0)
    let d ← Dst.ofCode (tD w)
    let i : BitVec 24 := BitVec.ofNat 24 (imm24Of w)
    match mOp md with
    | 0 => pure (.movi ws sg d i)
    | 1 => pure (.moviH1 ws sg d i)
    | 2 => do guard (ws = true); pure (.moviH2 sg d i)
    | _ => none
  | 0x01F => do
    plain
    let d ← Dst.ofCode (tD w)
    let m ← memOf w
    pure (.lea ws d m)
  | _ => none

/-- Lane-exchange forms, opcodes 0x020 to 0x02A (R113). -/
def decLane (op w : Nat) : Option Instr :=
  let md := modOf w
  let ws := mW md
  let low : Option Unit := guard (mSg md = false ∧ mSat md = false)
  let only : Option Unit := guard (mSg md = false ∧ mSat md = false ∧ mOp md = 0)
  match op with
  | 0x020 => do low; let p ← QPat.ofCode (mOp md); decDA w (.qxch p ws)
  | 0x021 => do only; decDAB w (.qbc ws)
  | 0x022 => do low; let p ← ShW.ofCode (mOp md); decDAB w (.shfl p ws)
  | 0x023 => do low; let p ← ShW.ofCode (mOp md); decDAB w (.shflx p ws)
  | 0x024 => do low; let p ← ShW.ofCode (mOp md); decDAB w (.shflup p ws)
  | 0x025 => do low; let p ← ShW.ofCode (mOp md); decDAB w (.shfldn p ws)
  | 0x026 => do low; guard (ws = false); let p ← VoteOp.ofCode (mOp md); decDA w (.vote p)
  | 0x027 => do guard (mSat md = false); let p ← RedOp.ofCode (mOp md); decDA w (.gred p ws (mSg md))
  | 0x028 => do let p ← RedOp.ofCode (mOp md); decDA w (.gscan p (mSat md) ws (mSg md))
  | 0x029 => do
    only
    guard (tC w = 0)
    let b ← Src.ofCode (tB w)
    pure (.lget ws (tD w) (tA w) b)
  | 0x02A => do
    only
    guard (tD w = 0)
    let b ← Src.ofCode (tB w)
    let c ← Src.ofCode (tC w)
    pure (.lput ws (tA w) b c)
  | _ => none

/-- Float, conversion and packing forms and the transcendentals (R143, R153, R156, R159). `op8` is the opcode without
its variant, for the forms that carry one. -/
def decFloat (op w : Nat) : Option Instr :=
  let md := modOf w
  let op8 := op / 8
  let var := op % 8
  match op8 with
  | 8 => do let rm ← Rm.ofCode var; let fm ← FMod.ofCode md; decDAB w (.fadd rm fm)
  | 9 => do let rm ← Rm.ofCode var; let fm ← FMod.ofCode md; decDAB w (.fmul rm fm)
  | 10 => do let rm ← Rm.ofCode var; let fm ← FMod.ofCode md; decDABC w (.fma rm fm)
  | 11 => do let rm ← Rm.ofCode var; let fm ← FMod.ofCode md; decDABC w (.fdp2 rm fm)
  | 12 => do let rm ← Rm.ofCode var; let fm ← FMod.ofCode md; decDA w (.frnd rm fm)
  | 13 => do let cc ← FCond.ofCode var; let fm ← FMod.ofCode md; decDAB w (.fcmp cc fm)
  | 14 => do
    let fm ← FMod.ofCode md
    match var with
    | 0 => decDAB w (.fmin fm)
    | 1 => decDAB w (.fmax fm)
    | _ => none
  | 16 => do
    let rm ← Rm.ofCode var
    guard (md % 32 = 0 ∧ tB w = 0 ∧ tC w < 1024)
    let dt ← CTy.ofCode (tC w / 32)
    let sf ← CTy.ofCode (tC w % 32)
    let d ← Dst.ofCode (tD w)
    let a ← Src.ofCode (tA w)
    pure (.cvt rm (mW md) dt sf d a)
  | 17 =>
    match var with
    | 0 => do
      guard (md % 16 = 0 ∧ tC w = 0)
      let f ← TsFmt.ofCode (md / 16)
      pure (.quant f (tD w) (tB w) (tA w))
    | 1 => do
      guard (md % 16 = 0 ∧ tC w = 0)
      let f ← TsFmt.ofCode (md / 16)
      pure (.dequant f (tD w) (tA w) (tB w))
    | 2 =>
      if md = 56 then decDA w .fpackFlags
      else do
        let f ← PkFmt.ofCode (md / 8)
        let rm ← Rm.ofCode (md % 8)
        decDABC w (.fpack f rm)
    | _ => none
  | 24 => do let rm ← Rm.ofCode var; let fm ← FMod.ofCode md; decDA w (.fsqrt rm fm)
  | 25 => do
    let fm ← FMod.ofCode md
    match var with
    | 0 => decDA w (.frcp fm)
    | 1 => decDA w (.frsq fm)
    | 2 => decDA w (.fex2 fm)
    | 3 => decDA w (.flg2 fm)
    | 4 => decDA w (.fsin fm)
    | 5 => decDA w (.fcos fm)
    | 6 => decDA w (.ftanh fm)
    | _ => none
  | _ => none

/-- Scope and order of the memory layout (R56). -/
def scopeOf (md : Nat) : Option Scope := Scope.ofCode (md / 8)
def orderOf (md : Nat) : Option Order := Order.ofCode (md / 2 % 4)

/-- .rlx or the one other order that the form admits (R230). -/
def orderIs (md : Nat) (o : Order) : Option Bool := do
  let p ← orderOf md
  if p = .rlx then pure false else if p = o then pure true else none

/-- Memory forms, opcodes 0x100 to 0x137 (R230 to R245, R251). -/
def decMem (op w : Nat) : Option Instr :=
  let md := modOf w
  if op < 0x108 then do
    let ty ← LdTy.ofCode (op - 0x100)
    guard (md % 2 = 0)
    let sc ← scopeOf md
    let q ← orderIs md .acq
    let d ← Dst.ofCode (tD w)
    let m ← memOf w
    pure (.ld ty sc q d m)
  else if op < 0x110 then do
    let ty ← StTy.ofCode (op - 0x108)
    guard (md % 2 = 0)
    let sc ← scopeOf md
    let q ← orderIs md .rel
    let x ← Src.ofCode (tD w)
    let m ← memOf w
    pure (.st ty sc q x m)
  else if op < 0x120 then do
    let o ← AtOp.ofCode (op - 0x110)
    let sc ← scopeOf md
    let q ← orderOf md
    let d ← Dst.ofCode (tD w)
    let m ← memOf w
    pure (.atom o (md % 2 == 1) sc q d m)
  else if op < 0x130 then do
    let o ← AtOp.ofCode (op - 0x120)
    let sc ← scopeOf md
    let q ← orderIs md .rel
    let x ← Src.ofCode (tD w)
    let m ← memOf w
    pure (.red o (md % 2 == 1) sc q x m)
  else
    match op with
    | 0x130 => do
      guard (md % 2 = 0 ∧ fld w 0 48 = 0)
      let sc ← scopeOf md
      let q ← orderOf md
      pure (.fence sc q)
    | 0x131 => do
      guard (md = 0)
      match Src.ofCode (tD w) with
      | some (.s x) => do let m ← memOf w; pure (.bpref x m)
      | _ => none
    | 0x132 => do
      guard (md = 0 ∧ 0x800 ≤ tD w)
      let m ← memOf w
      pure (.ipref (tD w - 0x800) m)
    | 0x133 => do
      guard (md % 8 = 0 ∧ tD w = 0)
      let sc ← scopeOf md
      let m ← memOf w
      pure (.cflush sc m)
    | 0x134 => do
      guard (md % 8 = 0 ∧ tD w = 0)
      let sc ← scopeOf md
      let m ← memOf w
      pure (.cinv sc m)
    | 0x135 => do
      guard (md = 0 ∧ fSc w = 0 ∧ xDr w = 0 ∧ xVb w = 0)
      pure (.accw (fSd w) (xVa w) (xImm w / 32 + 1) (xImm w % 32))
    | 0x136 => do
      guard (md = 0 ∧ fSc w = 0 ∧ xDr w = 0 ∧ xVb w = 0)
      pure (.accr (fSd w) (xVa w) (xImm w / 32 + 1) (xImm w % 32))
    | 0x137 => do
      guard (md = 0 ∧ xVa w = 0 ∧ fSc w = 0 ∧ xDr w = 0 ∧ xVb w = 0)
      pure (.accz (fSd w) (xImm w / 32 + 1) (xImm w % 32))
    | _ => none

/-- Matrix and adapter forms, opcodes 0x180 to 0x18C (R255, R258, R264, R282). -/
def decMat (op w : Nat) : Option Instr :=
  let md := modOf w
  match op with
  | 0x180 => do
    guard (md = 0 ∧ xVa w = 0 ∧ fSc w = 0 ∧ xVb w = 0)
    pure (.mfmt (xDr w) (fSd w) (BitVec.ofNat 9 (xImm w)))
  | 0x181 => do
    guard (md % 8 = 0 ∧ fSc w = 0 ∧ xImm w < 32)
    if mSat md then
      pure (.mmaAd (mSg md) (mW md) (fSd w) (xVa w) (xDr w) (xImm w % 4) (xImm w / 4) (xVb w))
    else do
      guard (xVb w = 0)
      pure (.mma (mSg md) (mW md) (fSd w) (xVa w) (xDr w) (xImm w % 4) (xImm w / 4))
  | 0x182 => do
    guard (md = 0 ∧ xVa w = 0 ∧ xDr w = 0 ∧ xVb w = 0 ∧ xImm w < 64 ∧ xImm w / 4 % 2 = 0)
    pure (.sopen (fSd w) (fSc w) (xImm w / 8 + 1) (xImm w % 4))
  | 0x183 => do
    guard (md = 0 ∧ fSd w = 0 ∧ xVa w = 0 ∧ fSc w = 0 ∧ xDr w = 0 ∧ xVb w = 0 ∧ xImm w < 32)
    pure (.sadv (xImm w % 4) (xImm w / 4 + 1))
  | 0x184 => do
    guard (md = 0 ∧ fSd w = 0 ∧ xVa w = 0 ∧ fSc w = 0 ∧ xDr w = 0 ∧ xVb w = 0 ∧ xImm w < 4)
    pure (.sclose (xImm w))
  | 0x185 => do
    guard (md = 0 ∧ xVa w = 0 ∧ fSc w = 0 ∧ xDr w = 0 ∧ xVb w = 0 ∧ xImm w < 4)
    pure (.sstat (fSd w) (xImm w))
  | 0x188 => do
    guard (md = 0 ∧ xVa w = 0 ∧ xDr w = 0 ∧ xVb w = 0 ∧ xImm w = 0)
    pure (.adbind (fSd w) (fSc w))
  | 0x189 => do
    guard (xVa w = 0 ∧ fSc w = 0 ∧ xDr w = 0 ∧ xVb w = 0 ∧ xImm w = 0)
    match md with
    | 0 => pure (.adfetchP (fSd w))
    | 1 => pure (.adfetchQ (fSd w))
    | _ => none
  | 0x18A => do
    guard (md = 0 ∧ xVa w = 0 ∧ xDr w = 0 ∧ xImm w = 0)
    pure (.adapply (fSd w) (xVb w) (fSc w))
  | 0x18B => do
    guard (md / 32 = 0 ∧ md / 4 % 4 = 0 ∧ xVa w = 0 ∧ fSc w = 0 ∧ xDr w = 0 ∧ xVb w = 0 ∧ xImm w = 0)
    let sel ← AdSel.ofCode (md % 4)
    pure (.adstat sel (mSg md) (fSd w))
  | 0x18C => do
    guard (xVa w = 0 ∧ fSc w = 0 ∧ xDr w = 0 ∧ xVb w = 0 ∧ xImm w = 0)
    match md with
    | 0 => pure (.adinvId (fSd w))
    | 1 => pure (.adinvGen (fSd w))
    | 2 => do guard (fSd w = 0); pure .adinvAll
    | _ => none
  | _ => none

/-- Control forms, opcodes 0x1C0 to 0x1CE (R171 to R179, R81). -/
def decCtl (op w : Nat) : Option Instr :=
  let md := modOf w
  let mask := fld w 44 4
  let sel := fld w 32 12
  let off := off32Of w
  match op with
  | 0x1C0 =>
    match md with
    | 0 => do guard (mask = 0 ∧ sel = 0); pure (.bra .al off)
    | 8 => do guard (sel = 0); pure (.bra (.m mask) off)
    | 16 => do guard (sel = 0); pure (.bra (.nm mask) off)
    | 24 => do guard (mask = 0); let x ← Src.ofCode sel; pure (.bra (.nz x) off)
    | 32 => do guard (mask = 0); let x ← Src.ofCode sel; pure (.bra (.z x) off)
    | _ => none
  | 0x1C1 => do
    guard (md = 0 ∨ md = 8)
    guard (mask = 0)
    let x ← Src.ofCode sel
    pure (.brp (md == 8) x off)
  | 0x1C2 => do guard (md = 0 ∧ mask = 0 ∧ sel = 0); pure (.mjoin off)
  | 0x1C3 => decZero w 0 .join
  | 0x1C4 => decZero w 0 .regang
  | 0x1C5 => do guard (mask = 0); pure (.call md sel off)
  | 0x1C6 => do
    guard (md = 0 ∧ tC w = 0 ∧ 0x800 ≤ tB w)
    match Dst.ofCode (tD w), Src.ofCode (tA w) with
    | some (.s l), some (.s t) => pure (.calli l t (tB w - 0x800))
    | _, _ => none
  | 0x1C7 => do
    guard (md = 0 ∧ tD w = 0 ∧ tC w = 0 ∧ 0x800 ≤ tB w)
    match Src.ofCode (tA w) with
    | some (.s t) => pure (.ret t (tB w - 0x800))
    | _ => none
  | 0x1C8 => decZero w 0 .exit
  | 0x1C9 => do
    guard (md = 0 ∧ fSd w = 0 ∧ imm24Of w < 2048)
    pure (.suspend (fSa w) (fSb w) (fSc w) (imm24Of w))
  | 0x1CA => decZero w 0 .yield
  | 0x1CB => do guard (md = 0 ∧ tD w = 0 ∧ tA w = 0); pure (.trap (BitVec.ofNat 24 (imm24Of w)))
  | 0x1CC => do guard (md = 0 ∧ tD w = 0 ∧ tA w = 0); pure (.brk (BitVec.ofNat 24 (imm24Of w)))
  | 0x1CD => decZero w 0 .nop
  | 0x1CE => do guard (md = 0 ∧ tD w = 0 ∧ tA w = 0); pure (.rgn (BitVec.ofNat 24 (imm24Of w)))
  | _ => none

/-- Queue and counter forms, opcodes 0x200 to 0x20E (R310, R311, R323, R330, R357, R366, R367, R423, R426, R428). -/
def decQueue (op w : Nat) : Option Instr :=
  let md := modOf w
  match op with
  | 0x200 => do
    guard (fld w 0 48 = 0)
    match md with
    | 0 => pure .dmodeOff
    | 1 => pure .dmodeOn
    | _ => none
  | 0x201 => decZero w 0 .drain
  | 0x202 => do
    guard (md = 0 ∧ fSc w = 0 ∧ xDr w = 0 ∧ xVb w = 0 ∧ xImm w = 0)
    pure (.spawn (fSd w) (xVa w))
  | 0x203 => do
    guard (xVa w = 0 ∧ xDr w = 0 ∧ xVb w = 0 ∧ xImm w < 64)
    match md with
    | 0 => pure (.launch (fSd w) (fSc w) (xImm w))
    | 1 => pure (.launchChild (fSd w) (fSc w) (xImm w))
    | _ => none
  | 0x204 => do
    guard (md = 0 ∧ xVa w = 0 ∧ imm24Of w = 0)
    pure (.cpy (fSd w) (fSc w))
  | 0x205 => do
    guard (md = 0 ∧ xVa w = 0 ∧ imm24Of w = 0)
    pure (.cpyl (fSd w) (fSc w))
  | 0x206 => do
    guard (md = 0 ∧ tA w = 0 ∧ tB w = 0 ∧ tC w = 0)
    match Dst.ofCode (tD w) with
    | some (.s d) => pure (.cbatch d)
    | _ => none
  | 0x207 => do guard (md = 0); decDA w .cwait
  | 0x208 => decZero w 0 .bar
  | 0x209 => decZero w 0 .barc
  | 0x20A => decZero w 0 .arrive
  | 0x20B => do
    guard (fSc w = 0)
    match md with
    | 0 => do guard (imm24Of w = 0); pure (.evinc (fSd w) (fSa w) (fSb w))
    | 1 => do guard (fSb w = 0); pure (.evincI (fSd w) (fSa w) (BitVec.ofNat 24 (imm24Of w)))
    | _ => none
  | 0x20C => do guard (md = 0 ∧ fSb w = 0 ∧ fSc w = 0 ∧ imm24Of w = 0); pure (.evrd (fSd w) (fSa w))
  | 0x20D => do guard (md = 0 ∧ fSc w = 0 ∧ imm24Of w = 0); pure (.evset (fSd w) (fSa w) (fSb w))
  | 0x20E => do
    guard (tA w = 0 ∧ tB w = 0 ∧ tC w = 0)
    match Dst.ofCode (tD w), md with
    | some (.s d), 0 => pure (.clk d)
    | some (.s d), 1 => pure (.clkNs d)
    | _, _ => none
  | _ => none

/-- An S-format word whose fields beyond sd and sa are zero. -/
def decSys2 (w md : Nat) (f : Nat → Nat → Instr) : Option Instr := do
  guard (modOf w = md ∧ fSb w = 0 ∧ fSc w = 0 ∧ imm24Of w = 0)
  pure (f (fSd w) (fSa w))
/-- An S-format word with sd, sa and sb. -/
def decSys3 (w md : Nat) (f : Nat → Nat → Nat → Instr) : Option Instr := do
  guard (modOf w = md ∧ fSc w = 0 ∧ imm24Of w = 0)
  pure (f (fSd w) (fSa w) (fSb w))

/-- System forms, opcodes 0x380 to 0x38F (R379 to R398, R408, R446). -/
def decSys (op w : Nat) : Option Instr :=
  let md := modOf w
  match op with
  | 0x380 => decSys2 w 0 .dcreate
  | 0x381 => do guard (md = 0 ∧ fSc w = 0); pure (.dgrant (fSd w) (fSa w) (fSb w) (imm24Of w))
  | 0x382 => do guard (md = 0 ∧ fSc w = 0); pure (.dtake (fSd w) (fSa w) (fSb w) (imm24Of w))
  | 0x383 => decSys2 w 0 .dfreeze
  | 0x384 => decSys2 w 0 .dthaw
  | 0x385 =>
    match md with
    | 0 => do guard (imm24Of w = 0); pure (.dckptSave (fSd w) (fSa w) (fSb w) (fSc w))
    | 1 => do guard (fSa w = 0 ∧ imm24Of w = 0); pure (.dckptLoad (fSd w) (fSb w) (fSc w))
    | _ => none
  | 0x386 => decSys2 w 0 .drevoke
  | 0x387 =>
    match md with
    | 0 => decSys3 w 0 .dsnapOpen
    | _ => decSys2 w 1 .dsnapClose
  | 0x388 =>
    match md with
    | 0 => do guard (fSd w = 0 ∧ fSc w = 0 ∧ imm24Of w = 0); pure (.xinv (fSa w) (fSb w))
    | _ => decZero w 1 .xinvAll
  | 0x389 => do guard (md = 0 ∧ fld w 0 42 = 0); pure (.keygen (fSd w))
  | 0x38A => decSys2 w 0 .keykill
  | 0x38B => do guard (md = 0 ∧ fld w 0 42 = 0); pure (.hqpop (fSd w))
  | 0x38C => do
    guard (md = 0 ∧ fSc w = 0)
    match imm24Of w with
    | 0 => do guard (fSb w = 0); pure (.hqdoneResume (fSd w) (fSa w))
    | 1 => do guard (fSb w = 0); pure (.hqdoneKill (fSd w) (fSa w))
    | 2 => pure (.hqdoneRedirect (fSd w) (fSa w) (fSb w))
    | _ => none
  | 0x38D => decSys2 w 0 .sysr
  | 0x38E => decSys3 w 0 .sysw
  | 0x38F => do
    guard (md = 0)
    pure (.resume (fSd w) (fSa w) (fSb w) (fSc w) (BitVec.ofNat 24 (imm24Of w)))
  | _ => none

/-- The form that a word's fields name, before the operand limits. -/
def decodeRaw (w : Nat) : Option Instr :=
  let op := opOf w
  if op < 0x020 then decInt op w
  else if op < 0x040 then decLane op w
  else if op < 0x100 then decFloat op w
  else if op < 0x180 then decMem op w
  else if op < 0x1C0 then decMat op w
  else if op < 0x200 then decCtl op w
  else if op < 0x280 then decQueue op w
  else decSys op w

/-- The instruction of a 64-bit word; none raises ILLEGAL_INSTRUCTION (R62). -/
def decode (w : Nat) : Option Instr :=
  if w < 2 ^ 64 then (decodeRaw w).filter Instr.wf else none

/-- The eight bytes of a word as the device stores them, the lowest address first (R51 with little-endian order). -/
def wordBytes (w : Nat) : List Byte := (List.range 8).map fun i => BitVec.ofNat 8 (w / 2 ^ (8 * i))

/-- A number read little-endian from bytes. -/
def leNat : List Byte → Nat
  | [] => 0
  | b :: bs => b.toNat + 256 * leNat bs

/-- The instruction at the front of a byte list. -/
def decodeBytes (bs : List Byte) : Option (Instr × List Byte) :=
  if 8 ≤ bs.length then (decode (leNat (bs.take 8))).map fun i => (i, bs.drop 8) else none

/-- The instruction of a word given by its low `nbits` bits, the bits above them zero. -/
def decodeTableWord (nbits w : Nat) : Option Instr :=
  (decodeBytes (wordBytes (w % 2 ^ nbits))).map (·.1)

/-! ### Clause headers and the opcode map's notes (R43, R44, R59, R60) -/

/-- The opcodes that the map lists (R60). -/
def opAssigned (op : Nat) : Bool :=
  op ≤ 0x02A || (0x040 ≤ op && op ≤ 0x071) || (0x080 ≤ op && op ≤ 0x08A) || (0x0C0 ≤ op && op ≤ 0x0CE) ||
  (0x100 ≤ op && op ≤ 0x137) || (0x180 ≤ op && op ≤ 0x185) || (0x188 ≤ op && op ≤ 0x18C) ||
  (0x1C0 ≤ op && op ≤ 0x1CE) || (0x200 ≤ op && op ≤ 0x20E) || (0x380 ≤ op && op ≤ 0x38F)

/-- The engine class of an opcode's range (R59). -/
def opClass (op : Nat) : Nat :=
  if op < 0x0C0 then 0 else if op < 0x100 then 1 else if op < 0x180 then 2 else if op < 0x1C0 then 3
  else if op < 0x200 then 4 else if op < 0x280 then 5 else 6

/-- The forms marked "ends clause" (R60). -/
def opEnds (op : Nat) : Bool :=
  op = 0x1C0 || op = 0x1C1 || (0x1C3 ≤ op && op ≤ 0x1CA) || op = 0x207 || op = 0x208 || op = 0x209

/-- COUNT of a header: instruction words minus one (R43). -/
def hdrCount (h : Nat) : Nat := fld h 53 4
/-- CLASS. -/
def hdrClass (h : Nat) : Nat := fld h 57 3
/-- NODEFER. -/
def hdrNodefer (h : Nat) : Bool := bitAt h 52
/-- WAIT. -/
def hdrWait (h : Nat) : Nat := fld h 44 8
/-- GIDX. -/
def hdrGidx (h : Nat) : Nat := fld h 40 4
/-- GINV. -/
def hdrGinv (h : Nat) : Bool := bitAt h 39
/-- The GMAP bit of position p. -/
def hdrGuarded (h p : Nat) : Bool := bitAt h (23 + p)
/-- YIELD. -/
def hdrYield (h : Nat) : Bool := bitAt h 22

/-- The checks of R44 that the header alone decides (R242). -/
def hdrOk (h : Nat) : Bool :=
  fld h 60 4 == 0xA && hdrClass h != 7 && fld h 0 22 == 0 &&
  fld h 23 16 / 2 ^ (hdrCount h + 1) == 0 &&
  !(fld h 23 16 == 0 && (hdrGidx h != 0 || hdrGinv h))

/-- The checks of R44 on the clause's words: class, and "ends clause" forms last. -/
def clauseOk (h : Nat) : Nat → List Nat → Bool
  | _, [] => true
  | p, w :: ws =>
    let op := opOf w
    let last := p == hdrCount h
    (!opAssigned op || opClass op == hdrClass h || (opClass op == 4 && last)) &&
    (!opEnds op || last) && clauseOk h (p + 1) ws

end Sys2Proof
end

