-- ==== Sys2Proof/Machine/State.lean ====
section
/-! DEFINITION. Everything the manual gives the machine to hold, as plain data: groups with their registers and paths,
workgroups, cohorts, launches, contexts, the hub's queues, the caches, main memory, stacks, links and Dawn. -/

namespace Sys2Proof.Machine

/-! ### Why a step can stop -/

/-- Why the machine stops. -/
inductive Fault where
  /-- Raised by the meaning of an instruction word when no path stands at issue (`cur` is empty). `step` never
  runs a word so. Safe: the manual has no instruction without a path that issues it. -/
  | noIssuer
  /-- Raised by a meaning whose operands are not those of the word that names it: a `sysw` event whose register does
  not hold that system word's address, or an mbox command whose OP differs. `step` never does this. Safe. -/
  | formMismatch
  /-- Raised by an access whose composed translation gives a physical address at or above 1,152 GiB, where R1 places
  no memory. Safe: the manual gives no effect there (DESIGN CHOICE, log 13). -/
  | noSuchMemory
  deriving DecidableEq, Repr, Inhabited

/-- Why the model gives no meaning. -/
inductive Refusal where
  /-- Raised by `exec` on an instruction that has no meaning yet. Safe. -/
  | notModelled (mnemonic : String)
  deriving DecidableEq, Repr, Inhabited

/-! ### Registers and paths -/

/-- The sticky floating-point flags (R90, R91). -/
structure FFlags where
  iv : Bool
  dz : Bool
  of : Bool
  uf : Bool
  nx : Bool
  deriving DecidableEq, Repr, Inhabited

/-- A path's STATE (R165). -/
inductive PState where
  | free | ready | blocked | regang | halted | parked
  deriving DecidableEq, Repr, Inhabited

/-- A path's wake condition (R400). -/
inductive Wake where
  | none
  | bar (phase : Word)
  | barc (phase : Word)
  | cwait (n : Word)
  deriving DecidableEq, Repr, Inhabited

/-- What stopped a PARKED or HALTED path (R396, R397, R442). `cause` is the code of R388, `load` the poisoned producer of
a POISON; `after` says that it goes on at the next position (trap and brk, R179). -/
structure Stop where
  cause : Nat
  token : Nat
  load : Nat
  after : Bool
  deriving DecidableEq, Repr, Inhabited

/-- The trace unit's account of a path: outcomes mapped so far, the first one's clause, branches since SYNC (R432). -/
structure BrMap where
  bits : Nat
  count : Nat
  first : DWord
  since : Nat
  deriving DecidableEq, Repr, Inhabited

/-- Consecutive base pages of a context's space: a part of the trace of a translation (R377). -/
structure Span where
  ctx : Nat
  page : Nat
  n : Nat
  deriving DecidableEq, Repr, Inhabited

/-- Accesses of one agent that stand before another's in program order: those numbered below a bound (R182). With `sync`, a
join or regang lies between, and they are performed before (R210). -/
structure Before where
  agent : Nat
  upto : Nat
  sync : Bool
  deriving DecidableEq, Repr, Inhabited

/-- A fence in progress: the access number that it stands at, and, once the writes before it have left the store buffer, for
each bank where its context had writes outstanding the count then accepted (R221). -/
structure Fence where
  no : Nat
  banks : Option (List (Nat × Nat))
  deriving DecidableEq, Repr, Inhabited

/-- A deferred latch of the clause in progress (R55, R314): the closure whose result stands for it, in which lanes no later
instruction has written it since, and that result once the closure has run. -/
structure DLatch where
  latch : Nat
  closure : Nat
  lanes : Word
  value : List Word
  deriving DecidableEq, Repr, Inhabited

/-- A path-table entry (R165) with the clause it is in. The path's MASK is formed from its quads. -/
structure Path where
  st : PState
  pc : DWord
  hdr : Bool
  pos : Nat
  /-- The clause in the clause buffer: its header word and instruction words (R242). -/
  head : DWord
  words : List DWord
  /-- Whether the clause buffer holds the words from POS on; a resumed stop fetches them again (R244). -/
  fetched : Bool
  /-- Latches, keyed by latch × 32 + lane, of the clause in progress (R38). -/
  latch : SMap Word
  dlatch : List DLatch
  wake : Wake
  stop : Option Stop
  /-- Token of the debug stop that holds a HALTED path (R445). -/
  dtoken : Nat
  /-- The next issue is neither hit nor matched (R442). -/
  skip : Bool
  /-- A STEP is in force: halt after one instruction (R448). -/
  stepping : Bool
  /-- Its instruction has retired or deferred. -/
  stepped : Bool
  /-- A RESUME, or a STEP (true), that waits until the path's STOP record is written (R304, R468). -/
  release : Option Bool
  /-- Standing at RJ with after(RJ) still to be formed (R170). -/
  formAfter : Bool
  /-- Rejoin addresses whose headers an exit or suspend at issue has fetched, each with after(RJ) (R170). -/
  rjs : List (DWord × DWord)
  /-- The agent that the path's accesses belong to (R182), and the accesses that stand before that agent's. -/
  agent : Nat
  hist : List Before
  /-- The fence or counter release that the path holds at its word (R213, R221). -/
  fence : Option Fence
  brmap : BrMap
  deriving DecidableEq, Repr, Inhabited

/-- A join-stack entry (R169), with the history of the side that does not run: of the pending side before the switch, of
the side that has run after it (R182). -/
structure JEntry where
  full : BitVec 4
  pend : BitVec 4
  sw : Bool
  ppc : DWord
  rj : DWord
  hist : List Before
  deriving DecidableEq, Repr, Inhabited

/-- A quad (R168): its path until it retires, its current mask, its lanes that have not exited, its helper lanes, and
its join stack, top first. -/
structure Quad where
  path : Option Nat
  qm : BitVec 4
  alive : BitVec 4
  helper : BitVec 4
  stack : List JEntry
  deriving DecidableEq, Repr, Inhabited

/-- A register that can be pending (R86); a v register by its logical row, which a move of the window leaves alone. -/
inductive Reg where
  | v (n : Nat)
  | s (n : Nat)
  | m (n : Nat)
  deriving DecidableEq, Repr, Inhabited

/-! ### Accesses -/

/-- A place of memory: a byte of physical memory with the home, key id and key instance of its translation, or a byte of
a core-pinned page (R188, R190, R205). -/
inductive Place where
  | phys (addr : Nat) (home : Nat) (key : Nat) (inst : Nat)
  | pin (coh wg off : Nat)
  deriving DecidableEq, Repr, Inhabited

/-- One lane of a memory access; no place for a helper lane whose read would fault (R15, R228). -/
structure LaneAcc where
  lane : Nat
  va : DWord
  place : Option Place
  /-- The operand of an atomic or the data of a store; `y` is the swap value of a cas. -/
  x : Nat
  y : Nat
  deriving DecidableEq, Repr, Inhabited

/-- What the replay clocks need of a recorded group's instruction when its requests are performed (R435): its number, its word,
the address of the lowest lane on each line, and the group's clock after the first of them; 0 before. -/
structure RplAcc where
  inst : Nat
  pc : DWord
  vas : List (Nat × DWord)
  stamp : Nat
  deriving DecidableEq, Repr, Inhabited

/-- What an outstanding producer will write (R86). -/
inductive OutOp where
  | load (ty : LdTy)
  | atom (op : AtOp) (wide : Bool)
  | lget (wide : Bool)
  | trans
  | accr (o n c : Nat)
  | adstat (sel : AdSel) (clr : Bool)
  deriving DecidableEq, Repr, Inhabited

/-- An outstanding producer, one for each sector request of an instruction (R86, R195). Lane data of an lget name the
target register rows; those of a transcendental hold the result bits. -/
structure Out where
  id : Nat
  /-- The instruction it belongs to, its path, word address and executing lanes. -/
  inst : Nat
  path : Nat
  pc : DWord
  op : OutOp
  regs : List Reg
  lanes : Word
  accs : List LaneAcc
  agent : Nat
  hist : List Before
  acq : Bool
  /-- A release, and its scope; with `alone`, no other agent belonged to the instance of that scope (R208, R211). -/
  rel : Bool
  scope : Scope
  alone : Bool
  bytes : Nat
  /-- Flags that a transcendental sets when it lands (R144). -/
  fl : FFlags
  /-- Registers whose write is discarded after a debugger's write (R89). -/
  discard : List Reg
  /-- Every lane's access of the instruction, for a load that is performed again (R397). -/
  whole : List LaneAcc
  /-- Lanes that met poison and the address of the lowest (R201). -/
  poison : Word
  poisonVa : DWord
  rpl : Option RplAcc
  deriving DecidableEq, Repr, Inhabited

/-- What a store-buffer entry does when performed. -/
inductive SOp where
  | st
  | red (op : AtOp) (wide : Bool)
  | clean (drop wide : Bool)
  deriving DecidableEq, Repr, Inhabited

/-- A store-buffer entry, one for each sector request, or for each line of a cflush or cinv (R195, R215, R239, R316). -/
structure SEntry where
  id : Nat
  op : SOp
  accs : List LaneAcc
  bytes : Nat
  agent : Nat
  hist : List Before
  rel : Bool
  scope : Scope
  /-- No other agent belonged to the instance of its scope, so it is performed there already (R208). -/
  alone : Bool
  /-- The closure whose data it awaits, and whether it entered the buffer so (R316). -/
  waits : Option Nat
  deferred : Bool
  /-- Units that stood in poison at the check, which the store covers (R200, R229). -/
  heals : List (Nat × Nat × Nat × Nat)
  /-- The trace of the translations that it uses (R379). -/
  via : List Span
  rpl : Option RplAcc
  deriving DecidableEq, Repr, Inhabited

/-! ### Deferral -/

/-- A closure record's operand (R314, R320). -/
inductive CSlot where
  | none
  | val (x : DWord)
  | row (r : Nat) (r2 : Nat) (wide : Bool)
  /-- Bound to the producers of a register or pair; its rows are reserved (none for a destination that is not read). `lo`
  and `hi` say which register of the pair is still awaited. -/
  | bound (reg : Reg) (r : Nat) (r2 : Nat) (wide rows lo hi : Bool)
  /-- Bound to the result of an earlier closure through its latch, in some lanes of the row. -/
  | latchOf (closure : Nat) (r : Nat) (lanes : Word)
  | laneId (quad : Bool)
  deriving DecidableEq, Repr, Inhabited

/-- A residual closure (R314, R320). -/
structure Closure where
  id : Nat
  word : DWord
  pc : DWord
  lanes : Word
  avail : Word
  path : Nat
  pos : Nat
  a : CSlot
  b : CSlot
  c : CSlot
  d : CSlot
  /-- Its destination registers, pending until it has run (R86). -/
  regs : List Reg
  /-- What the latch held in the lanes that do not execute (R38); in some lanes that is still to come from an earlier
  closure. -/
  latchBase : List Word
  base : Option (Nat × Word)
  discard : List Reg
  deriving DecidableEq, Repr, Inhabited

/-- An lput that has issued and not yet taken effect (R118, R119): its issuing workgroup, the register that it names, and
each lane's address word and value. -/
structure LPut where
  id : Nat
  coh : Nat
  wg : Nat
  wide : Bool
  reg : Nat
  lanes : List (Nat × Nat)
  deriving DecidableEq, Repr, Inhabited

/-! ### Matrix and adapters -/

/-- The A latch: the captured element registers and scale registers, each as its 32 lanes (R260). -/
structure ALatch where
  els : List (List Word)
  scs : List (List Word)
  deriving DecidableEq, Repr, Inhabited

/-- A window slot: fetching with the bytes read so far, landed, each with the key ids that it was read under, or failed
with a lane code, the input address at the failing stage and its depth (R197, R268). -/
inductive Slot where
  | fetching (got : List Byte) (keys : List Nat)
  | landed (bytes : List Byte) (keys : List Nat)
  | failed (code : Nat) (aux : Nat) (sdep : Nat)
  deriving DecidableEq, Repr, Inhabited

/-- A subscription (R263). Its fetches come after the group's accesses below `bound` (R220). -/
structure Sub where
  isOpen : Bool
  record : DWord
  baseVa : DWord
  stride : Nat
  count : Nat
  w : Nat
  p : Nat
  bound : Nat
  slots : List Slot
  deriving DecidableEq, Repr, Inhabited

/-- What a matrix update does to one row (R252, R259, R275, R285). -/
inductive MUpd where
  | zero (c n : Nat)
  | write (c : Nat) (xs : List Word)
  | mma (z : Bool) (els scs : List Word) (desc : BitVec 512) (tile : List Byte)
  /-- The companion update: its adapter's entry and P slice once they are known, and whether it holds a row-replay entry. -/
  | comp (id ks : Nat) (els scs : List Word) (desc : BitVec 512) (entry slice : Option (List Byte)) (replay : Bool)
  | apply (id n : Nat) (entry slice : List Byte)
  deriving DecidableEq, Repr, Inhabited

/-- An update of one row of the tile at `o` that has issued and is not yet complete (R261, R270); `inst` numbers its
instruction. -/
structure MPend where
  id : Nat
  inst : Nat
  o : Nat
  row : Nat
  upd : MUpd
  deriving DecidableEq, Repr, Inhabited

/-- A failed row: its reason, id, slice and memory code (R278, R279). -/
structure AdFail where
  row : Nat
  reason : Nat
  id : Nat
  slice : Nat
  code : Nat
  deriving DecidableEq, Repr, Inhabited

/-- One row of an adapply held at issue: what its lookups have found (R285). -/
structure ARow where
  row : Nat
  id : Nat
  entry : Option (List Byte)
  slice : Option (List Byte)
  fail : Option AdFail
  deriving DecidableEq, Repr, Inhabited

/-- An adapply held at issue on a path; `id` numbers its lookups. -/
structure Apply where
  id : Nat
  path : Nat
  pc : DWord
  n : Nat
  rows : List ARow
  deriving DecidableEq, Repr, Inhabited

/-- Adapter state of a group: MISS, the miss count, and the failed rows, which give FAIL (R279, R286). -/
structure AdState where
  miss : Word
  count : DWord
  fails : List AdFail
  deriving DecidableEq, Repr, Inhabited

/-- Kinds of adapter-cache segment (R280). -/
inductive SegKind where
  | entry
  | p (slice : Nat)
  | q (slice : Nat)
  deriving DecidableEq, Repr, Inhabited

/-- A segment of a core's adapter cache (R280). -/
structure Seg where
  core : Nat
  ctx : Nat
  id : Nat
  kind : SegKind
  gen : Word
  bytes : List Byte
  prefetched : Bool
  used : Nat
  keys : List Nat
  deriving DecidableEq, Repr, Inhabited

/-- Who asks for a fill: a group, the number that its earlier accesses lie below (R220), and whether an adfetch asks (R281). -/
structure FillAsk where
  group : Nat
  no : Nat
  prefetch : Bool
  deriving DecidableEq, Repr, Inhabited

/-- The slices that an adfetch wants once its entry has landed: for whom, Q or P, the first, and the number (R284). -/
structure FillWant where
  group : Nat
  no : Nat
  q : Bool
  first : Nat
  n : Nat
  deriving DecidableEq, Repr, Inhabited

/-- A fill in flight (R280, R283, R284): where it reads, what it has read, and, for a slice, its generation; and those that have
asked for it. -/
structure SegFill where
  id : Nat
  core : Nat
  ctx : Nat
  ad : Nat
  kind : SegKind
  addr : DWord
  size : Nat
  gen : Word
  got : List Byte
  asks : List FillAsk
  wants : List FillWant
  /-- Dropped since, or dropped if its entry carries one of these generations: it serves only the waiters numbered below
  the drop (R283, R287, R289). -/
  doomed : Option Nat
  doomGen : List (Word × Nat)
  keys : List Nat
  deriving DecidableEq, Repr, Inhabited

/-! ### Copies -/

/-- What a failed copy reports in its batch: its place in the order of failures, STATUS and FCODE (R367). -/
structure CopyErr where
  no : Nat
  status : Nat
  fcode : Nat
  deriving DecidableEq, Repr, Inhabited

/-- A batch of copies: those still in flight, and its failures (R366, R367). -/
structure Batch where
  n : Word
  copies : List Nat
  fails : List CopyErr
  deriving DecidableEq, Repr, Inhabited

/-- One element that a copy moves: the destination, and the source unless it is padding (R359, R361). -/
structure CopyElem where
  dst : DWord
  src : Option DWord
  n : Nat
  deriving DecidableEq, Repr, Inhabited

/-- The elements of a copy, not spelled out: a run of bytes, or a layout record with its taps (R359, R360). -/
inductive CopyShape where
  | bytes (dst src : DWord) (len : Nat)
  | layout (dst origin : DWord) (ystr xstr cstr drow h width ch esz : Nat) (y0 x0 : Int) (ph pw sy sx : Nat)
  deriving DecidableEq, Repr, Inhabited

/-- How a copy has failed (R364, R392). -/
structure CopyFail where
  status : Nat
  fcode : Nat
  count : Nat
  faddr : DWord
  sdep : Nat
  cow : Bool
  deriving DecidableEq, Repr, Inhabited

/-- A translation that a copy took: of a destination page or of a source line, the place of its first byte, and its trace
(R362, R379). -/
structure CopyMap where
  index : Nat
  place : Place
  trace : List Span
  deriving DecidableEq, Repr, Inhabited

/-- A copy-queue entry (R356). -/
structure Copy where
  id : Nat
  core : Nat
  ctx : Nat
  group : Nat
  pc : DWord
  pos : Nat
  lane : Nat
  who : Word
  shape : CopyShape
  tag : BitVec 16
  ring : Option DWord
  /-- Its destination pages, translated at issue, and its source lines, once the engine has translated them (R362, R363). -/
  pages : List CopyMap
  srcs : Option (List CopyMap)
  /-- The source bytes read so far, in destination order, and why no more can be read (R359, R364). -/
  buf : List Byte
  cut : Option (Nat × DWord)
  /-- Destination bytes written so far. -/
  done : Nat
  failed : Option CopyFail
  /-- Its bytes are written and only its completion record remains. -/
  moved : Bool
  /-- The batch that it belongs to; 0 while it is unbatched (R366, R369). -/
  batch : Word
  /-- Cohort and workgroup of its producer, for core-pinned pages. -/
  coh : Nat
  wg : Nat
  deriving DecidableEq, Repr, Inhabited

/-! ### Work -/

/-- A group (R10, R66, R90). -/
structure Group where
  uid : Nat
  ctx : Nat
  /-- The grid it belongs to; none for a group from a bin. -/
  grid : Option Nat
  coh : Nat
  wg : Nat
  gi : Nat
  /-- Identity values of id.coh and id.grid (R71, R72). -/
  idCoh : Word
  idGrid : Word
  bin : Bool
  core : Nat
  part : Nat
  startNo : Nat
  active : Bool
  /-- Not saved by an eviction (R401), and, of a saved group, whether its rows stand in its spill slot (R73). -/
  resident : Bool
  saved : Bool
  retired : Bool
  control : Bool
  /-- Taken as the youngest at the next choice (R50, R351). -/
  yielded : Bool
  win : Nat
  nres : Nat
  wb : Nat
  rlo : Nat
  slot : Nat
  slotBase : DWord
  kent : DWord
  v : SMap Word
  s : SMap DWord
  m : SMap Word
  d : SMap (BitVec 512)
  defer : Bool
  fl : FFlags
  quads : List Quad
  paths : List Path
  /-- The path that issued last (R180). -/
  last : Nat
  rcq : List Closure
  outs : List Out
  sbuf : List SEntry
  ws : List Nat
  nb : Word
  /-- Unbatched copies in flight, and the failures of unbatched copies that have completed. -/
  unb : List Nat
  unbFails : List CopyErr
  /-- Batches that are not complete, in number order. -/
  batches : List Batch
  /-- Failures of batches complete and not yet reported, with their batch (R367). -/
  report : List (Word × CopyErr)
  doneBatch : Word
  alatch : Option ALatch
  subs : List Sub
  mpend : List MPend
  ad : AdState
  applies : List Apply
  wv : Bool
  wt : Word
  /-- barc issued at the cohort's current phase (R425). -/
  barc : Bool
  /-- Replay: group number (0 none), clock G, MAXW (R434, R435), and whether a record of it is held (R436). -/
  rnum : Nat
  gclk : Word
  maxw : List (Nat × Word)
  /-- Registers with an uncorrectable word: register row × 32 + lane (R199). -/
  badRows : List Nat
  /-- Once it has left the active set: the register rows accessed since it came back (R84). -/
  awake : Option (List Nat)
  /-- SPILL, FILL or DEFER_CAPACITY under way: the path, the code and the rows or base wanted (R76, R318). -/
  handler : Option (Nat × Nat × Nat)
  /-- Since when the group waits in the active set, for the swap of R352: the cycle and one; 0 while it does not wait. -/
  waitSince : Nat
  deriving DecidableEq, Repr, Inhabited

/-- A workgroup (R10, R189, R191, R424). -/
structure Workgroup where
  coh : Nat
  idx : Nat
  core : Nat
  groups : Nat
  pages : Nat
  pin : SMap Byte
  accSize : Nat
  acc : SMap Word
  wph : Word
  /-- Group indices that have arrived at the current phase. -/
  arrived : List Nat
  producer : Nat
  retired : Bool
  badPin : List Nat
  badAcc : List Nat
  /-- While it is saved, the key id and instance under which its save image stands (R190). -/
  image : Option (Nat × Nat)
  deriving DecidableEq, Repr, Inhabited

/-- A cohort (R10, R425). -/
structure Cohort where
  uid : Nat
  ctx : Nat
  grid : Option Nat
  index : Nat
  region : Nat
  wgs : Nat
  resident : Bool
  /-- Order of eviction (R339). -/
  evictNo : Nat
  cph : Word
  deriving DecidableEq, Repr, Inhabited

/-- A launch packet's fields (R329). -/
structure Packet where
  entry : DWord
  grid : Nat
  wgl : Nat
  coh : Nat
  concurrent : Bool
  graph : Bool
  win : Nat
  stk : Nat
  cstore : Nat
  acc : Nat
  prio : Nat
  prod : List Nat
  done : Option Nat
  args : DWord
  deriving DecidableEq, Repr, Inhabited

/-- A grid: of a launch, or of a node of a walk (R332, R336). -/
structure Grid where
  uid : Nat
  launch : Nat
  ctx : Nat
  serial : Word
  pkt : Packet
  control : Bool
  /-- Cohorts placed and retired so far. -/
  placed : Nat
  gone : Nat
  traced : Bool
  deriving DecidableEq, Repr, Inhabited

/-- A graph walk (R336). -/
structure Walk where
  node : DWord
  /-- The bytes of the current node, once read. -/
  cur : Option (List Byte)
  counts : List Nat
  /-- The grid that the walk waits for before NEXT. -/
  waits : Option Nat
  steps : Nat
  ended : Bool
  deriving DecidableEq, Repr, Inhabited

/-- A pending-launch store entry (R330, R332). -/
structure Launch where
  uid : Nat
  ctx : Nat
  queue : Nat
  serial : Word
  addr : DWord
  /-- The context through which the packet is read: the issuer's. -/
  via : Nat
  /-- The launching group and the access number that its earlier accesses lie below (R330). -/
  from_ : Nat
  bound : Nat
  control : Bool
  read : Bool
  pkt : Packet
  raw : List Byte
  walk : Option Walk
  traced : Bool
  deriving DecidableEq, Repr, Inhabited

/-- A continuation record (R322) with its control mark (R450) and the accesses that happen before it (R210). -/
structure Rec where
  entry : DWord
  payload : List Word
  control : Bool
  from_ : Nat
  bound : Nat
  deriving DecidableEq, Repr, Inhabited

/-- A bin that is filling or closed (R324). -/
structure Bin where
  region : Nat
  idx : Nat
  ctx : Nat
  recs : List Rec
  closed : Bool
  started : Nat
  closeNo : Nat
  deriving DecidableEq, Repr, Inhabited

/-- A record in the continuation pool, parked on a counter or not (R326, R327): the slot of the pool that holds its bytes, and
whether its counter has released it while bins and pool were full (R304). -/
structure PoolRec where
  ctx : Nat
  region : Nat
  slot : Nat
  rec_ : Rec
  parked : Option (Nat × DWord)
  due : Bool
  deriving DecidableEq, Repr, Inhabited

/-! ### Contexts and the hub -/

/-- A context descriptor (R380). -/
structure Desc where
  troot : DWord
  spill : DWord
  spilln : Nat
  bint : Nat
  pool : DWord
  pooln : Nat
  chip : BitVec 16
  hq : DWord
  mbox : DWord
  ctlq : DWord
  deriving DecidableEq, Repr, Inhabited

/-- A snapshot: its descriptor's fields and the next-page index (R418). -/
structure Snap where
  area : DWord
  npages : Nat
  log : DWord
  next : Nat
  deriving DecidableEq, Repr, Inhabited

/-- A candidate for placement: an evicted cohort, the next cohort of a grid, or the group of a bin (R339). -/
inductive Cand where
  | restore (coh : Nat)
  | grid (g index : Nat)
  | bin (region idx : Nat)
  deriving DecidableEq, Repr, Inhabited

/-- A candidate that has blocked as its context's head and is not yet placed: its target region, when it first blocked, its last
age step, and its age (R343). -/
structure Blocked where
  cand : Cand
  target : Nat
  since : Nat
  ageAt : Nat
  age : Nat
  deriving DecidableEq, Repr, Inhabited

/-- A context (R18, R371). -/
structure Context where
  id : Nat
  parent : Option Nat
  depth : Nat
  desc : Desc
  frozen : Bool
  snap : Option Snap
  /-- Holdings (R20, R382). -/
  share : Nat
  ranges : List (Nat × Nat)
  queues : Nat
  store : Nat
  hqcap : Nat
  counters : Nat
  lines : Nat
  link : Nat
  /-- Keys held on this chip: key id and whether it has been erased (R385). -/
  keys : List (Nat × Bool)
  bint : Nat
  ev : SMap DWord
  /-- The scheduling word and the energy account (R347, R348). -/
  parkth : Nat
  slice : Nat
  ebudget : Nat
  charge : Nat
  overrun : Nat
  /-- Launch and stop serials (R332, R445). -/
  lserial : Word
  sserial : Word
  hctlEn : Bool
  t1 : Nat
  t2 : Nat
  /-- Adapter table (R273). -/
  adBase : DWord
  adCount : Nat
  /-- Service counters by region (R345). -/
  sv : SMap Nat
  had : List Nat
  /-- Its blocked heads (R343). -/
  blocked : List Blocked
  /-- Debug words (R438): DBGCTL, BP0 to BP7, WBASE and WCTL by word address. -/
  dbg : SMap DWord
  /-- Observation words (R429), by word address. -/
  obs : SMap DWord
  rplNext : Nat
  rplFull : Bool
  /-- The handler queue's take index and the records done (R395, R396). -/
  take : Word
  done : List Nat
  deriving DecidableEq, Repr, Inhabited

/-- A trap record's fields (R391). -/
structure TrapRec where
  cause : Nat
  reason : Nat
  ctx : Nat
  depth : Nat
  sdep : Nat
  token : Nat
  who : Word
  pc : DWord
  path : Nat
  pos : Nat
  hdr : Bool
  cow : Bool
  addr : DWord
  aux : DWord
  aux2 : DWord
  lanes : BitVec 128
  deriving DecidableEq, Repr, Inhabited

/-- Where a record goes (R393): a context or the host, the child through which it comes, and the ancestors that it has
passed. -/
structure Route where
  target : Option Nat
  via : Nat
  esc : Nat
  deriving DecidableEq, Repr, Inhabited

/-- A record that the hub holds for a handler queue or the host, with its route once taken (R393, R394). -/
structure HubRec where
  id : Nat
  rec_ : TrapRec
  way : Option Route
  deriving DecidableEq, Repr, Inhabited

/-- A record that stands in a handler queue: the queue's context, its index, the context that raised it (R394). -/
structure Standing where
  queue : Nat
  index : Word
  ctx : Nat
  token : Nat
  deriving DecidableEq, Repr, Inhabited

/-- A record held for a ring with its bytes: mailbox, trace and replay records (R304, R433, R436). -/
structure RingRec where
  ctx : Nat
  group : Nat
  /-- The grid whose trace session it belongs to. -/
  grid : Nat
  bytes : List Byte
  deriving DecidableEq, Repr, Inhabited

/-- What a form in progress is. -/
inductive CmdKind where
  | range | reset | freeze | thaw | save | load | revoke | snap
  deriving DecidableEq, Repr, Inhabited

/-- A privileged form that its path holds in progress at one word: its target context, its place in the order of issue
(R410), how far it has come, whether a dthaw overtook it (R411; for a drevoke, whether the mark was set before it), the
launches or accesses that it waits for (R379, R405), and its base pages. A command of the host has the group 0 and its
function as the path. -/
structure Cmd where
  kind : CmdKind
  g : Nat
  p : Nat
  pc : DWord
  target : Nat
  no : Nat
  stage : Nat
  overtaken : Bool
  waits : List Nat
  lo : Nat
  hi : Nat
  deriving DecidableEq, Repr, Inhabited

/-- The save image of a cohort in its context's spill area (R401, R414): its address, and the physical address where that
lies; the hub keeps its arrangement (DESIGN CHOICE, log 17). -/
structure SaveCoh where
  addr : DWord
  pa : Option Nat
  coh : Cohort
  wgs : List Workgroup
  groups : List Group
  deriving DecidableEq, Repr, Inhabited
/-- How far a launch in a checkpoint image had come (R414; DESIGN CHOICE, log 17). -/
structure SaveLaunch where
  launch : Launch
  grids : List Grid
  deriving DecidableEq, Repr, Inhabited

/-- An open trace session (R432). -/
structure Session where
  ctx : Nat
  grid : Nat
  /-- A packet was dropped; a SYNC goes before the next that fits (R433). -/
  lost : Bool
  deriving DecidableEq, Repr, Inhabited

/-- A ladder (R402); `stage` is 0 called for, 1 Dusk, 2 Grace, 3 Midnight. -/
structure Ladder where
  core : Nat
  ctx : Nat
  start : Nat
  stage : Nat
  withdraw : Bool
  deriving DecidableEq, Repr, Inhabited

/-- A bpref in progress (R238). -/
structure Bpref where
  id : Nat
  ctx : Nat
  core : Nat
  lo : Nat
  hi : Nat
  ctr : Option Nat
  deriving DecidableEq, Repr, Inhabited

/-! ### Caches -/

/-- Which flattening cache (R377). -/
inductive FlatLvl where
  | core (n : Nat)
  | region (n : Nat)
  | hub
  deriving DecidableEq, Repr, Inhabited

/-- A page-table entry in memory (R373): its physical address, and the key id, the home and the pages, level by level, through
which its own translation reaches it. -/
structure Node where
  pa : Nat
  key : Nat
  home : Nat
  via : List Span
  deriving DecidableEq, Repr, Inhabited

/-- A flattened entry (R377). `page` and `size` are in base pages. -/
structure Flat where
  lvl : FlatLvl
  ctx : Nat
  page : Nat
  size : Nat
  ppage : Nat
  r : Bool
  w : Bool
  x : Bool
  cow : Bool
  home : Nat
  key : Nat
  d : Bool
  /-- Trace: for each level, the base pages of its input space that the walk read, and the first of the `size` pages that the
  entry maps through there. -/
  nodes : List (Nat × Nat)
  spans : List (Nat × Nat)
  /-- The leaves of every level, where D is set (R375). -/
  leaves : List Node
  /-- The key ids that the leaves name (R385). -/
  keys : List Nat
  deriving DecidableEq, Repr, Inhabited

/-- An instruction-cache line with its bytes, none while its fill is in flight: the number of the fetch, and the trace of the
translation that it uses (R241, R379). -/
structure ICLine where
  id : Nat
  core : Nat
  line : Nat
  key : Nat
  inst : Nat
  bytes : List Byte
  used : Nat
  via : List Span
  deriving DecidableEq, Repr, Inhabited

/-- An L1 line: which sectors are present and dirty (R184), and which groups dirtied it, with whether each has since
performed a release at .co or wider (R214). -/
structure L1Line where
  core : Nat
  line : Nat
  key : Nat
  present : Nat
  dirty : Nat
  writers : List (Nat × Bool)
  used : Nat
  deriving DecidableEq, Repr, Inhabited

/-- A memory-side cache line: its owner, which sectors are present and dirty, and its replay clock (R187, R192, R193,
R435). -/
structure MSLine where
  line : Nat
  ctx : Nat
  key : Nat
  locked : Bool
  present : Nat
  dirty : Nat
  used : Nat
  clock : Word
  writer : Nat
  /-- For a locked line, the trace of the translation that locked it (R193, R379). -/
  via : List Span
  deriving DecidableEq, Repr, Inhabited

/-- What main memory holds of a sector whose newer bytes stand dirty in a cache: its 48 bytes, the key instance of
each of its three blocks, and whether it is poisoned there (R196, R197, R199). -/
structure Stale where
  sector : Nat
  bytes : List Byte
  keys : List Nat
  bad : Bool
  deriving DecidableEq, Repr, Inhabited

/-- A write that a bank has accepted and not completed (R221): its context, its group and whether that group's wait for
stores covers it at .cx (R47, R215), and its line. -/
structure BankWrite where
  ctx : Nat
  group : Nat
  wide : Bool
  line : Nat
  deriving DecidableEq, Repr, Inhabited

/-! ### Stacks, links, Dawn, host -/

/-- The levels last driven on a group's eight data wires and on its code wire (R291, R297). -/
structure Wires where
  t : BitVec 8
  c : Bool
  deriving DecidableEq, Repr, Inhabited

/-- A channel of a stack: its words (R302), the wires of its groups, three of PC0 and three of PC1 (R291), and its shadow
toggle counters with the beats counted in the window (R298). -/
structure Chan where
  code : Bool
  switches : BitVec 15
  ue : Nat
  ce : Nat
  togDbi : Word
  togTm : Word
  wires : List Wires
  shDbi : Word
  shTm : Word
  beats : Nat
  /-- A window has ended and its totals await a refresh boundary. -/
  ended : Bool
  deriving DecidableEq, Repr, Inhabited

/-- A stack's scrub word (R302), and the least physical sector that the pass under way has still to reach (R301). -/
structure ScrubWord where
  passes : BitVec 16
  next : Nat
  at_ : Nat
  deriving DecidableEq, Repr, Inhabited

/-- A core's error word (R454). -/
structure CoreWord where
  wdrn : Bool
  ue : Nat
  ce : Nat
  deriving DecidableEq, Repr, Inhabited

/-- A Lornor link's word (R458). -/
structure LinkWord where
  up : Bool
  peer : BitVec 7
  retry : Nat
  downs : Nat
  deriving DecidableEq, Repr, Inhabited

/-- A region's ageing word (R463). -/
structure AgeWord where
  plans : BitVec 16
  margin : BitVec 8
  deriving DecidableEq, Repr, Inhabited

/-- A host submission (R455). -/
structure Submission where
  seq : Word
  op : Nat
  queue : Nat
  arg0 : DWord
  arg1 : DWord
  deriving DecidableEq, Repr, Inhabited

/-- A PCIe function: the context bound to it, the addresses in host memory of the descriptors of its submission and completion
rings, the completions that it holds, and its host-ring word (R452, R455, R456). -/
structure Func where
  fn : Nat
  ctx : Nat
  sub : DWord
  comp : DWord
  held : List (List Byte)
  acc : Word
  cmp : Word
  deriving DecidableEq, Repr, Inhabited

/-- Boot and attestation (R460, R461). -/
structure BootState where
  state : Nat
  fail : Nat
  imgver : Word
  flash : List Byte
  recovery : List Byte
  nonce : DWord
  /-- A report over the nonce has been asked for and not produced. -/
  asked : Bool
  report : List Byte
  valid : Bool
  deriving DecidableEq, Repr, Inhabited

/-! ### The model's own choices -/

/-- The path that issues (the model's own). -/
structure Issue where
  g : Nat
  p : Nat
  deriving DecidableEq, Repr, Inhabited

/-- What goes next (the model's own; DESIGN CHOICE, log 1): a path issues, an event of the table, a bank completes a write or an lput
takes effect, an entry of a cache is replaced, the host acts or restarts, Dawn produces a report, a debugger writes a group's
flags, or symbols of a codeword are struck. -/
inductive Turn where
  | issue (g p : Nat)
  | event (i : Instr)
  | bankNext (line : Nat)
  | lputLand (k : Nat)
  | dropFlat (k : Nat)
  | dropL1 (k : Nat)
  | dropCache (k : Nat)
  | hostWrite (a : Nat) (bytes : List Byte)
  | hostRings (fn : Nat) (sub comp : DWord)
  | hostCtlq (queues : DWord)
  | hostBind (fn ctx : Nat)
  | hostRestart (fn : Nat)
  | attest
  | hostImage (bytes : List Byte)
  | hostLadder (core ctx : Nat)
  | debugFlags (g : Nat) (fl : FFlags)
  | correctedCore (core : Nat)
  | symbolErrors (sector : Nat) (errs : List (Nat × Byte))
  deriving DecidableEq, Repr, Inhabited

/-- The machine. -/
structure State where
  /-- Main memory as plaintext bytes: the list of those that differ from what an unlisted byte reads as. -/
  mem : List Host.Cell
  /-- Bytes that the step in progress writes; empty between steps (the model's own). -/
  wq : List Host.Cell
  /-- Host memory, in the same form (R455), and the bytes that the step in progress writes there. -/
  hostMem : List Host.Cell
  hostWq : List Host.Cell
  /-- The key instance under which the plaintext of each 16-byte block stands (R196); unlisted blocks stand under the
  device key. -/
  blkKey : SMap Nat
  /-- Main memory's own bytes of the sectors that are dirty in a cache (R197). -/
  stale : List Stale
  /-- The key instance that each key id names now; 0 for an id that names none (and for the device key, id 0). -/
  keyInst : SMap Nat
  keyMaker : SMap Nat
  nextInst : Nat
  /-- Poisoned physical sectors (R199) and those whose notices are still to be sent (R202). -/
  poison : List Nat
  notices : List Nat
  groups : List Group
  lputs : List LPut
  wgs : List Workgroup
  cohorts : List Cohort
  grids : List Grid
  launches : List Launch
  bins : List Bin
  pool : List PoolRec
  contexts : List Context
  hub : List HubRec
  standing : List Standing
  cmds : List Cmd
  saves : List SaveCoh
  launchSaves : List SaveLaunch
  mboxHeld : List RingRec
  traceHeld : List RingRec
  replayHeld : List RingRec
  sessions : List Session
  ladders : List Ladder
  copies : List Copy
  bprefs : List Bpref
  segs : List Seg
  fills : List SegFill
  flat : List Flat
  icache : List ICLine
  l1 : List L1Line
  cache : List MSLine
  /-- Writes that the banks have accepted, in order; each bank's accepted and completed counts by context (key bank ×
  4,096 + context), and the context that it served last (R221, R222). -/
  bankQ : List BankWrite
  banks : SMap (Nat × Nat)
  bankLast : SMap Nat
  /-- Lines that have left the memory-side cache, whose writer is unknown when refilled (R434). -/
  leftLines : List Nat
  chans : SMap Chan
  scrubs : SMap ScrubWord
  gang : List Nat
  coreWords : SMap CoreWord
  actmax : SMap Nat
  /-- When a core began to run its context (R344). -/
  coreSince : SMap Nat
  links : SMap LinkWord
  ageing : SMap AgeWord
  /-- When each region was last re-planned since boot: the device time and one (R462). -/
  planAt : SMap Nat
  funcs : List Func
  boot : BootState
  clockMhz : Nat
  /-- When the clock last changed (R465). -/
  clockAt : Option Nat
  /-- Core cycle counter and device time (R422) with the part of a nanosecond in units of 1/clockMhz, sampling interval counter by partition (R431). -/
  cycle : DWord
  ns : DWord
  nsRem : Nat
  samp : SMap Nat
  sampRot : SMap Nat
  /-- The last tick and energy window handled (R345, R347). -/
  tickAt : Nat
  windowAt : Nat
  /-- Counters that name new things, and the count of free values taken (the model's own). -/
  fresh : Nat
  free : Nat
  steps : Nat
  cur : Option Issue
  /-- The path whose word issued in the last step, for samples (R431; the model's own). -/
  issued : Option Issue
  sched : List Turn
  deriving DecidableEq, Repr

/-! ### Reset -/

/-- The root's descriptor; only BINT has a value in the manual (R324; DESIGN CHOICE, log 8). -/
def Desc.root : Desc :=
  { troot := 0, spill := 0, spilln := 0, bint := 2000, pool := 0, pooln := 0, chip := 0xFFFF, hq := 0, mbox := 0
    ctlq := 0 }

/-- A context as dcreate makes one (R381): no grants, and the scheduling word and other words at their resets. -/
def Context.new (id : Nat) (parent : Option Nat) (depth : Nat) (desc : Desc) (ebudget : Nat) : Context :=
  { id, parent, depth, desc, frozen := false, snap := none, share := 0, ranges := [], queues := 0, store := 0
    hqcap := 0, counters := 0, lines := 0, link := 0, keys := [], bint := desc.bint, ev := [], parkth := 32
    slice := 10, ebudget, charge := 0, overrun := 0, lserial := 0, sserial := 1, hctlEn := desc.hq != 0, t1 := 200
    t2 := 2000, adBase := 0, adCount := 0, sv := [], had := [], blocked := [], dbg := []
    obs := [(0x2000, 0x4000000000000000)], rplNext := 1, rplFull := false, take := 0, done := [] }

/-- The root context (R19, R192; DESIGN CHOICE, log 8). -/
def Context.root : Context :=
  { Context.new 0 none 0 Desc.root 0xFFFFFFFF with
    share := 2 ^ 32, queues := 64, store := 4096, hqcap := 65535, counters := 65536, lines := 1572864
    link := 2 ^ 32 - 1 }

/-- The machine right after reset: before BOOT, with the root context alone. -/
def State.reset : State :=
  { mem := [], wq := [], hostMem := [], hostWq := [], blkKey := [], stale := [], keyInst := [], keyMaker := [], nextInst := 1, poison := [], notices := []
    groups := [], lputs := [], wgs := [], cohorts := [], grids := [], launches := [], bins := [], pool := []
    contexts := [Context.root], hub := [], standing := [], cmds := [], saves := []
    launchSaves := [], mboxHeld := [], traceHeld := [], replayHeld := []
    sessions := [], ladders := [], copies := [], bprefs := [], segs := [], fills := [], flat := []
    icache := [], l1 := [], cache := [], bankQ := [], banks := [], bankLast := [], leftLines := [], chans := [], scrubs := [], gang := [], coreWords := [], actmax := [], coreSince := []
    links := [], ageing := [], planAt := []
    funcs := [{ fn := 0, ctx := 0, sub := 0, comp := 0, held := [], acc := 0, cmp := 0 }]
    boot := { state := 0, fail := 0, imgver := 0, flash := [], recovery := [], nonce := 0, asked := false, report := []
              valid := false }
    clockMhz := 3300, clockAt := none, cycle := 0, ns := 0, nsRem := 0, samp := [], sampRot := [], tickAt := 0, windowAt := 0, fresh := 1
    free := 0, steps := 0, cur := none, issued := none, sched := [] }

end Sys2Proof.Machine
end

