-- ==== Sys2Proof/Machine/Series.lean ====
section
/-! DEFINITION. The exact functions behind the transcendental forms, to far more digits than the bounds of R151 and R152 need:
fixed-point sums over whole numbers, a value `n` standing for `n / 2^p`. Each sum errs by less than 2^-60 of the spacing or
bound that it is used for. -/

namespace Sys2Proof.Machine

/-- `m · 2^e` in fixed point, its fraction below 2^-p dropped. -/
def toFixed (p m : Nat) (e : Int) : Nat :=
  let k := e + Int.ofNat p
  if 0 ≤ k then m * 2 ^ k.toNat else m / 2 ^ (-k).toNat

/-- ln 2 = sum of 1 / (k · 2^k). -/
def fxLn2 (p : Nat) : Nat := (List.range p).foldl (fun s k => s + 2 ^ p / ((k + 1) * 2 ^ (k + 1))) 0

/-- Adds the terms y^k / k! from the k-th on, of which `t` is the one before. -/
def fxExpGo (p y : Nat) : Nat → Nat → Nat → Nat → Nat
  | 0, _, _, s => s
  | n + 1, k, t, s =>
    let t := t * y / 2 ^ p / k
    fxExpGo p y n (k + 1) t (s + t)
/-- e^y. -/
def fxExp (p y : Nat) : Nat := fxExpGo p y (p / 4 + 10) 1 (2 ^ p) (2 ^ p)

/-- 2^f for a fraction f. -/
def fxExp2 (p f : Nat) : Nat := fxExp p (f * fxLn2 p / 2 ^ p)

/-- Adds z^(2k+1) / (2k+1), of which `t` is z^(2k+1). -/
def fxAtanhGo (p z2 : Nat) : Nat → Nat → Nat → Nat → Nat
  | 0, _, _, s => s
  | n + 1, k, t, s => fxAtanhGo p z2 n (k + 2) (t * z2 / 2 ^ p) (s + t / k)
/-- log2 of m / 2^l for a number m whose leading bit is l: 2 · artanh((M - 1) / (M + 1)) / ln 2. -/
def fxLog2 (p m l : Nat) : Nat :=
  let z := (m - 2 ^ l) * 2 ^ p / (m + 2 ^ l)
  2 * fxAtanhGo p (z * z / 2 ^ p) (p / 3 + 10) 1 z 0 * 2 ^ p / fxLn2 p

/-- tanh of x ≥ 0: (E - 1) / (E + 1) with E = e^(2x). -/
def fxTanh (p x : Nat) : Nat :=
  let y := 2 * x * 2 ^ p / fxLn2 p
  let e := fxExp2 p (y % 2 ^ p) * 2 ^ (y / 2 ^ p)
  (e - 2 ^ p) * 2 ^ p / (e + 2 ^ p)

/-- Adds (-1)^i / (k^(2i+1) · (2i+1)). -/
def fxAtanGo (k2 : Nat) : Nat → Nat → Nat → Int → Int → Int
  | 0, _, _, _, s => s
  | n + 1, i, t, sg, s => fxAtanGo k2 n (i + 2) (t / k2) (-sg) (s + sg * Int.ofNat (t / i))
/-- arctan(1 / k). -/
def fxAtanInv (p k : Nat) : Int := fxAtanGo (k * k) (p / 4 + 10) 1 (2 ^ p / k) 1 0
/-- π = 16 · arctan(1/5) - 4 · arctan(1/239). -/
def fxPi (p : Nat) : Nat := (16 * fxAtanInv p 5 - 4 * fxAtanInv p 239).toNat

/-- Adds the terms of the sine or cosine, of which `t` is the last and `k` its power. -/
def fxTrigGo (p : Nat) (r2 : Int) : Nat → Int → Int → Int → Int
  | 0, _, _, s => s
  | n + 1, k, t, s =>
    let t := -(t * r2 / 2 ^ p) / ((k + 1) * (k + 2))
    fxTrigGo p r2 n (k + 2) t (s + t)
/-- sin x, and with `cos` cos x, of x ≥ 0. -/
def fxTrig (p x : Nat) (cos : Bool) : Int :=
  let r := x % (2 * fxPi p)
  let r2 := Int.ofNat (r * r / 2 ^ p)
  if cos then fxTrigGo p r2 60 0 (2 ^ p) (2 ^ p) else fxTrigGo p r2 60 1 (Int.ofNat r) (Int.ofNat r)

end Sys2Proof.Machine
end

