-- ==== Sys2Proof/Machine/Flags.lean ====
section
/-! DEFINITION. Integer helpers of R41 and the number formats with their rounding and flags (R121 to R133). -/

namespace Sys2Proof.Machine

/-! ### Integers (R41) -/

/-- sext(x, n). -/
def sext (x n : Nat) : Int := if bitAt x (n - 1) && n != 0 then Int.ofNat (x % 2 ^ n) - 2 ^ n else Int.ofNat (x % 2 ^ n)
/-- zext(x, n). -/
def zext (x n : Nat) : Int := Int.ofNat (x % 2 ^ n)
/-- `x[L]` as the form's signedness reads it (R97). -/
def readInt (signed : Bool) (n x : Nat) : Int := if signed then sext x n else zext x n
/-- `t mod 2^n`. -/
def wrapInt (n : Nat) (t : Int) : Nat := (t % 2 ^ n).toNat
/-- sat_sN and sat_nN. -/
def satInt (signed : Bool) (n : Nat) (t : Int) : Int :=
  let lo : Int := if signed then -(2 ^ (n - 1)) else 0
  let hi : Int := if signed then 2 ^ (n - 1) - 1 else 2 ^ n - 1
  if t < lo then lo else if hi < t then hi else t
/-- A result wrapped, or saturated with `.sat` (R97). -/
def fitInt (mo : IMod) (t : Int) : Nat :=
  let n := if mo.wide then 64 else 32
  wrapInt n (if mo.sat then satInt mo.signed n t else t)

/-- The bits of a number from a list, lowest first. -/
def ofBits : List Bool → Nat
  | [] => 0
  | b :: bs => b.toNat + 2 * ofBits bs
/-- The low n bits of a number, lowest first. -/
def toBits (x n : Nat) : List Bool := (List.range n).map (bitAt x)

/-- The number of one bits among the low n (R104). -/
def popcount (x n : Nat) : Nat := (toBits x n).count true
/-- The zeros above the highest one bit of n (R104). -/
def clzN (x n : Nat) : Nat := ((toBits x n).reverse.takeWhile (!·)).length
/-- The zeros below the lowest one bit of n (R104). -/
def ctzN (x n : Nat) : Nat := ((toBits x n).takeWhile (!·)).length
/-- The bits of n reversed (R104). -/
def brevN (x n : Nat) : Nat := ofBits (toBits x n).reverse

/-! ### Flags (R90, R91) -/

def FFlags.none : FFlags := ⟨false, false, false, false, false⟩
/-- Sticky union. -/
def FFlags.or (a b : FFlags) : FFlags := ⟨a.iv || b.iv, a.dz || b.dz, a.of || b.of, a.uf || b.uf, a.nx || b.nx⟩
def FFlags.invalid : FFlags := { FFlags.none with iv := true }

/-! ### Formats (R121, R122) -/

/-- A binary format: exponent and fraction widths, bias, largest finite encoding, and whether it has infinities. -/
structure FFmt where
  ebits : Nat
  fbits : Nat
  bias : Int
  maxEnc : Nat
  hasInf : Bool
  nanEnc : Nat
  /-- NaNs can be signalling (R123). -/
  sig : Bool

def fp32 : FFmt := ⟨8, 23, 127, 0x7F7FFFFF, true, 0x7FC00000, true⟩
def fp16 : FFmt := ⟨5, 10, 15, 0x7BFF, true, 0x7E00, true⟩
def bfp16 : FFmt := ⟨8, 7, 127, 0x7F7F, true, 0x7FC0, true⟩
def fpE5m2 : FFmt := ⟨5, 2, 15, 0x7B, true, 0x7E, false⟩
def fpE4m3 : FFmt := ⟨4, 3, 7, 0x7E, false, 0x7F, false⟩
/-- The magnitude grids of the TS elements (R130); a TS4 magnitude is an integer from 0 to 3. -/
def gridTs4 : FFmt := ⟨2, 2, -1, 3, false, 0, false⟩
def gridTs8 : FFmt := ⟨3, 3, 3, 0x3F, false, 0, false⟩
def gridTs12 : FFmt := ⟨4, 6, 7, 0x3FF, false, 0, false⟩

def ftyFmt : FTy → FFmt
  | .f32 => fp32
  | .f16 => fp16
  | .bf16 => bfp16

/-- The width of a format in bits. -/
def FFmt.width (f : FFmt) : Nat := 1 + f.ebits + f.fbits
/-- The encoding of infinity, without sign. -/
def FFmt.infEnc (f : FFmt) : Nat := (2 ^ f.ebits - 1) * 2 ^ f.fbits

/-- A value: NaN (quiet or signalling), an infinity, or a signed `m · 2^e` (R121). -/
inductive FV where
  | nan (signalling : Bool)
  | inf (neg : Bool)
  | fin (neg : Bool) (m : Nat) (e : Int)
  deriving DecidableEq, Repr, Inhabited

def FV.isNan : FV → Bool
  | .nan _ => true
  | _ => false
def FV.isSig : FV → Bool
  | .nan s => s
  | _ => false
def FV.isInf : FV → Bool
  | .inf _ => true
  | _ => false
def FV.isZero : FV → Bool
  | .fin _ m _ => m == 0
  | _ => false
def FV.neg : FV → Bool
  | .nan _ => false
  | .inf n => n
  | .fin n _ _ => n
def FV.withSign (s : Bool) : FV → FV
  | .nan q => .nan q
  | .inf _ => .inf s
  | .fin _ m e => .fin s m e
def FV.zero (neg : Bool) : FV := .fin neg 0 0

/-- val(F, x) (R121, R123). -/
def fval (f : FFmt) (x : Nat) : FV :=
  let s := bitAt x (f.ebits + f.fbits)
  let ex := x / 2 ^ f.fbits % 2 ^ f.ebits
  let fr := x % 2 ^ f.fbits
  if f.hasInf && ex == 2 ^ f.ebits - 1 then
    if fr == 0 then .inf s else .nan (f.sig && !bitAt fr (f.fbits - 1))
  else if !f.hasInf && ex == 2 ^ f.ebits - 1 && fr == 2 ^ f.fbits - 1 && f.nanEnc != 0 then .nan false
  else if ex == 0 then .fin s fr (1 - f.bias - f.fbits)
  else .fin s (2 ^ f.fbits + fr) (Int.ofNat ex - f.bias - f.fbits)

/-- A TS element grid has no NaN, so every encoding is a value (R130). -/
def gridVal (f : FFmt) (x : Nat) : Nat × Int :=
  let ex := x / 2 ^ f.fbits
  if ex == 0 then (x, 1 - f.bias - f.fbits) else (2 ^ f.fbits + x % 2 ^ f.fbits, Int.ofNat ex - f.bias - f.fbits)

/-! ### Exact comparison and sums of m · 2^e -/

/-- `m · 2^(e - base)` for a base not above e. -/
def alignTo (base : Int) (m : Nat) (e : Int) : Nat := m * 2 ^ (e - base).toNat
/-- Whether `m1 · 2^e1 < m2 · 2^e2`. -/
def magLt (m1 : Nat) (e1 : Int) (m2 : Nat) (e2 : Int) : Bool :=
  let b := min e1 e2
  decide (alignTo b m1 e1 < alignTo b m2 e2)
def magEq (m1 : Nat) (e1 : Int) (m2 : Nat) (e2 : Int) : Bool :=
  let b := min e1 e2
  alignTo b m1 e1 == alignTo b m2 e2
/-- The exact sum of two finite values as a signed integer over a base exponent. -/
def addExact (n1 : Bool) (m1 : Nat) (e1 : Int) (n2 : Bool) (m2 : Nat) (e2 : Int) : Int × Int :=
  let b := min e1 e2
  let x : Int := alignTo b m1 e1
  let y : Int := alignTo b m2 e2
  ((if n1 then -x else x) + (if n2 then -y else y), b)

/-! ### Rounding (R124 to R128) -/

/-- Whether the magnitude `n` with the remainder `rem` of `2^sh` goes up (R124). -/
def goesUp (rm : Rm) (neg : Bool) (n rem sh : Nat) : Bool :=
  if rem == 0 then false
  else
    match rm with
    | .rne => decide (2 ^ sh < 2 * rem) || (2 * rem == 2 ^ sh && n % 2 == 1)
    | .rna => decide (2 ^ sh ≤ 2 * rem)
    | .rz => false
    | .rup => !neg
    | .rdn => neg

/-- The encoding, without sign and with unbounded exponent, nearest to `m · 2^e` under rm, and whether it differs. -/
def roundMag (f : FFmt) (rm : Rm) (neg : Bool) (m : Nat) (e : Int) : Nat × Bool :=
  if m == 0 then (0, false)
  else
    let top : Int := Int.ofNat (Nat.log2 m) + e
    let q := max (top - f.fbits) (1 - f.bias - f.fbits)
    let (n, inexact) :=
      if q ≤ e then (m * 2 ^ (e - q).toNat, false)
      else
        let sh := (q - e).toNat
        let n := m / 2 ^ sh
        let rem := m % 2 ^ sh
        (if goesUp rm neg n rem sh then n + 1 else n, rem != 0)
    if n < 2 ^ f.fbits then (n, inexact)
    else
      let (n, q) := if n == 2 ^ (f.fbits + 1) then (2 ^ f.fbits, q + 1) else (n, q)
      ((q + f.fbits + f.bias).toNat * 2 ^ f.fbits + (n - 2 ^ f.fbits), inexact)

/-- What replaces an overflowing result (R125, R126). -/
def overflowEnc (f : FFmt) (rm : Rm) (neg : Bool) : Nat :=
  if !f.hasInf then f.maxEnc
  else
    match rm with
    | .rne | .rna => f.infEnc
    | .rz => f.maxEnc
    | .rup => if neg then f.maxEnc else f.infEnc
    | .rdn => if neg then f.infEnc else f.maxEnc

/-- round_F of a value, with the flags OF, UF and NX (R124 to R127). -/
def roundF (f : FFmt) (rm : Rm) : FV → Nat × FFlags
  | .nan _ => (f.nanEnc, .none)
  | .inf neg =>
    if f.hasInf then (neg.toNat * 2 ^ (f.width - 1) + f.infEnc, .none)
    else (neg.toNat * 2 ^ (f.width - 1) + f.maxEnc, ⟨false, false, true, false, true⟩)
  | .fin neg m e =>
    let (enc, inexact) := roundMag f rm neg m e
    let sgn := neg.toNat * 2 ^ (f.width - 1)
    if f.maxEnc < enc then (sgn + overflowEnc f rm neg, ⟨false, false, true, false, true⟩)
    else (sgn + enc, ⟨false, false, false, inexact && decide (enc < 2 ^ f.fbits), inexact⟩)

/-- The sign of an exact zero sum of values of opposite sign (R128). -/
def zeroSign (rm : Rm) : Bool :=
  match rm with
  | .rdn => true
  | _ => false

/-- The exact product; IV for 0 · ∞ (R136, R145). -/
def fmulX (x y : FV) : FV × Bool :=
  match x, y with
  | .nan _, _ => (.nan false, false)
  | _, .nan _ => (.nan false, false)
  | .inf a, .inf b => (.inf (a != b), false)
  | .inf a, .fin b m _ => if m == 0 then (.nan false, true) else (.inf (a != b), false)
  | .fin a m _, .inf b => if m == 0 then (.nan false, true) else (.inf (a != b), false)
  | .fin a m1 e1, .fin b m2 e2 => (.fin (a != b) (m1 * m2) (e1 + e2), false)

/-- The exact sum; IV for ∞ - ∞; the sign of a zero as R128 gives (R145). -/
def faddX (rm : Rm) (x y : FV) : FV × Bool :=
  match x, y with
  | .nan _, _ => (.nan false, false)
  | _, .nan _ => (.nan false, false)
  | .inf a, .inf b => if a == b then (.inf a, false) else (.nan false, true)
  | .inf a, .fin _ _ _ => (.inf a, false)
  | .fin _ _ _, .inf b => (.inf b, false)
  | .fin a m1 e1, .fin b m2 e2 =>
    if m1 == 0 && m2 == 0 then (.fin (if a == b then a else zeroSign rm) 0 0, false)
    else
      let (t, base) := addExact a m1 e1 b m2 e2
      if t == 0 then (.fin (zeroSign rm) 0 0, false) else (.fin (decide (t < 0)) t.natAbs base, false)

/-- Flags with IV added. -/
def FFlags.withIv (f : FFlags) (iv : Bool) : FFlags := { f with iv := f.iv || iv }

/-- fadd (R145). -/
def faddF (t : FFmt) (rm : Rm) (x y : FV) : Nat × FFlags :=
  let (v, iv) := faddX rm x y
  let (r, f) := roundF t rm v
  (r, f.withIv (iv || x.isSig || y.isSig))
/-- fmul (R145). -/
def fmulF (t : FFmt) (rm : Rm) (x y : FV) : Nat × FFlags :=
  let (v, iv) := fmulX x y
  let (r, f) := roundF t rm v
  (r, f.withIv (iv || x.isSig || y.isSig))
/-- fma (R145): 0 · ∞ sets IV even when z is a quiet NaN. -/
def fmaF (t : FFmt) (rm : Rm) (x y z : FV) : Nat × FFlags :=
  let (p, iv1) := fmulX x y
  let (v, iv2) := faddX rm p z
  let (r, f) := roundF t rm v
  (r, f.withIv (iv1 || iv2 || x.isSig || y.isSig || z.isSig))
/-- fdp2 (R140, R149). The exact sum is formed by two additions, the products first: with a quiet NaN among the three terms,
infinities of opposite sign set IV only where they meet before the NaN, both being products. The manual does not say whether
they do (DESIGN CHOICE, log 88). -/
def fdp2F (rm : Rm) (x0 y0 x1 y1 z : FV) : Nat × FFlags :=
  let (p0, i0) := fmulX x0 y0
  let (p1, i1) := fmulX x1 y1
  let (t, i2) := faddX rm p0 p1
  let (v, i3) := faddX rm t z
  let (r, f) := roundF fp32 rm v
  (r, f.withIv (i0 || i1 || i2 || i3 || x0.isSig || y0.isSig || x1.isSig || y1.isSig || z.isSig))

/-- Whether x < y, with -0 equal to +0 (R147). -/
def fltX (x y : FV) : Bool :=
  match x, y with
  | .nan _, _ => false
  | _, .nan _ => false
  | .inf a, .inf b => a && !b
  | .inf a, .fin _ _ _ => a
  | .fin _ _ _, .inf b => !b
  | .fin a m1 e1, .fin b m2 e2 => decide ((addExact a m1 e1 (!b) m2 e2).1 < 0)
/-- Whether x = y as numbers. -/
def feqX (x y : FV) : Bool := !x.isNan && !y.isNan && !fltX x y && !fltX y x

/-- fcmp's conditions (R147). -/
def fcmpX (cc : FCond) (x y : FV) : Bool :=
  match cc with
  | .eq => feqX x y
  | .ne => !feqX x y
  | .lt => fltX x y
  | .le => fltX x y || feqX x y
  | .gt => fltX y x
  | .ge => fltX y x || feqX x y
  | .num => !x.isNan && !y.isNan
  | .nan => x.isNan || y.isNan

/-- fmin and fmax of two encodings (R146), -0 below +0. -/
def fminmaxF (t : FFmt) (big : Bool) (a b : Nat) : Nat × FFlags :=
  let x := fval t a
  let y := fval t b
  let fl := FFlags.none.withIv (x.isSig || y.isSig)
  let lt := fltX x y || (feqX x y && x.neg && !y.neg)
  if x.isNan && y.isNan then (t.nanEnc, fl)
  else if x.isNan then (b % 2 ^ t.width, fl)
  else if y.isNan then (a % 2 ^ t.width, fl)
  else (if lt != big then a % 2 ^ t.width else b % 2 ^ t.width, fl)

/-- x rounded to an integer under rm (R148): magnitude, and whether it differs. -/
def roundInt (rm : Rm) (neg : Bool) (m : Nat) (e : Int) : Nat × Bool :=
  if 0 ≤ e then (m * 2 ^ e.toNat, false)
  else
    let sh := (-e).toNat
    let n := m / 2 ^ sh
    let rem := m % 2 ^ sh
    (if goesUp rm neg n rem sh then n + 1 else n, rem != 0)

/-- frnd (R148). -/
def frndF (t : FFmt) (rm : Rm) (x : FV) : Nat × FFlags :=
  match x with
  | .nan s => (t.nanEnc, FFlags.none.withIv s)
  | .inf n => ((roundF t rm (.inf n)).1, .none)
  | .fin n m e => ((roundF t rm (.fin n (roundInt rm n m e).1 0)).1, .none)

/-! ### Conversion (R153 to R155) -/

/-- The bits of an integer type, its signedness (R154). -/
def ctyInt : CTy → Option (Nat × Bool)
  | .s8 => some (8, true) | .s16 => some (16, true) | .s32 => some (32, true) | .s64 => some (64, true)
  | .n8 => some (8, false) | .n16 => some (16, false) | .n32 => some (32, false) | .n64 => some (64, false)
  | _ => none
def ctyFlt : CTy → FFmt
  | .f16 => fp16
  | .bf16 => bfp16
  | .e4m3 => fpE4m3
  | .e5m2 => fpE5m2
  | _ => fp32

/-- An integer result of n bits, extended to 32 bits when narrower (R154). -/
def extInt (signed : Bool) (n : Nat) (t : Int) : Nat := wrapInt (max n 32) (readInt signed n (wrapInt n t))

/-- A float's integer under rm, saturated (R155). -/
def fToInt (rm : Rm) (signed : Bool) (n : Nat) (x : FV) : Int × FFlags :=
  let lo : Int := if signed then -(2 ^ (n - 1)) else 0
  let hi : Int := if signed then 2 ^ (n - 1) - 1 else 2 ^ n - 1
  match x with
  | .nan _ => (0, .invalid)
  | .inf neg => (if neg then lo else hi, .invalid)
  | .fin neg m e =>
    let (k, inexact) := roundInt rm neg m e
    let i : Int := if neg then -(k : Int) else k
    if i < lo then (lo, .invalid) else if hi < i then (hi, .invalid)
    else (i, { FFlags.none with nx := inexact })

/-- A float rounded to another float format, with .sat (R154). -/
def fToF (f : FFmt) (rm : Rm) (sat : Bool) (x : FV) : Nat × FFlags :=
  let (r, fl) := roundF f rm x
  let fl := fl.withIv x.isSig
  if sat && f.hasInf && r % 2 ^ (f.width - 1) == f.infEnc then
    (r / 2 ^ (f.width - 1) * 2 ^ (f.width - 1) + f.maxEnc, { fl with of := true, nx := true })
  else (r, fl)

/-- cvt (R154). -/
def cvtF (rm : Rm) (sat : Bool) (dt st : CTy) (x : Nat) : Nat × FFlags :=
  match ctyInt dt, ctyInt st with
  | some (n, sg), some (k, ks) =>
    let v := readInt ks k x
    (extInt sg n (if sat then satInt sg n v else v), .none)
  | none, some (k, ks) =>
    let v := readInt ks k x
    roundF (ctyFlt dt) rm (.fin (decide (v < 0)) v.natAbs 0)
  | some (n, sg), none =>
    let (i, fl) := fToInt rm sg n (fval (ctyFlt st) x)
    (extInt sg n i, fl)
  | none, none => fToF (ctyFlt dt) rm sat (fval (ctyFlt st) x)

/-! ### Square root and the transcendental forms (R150 to R152) -/

/-- The integer square root by bits: `r` extended downwards from bit `k - 1`. -/
def isqrtGo (x : Nat) : Nat → Nat → Nat
  | 0, r => r
  | k + 1, r =>
    let c := r + 2 ^ k
    isqrtGo x k (if c * c ≤ x then c else r)
def isqrt (x : Nat) : Nat := isqrtGo x (Nat.log2 x / 2 + 1) 0

/-- fsqrt, correctly rounded (R150, R151). A set last bit below the precision stands for the discarded tail. -/
def fsqrtF (t : FFmt) (rm : Rm) (x : FV) : Nat × FFlags :=
  match x with
  | .nan s => (t.nanEnc, FFlags.none.withIv s)
  | .inf n => if n then (t.nanEnc, .invalid) else (t.infEnc, .none)
  | .fin n m e =>
    if m == 0 then (roundF t rm (.fin n 0 0))
    else if n then (t.nanEnc, .invalid)
    else
      let (m, e) := if e % 2 == 0 then (m, e) else (2 * m, e - 1)
      let k := t.fbits + 4
      let m := m * 4 ^ k
      let r := isqrt m
      roundF t rm (.fin false (2 * r + (if r * r == m then 0 else 1)) (e / 2 - k - 1))

/-- Whether m is a power of two, which the exponent then is. -/
def pow2? (m : Nat) : Bool := m != 0 && 2 ^ Nat.log2 m == m

/-- NX, with UF for a result below the smallest normal (R150). -/
def inexactFl (r : Nat) : FFlags := ⟨false, false, false, decide (r % 2 ^ 31 < 2 ^ 23), true⟩

/-- The exponent of the FP32 spacing at a value whose leading bit has exponent t (R150). -/
def ulpExp (t : Int) : Int := max (t - 23) (-149)

/-- Whether the finite `r` of `m · 2^e` lies within one spacing of 1 / (mx · 2^ex): |r · x - 1| < spacing · x. -/
def rcpOk (r : FV) (neg : Bool) (mx : Nat) (ex : Int) : Bool :=
  match r with
  | .fin n m e =>
    let t : Int := -(Int.ofNat (Nat.log2 mx) + ex) - (if pow2? mx then 0 else 1)
    let d := (addExact false (m * mx) (e + ex) true 1 0)
    n == neg && magLt d.1.natAbs d.2 mx (ulpExp t + ex)
  | _ => false

/-- frcp (R151): the device's bits where they meet the bound, else the correctly rounded value. -/
def frcpF (x : Nat) : Nat × FFlags :=
  match fval fp32 x with
  | .nan s => (fp32.nanEnc, FFlags.none.withIv s)
  | .inf n => ((roundF fp32 .rne (.fin n 0 0)).1, .none)
  | .fin n m e =>
    let sgn := n.toNat * 2 ^ 31
    if m == 0 then (sgn + fp32.infEnc, { FFlags.none with dz := true })
    else if magLt m e 1 (-128) || magEq m e 1 (-128) then (sgn + fp32.infEnc, ⟨false, false, true, false, true⟩)
    else if pow2? m then roundF fp32 .rne (.fin n 1 (-(Int.ofNat (Nat.log2 m) + e)))
    else
      let free := (Config.rcpBits (BitVec.ofNat 32 x)).toNat
      if rcpOk (fval fp32 free) n m e then (free, inexactFl free)
      else
        let r := (roundF fp32 .rne (.fin n (2 * (2 ^ 60 / m) + 1) (-61 - e))).1
        (r, inexactFl r)

/-- Whether the positive finite `r` lies within one spacing u of 1/√x: (r - u)² x < 1 < (r + u)² x. -/
def rsqOk (r : FV) (mx : Nat) (ex : Int) : Bool :=
  match r with
  | .fin false m e =>
    let t : Int := -((Int.ofNat (Nat.log2 mx) + ex) / 2) - 1
    let t := if pow2? mx && (Int.ofNat (Nat.log2 mx) + ex) % 2 == 0 then t + 1 else t
    let u := ulpExp t
    let b := min e u
    let rm := alignTo b m e
    let um := alignTo b 1 u
    (rm < um || magLt ((rm - um) ^ 2 * mx) (2 * b + ex) 1 0) && magLt 1 0 ((rm + um) ^ 2 * mx) (2 * b + ex)
  | _ => false

/-- frsq (R151). -/
def frsqF (x : Nat) : Nat × FFlags :=
  match fval fp32 x with
  | .nan s => (fp32.nanEnc, FFlags.none.withIv s)
  | .inf n => if n then (fp32.nanEnc, .invalid) else (0, .none)
  | .fin n m e =>
    if m == 0 then (n.toNat * 2 ^ 31 + fp32.infEnc, { FFlags.none with dz := true })
    else if n then (fp32.nanEnc, .invalid)
    else
      let t := Int.ofNat (Nat.log2 m) + e
      if pow2? m && t % 2 == 0 then roundF fp32 .rne (.fin false 1 (-(t / 2)))
      else
        let free := (Config.rsqBits (BitVec.ofNat 32 x)).toNat
        if rsqOk (fval fp32 free) m e then (free, inexactFl free)
        else
          let (m, e) := if e % 2 == 0 then (m, e) else (2 * m, e - 1)
          let r := (roundF fp32 .rne (.fin false (2 * isqrt (2 ^ 140 / m) + 1) (-71 - e / 2))).1
          (r, inexactFl r)

/-- Whether m · 2^e is an integer, and which. -/
def intOf? (neg : Bool) (m : Nat) (e : Int) : Option Int :=
  let (k, inexact) := roundInt .rz neg m e
  if inexact then none else some (if neg then -(k : Int) else k)

/-- Whether `r` lies within a bound of a value, by more than 2^-50 of the bound, since the value itself is a sum cut short. -/
def nearF (neg : Bool) (vm : Nat) (ve : Int) (bm : Nat) (be : Int) (r : FV) : Bool :=
  match r with
  | .fin n m e =>
    let d := addExact n m e (!neg) vm ve
    magLt d.1.natAbs d.2 (bm * (2 ^ 50 - 1)) (be - 50)
  | _ => false
/-- The device's bits where they lie within a bound of the exact value, else the value rounded to nearest; inexact (R150). -/
def withinF (free : Nat) (neg : Bool) (vm : Nat) (ve : Int) (bm : Nat) (be : Int) : Nat × FFlags :=
  let r := if nearF neg vm ve bm be (fval fp32 free) then free % 2 ^ 32 else (roundF fp32 .rne (.fin neg vm ve)).1
  (r, inexactFl r)
/-- The same with a bound of two spacings at the value. -/
def within2F (free : Nat) (neg : Bool) (vm : Nat) (ve : Int) : Nat × FFlags :=
  withinF free neg vm ve 2 (ulpExp (Int.ofNat (Nat.log2 vm) + ve))

/-- fex2 (R151). -/
def fex2F (x : Nat) : Nat × FFlags :=
  match fval fp32 x with
  | .nan s => (fp32.nanEnc, FFlags.none.withIv s)
  | .inf n => (if n then 0 else fp32.infEnc, .none)
  | .fin n m e =>
    if !n && !magLt m e 128 0 then (fp32.infEnc, ⟨false, false, true, false, true⟩)
    else if n && magLt 150 0 m e then (0, ⟨false, false, false, true, true⟩)
    else
      let free := (Config.ex2Bits (BitVec.ofNat 32 x)).toNat
      let a := toFixed 160 m e
      let k : Int := if n then -Int.ofNat a else Int.ofNat a
      let near := within2F free false (fxExp2 160 (k % 2 ^ 160).toNat) (k / 2 ^ 160 - 160)
      match intOf? n m e with
      | some k => if -149 ≤ k then roundF fp32 .rne (.fin false 1 k) else near
      | none => near

/-- flg2 (R151). -/
def flg2F (x : Nat) : Nat × FFlags :=
  match fval fp32 x with
  | .nan s => (fp32.nanEnc, FFlags.none.withIv s)
  | .inf n => if n then (fp32.nanEnc, .invalid) else (fp32.infEnc, .none)
  | .fin n m e =>
    let l := Nat.log2 m
    let k := Int.ofNat l + e
    if m == 0 then (2 ^ 31 + fp32.infEnc, { FFlags.none with dz := true })
    else if n then (fp32.nanEnc, .invalid)
    else if pow2? m then roundF fp32 .rne (.fin (decide (k < 0)) k.natAbs 0)
    else
      let v := k * 2 ^ 160 + Int.ofNat (fxLog2 160 m l)
      within2F (Config.lg2Bits (BitVec.ofNat 32 x)).toNat (decide (v < 0)) v.natAbs (-160)

/-- A free value kept inside [-1, 1] (R152). -/
def clampUnit (r : Nat) : Nat :=
  match fval fp32 r with
  | .fin n m e => if magLt 1 0 m e then n.toNat * 2 ^ 31 + 0x3F800000 else r
  | _ => 0x3F800000

/-- The sine or cosine of a finite value other than zero: the device's bits within the absolute bound, which from 2^26 on
admits every value of [-1, 1] (R151, R152). -/
def trigF (cos n : Bool) (m : Nat) (e : Int) (free : Nat) : Nat × FFlags :=
  let free := clampUnit (free % 2 ^ 32)
  let near :=
    if !magLt m e 1 26 then free
    else
      let a := toFixed 160 m e
      let v := fxTrig 160 a cos
      let b := if a ≤ fxPi 160 then (1, -21) else addExact false 1 (-21) false m (e - 24)
      (withinF free (decide (v < 0) != (n && !cos)) v.natAbs (-160) b.1.natAbs b.2).1
  let r := clampUnit near
  (r, inexactFl r)

/-- fsin (R151, R152). -/
def fsinF (x : Nat) : Nat × FFlags :=
  match fval fp32 x with
  | .nan s => (fp32.nanEnc, FFlags.none.withIv s)
  | .inf _ => (fp32.nanEnc, .invalid)
  | .fin n m e =>
    if m == 0 then (x % 2 ^ 32, .none) else trigF false n m e (Config.sinBits (BitVec.ofNat 32 x)).toNat

/-- fcos (R151, R152). -/
def fcosF (x : Nat) : Nat × FFlags :=
  match fval fp32 x with
  | .nan s => (fp32.nanEnc, FFlags.none.withIv s)
  | .inf _ => (fp32.nanEnc, .invalid)
  | .fin n m e =>
    if m == 0 then (0x3F800000, .none) else trigF true n m e (Config.cosBits (BitVec.ofNat 32 x)).toNat

/-- ftanh (R151); a finite argument of 9.5 or more differs from ±1 and sets NX (R150; DEDUCED, log 14). -/
def ftanhF (x : Nat) : Nat × FFlags :=
  match fval fp32 x with
  | .nan s => (fp32.nanEnc, FFlags.none.withIv s)
  | .inf n => (n.toNat * 2 ^ 31 + 0x3F800000, .none)
  | .fin n m e =>
    if m == 0 then (x % 2 ^ 32, .none)
    else if !magLt m e 19 (-1) then (n.toNat * 2 ^ 31 + 0x3F800000, { FFlags.none with nx := true })
    else within2F (Config.tanhBits (BitVec.ofNat 32 x)).toNat n (fxTanh 440 (toFixed 440 m e)) (-440)

/-! ### Twin-scale blocks (R129 to R133, R156 to R158) -/

/-- A scale's value `m · 2^e`; none for 0xFF (R129). -/
def scaleVal (s : Nat) : Option (Nat × Int) :=
  if s % 256 == 255 then none
  else if s % 256 / 8 == 0 then some (s % 8, -17)
  else some (8 + s % 8, Int.ofNat (s % 256 / 8) - 18)

/-- Width of an element, its magnitude bits, its grid, and k of R157. -/
def tsWidth : TsFmt → Nat
  | .ts4 => 4 | .ts8 => 8 | .ts12 => 12
def tsGrid : TsFmt → FFmt
  | .ts4 => gridTs4 | .ts8 => gridTs8 | .ts12 => gridTs12
def tsMaxMag : TsFmt → Nat
  | .ts4 => 3 | .ts8 => 30 | .ts12 => 508
def tsKSmall : TsFmt → Nat
  | .ts4 => 2 | .ts8 => 4 | .ts12 => 6

/-- A TS element's value under its block's scale pair (R131). -/
def tsVal (f : TsFmt) (pair x : Nat) : FV :=
  let b := tsWidth f
  let sel := bitAt x (b - 1)
  match scaleVal (if sel then pair / 256 else pair) with
  | none => .nan false
  | some (sm, se) =>
    let (m, e) := gridVal (tsGrid f) (x % 2 ^ (b - 2))
    .fin (bitAt x (b - 2)) (m * sm) (e + se)

/-- The smallest scale code from `c` on, of `n` codes, whose value is at least (m · 2^e) / M (R157). -/
def scaleFor (mx m : Nat) (e : Int) : Nat → Nat → Option Nat
  | 0, _ => none
  | n + 1, c =>
    match scaleVal c with
    | some (sm, se) => if magLt (sm * mx) se m e then scaleFor mx m e n (c + 1) else some c
    | none => none

/-- The larger of two magnitudes. -/
def magMax (a b : Nat × Int) : Nat × Int := if magLt a.1 a.2 b.1 b.2 then b else a

/-- quant of one lane's 32 values: the elements, the scale pair and the flags (R157). Where no scale value reaches the small
set's largest magnitude divided by M, s1 is 0xFE as s0 would be; the manual names that only for s0 (DESIGN CHOICE, log 89). -/
def quantLane (f : TsFmt) (xs : List Nat) : List Nat × Nat × FFlags :=
  let vs := xs.map (fval fp32)
  let b := tsWidth f
  if vs.any FV.isNan then (List.replicate 32 0, 0xFFFF, .invalid)
  else if vs.all FV.isZero then (List.replicate 32 0, 0, .none)
  else
    let mags := vs.map fun v => match v with
      | .fin _ m e => (m, e)
      | _ => (0, 0)
    let anyInf := vs.any FV.isInf
    let amax := mags.foldl magMax (0, 0)
    let s0 := if anyInf then none else scaleFor (tsMaxMag f) amax.1 amax.2 255 0
    let small := vs.map fun v => match v with
      | .fin _ m e => anyInf || magLt m e amax.1 (amax.2 - (tsKSmall f))
      | _ => false
    let smax := ((mags.zip small).filter (·.2)).foldl (fun acc p => magMax acc p.1) (0, 0)
    let s1 := if small.any id then (scaleFor (tsMaxMag f) smax.1 smax.2 255 0).getD 0xFE else 0
    let c0 := s0.getD 0xFE
    let ovf : FFlags := if s0.isNone then ⟨false, false, true, false, true⟩ else .none
    let els := (vs.zip small).map fun (v, sm) =>
      let sc := (scaleVal (if sm then s1 else c0)).getD (0, 0)
      let (mag, bad) : Nat × FFlags := match v with
        | .fin _ m e =>
          if m == 0 then (0, .none)
          else if sc.1 == 0 then ((tsGrid f).maxEnc, { FFlags.none with nx := true })
          else
            let q := 2 * (m * 2 ^ 24 / sc.1) + (if m * 2 ^ 24 % sc.1 == 0 then 0 else 1)
            let enc := min (roundMag (tsGrid f) .rne false q (e - sc.2 - 25)).1 (tsGrid f).maxEnc
            let (gm, ge) := gridVal (tsGrid f) enc
            let same := magEq (gm * sc.1) (ge + sc.2) m e
            (enc, ⟨false, false, false, enc == 0, !same⟩)
        | _ => ((tsGrid f).maxEnc, { FFlags.none with nx := true })
      (sm.toNat * 2 ^ (b - 1) + v.neg.toNat * 2 ^ (b - 2) + mag, bad)
    (els.map (·.1), s1 * 256 + c0, els.foldl (fun acc p => acc.or p.2) ovf)

/-- Fields of width b packed little-endian into one integer (R132). -/
def packFields (b : Nat) : List Nat → Nat
  | [] => 0
  | x :: xs => x % 2 ^ b + 2 ^ b * packFields b xs

/-- FP32 bits of an exact value (R158). -/
def toF32 (v : FV) : Nat := (roundF fp32 .rne v).1

/-! ### Sums of the matrix engine (R134 to R139) -/

/-- The exact sum of products, or an infinity or NaN; whether IV arises (R136). -/
def groupSum (ps : List (FV × FV)) : FV × Bool :=
  let prods := ps.map fun (x, y) => fmulX x y
  let iv := prods.any (·.2) || ps.any fun (x, y) => x.isSig || y.isSig
  if prods.any fun p => p.1.isNan then (.nan false, iv)
  else
    let pos := prods.any fun p => p.1 == .inf false
    let neg := prods.any fun p => p.1 == .inf true
    if pos && neg then (.nan false, true)
    else if pos then (.inf false, iv)
    else if neg then (.inf true, iv)
    else
      let s := prods.foldl (fun (acc : Int × Int) p => match p.1 with
        | .fin n m e =>
          let r := addExact (decide (acc.1 < 0)) acc.1.natAbs acc.2 n m e
          r
        | _ => acc) (0, 0)
      (.fin (decide (s.1 < 0)) s.1.natAbs s.2, iv)

/-- One accumulator update with rounding to nearest even: the new bits, IV and OF (R134 to R136). -/
def accUpdate (acc : Nat) (s : FV) (iv : Bool) : Nat × FFlags :=
  let a := fval fp32 acc
  let (v, iv2) := faddX .rne a s
  let (r, f) := roundF fp32 .rne v
  (r, ⟨iv || iv2 || a.isSig, false, f.of, false, false⟩)

end Sys2Proof.Machine
end

