-- ==== Sys2Proof/Machine/Ops.lean ====
section
/-! DEFINITION. The shared operations: sparse maps, memory, lookups, registers, translation, accesses, stops, and the
motion of paths. -/

namespace Sys2Proof.Machine

/-! ### Sparse maps and memory -/

/-- The value at k; `d` where nothing is listed. -/
def smGet {β : Type} (d : β) : SMap β → Nat → β
  | [], _ => d
  | (j, x) :: rest, k => if j = k then x else smGet d rest k

/-- Inserts in ascending order. -/
def smIns {β : Type} (k : Nat) (x : β) : SMap β → SMap β
  | [] => [(k, x)]
  | (j, y) :: rest => if j < k then (j, y) :: smIns k x rest else (k, x) :: (j, y) :: rest

/-- Drops every entry of k. -/
def smDel {β : Type} (k : Nat) : SMap β → SMap β
  | [] => []
  | (j, y) :: rest => if j = k then smDel k rest else (j, y) :: smDel k rest

/-- Sets the value at k; writing what an unlisted key reads as removes the entry. -/
def smSet {β : Type} [DecidableEq β] (d : β) (m : SMap β) (k : Nat) (x : β) : SMap β :=
  if x = d then smDel k m else smIns k x (smDel k m)

/-- What a byte of memory reads as that nothing has written (DESIGN CHOICE, log 2). -/
def Memory.unlisted : Byte := 0

/-- The canonical form: addresses strictly rise, and no entry equals what an unlisted address reads as. -/
def Memory.wf : List Host.Cell → Bool
  | [] => true
  | [(_, b)] => b != Memory.unlisted
  | (a, b) :: (a', b') :: rest => b != Memory.unlisted && decide (a < a') && Memory.wf ((a', b') :: rest)

/-- The byte at an address. -/
def Memory.read (m : List Host.Cell) (a : Nat) : Byte := smGet Memory.unlisted m a
/-- Memory with one byte written. -/
def Memory.write (m : List Host.Cell) (a : Nat) (b : Byte) : List Host.Cell := smSet Memory.unlisted m a b
/-- Memory with bytes written in order. -/
def Memory.writeAll (m : List Host.Cell) : List Host.Cell → List Host.Cell
  | [] => m
  | (a, b) :: rest => Memory.writeAll (Memory.write m a b) rest

/-- The bytes of memory that the device has (R1). -/
def memBytes : Nat := 1152 * 2 ^ 30

/-! ### Outcomes -/

/-- What a meaning answers: the next state with its memory writes gathered in `wq`, or a fault. -/
inductive Res where
  | next (t : State)
  | fault (f : Fault)

/-- Ends a step: main memory and host memory are those before it with the gathered writes, and nothing else changes them. -/
def commit (s : State) : Res → Host.Outcome State Fault Refusal
  | .next t => .next { t with mem := Memory.writeAll s.mem t.wq, wq := []
                              hostMem := Memory.writeAll s.hostMem t.hostWq, hostWq := [] }
  | .fault f => .fault f

/-- The byte at a physical address, as the step's own writes leave it. -/
def State.byte (s : State) (a : Nat) : Byte :=
  match s.wq.reverse.find? (·.1 == a) with
  | some c => c.2
  | none => Memory.read s.mem a

/-- The bytes from an address on. -/
def State.bytes (s : State) (a n : Nat) : List Byte := (List.range n).map fun i => s.byte (a + i)

/-- The little-endian bytes of a number. -/
def leBytes (n x : Nat) : List Byte := (List.range n).map fun i => BitVec.ofNat 8 (x / 2 ^ (8 * i))

def State.put (s : State) (a : Nat) (bs : List Byte) : State :=
  { s with wq := s.wq ++ (List.range bs.length).zipWith (fun i b => (a + i, b)) bs }

/-- A byte of host memory, as the step's own writes leave it, and bytes written there. -/
def State.hostByte (s : State) (a : Nat) : Byte :=
  match s.hostWq.reverse.find? (·.1 == a) with
  | some c => c.2
  | none => Memory.read s.hostMem a
def State.hostBytes (s : State) (a n : Nat) : List Byte := (List.range n).map fun i => s.hostByte (a + i)
def State.hostPut (s : State) (a : Nat) (bs : List Byte) : State :=
  { s with hostWq := s.hostWq ++ (List.range bs.length).zipWith (fun i b => (a + i, b)) bs }

/-! ### Lookups and updates -/

def State.group? (s : State) (g : Nat) : Option Group := s.groups.find? (·.uid == g)
def State.wg? (s : State) (coh w : Nat) : Option Workgroup := s.wgs.find? fun x => x.coh == coh && x.idx == w
def State.cohort? (s : State) (c : Nat) : Option Cohort := s.cohorts.find? (·.uid == c)
def State.grid? (s : State) (g : Nat) : Option Grid := s.grids.find? (·.uid == g)
def State.launch? (s : State) (l : Nat) : Option Launch := s.launches.find? (·.uid == l)
def State.ctx? (s : State) (c : Nat) : Option Context := s.contexts.find? (·.id == c)
def State.copy? (s : State) (k : Nat) : Option Copy := s.copies.find? (·.id == k)

def State.modGroup (s : State) (g : Nat) (f : Group → Group) : State :=
  { s with groups := s.groups.map fun x => if x.uid == g then f x else x }
def State.setGroup (s : State) (g : Group) : State := s.modGroup g.uid fun _ => g
def State.modWg (s : State) (coh w : Nat) (f : Workgroup → Workgroup) : State :=
  { s with wgs := s.wgs.map fun x => if x.coh == coh && x.idx == w then f x else x }
def State.modCohort (s : State) (c : Nat) (f : Cohort → Cohort) : State :=
  { s with cohorts := s.cohorts.map fun x => if x.uid == c then f x else x }
def State.modGrid (s : State) (g : Nat) (f : Grid → Grid) : State :=
  { s with grids := s.grids.map fun x => if x.uid == g then f x else x }
def State.modLaunch (s : State) (l : Nat) (f : Launch → Launch) : State :=
  { s with launches := s.launches.map fun x => if x.uid == l then f x else x }
def State.modCtx (s : State) (c : Nat) (f : Context → Context) : State :=
  { s with contexts := s.contexts.map fun x => if x.id == c then f x else x }
def State.modCopy (s : State) (k : Nat) (f : Copy → Copy) : State :=
  { s with copies := s.copies.map fun x => if x.id == k then f x else x }

/-- The context's depth; 0 where it is absent. -/
def State.depth (s : State) (c : Nat) : Nat := ((s.ctx? c).map (·.depth)).getD 0
def State.parent (s : State) (c : Nat) : Option Nat := (s.ctx? c).bind (·.parent)

/-- Whether c is `a` or one of its descendants, within `n` levels (R398). -/
def State.under (s : State) (a : Nat) : Nat → Nat → Bool
  | 0, c => c == a
  | n + 1, c =>
    c == a || (match s.parent c with
      | some p => s.under a n p
      | none => false)
/-- Every context has at most four ancestors (R19). -/
def State.isUnder (s : State) (a c : Nat) : Bool := s.under a 5 c
/-- A child of `a`. -/
def State.isChild (s : State) (a c : Nat) : Bool := s.parent c == some a

/-- A context is frozen while its own mark or an ancestor's is set (R407). -/
def State.frozenAt (s : State) : Nat → Nat → Bool
  | 0, _ => false
  | n + 1, c =>
    match s.ctx? c with
    | none => false
    | some x =>
      x.frozen || (match x.parent with
        | some p => s.frozenAt n p
        | none => false)
def State.isFrozen (s : State) (c : Nat) : Bool := s.frozenAt 6 c

/-- Takes a fresh number. (DESIGN CHOICE, log 80) -/
def State.newId (s : State) : State × Nat := ({ s with fresh := s.fresh + 1 }, s.fresh)
/-- Takes the next free value (DESIGN CHOICE, log 22). -/
def State.freeValue (s : State) : State × Word := ({ s with free := s.free + 1 }, Config.freeWord s.free)

/-! ### Registers (R66 to R69) -/

/-- Lane L of the register at a logical row. -/
def Group.rowGet (g : Group) (row lane : Nat) : Word := smGet 0 g.v (row * 32 + lane)
/-- A write also replaces a word that an uncorrectable error struck (R199). -/
def Group.rowSet (g : Group) (row lane : Nat) (x : Word) : Group :=
  { g with v := smSet 0 g.v (row * 32 + lane) x, badRows := g.badRows.filter (· != row * 32 + lane) }
/-- Lane L of vk (R73). -/
def Group.vGet (g : Group) (k lane : Nat) : Word := g.rowGet (g.wb + k) lane
def Group.vSet (g : Group) (k lane : Nat) (x : Word) : Group := g.rowSet (g.wb + k) lane x
/-- Reads of s0 return zero (R68). -/
def Group.sGet (g : Group) (n : Nat) : DWord := if n = 0 then 0 else smGet 0 g.s n
/-- Writes to s0 are discarded (R68). -/
def Group.sSet (g : Group) (n : Nat) (x : DWord) : Group := if n = 0 then g else { g with s := smSet 0 g.s n x }
def Group.mGet (g : Group) (n : Nat) : Word := smGet 0 g.m n
/-- m0 is never written (R69). -/
def Group.mSet (g : Group) (n : Nat) (x : Word) : Group := if n = 0 then g else { g with m := smSet 0 g.m n x }
def Group.dGet (g : Group) (n : Nat) : BitVec 512 := smGet 0 g.d n

/-- A word with bit i set to b. -/
def setBit (x : Word) (i : Nat) (b : Bool) : Word :=
  let k : Word := 1#32 <<< i
  if b then x ||| k else x &&& ~~~k
/-- Bit i of a mask. -/
def laneOn (x : Word) (i : Nat) : Bool := x.getLsbD i
/-- The lanes of a mask, ascending. -/
def lanesOf (x : Word) : List Nat := (List.range 32).filter (laneOn x)
/-- The mask of a list of lanes. -/
def maskOf (ls : List Nat) : Word := ls.foldl (fun x i => setBit x i true) 0

/-- Reads all 32 lanes of a row. -/
def Group.rowAll (g : Group) (row : Nat) : List Word := (List.range 32).map (g.rowGet row)
/-- Writes all 32 lanes of a row. -/
def Group.rowPut (g : Group) (row : Nat) (xs : List Word) : Group :=
  (List.range 32).foldl (fun g i => g.rowSet row i (xs.getD i 0)) g

/-! ### Paths and masks (R165 to R169) -/

def Path.freePath : Path :=
  { st := .free, pc := 0, hdr := false, pos := 0, head := 0, words := [], fetched := false, latch := [], dlatch := []
    wake := .none, stop := none, dtoken := 0, skip := false, stepping := false, stepped := false, release := none, formAfter := false, rjs := [], agent := 0
    hist := [], fence := none, brmap := ⟨0, 0, 0, 0⟩ }

def Group.path (g : Group) (p : Nat) : Path := g.paths.getD p Path.freePath
def Group.setPath (g : Group) (p : Nat) (x : Path) : Group := { g with paths := g.paths.set p x }
def Group.modPath (g : Group) (p : Nat) (f : Path → Path) : Group := g.setPath p (f (g.path p))
def Group.quad (g : Group) (q : Nat) : Quad := g.quads.getD q ⟨none, 0, 0, 0, []⟩
def Group.setQuad (g : Group) (q : Nat) (x : Quad) : Group := { g with quads := g.quads.set q x }

/-- The quads of a path, ascending. -/
def Group.quadsOf (g : Group) (p : Nat) : List Nat := (List.range 8).filter fun q => (g.quad q).path == some p

/-- Four bits at quad q's lanes. -/
def quadMask (q : Nat) (x : BitVec 4) : Word := (x.setWidth 32) <<< (4 * q)
/-- MASK of a path: the union of the current masks of its quads (R165). -/
def Group.mask (g : Group) (p : Nat) : Word :=
  (g.quadsOf p).foldl (fun m q => m ||| quadMask q (g.quad q).qm) 0
/-- Helper lanes of the group (R15). -/
def Group.helpers (g : Group) : Word := (List.range 8).foldl (fun m q => m ||| quadMask q (g.quad q).helper) 0
/-- A mask of a quad is non-empty when it holds a live lane that is not a helper (R168). -/
def Quad.nonEmpty (q : Quad) (x : BitVec 4) : Bool := x &&& q.alive &&& ~~~q.helper != 0
/-- The paths in use. -/
def Group.usedPaths (g : Group) : List Nat := (List.range 8).filter fun p => (g.path p).st != .free
/-- Live quads. -/
def Group.liveQuads (g : Group) : List Nat := (List.range 8).filter fun q => (g.quad q).path.isSome

/-- The header's address of the clause in progress (R43, R165). -/
def Path.header (p : Path) : DWord := if p.hdr then p.pc else p.pc - BitVec.ofNat 64 (8 * (p.pos + 1))
/-- The fall-through address of the clause (R167). -/
def Path.fall (p : Path) : DWord := p.header + BitVec.ofNat 64 (8 * (hdrCount p.head.toNat + 2))
/-- The word at the path's position. -/
def Path.word (p : Path) : DWord := p.words.getD p.pos 0

/-- The lanes in which the word at issue executes (R37, R49). -/
def Group.exec (g : Group) (p : Nat) : Word :=
  let x := g.path p
  let m := g.mask p
  let h := x.head.toNat
  if hdrGuarded h x.pos then
    let gi := hdrGidx h
    let gm := if gi = 0 then m else g.mGet gi
    m &&& (if hdrGinv h then ~~~gm else gm)
  else m

/-- The m register as the path reads it: m0 is the path's mask (R69). -/
def Group.mRead (g : Group) (p n : Nat) : Word := if n = 0 then g.mask p else g.mGet n

/-! ### Pending registers (R86) -/

/-- Whether a producer outstanding in the group, or a closure, names the register and its write is not discarded. (DEDUCED, log 36) -/
def Group.pending (g : Group) (r : Reg) : Bool :=
  (g.outs.any fun o => o.regs.contains r && !o.discard.contains r) ||
  g.rcq.any fun c => c.regs.contains r && !c.discard.contains r

/-! ### Clause ends (R38, R45, R46) -/

/-- The clause of a path ends: its latches are lost. -/
def Path.endClause (p : Path) (pc : DWord) : Path :=
  { p with pc := pc, hdr := true, pos := 0, head := 0, words := [], fetched := false, latch := [], dlatch := []
           skip := false, formAfter := false, rjs := [], fence := none, stepped := p.stepping }

/-- The path moves past its word: to the next position, or to the fall-through address. -/
def Path.advance (p : Path) : Path :=
  if p.pos < hdrCount p.head.toNat then { p with pos := p.pos + 1, pc := p.pc + 8, skip := false, rjs := [], fence := none, stepped := p.stepping }
  else p.endClause p.fall

/-! ### Records (R391, R444) -/

def leField (n x : Nat) : List Byte := leBytes n x

/-- WHO of R391. -/
def Group.who (g : Group) : Word :=
  BitVec.ofNat 32 (g.core % 1024 + g.part % 4 * 2 ^ 10 + g.gi % 32 * 2 ^ 12 + g.wg % 8 * 2 ^ 17)

/-- CTX of R391. -/
def ctxField (c depth : Nat) : Nat := c % 4096 + depth % 8 * 4096

/-- The 64 bytes of a record (R391). -/
def TrapRec.bytes (r : TrapRec) (escn : Nat) : List Byte :=
  let flags := escn % 8 * 2 ^ 13 + r.path % 8 * 2 ^ 10 + r.pos % 16 * 2 ^ 6 + r.hdr.toNat * 2 ^ 5 + r.cow.toNat * 2 ^ 4
  leField 1 r.cause ++ leField 1 r.reason ++ leField 2 flags ++ leField 2 (ctxField r.ctx r.depth) ++
  leField 1 r.sdep ++ leField 1 0 ++ leField 4 r.token ++ leField 4 r.who.toNat ++ leField 8 (r.pc.toNat % 2 ^ 57) ++
  leField 8 r.addr.toNat ++ leField 8 r.aux.toNat ++ leField 8 r.aux2.toNat ++ leField 16 r.lanes.toNat

def TrapRec.empty : TrapRec :=
  { cause := 0, reason := 0, ctx := 0, depth := 0, sdep := 0xFF, token := 0, who := 0, pc := 0, path := 0, pos := 0
    hdr := false, cow := false, addr := 0, aux := 0, aux2 := 0, lanes := 0 }

/-- A lane cause vector from the lanes' codes (R227). -/
def laneVec (codes : List Nat) : BitVec 128 :=
  BitVec.ofNat 128 (packFields 4 codes)
/-- One code in the lanes of `on`, 0xF elsewhere. -/
def laneVecOf (on : Word) (code : Nat) : BitVec 128 :=
  laneVec ((List.range 32).map fun l => if laneOn on l then code else 0xF)
/-- One code in the lanes of `bad`, 0 in the other lanes checked, 0xF elsewhere (R226). -/
def laneVecIn (checked bad : Word) (code : Nat) : BitVec 128 :=
  laneVec ((List.range 32).map fun l => if laneOn bad l then code else if laneOn checked l then 0 else 0xF)
/-- The lowest-numbered lane of a mask. -/
def lowLane (x : Word) : Nat := (lanesOf x).headD 0
/-- A uniform cause: the code in the lowest executing lane (R227). -/
def laneVecUniform (e : Word) (code : Nat) : BitVec 128 := laneVecOf (if e = 0 then 0 else setBit 0 (lowLane e) true) code

/-- A record enters the hub, to be routed and written (R393, R394). -/
def State.raise (s : State) (r : TrapRec) : State :=
  let (s, id) := s.newId
  { s with hub := s.hub ++ [⟨id, r, none⟩] }

/-! ### Trace packets (R430, R432) -/

/-- The session of a group's grid, if open. -/
def State.session? (s : State) (g : Group) : Option Session :=
  match g.grid with
  | some k => s.sessions.find? (·.grid == k)
  | none => none

/-- A packet of R430. -/
def pktBytes (ty fl : Nat) (g : Group) (depth : Nat) (pc : DWord) (mask : Word) (data aux : Nat) : List Byte :=
  leField 1 ty ++ leField 1 fl ++ leField 2 (ctxField g.ctx depth) ++ leField 4 g.who.toNat ++
  leField 8 (pc.toNat % 2 ^ 57) ++ leField 4 mask.toNat ++ leField 4 data ++ leField 8 aux

def State.holdPkt (s : State) (g : Group) (bytes : List Byte) : State :=
  match g.grid with
  | some k => { s with traceHeld := s.traceHeld ++ [⟨g.ctx, g.uid, k, bytes⟩] }
  | none => s

/-- Emits the path's branch map as a BRANCH packet (R432). -/
def State.flushMap (s : State) (g p : Nat) : State :=
  match s.group? g with
  | none => s
  | some x =>
    let m := (x.path p).brmap
    if m.count == 0 then s
    else
      let s := s.holdPkt x (pktBytes 2 p x (s.depth x.ctx) m.first (x.mask p) m.bits m.count)
      s.modGroup g fun x => x.modPath p fun y => { y with brmap := { m with bits := 0, count := 0 } }

/-- Emits a packet of a path after its branch map (R432); nothing without a session. -/
def State.emit (s : State) (g p ty : Nat) (pc : DWord) (mask : Word) (data aux : Nat) : State :=
  match s.group? g with
  | none => s
  | some x =>
    match s.session? x with
    | none => s
    | some _ =>
      let s := s.flushMap g p
      s.holdPkt x (pktBytes ty p x (s.depth x.ctx) pc mask data aux)

/-- A conditional branch enters the path's map (R432). (DEDUCED, log 43) -/
def State.mapBranch (s : State) (g p : Nat) (taken : Bool) : State :=
  match s.group? g with
  | none => s
  | some x =>
    match s.session? x with
    | none => s
    | some _ =>
      let y := x.path p
      let m := y.brmap
      let m : BrMap := ⟨m.bits + taken.toNat * 2 ^ m.count, m.count + 1, if m.count == 0 then y.header else m.first, m.since + 1⟩
      let s := s.modGroup g fun x => x.modPath p fun y => { y with brmap := m }
      let s := if m.count == 31 then s.flushMap g p else s
      if m.since == 4096 then
        let s := s.emit g p 1 y.pc (x.mask p) 0 s.ns.toNat
        s.modGroup g fun x => x.modPath p fun y => { y with brmap := { y.brmap with since := 0 } }
      else s

/-! ### Taking a stop (R390, R391) and returning from one (R397) -/

/-- What a stop reports (R388, R392). -/
structure Cause where
  code : Nat
  lanes : BitVec 128
  reason : Nat
  addr : DWord
  aux : DWord
  aux2 : DWord
  sdep : Nat
  cow : Bool
  /-- For POISON, the number of the poisoned producer. -/
  load : Nat
  /-- The path goes on at the next position (R179, R397). -/
  after : Bool

/-- A cause with no lane code and no further field. -/
def Cause.plain (code : Nat) (mask : Word) : Cause :=
  ⟨code, laneVecOf mask 0, 0, 0, 0, 0, 0xFF, false, 0, false⟩

/-- Whether a core holds a group of a context. -/
def State.holdsGroup (s : State) (core ctx : Nat) : Bool :=
  s.groups.any fun g => g.core == core && g.ctx == ctx && g.resident && !g.retired
/-- A ladder is called for on a core that holds a group of a context; one that runs absorbs the call (R402). -/
def State.callLadder (s : State) (core ctx : Nat) (withdraw : Bool) : State :=
  if !s.holdsGroup core ctx then s
  else if s.ladders.any fun l => l.core == core && l.ctx == ctx then
    { s with ladders := s.ladders.map fun (l : Ladder) =>
        if l.core == core && l.ctx == ctx then { l with withdraw := l.withdraw || withdraw } else l }
  else { s with ladders := s.ladders ++ [⟨core, ctx, s.ns.toNat, 0, withdraw⟩] }

/-- A group is parked when a path is PARKED and none is READY (R349). -/
def Group.parked (g : Group) : Bool :=
  (g.paths.any fun p => p.st == .parked) && !g.paths.any fun p => p.st == .ready

/-- Too many parked groups on a core start the ladder (R349). -/
def State.parkedShare (s : State) (core ctx : Nat) : State :=
  match s.ctx? ctx with
  | none => s
  | some c =>
    let gs := s.groups.filter fun g => g.core == core && g.ctx == ctx && g.resident && !g.retired
    let p := (gs.filter Group.parked).length
    if c.parkth != 0 && c.parkth * gs.length < 64 * p then s.callLadder core ctx false else s

/-- A path stops precisely: it becomes PARKED at its PC, HDR and POS with its latches, under a new token, and a record
enters the hub (R390, R391). -/
def State.raiseStop (s : State) (g p : Nat) (c : Cause) : State :=
  match s.group? g with
  | none => s
  | some x =>
    let y := x.path p
    let (s, token) := s.newId
    let r : TrapRec :=
      { cause := c.code, reason := c.reason, ctx := x.ctx, depth := s.depth x.ctx, sdep := c.sdep, token
        who := x.who, pc := y.pc, path := p, pos := if y.hdr then 0 else y.pos, hdr := y.hdr, cow := c.cow
        addr := c.addr, aux := c.aux, aux2 := c.aux2, lanes := c.lanes }
    let s := s.emit g p 9 y.pc (x.mask p) c.code 0
    let s := s.modGroup g fun x => x.modPath p fun y =>
      { y with st := .parked, stop := some ⟨c.code, token, c.load, c.after⟩, fetched := false, stepping := false
               stepped := false }
    (s.raise r).parkedShare x.core x.ctx

/-- The path at its recorded PC, HDR and POS again, with its latches (R397); trap and brk go on at the next position
(R179); a word that a comparator or a watch stopped is neither hit nor matched at its next issue (R442). (DEDUCED, log 57) -/
def Path.resumed (p : Path) : Path :=
  match p.stop with
  | none => { p with st := .ready }
  | some k =>
    if k.after then { p.advance with st := .ready, stop := none, wake := .none }
    else { p with st := .ready, stop := none, skip := !p.hdr && (k.cause == 0x31 || k.cause == 0x32) }
/-- Sent elsewhere: the target is a header and no latch is written (R46, R397). -/
def Path.redirected (p : Path) (target : DWord) : Path :=
  { p.endClause target with st := .ready, stop := none, wake := .none }

end Sys2Proof.Machine
end

