-- ==== Sys2Proof/Machine/Channel.lean ====
section
/-! DEFINITION. The channels of the memory stacks: lines, sectors and atoms (R186, R187, R292), energy (R347), line codes
(R291, R297, R298), and the transfers between main memory and the rest of the device (R292, R300). -/

namespace Sys2Proof.Machine

/-! ### Lines, sectors, channels, atoms (R186, R187, R292, R293) -/

def lineOf (a : Nat) : Nat := a / 192
def sectorOf (a : Nat) : Nat := a / 48
/-- The sectors of a line that a mask names, ascending. -/
def maskSectors (line secs : Nat) : List Nat := ((List.range 4).filter (bitAt secs)).map (4 * line + ·)
/-- The channel of a line, over all stacks: the device's own hash (R187; DESIGN CHOICE, log 11). -/
def chanOf (line : Nat) : Nat := Config.lineHash line % 576
/-- Whether a line lies in a ganged region (R293). -/
def State.ganged (s : State) (line : Nat) : Bool := s.gang.contains (line * 192 / 805306368)
/-- The sectors that move with those of a mask: in a ganged region, both of an atom (R292). -/
def State.atomSecs (s : State) (line secs : Nat) : Nat :=
  if s.ganged line then (if secs &&& 3 != 0 then 3 else 0) ||| (if secs &&& 12 != 0 then 12 else 0) else secs

/-! ### Energy (R347) -/

/-- Charges pJ to a context and its ancestors, but to none that is frozen (R347, R407). -/
def State.chargeUp (s : State) : Nat → Nat → Nat → State
  | 0, _, _ => s
  | n + 1, c, pj =>
    match s.ctx? c with
    | none => s
    | some x =>
      let s := if s.isFrozen c then s else s.modCtx c fun x => { x with charge := x.charge + pj }
      match x.parent with
      | some p => s.chargeUp n p pj
      | none => s
def State.chargePJ (s : State) (c pj : Nat) : State := s.chargeUp 6 c pj
/-- A DRAM transfer, and a read or write of the memory-side cache, per sector. -/
def dramPJ : Nat := 650
def cachePJ : Nat := 150

/-! ### Line codes (R291, R297, R298) -/

/-- The mask of a code: 0xFF under DBI, under TM the data byte of the previous beat of the burst. -/
def codeMask (tm : Bool) (prev : Byte) : Byte := if tm then prev else 0xFF
/-- n(c) for a data byte. -/
def beatCost (tm : Bool) (w : Wires) (prev d : Byte) (c : Bool) : Nat :=
  let t := if c then d ^^^ codeMask tm prev else d
  popcount (t ^^^ w.t).toNat 8 + (c != w.c).toNat
/-- One beat: the levels that are driven, and their cost; a tie keeps c = 0. -/
def beat (tm : Bool) (w : Wires) (prev d : Byte) : Wires × Nat :=
  let c := decide (beatCost tm w prev d true < beatCost tm w prev d false)
  (⟨if c then d ^^^ codeMask tm prev else d, c⟩, beatCost tm w prev d c)
/-- The byte that the receiver recovers from the levels. -/
def receive (tm : Bool) (prev t : Byte) (c : Bool) : Byte := if c then t ^^^ codeMask tm prev else t
/-- The beats that are left of a burst on one group: the levels last driven, and the toggles. -/
def beats (tm : Bool) : Wires → Byte → List Byte → Wires × Nat
  | w, _, [] => (w, 0)
  | w, prev, d :: ds =>
    let r := beat tm w prev d
    let q := beats tm r.1 d ds
    (q.1, r.2 + q.2)
/-- A burst on one group: no byte comes before its first beat. -/
def burst (tm : Bool) (w : Wires) (ds : List Byte) : Wires × Nat := beats tm w 0 ds
/-- The byte on group g of 8 data wires in beat t of a sector's burst (R299). -/
def beatByte (data : List Byte) (g t : Nat) : Byte :=
  BitVec.ofNat 8 (ofBits ((List.range 8).map fun i => bitAt (data.getD (8 * g + i + 24 * (t / 8)) 0).toNat (t % 8)))
/-- The sixteen bytes of a group. -/
def busBytes (data : List Byte) (g : Nat) : List Byte := (List.range 16).map (beatByte data g)
/-- A window of 2^20 beats of the channel. -/
def windowBeats : Nat := 2 ^ 20
/-- A full window ends: its totals latch, and both counters restart. -/
def Chan.endWindow (h : Chan) : Chan :=
  if h.beats < windowBeats then h
  else { h with togDbi := h.shDbi, togTm := h.shTm, shDbi := 0, shTm := 0, beats := 0, ended := true }
/-- One group's part of a burst: the code in use drives the wires, and both counters count. -/
def Chan.drive (h : Chan) (k : Nat) (ds : List Byte) : Chan :=
  let w := h.wires.getD k ⟨0, false⟩
  { h with wires := h.wires.set k (burst h.code w ds).1
           shDbi := h.shDbi + BitVec.ofNat 32 (burst false w ds).2, shTm := h.shTm + BitVec.ofNat 32 (burst true w ds).2 }
/-- A sector crosses one pseudo-channel in 16 beats. -/
def Chan.send (h : Chan) (pc : Nat) (data : List Byte) : Chan :=
  let h := (List.range 3).foldl (fun (h : Chan) g => h.drive (3 * pc + g) (busBytes data g)) h.endWindow
  { h with beats := h.beats + 16 }
/-- A sector's ciphertext (R196): of a write, what is written; of a read, what main memory holds. -/
def State.cipher (s : State) (sec : Nat) (write : Bool) : List Byte :=
  let now := (s.bytes (48 * sec) 48, (List.range 3).map fun i => smGet 0 s.blkKey (3 * sec + i))
  let from_ := if write then now else ((s.stale.find? (·.sector == sec)).map fun t => (t.bytes, t.keys)).getD now
  (List.range 3).flatMap fun i =>
    leBytes 16 (Config.aes (from_.2.getD i 0) (3 * sec + i) (BitVec.ofNat 128 (leNat ((from_.1.drop (16 * i)).take 16)))).toNat

/-! ### Transfers (R292, R300) -/

/-- A channel as it is after reset: its wires low, and nothing counted (DESIGN CHOICE, log 21). -/
def Chan.zero : Chan :=
  { code := false, switches := 0, ue := 0, ce := 0, togDbi := 0, togTm := 0, wires := List.replicate 6 ⟨0, false⟩, shDbi := 0
    shTm := 0, beats := 0, ended := false }
def State.modChan (s : State) (k : Nat) (f : Chan → Chan) : State :=
  { s with chans := smSet Chan.zero s.chans k (f (smGet Chan.zero s.chans k)) }
/-- An atom crosses its channel: one sector on one pseudo-channel, which the device's map of addresses gives (DESIGN CHOICE,
log 21), or, in a ganged region, both sectors of the atom, the lower on PC0 (R292). -/
def State.sendAtom (s : State) (sec : Nat) (write : Bool) : State :=
  if s.ganged (sec / 4) then
    let lo := sec / 2 * 2
    s.modChan (chanOf (sec / 4)) fun h => (h.send 0 (s.cipher lo write)).send 1 (s.cipher (lo + 1) write)
  else s.modChan (chanOf (sec / 4)) fun h => h.send (Config.sectorHash sec % 2) (s.cipher sec write)
/-- The atoms that sectors of a line belong to are read or written for a context, in ascending order. -/
def State.dramMove (s : State) (c line secs : Nat) (write : Bool) : State :=
  let all := s.atomSecs line secs
  ((maskSectors line all).filter fun k => !s.ganged line || k % 2 == 0).foldl (fun s k => s.sendAtom k write)
    (s.chargePJ c (popcount all 4 * dramPJ))
/-- The sectors of a mask whose atoms lie in it whole. -/
def State.wholeAtoms (s : State) (line secs : Nat) : Nat :=
  if s.ganged line then (if secs &&& 3 = 3 then 3 else 0) ||| (if secs &&& 12 = 12 then 12 else 0) else secs
/-- The mask without the sectors of another. -/
def lessSecs (a b : Nat) : Nat := a &&& (15 ^^^ (b % 16))
/-- A write at the base die to sectors of a line, those of `whole` in every byte: an atom that it covers in part is read and
written (R300). -/
def State.dieWrite (s : State) (c line secs whole : Nat) : State :=
  (s.dramMove c line (lessSecs (s.atomSecs line secs) (s.wholeAtoms line whole)) false).dramMove c line secs true

end Sys2Proof.Machine
end

