-- ==== Sys2Proof/Machine/Mem.lean ====
section
/-! DEFINITION. Composed translation with the flattening caches (R371 to R378), the caches of lines (R184 to R197),
encryption, poison, and the accesses that the hub and the engines make for a context (R466). -/

namespace Sys2Proof.Machine

/-- The kind of an access. -/
inductive Acc where
  | r | w | x | rw
  deriving DecidableEq, Repr, Inhabited

/-- A failed translation or check: the lane code of R226 (0xFF where the device has no memory), the depth of the failing
stage and the address in its input space (R374), and whether a COW leaf caused it. -/
structure TErr where
  code : Nat
  sdep : Nat
  addr : Nat
  cow : Bool
  deriving DecidableEq, Repr, Inhabited

/-- One stage's leaf (R372). -/
structure Lvl where
  ctx : Nat
  depth : Nat
  input : Nat
  r : Bool
  w : Bool
  x : Bool
  cow : Bool
  home : Nat
  key : Nat
  pn : Nat
  size : Nat
  /-- The leaf itself, and its address in the next space. -/
  leaf : Node
  node : Nat
  deriving DecidableEq, Repr, Inhabited

/-- Whether `a .. a + n - 1` lies in one granted range (R374). -/
def Context.reaches (c : Context) (a n : Nat) : Bool := c.ranges.any fun r => r.1 ≤ a && a + n ≤ r.1 + r.2

/-- What a walk gives: the entries that it has read, in order, and its result or failure. -/
abbrev Walked (α : Type) := List Node × Except TErr α

/-- The node reads of one stage (R373): the leaf entry, where it was read, its address in the next space, its level, and the base
pages of the nodes. `rd` answers an entry with its place, and with the reads and pages of its own translation. (DEDUCED, log 35) -/
def stageGo (rd : Nat → Walked (Nat × Node × List (Nat × Nat))) (fail : TErr) (bp : Nat) :
    Nat → Nat → Nat → List (Nat × Nat) → Walked (Nat × Node × Nat × Nat × List (Nat × Nat))
  | 0, _, _, _ => ([], .error fail)
  | fuel + 1, k, n, tr =>
    let na := n + 8 * (bp / 2 ^ (42 - 6 * k) % 64)
    match rd na with
    | (ns, .error e) => (ns, .error e)
    | (ns, .ok (e, at_, t)) =>
      if !bitAt e 63 then (ns, .error fail)
      else if e / 2 ^ 60 % 8 == 0 then
        if k == 7 || e / 2 ^ 48 % 2 ^ 12 != 0 then (ns, .error fail)
        else
          let r := stageGo rd fail bp fuel (k + 1) (e % 2 ^ 48 * 512) (tr ++ t)
          (ns ++ r.1, r.2)
      else (ns, .ok (e, at_, na, k, tr ++ t))

/-- A key that a level names is held there, or the access fails (R374, R385). -/
def State.keyFail (s : State) (l : Lvl) : Option TErr :=
  if l.key == 0 then none
  else
    match ((s.ctx? l.ctx).map (·.keys)).getD [] |>.find? (·.1 == l.key) with
    | none => some ⟨3, l.depth, l.input, false⟩
    | some (_, erased) => if erased then some ⟨5, l.depth, l.input, false⟩ else none

/-- Whether a leaf lacks what an access needs. -/
def Lvl.lacks (l : Lvl) (acc : Acc) : Bool :=
  match acc with
  | .r => !l.r
  | .w => !l.w
  | .x => !l.x
  | .rw => !l.r || !l.w
/-- The failure of a composition for an access: the first level from the innermost that lacks a permission or names a key that is
not held there, and else the first whose key is erased (R226, R374). A HOME 1 leaf's erased key is left to the caller, whose
test of the pinned page comes before it. -/
def State.accFail (s : State) (ls : List Lvl) (acc : Acc) : Option TErr :=
  let denied := fun (l : Lvl) =>
    if l.lacks acc then some (⟨3, l.depth, l.input, l.cow⟩ : TErr) else (s.keyFail l).filter (·.code == 3)
  match ls.findSome? denied with
  | some e => some e
  | none => if ls.any (·.home == 1) then none else ls.findSome? s.keyFail

/-- The composed key: of the innermost level whose leaf names one (R374). -/
def keyOf (ls : List Lvl) : Nat := ((ls.find? (·.key != 0)).map (·.key)).getD 0

/-! ### Encryption (R196)

`mem` holds plaintext; `blkKey` says under which key instance each 16-byte block of it stands. -/

def blockOf (a : Nat) : Nat := a / 16

/-- A block's 16 bytes as a number. -/
def State.block (s : State) (b : Nat) : BitVec 128 := BitVec.ofNat 128 (leNat (s.bytes (16 * b) 16))
/-- A block as an access under a key instance reads it: the decryption of its ciphertext. -/
def State.blockUnder (s : State) (inst b : Nat) : BitVec 128 :=
  let k := smGet 0 s.blkKey b
  if k = inst then s.block b else (Config.aes inst b).symm (Config.aes k b (s.block b))
/-- A byte as an access under a key instance reads it. -/
def State.readUnder (s : State) (inst a : Nat) : Byte :=
  if smGet 0 s.blkKey (blockOf a) = inst then s.byte a
  else BitVec.ofNat 8 ((s.blockUnder inst (blockOf a)).toNat / 2 ^ (8 * (a % 16)))
/-- A byte written under a key instance; a block that stood under another is first read under this one. -/
def State.writeUnder (s : State) (inst a : Nat) (b : Byte) : State :=
  let k := blockOf a
  if smGet 0 s.blkKey k = inst then s.put a [b]
  else
    let old := leBytes 16 (s.blockUnder inst k).toNat
    { (s.put (16 * k) old).put a [b] with blkKey := smSet 0 s.blkKey k inst }
/-- The instance of a live key; none for an erased one (R197). -/
def State.instOf (s : State) (key : Nat) : Option Nat :=
  if key = 0 then some 0 else
    let i := smGet 0 s.keyInst key
    if i = 0 then none else some i

/-- The eight bytes of a page-table entry, as the walk of the level above reaches it. -/
def State.nodeWord (s : State) (fail : TErr) (n : Node) : Except TErr Nat :=
  match s.instOf n.key with
  | none => .error { fail with code := 5 }
  | some inst => .ok (leNat ((List.range 8).map fun i => s.readUnder inst (n.pa + i)))
/-- The home of the composition: the largest in the order 0, 2, 3 (R374). -/
def composeHome (ls : List Lvl) : Nat :=
  if ls.any (·.home == 3) then 3 else if ls.any (·.home == 2) then 2 else 0
/-- The base pages that the levels map an address through. -/
def mapped (ls : List Lvl) : List (Nat × Nat) := ls.map fun l => (l.ctx, l.input / 12288)

/-- The stages from context c to the root on address a (R373, R374): the leaves, the physical address, and the base pages of
the nodes. -/
def State.walkGo (s : State) : Nat → Nat → Nat → Walked (List Lvl × Nat × List (Nat × Nat))
  | 0, _, a => ([], .error ⟨2, 0xFF, a, false⟩)
  | n + 1, c, a =>
    match s.ctx? c with
    | none => ([], .error ⟨2, 0xFF, a, false⟩)
    | some x =>
      let fail : TErr := ⟨2, x.depth, a, false⟩
      if 2 ^ 57 ≤ a then ([], .error fail)
      else
        let entry := fun (before : List Node) (at_ : Node) (t : List (Nat × Nat)) =>
          match s.nodeWord fail at_ with
          | .error e => (before, .error e)
          | .ok e => (before ++ [at_], .ok (e, at_, t))
        let rd := fun na =>
          match x.parent with
          | none =>
            if 2 ^ 52 ≤ na then ([], .error fail)
            else if memBytes ≤ na then ([], .error { fail with code := 0xFF })
            else entry [] ⟨na, 0, 0, []⟩ []
          | some p =>
            if !x.reaches na 8 then ([], .error fail)
            else
              match s.walkGo n p na with
              | (ns, .error e) => (ns, .error e)
              | (ns, .ok (ls, pa, t)) =>
                match ls.find? (fun l => l.home == 1), s.accFail ls .r with
                | some l, _ => (ns, .error ⟨2, l.depth, l.input, false⟩)
                | none, some e => (ns, .error e)
                | none, none =>
                  entry ns ⟨pa, keyOf ls, composeHome ls, (mapped ls).map fun m => ⟨m.1, m.2, 1⟩⟩ (mapped ls ++ t)
        match stageGo rd fail (a / 12288) 8 0 x.desc.troot.toNat [] with
        | (ns, .error e) => (ns, .error e)
        | (ns, .ok (e, leaf, node, k, tr)) =>
          let sz := 64 ^ (7 - k)
          let pn := e % 2 ^ 44
          if k < 5 || e / 2 ^ 44 % 8 != 0 || (bitAt e 61 && !bitAt e 62) || pn % sz != 0 then (ns, .error fail)
          else
            let l : Lvl :=
              { ctx := c, depth := x.depth, input := a, r := bitAt e 62, w := bitAt e 61 && !bitAt e 49
                x := bitAt e 60, cow := bitAt e 49, home := e / 2 ^ 58 % 4, key := e / 2 ^ 50 % 256, pn, size := sz
                leaf, node }
            let out := pn * 12288 + a % (sz * 12288)
            if l.home == 1 then (ns, .ok ([l], out, tr))
            else
              match x.parent with
              | none =>
                if 2 ^ 52 ≤ out then (ns, .error fail)
                else if memBytes ≤ out then (ns, .error { fail with code := 0xFF })
                else (ns, .ok ([l], out, tr))
              | some p =>
                if !x.reaches out 1 then (ns, .error fail)
                else
                  match s.walkGo n p out with
                  | (ms, .error e) => (ns ++ ms, .error e)
                  | (ms, .ok (ls, pa, t)) => (ns ++ ms, .ok (l :: ls, pa, tr ++ t))
/-- A walk's result. -/
def State.walk (s : State) (c a : Nat) : Except TErr (List Lvl × Nat × List (Nat × Nat)) := (s.walkGo 6 c a).2

/-- The flattened entry of a walk (R377). -/
def flatOf (lvl : FlatLvl) (c a : Nat) (ls : List Lvl) (pa : Nat) (tr : List (Nat × Nat)) : Flat :=
  let size := ls.foldl (fun m l => min m l.size) (64 ^ 2)
  let page := a / 12288 / size * size
  let pinned := (ls.head?.map (·.home == 1)).getD false
  { lvl, ctx := c, page, size, ppage := pa / 12288 - (a / 12288 - page), r := ls.all (·.r), w := ls.all (·.w)
    x := ls.all (·.x), cow := ls.any (·.cow), home := if pinned then 1 else composeHome ls
    key := keyOf ls, d := false, nodes := tr.eraseDups, spans := (mapped ls).map fun m => (m.1, m.2 - (a / 12288 - page))
    leaves := ls.map (·.leaf), keys := ((ls.map (·.key)).filter (· != 0)).eraseDups }

def Flat.maps (f : Flat) (c bp : Nat) : Bool := f.ctx == c && f.page ≤ bp && bp < f.page + f.size
/-- The whole trace of an entry (R377). -/
def Flat.trace (f : Flat) : List Span := f.nodes.map (fun n => ⟨n.1, n.2, 1⟩) ++ f.spans.map fun m => ⟨m.1, m.2, f.size⟩
/-- The pages through which an entry maps one base page. -/
def Flat.through (f : Flat) (bp : Nat) : List Span := f.spans.map fun m => ⟨m.1, m.2 + (bp - f.page), 1⟩

/-- Where an entry is looked up: the core's cache, its region's, then the hub's (R377). -/
def lookupLevels (core : Option Nat) : List FlatLvl :=
  match core with
  | some k => [.core k, .region (k / 8), .hub]
  | none => [.hub]

def State.flatHit (s : State) (core : Option Nat) (c bp : Nat) : Option Flat :=
  (lookupLevels core).findSome? fun lvl => s.flat.find? fun f => f.lvl == lvl && f.maps c bp
/-- The stage at which a page of a large entry leaves the grants: the walk that made the entry has tested another page of it
(R374). -/
def State.grantFail (s : State) (f : Flat) (bp a : Nat) : Option TErr :=
  ((f.through bp).zip ((f.through bp).drop 1)).findSome? fun m =>
    match s.ctx? m.1.ctx with
    | none => none
    | some x =>
      if x.reaches (m.2.page * 12288) 12288 then none else some ⟨2, x.depth, m.1.page * 12288 + a % 12288, false⟩

/-- The physical address, or pinned index and offset, that an entry gives. -/
def Flat.target (f : Flat) (a : Nat) : Nat := (f.ppage + (a / 12288 - f.page)) * 12288 + a % 12288

/-! ### Lines, sectors and poison (R186, R196, R199) -/

def State.poisoned (s : State) (a : Nat) : Bool := s.poison.contains (sectorOf a)

/-- A unit poisoned anew is none of those that stood in poison when a store still in the buffer was checked (R229). -/
def State.unheal (s : State) (unit : Nat × Nat × Nat × Nat) : State :=
  { s with groups := s.groups.map fun (x : Group) =>
      { x with sbuf := x.sbuf.map fun (e : SEntry) => { e with heals := e.heals.filter (· != unit) } } }
/-- A sector becomes poisoned, and a notice is due (R199, R202). -/
def State.poisonSector (s : State) (sec : Nat) : State :=
  if s.poison.contains sec then s
  else { s.unheal (0, 0, 0, sec) with poison := s.poison ++ [sec], notices := s.notices ++ [sec] }
def State.clearPoison (s : State) (sec : Nat) : State := { s with poison := s.poison.filter (· != sec) }

/-! ### What main memory holds of dirty sectors (R185, R197) -/

/-- Before a sector becomes dirty, its bytes in main memory are kept; a sector that is dirty already has them. -/
def State.keepStale (s : State) (sec : Nat) : State :=
  if s.stale.any (·.sector == sec) then s
  else { s with stale := s.stale ++
    [⟨sec, s.bytes (48 * sec) 48, (List.range 3).map fun i => smGet 0 s.blkKey (3 * sec + i), s.poison.contains sec⟩] }
/-- The dirty sectors of a line have been written back. -/
def State.dropStale (s : State) (line : Nat) : State := { s with stale := s.stale.filter (·.sector / 4 != line) }
/-- A dirty sector is lost: main memory's bytes stand (R197). -/
def State.revert (s : State) (t : Stale) : State :=
  { s.put (48 * t.sector) t.bytes with
    blkKey := (List.range 3).foldl (fun m i => smSet 0 m (3 * t.sector + i) (t.keys.getD i 0)) s.blkKey
    poison := s.poison.filter (· != t.sector) ++ if t.bad then [t.sector] else []
    stale := s.stale.filter (·.sector != t.sector) }

/-! ### The memory-side cache and L1 (R187, R192, R193) -/

/-- The slice and set of a line: one slice with its channel's stack (R187; DESIGN CHOICE, log 11). -/
def cacheSet (line : Nat) : Nat := chanOf line / 48 * 8192 + Config.lineHash line / 576 % 8192


/-- Dirty sectors of the L1 lines that p holds of go to the memory-side cache, each a sector written for the line's context, and clean
copies stay (R184, R214, R347). -/
def State.l1Back (s : State) (p : L1Line → Bool) : State :=
  let out := s.l1.filter fun l => p l && l.dirty != 0
  let s := out.foldl (fun (s : State) l =>
    match s.cache.find? (·.line == l.line) with
    | none => s
    | some m => s.chargePJ m.ctx (popcount l.dirty 4 * cachePJ)) s
  { s with
    l1 := s.l1.map fun (l : L1Line) => if p l then { l with dirty := 0, writers := [] } else l
    cache := s.cache.map fun (m : MSLine) =>
      out.foldl (fun (m : MSLine) l =>
        if l.line == m.line && l.key == m.key then
          { m with present := m.present ||| l.dirty, dirty := m.dirty ||| l.dirty } else m) m }
/-- A request for a line that is not the holding core's own reaches it through the directory: the line is written back,
and, where a group released it, every line that the group dirtied before the release (R214). -/
def State.recall (s : State) (core : Option Nat) (line : Nat) : State :=
  let theirs := fun (l : L1Line) => l.line == line && some l.core != core
  let gs := (s.l1.filter fun l => theirs l && l.dirty != 0).flatMap fun l =>
    (l.writers.filter (·.2)).map fun w => (l.core, w.1)
  s.l1Back fun l => theirs l || gs.any fun k => l.core == k.1 && l.writers.contains (k.2, true)
/-- A group performs a release at .co or wider: the lines that it has dirtied are marked (R214). -/
def State.l1Release (s : State) (g : Nat) : State :=
  { s with l1 := s.l1.map fun (l : L1Line) =>
      { l with writers := l.writers.map fun w => if w.1 == g then (g, true) else w } }

/-- The way to give up (R192): none while the set has room. -/
def State.victim (s : State) (c line : Nat) : Option MSLine :=
  if s.cache.length < 16 then none
  else
    let ways := s.cache.filter fun l => cacheSet l.line == cacheSet line
    let lru := fun (ls : List MSLine) => ls.foldl (fun (b : Option MSLine) l => match b with
      | none => some l
      | some m => if l.used < m.used then some l else b) none
    let count := fun c => (s.cache.filter (·.ctx == c)).length
    let quota := fun c => ((s.ctx? c).map (·.lines)).getD 0
    let free := ways.filter (!·.locked)
    if ways.length < 16 then none
    else
    match lru (free.filter fun l => quota l.ctx < count l.ctx) with
    | some l => some l
    | none =>
      match (if quota c ≤ count c then lru (free.filter (·.ctx == c)) else none) with
      | some l => some l
      | none => lru free

/-- Dirty sectors of a line, recalled from every L1, are written back to main memory, charged to the line's context; the write-back
of a lone sector of a ganged atom reads the atom first (R300). -/
def State.writeLine (s : State) (l : MSLine) : State :=
  let s := s.recall none l.line
  match s.cache.find? (·.line == l.line) with
  | none => s
  | some m =>
    let s := (s.dieWrite m.ctx m.line m.dirty m.dirty).dropStale m.line
    { s with cache := s.cache.map fun (m : MSLine) => if m.line == l.line then { m with dirty := 0 } else m }
/-- A line leaves the cache and every L1, its dirty sectors written back (R192). -/
def State.evictLine (s : State) (l : MSLine) : State :=
  let s := s.writeLine l
  { s with cache := s.cache.filter (·.line != l.line), l1 := s.l1.filter (·.line != l.line)
           leftLines := l.line :: s.leftLines.filter (· != l.line) }

/-- An access of a context reaches a line that the memory-side cache holds: sectors that are wanted and not there are
filled, with their atoms, and the sectors written become dirty. -/
def State.lineUse (s : State) (c line secs dirty : Nat) : State :=
  match s.cache.find? (·.line == line) with
  | none => s
  | some l =>
    let want := if s.ganged line then s.atomSecs line (secs ||| dirty) else secs
    let fill := lessSecs want (l.present ||| lessSecs dirty secs)
    let s := (s.chargePJ c (popcount (secs ||| dirty) 4 * cachePJ)).dramMove c line fill false
    let s := (maskSectors line dirty).foldl State.keepStale s
    { s with cache := s.cache.map fun (m : MSLine) =>
        if m.line == line then
          { m with used := s.steps, present := m.present ||| fill ||| dirty, dirty := m.dirty ||| dirty }
        else m }
/-- A line is allocated to a context, in place of the victim of its set where that is full (R192). -/
def State.lineAlloc (s : State) (c line key : Nat) : State :=
  let s := match s.victim c line with
    | some v => s.evictLine v
    | none => s
  { s with cache := ⟨line, c, key, false, 0, 0, s.steps, 0, if s.leftLines.contains line then 0xFFE else 0, []⟩ :: s.cache }
/-- An access of a context reaches a line in the memory-side cache. One that stands there under another key is first
written back and dropped (R196). `secs` are the sectors read or written in part, `dirty` those written. -/
def State.cacheTouch (s : State) (c line key secs dirty : Nat) : State :=
  match s.cache.find? (·.line == line) with
  | some l =>
    if l.key == key then s.lineUse c line secs dirty
    else ((s.evictLine l).lineAlloc c line key).lineUse c line secs dirty
  | none => (s.lineAlloc c line key).lineUse c line secs dirty

/-- Whether a HOME 2 line is locked already or can be (R193). -/
def State.lockable (s : State) (c line key : Nat) : Bool :=
  (s.cache.any fun l => l.line == line && l.locked && l.key == key) ||
  (decide ((s.cache.filter fun l => l.locked && l.line != line && cacheSet l.line == cacheSet line).length < 12) &&
   decide ((s.cache.filter fun l => l.locked && l.line != line && l.ctx == c).length <
     ((s.ctx? c).map (·.lines)).getD 0))

/-- Locks a HOME 2 line, a dirty L1 copy recalled first (R193, R243). A line that another context's access had allocated becomes the
locking context's, with no eviction: the manual names one owner, the context whose access allocates and locks it
(DESIGN CHOICE, log 84). -/
def State.lockLine (s : State) (c line key secs dirty : Nat) (via : List Span) : State :=
  let s := (s.recall none line).cacheTouch c line key secs dirty
  { s with cache := s.cache.map fun l =>
      if l.line == line && !l.locked then { l with locked := true, via := via, ctx := c } else l }
/-- An access at the base die finds a line cached under another key: it is written back and dropped (R196). -/
def State.dieTouch (s : State) (line key : Nat) : State :=
  match s.cache.find? (·.line == line) with
  | some l => if l.key == key then s else s.evictLine l
  | none => s
/-- Reaches a line as its home asks: locked for HOME 2, which can fail (R188, R193). What a HOME 3 write moves is counted once
it is written (`dieWrite`). -/
def State.homeTouch (s : State) (c line secs dirty : Nat) (f : Flat) (via : List Span) : State × Bool :=
  if f.home == 3 then
    let s := s.dieTouch line f.key
    (if dirty = 0 then s.dramMove c line secs false else s, true)
  else if f.home == 2 then
    if s.lockable c line f.key then (s.lockLine c line f.key secs dirty via, true) else (s, false)
  else
    let s := (s.recall none line).cacheTouch c line f.key secs dirty
    (if dirty = 0 then s else { s with l1 := s.l1.filter (·.line != line) }, true)
/-- A HOME 2 line that cannot be locked is filled without a lock, for an access that has no cause to report that
(DESIGN CHOICE, log 90). -/
def State.softTouch (s : State) (c line secs : Nat) (f : Flat) (via : List Span) : State :=
  let r := s.homeTouch c line secs 0 f via
  if r.2 then r.1 else (s.recall none line).cacheTouch c line f.key secs 0

/-- The lines that a core's operand-stream windows take from its L1 (R184, R263). -/
def State.windowLines (s : State) (core : Nat) : Nat :=
  (((s.groups.filter fun x => x.core == core && x.resident && !x.retired).flatMap (·.subs)).filter (·.isOpen)).foldl
    (fun n u => n + u.w * u.stride / 192) 0
/-- The least recently used of some L1 lines gives up its place, its dirty sectors written back. -/
def State.l1Drop (s : State) (ls : List L1Line) : State :=
  match ls with
  | [] => s
  | l :: rest =>
    let v := rest.foldl (fun (b : L1Line) m => if m.used < b.used then m else b) l
    let s := s.l1Back fun m => m.core == v.core && m.line == v.line
    { s with l1 := s.l1.filter fun m => !(m.core == v.core && m.line == v.line) }
/-- Lines of a core's L1 give up their places until `room` more fit into its 2,048 beside the windows (R184, R263). -/
def State.l1Trim (s : State) (core room : Nat) : Nat → State
  | 0 => s
  | n + 1 =>
    let mine := s.l1.filter (·.core == core)
    if mine.length + s.windowLines core + room ≤ 2048 then s else (s.l1Drop mine).l1Trim core room n
/-- The windows that have just been opened take their lines from a core's L1 (R263). -/
def State.l1Fit (s : State) (core : Nat) : State := s.l1Trim core 0 s.l1.length
/-- Room for one more line in a core's L1: 8 ways of its set, and 2,048 lines with the windows (R184; the set and the
order of replacement are DESIGN CHOICE, log 10). -/
def State.l1Room (s : State) (core line : Nat) : State :=
  let set := s.l1.filter fun l => l.core == core && l.line % 256 == line % 256
  (if 8 ≤ set.length then s.l1Drop set else s).l1Trim core 1 s.l1.length

/-- A core's L1 holds a sector of a HOME 0 line (R184); a store makes it dirty and takes the line from other cores. -/
def State.l1Touch (s : State) (core line key sector g : Nat) (dirty : Bool) : State :=
  let bit := 2 ^ sector
  let s := s.recall (some core) line
  let s := if dirty then
      { s.keepStale (4 * line + sector) with l1 := s.l1.filter fun l => !(l.line == line && l.core != core) } else s
  let mark := fun (ws : List (Nat × Bool)) => if !dirty || ws.any (·.1 == g) then ws else ws ++ [(g, false)]
  match s.l1.find? fun l => l.core == core && l.line == line && l.key == key with
  | some _ =>
    { s with l1 := s.l1.map fun l =>
        if l.core == core && l.line == line then
          { l with present := l.present ||| bit, dirty := if dirty then l.dirty ||| bit else l.dirty
                   writers := mark l.writers, used := s.steps }
        else l }
  | none =>
    let s := s.l1Room core line
    { s with l1 := ⟨core, line, key, bit, if dirty then bit else 0, mark [], s.steps⟩ :: s.l1 }

/-! ### Banks (R221, R222) -/

/-- Whether two lines share a bank: a slice has one for each of its stack's channels. -/
def sameBank (l m : Nat) : Bool := l == m || chanOf l == chanOf m
/-- The key of a context's counts at the bank of a line. -/
def bankKey (line c : Nat) : Nat := chanOf line * 4096 + c
/-- A bank accepts a write of a context: it is visible from now on, and outstanding until the bank has completed it (R207, R221). -/
def State.bankTake (s : State) (w : BankWrite) : State :=
  let n := smGet (0, 0) s.banks (bankKey w.line w.ctx)
  { s with bankQ := s.bankQ ++ [w], banks := smSet (0, 0) s.banks (bankKey w.line w.ctx) (n.1 + 1, n.2) }
/-- The write that the bank of a line completes next (R222): the oldest of the context whose turn it is in the round over the
contexts with writes outstanding there, which goes up from the context served last. -/
def State.bankNext (s : State) (line : Nat) : Option BankWrite :=
  let here := s.bankQ.filter fun v => sameBank line v.line
  let last := smGet 0 s.bankLast (chanOf line)
  let after := fun c => (c + 4096 - (last + 1) % 4096) % 4096
  match here with
  | [] => none
  | v :: rest =>
    let c := rest.foldl (fun c w => if w.ctx != c && decide (after w.ctx < after c) then w.ctx else c) v.ctx
    here.find? (·.ctx == c)
/-- The bank of a line completes its next write, which waits for nothing else (R222). -/
def State.bankServe (s : State) (line : Nat) : State :=
  match s.bankNext line with
  | none => s
  | some w =>
    let n := smGet (0, 0) s.banks (bankKey w.line w.ctx)
    { s with bankQ := s.bankQ.erase w, banks := smSet (0, 0) s.banks (bankKey w.line w.ctx) (n.1, n.2 + 1)
             bankLast := smSet 0 s.bankLast (chanOf w.line) w.ctx }
/-- The banks where a context has writes outstanding, each with its accepted count, as a fence records them. -/
def State.bankMarks (s : State) (c : Nat) : List (Nat × Nat) :=
  ((s.bankQ.filter (·.ctx == c)).map fun w => (bankKey w.line c, (smGet (0, 0) s.banks (bankKey w.line c)).1)).eraseDups
/-- Whether every bank recorded has completed the writes that it had accepted. -/
def State.banksDone (s : State) (marks : List (Nat × Nat)) : Bool :=
  marks.all fun m => decide (m.2 ≤ (smGet (0, 0) s.banks m.1).2)

/-! ### Composed translation (R371 to R378) -/

/-- Whether a recording session is open in some context (R429). -/
def State.recording (s : State) : Bool := s.contexts.any fun c => bitAt (smGet 0 c.obs 0x2028).toNat 63
/-- Lines that an unrecorded agent writes (R434). -/
def State.unrecorded (s : State) (lines : List Nat) : State :=
  if s.recording then
    { s with cache := s.cache.map fun (m : MSLine) => if lines.contains m.line then { m with writer := 0xFFE } else m }
  else s

/-- A page-table entry is read or written in the memory that holds it: through the memory-side cache, its line locked for a
HOME 2 page where it can be (DESIGN CHOICE, log 90), or at the base die, and never in L1 (R373, R375, R193). -/
def State.nodeTouch (s : State) (c : Nat) (write : Bool) (n : Node) : State :=
  let line := lineOf n.pa
  let bit := 2 ^ (sectorOf n.pa % 4)
  let d := if write then bit else 0
  if n.home = 3 then
    let s := s.dieTouch line n.key
    if write then s else s.dramMove c line bit false
  else
    let s := s.recall none line
    let s := if n.home = 2 && s.lockable c line n.key then s.lockLine c line n.key bit d n.via
      else s.cacheTouch c line n.key bit d
    if write then { s with l1 := s.l1.filter (·.line != line) }.unrecorded [line] else s
/-- Sets bit `bit` of the byte at `off` of an entry, where it is clear (R375); an entry under an erased key is out of
reach. -/
def State.setPteBit (s : State) (c off : Nat) (bit : Byte) (leaf : Node) : State :=
  match s.instOf leaf.key with
  | none => s
  | some inst =>
    let b := s.readUnder inst (leaf.pa + off)
    if b &&& bit != 0 then s
    else
      let s := (s.nodeTouch c true leaf).writeUnder inst (leaf.pa + off) (b ||| bit)
      if leaf.home = 3 then s.dieWrite c (lineOf leaf.pa) (2 ^ (sectorOf leaf.pa % 4)) 0 else s
/-- Sets A in the leaf of every level (R375). -/
def State.setA (s : State) (c : Nat) (leaves : List Node) : State := leaves.foldl (fun s l => s.setPteBit c 5 0x80 l) s
/-- Sets D in the leaf of every level (R375). -/
def State.setD (s : State) (c : Nat) (leaves : List Node) : State := leaves.foldl (fun s l => s.setPteBit c 6 0x01 l) s

/-- The entries that a flattening cache holds (R6, R7, R8). -/
def FlatLvl.size : FlatLvl → Nat
  | .core _ => 1024
  | .region _ => 16384
  | .hub => 262144
/-- An entry enters one cache; a full one gives up its oldest (DESIGN CHOICE, log 10). -/
def flatPut (fs : List Flat) (f : Flat) : List Flat :=
  let rest := fs.filter fun g => !(g.lvl == f.lvl && g.ctx == f.ctx && g.page == f.page)
  let mine := rest.filter (·.lvl == f.lvl)
  if mine.length < f.lvl.size then f :: rest
  else f :: (rest.reverse.eraseP (·.lvl == f.lvl)).reverse
/-- A walk's entry enters the core's, the region's and the hub's cache (R377). -/
def State.flatFill (s : State) (core : Option Nat) (f : Flat) : State :=
  { s with flat := (lookupLevels core).foldl (fun fs l => flatPut fs { f with lvl := l }) s.flat }

/-- A hit serves the access if the entry's permissions and the grants of the page give it. -/
def State.flatServe (s : State) (c a : Nat) (acc : Acc) (f : Flat) : Except TErr Flat :=
  let ok := match acc with
    | .r => f.r
    | .w => f.w
    | .x => f.x
    | .rw => f.r && f.w
  match s.grantFail f (a / 12288) a with
  | some e => .error e
  | none =>
    if ok then .ok f
    else
      -- The failing stage is the one that a walk finds (R374).
      match s.walk c a with
      | .ok (ls, _, _) => .error ((s.accFail ls acc).getD ⟨3, s.depth c, a, f.cow⟩)
      | .error _ => .error ⟨3, s.depth c, a, f.cow⟩
/-- On a miss the walk reads the nodes, sets A and fills (R373, R375, R377). -/
def State.flatMiss (s : State) (core : Option Nat) (c a : Nat) (acc : Acc) : State × Except TErr Flat :=
  let w := s.walkGo 6 c a
  let t := w.1.foldl (fun t n => t.nodeTouch c false n) s
  match w.2 with
  | .error e => (t, .error e)
  | .ok (ls, pa, tr) =>
    match ls.tail.find? (·.home == 1), s.accFail ls acc with
    | some l, _ => (t, .error ⟨2, l.depth, l.input, false⟩)
    | none, some e => (t, .error e)
    | none, none =>
      let f := flatOf .hub c a ls pa tr
      ((t.setA c f.leaves).flatFill core f, .ok f)
/-- The first write through an entry sets D (R375). -/
def State.flatDirty (s : State) (c : Nat) (f : Flat) : State :=
  let s := s.setD c f.leaves
  { s with flat := s.flat.map fun g =>
      if g.ctx == f.ctx && g.page == f.page && g.ppage == f.ppage then { g with d := true } else g }
/-- The composed translation of one address for an access, through the flattening caches (R374, R377, R378). -/
def State.translate (s : State) (core : Option Nat) (c a : Nat) (acc : Acc) : State × Except TErr Flat :=
  if 2 ^ 57 ≤ a then (s, .error ⟨2, s.depth c, a, false⟩)
  else
    let found : State × Except TErr Flat :=
      match s.flatHit core c (a / 12288) with
      | some f => (s, s.flatServe c a acc f)
      | none => s.flatMiss core c a acc
    match found with
    | (s, .error e) => (s, .error e)
    | (s, .ok f) => (if (acc == .w || acc == .rw) && !f.d then s.flatDirty c f else s, .ok f)

/-! ### Accesses for a context as a whole (R466) -/

/-- Translates one byte address for the hub or an engine: never core-pinned pages. -/
def State.hubTranslate (s : State) (core : Option Nat) (c a : Nat) (acc : Acc) :
    State × Except TErr (Nat × Flat × Nat) :=
  match s.translate core c a acc with
  | (s, .error e) => (s, .error (if e.code = 0xFF then { e with code := 2 } else e))
  | (s, .ok f) =>
    if f.home == 1 then (s, .error ⟨4, s.depth c, a, false⟩)
    else
      match s.instOf f.key with
      | none => (s, .error ⟨5, s.depth c, a, false⟩)
      | some inst => (s, .ok (f.target a, f, inst))

/-- Splits a range of n bytes at base-page boundaries: (address, length), at most `fuel` pieces. -/
def pagePieces : Nat → Nat → Nat → List (Nat × Nat)
  | 0, _, _ => []
  | fuel + 1, a, n =>
    if n = 0 then []
    else
      let k := min n (12288 - a % 12288)
      (a, k) :: pagePieces fuel (a + k) (n - k)
def pieces (a n : Nat) : List (Nat × Nat) := pagePieces (n / 12288 + 2) a n

/-- Lines that n bytes from a physical address touch. -/
def linesIn (a n : Nat) : List Nat :=
  if n = 0 then [] else (List.range (lineOf (a + n - 1) + 1 - lineOf a)).map fun i => lineOf a + i
def sectorsIn (a n : Nat) : List Nat :=
  if n = 0 then [] else (List.range (sectorOf (a + n - 1) + 1 - sectorOf a)).map fun i => sectorOf a + i

/-- The sectors of a line that n bytes from a physical address touch, or, with `whole`, cover. -/
def lineSecs (pa n line : Nat) (whole : Bool) : Nat :=
  ((List.range 4).filter fun i =>
    let a := line * 192 + i * 48
    if whole then decide (pa ≤ a) && decide (a + 48 ≤ pa + n) else decide (pa < a + 48) && decide (a < pa + n)).foldl
    (fun m i => m + 2 ^ i) 0
/-- The lines of one page's part of an access are reached as their home asks; one that cannot be locked fails it, unless `soft`. -/
def State.touchList (s : State) (c pa n a : Nat) (f : Flat) (write soft : Bool) : List Nat → State × Except TErr Unit
  | [] => (s, .ok ())
  | l :: rest =>
    let all := lineSecs pa n l false
    let via := f.through (a / 12288)
    let r := if write then s.homeTouch c l (lessSecs all (lineSecs pa n l true)) all f via
      else if soft then (s.softTouch c l all f via, true) else s.homeTouch c l all 0 f via
    if r.2 then r.1.touchList c pa n a f write soft rest
    else (s, .error ⟨6, 0xFF, a + (l * 192 - pa), false⟩)
def State.touchLines (s : State) (c pa n a : Nat) (f : Flat) (write soft : Bool) : State × Except TErr Unit :=
  s.touchList c pa n a f write soft (linesIn pa n)
/-- Bytes that have been written at the base die have crossed their channels (R188, R300). -/
def State.diePut (s : State) (c pa n : Nat) : State :=
  (linesIn pa n).foldl (fun s l => s.dieWrite c l (lineSecs pa n l false) (lineSecs pa n l true)) s

/-- Bytes of one page are read where a translation has found them. -/
def State.readAt (s : State) (c pa n a : Nat) (f : Flat) (inst : Nat) (soft : Bool) : State × Except TErr (List Byte) :=
  match (sectorsIn pa n).find? (fun sec => s.poison.contains sec) with
  | some sec => (s, .error ⟨7, 0xFF, a + (sec * 48 - pa), false⟩)
  | none =>
    match s.touchLines c pa n a f false soft with
    | (s, .error e) => (s, .error e)
    | (s, .ok _) => (s, .ok ((List.range n).map fun i => s.readUnder inst (pa + i)))
/-- One page's part of a context read; `soft`, of an engine that has no cause for a line that cannot be locked (R268, R278). -/
def State.readPiece (s : State) (core : Option Nat) (c a n : Nat) (acc : Acc) (soft : Bool) : State × Except TErr (List Byte) :=
  match s.hubTranslate core c a acc with
  | (s, .error e) => (s, .error e)
  | (s, .ok (pa, f, inst)) => s.readAt c pa n a f inst soft

/-- Reads n bytes at a context's address. -/
def State.ctxReadL (s : State) (core : Option Nat) (c : Nat) (acc : Acc) :
    List (Nat × Nat) → State × Except TErr (List Byte)
  | [] => (s, .ok [])
  | (a, n) :: rest =>
    match s.readPiece core c a n acc false with
    | (s, .error e) => (s, .error e)
    | (s, .ok bs) =>
      match s.ctxReadL core c acc rest with
      | (s, .error e) => (s, .error e)
      | (s, .ok bs') => (s, .ok (bs ++ bs'))
def State.ctxRead (s : State) (core : Option Nat) (c : Nat) (a : DWord) (n : Nat) (acc : Acc) :
    State × Except TErr (List Byte) :=
  if 2 ^ 57 < a.toNat + n then (s, .error ⟨2, s.depth c, a.toNat, false⟩)
  else s.ctxReadL core c acc (pieces a.toNat n)

/-- The sectors of a write that it covers in part and that are poisoned (R200). -/
def State.partPoison (s : State) (pa n : Nat) : Option Nat :=
  (sectorsIn pa n).find? fun sec => s.poison.contains sec && !(decide (pa ≤ sec * 48) && decide (sec * 48 + 48 ≤ pa + n))

/-- n bytes of a page are read, or are to be written, through the memory-side cache or at the base die: a dirty L1 copy is recalled
first, and a write leaves no L1 copy and no recorded writer (R184, R188, R434). -/
def State.memSide (s : State) (c pa n home key : Nat) (write : Bool) : State :=
  if home == 3 then
    (linesIn pa n).foldl (fun (s : State) l =>
      let s := s.dieTouch l key
      if write then s else s.dramMove c l (lineSecs pa n l false) false) s
  else
    let s := (linesIn pa n).foldl (fun (s : State) l =>
      let all := lineSecs pa n l false
      let s := s.recall none l
      if write then
        { s.cacheTouch c l key (lessSecs all (lineSecs pa n l true)) all with l1 := s.l1.filter (·.line != l) }
      else s.cacheTouch c l key all 0) s
    if write then s.unrecorded (linesIn pa n) else s

/-- Bytes of one page are written where a translation has found them. -/
def State.writeAt (s : State) (c pa a : Nat) (f : Flat) (inst : Nat) (bs : List Byte) : State × Except TErr Unit :=
  match s.partPoison pa bs.length with
  | some sec => (s, .error ⟨7, 0xFF, a + (sec * 48 - pa), false⟩)
  | none =>
    match s.touchLines c pa bs.length a f true false with
    | (s, .error e) => (s, .error e)
    | (s, .ok _) =>
      let s := ((sectorsIn pa bs.length).foldl State.clearPoison s).unrecorded (linesIn pa bs.length)
      let s := ((List.range bs.length).zip bs).foldl (fun s (i, b) => s.writeUnder inst (pa + i) b) s
      (if f.home == 3 then s.diePut c pa bs.length else s, .ok ())
/-- One page's part of a context write. -/
def State.writePiece (s : State) (core : Option Nat) (c a : Nat) (bs : List Byte) : State × Except TErr Unit :=
  match s.hubTranslate core c a .w with
  | (s, .error e) => (s, .error e)
  | (s, .ok (pa, f, inst)) => s.writeAt c pa a f inst bs

def State.ctxWriteL (s : State) (core : Option Nat) (c : Nat) : List (Nat × Nat) → List Byte → State × Except TErr Unit
  | [], _ => (s, .ok ())
  | (a, n) :: rest, bs =>
    match s.writePiece core c a (bs.take n) with
    | (s, .error e) => (s, .error e)
    | (s, .ok _) => s.ctxWriteL core c rest (bs.drop n)
/-- Whether every page of a range can be written, before any byte is. -/
def State.canWrite (s : State) (core : Option Nat) (c : Nat) : List (Nat × Nat) → State × Except TErr Unit
  | [] => (s, .ok ())
  | (a, n) :: rest =>
    match s.hubTranslate core c a .w with
    | (s, .error e) => (s, .error e)
    | (s, .ok (pa, f, _)) =>
      match s.partPoison pa n, (if f.home == 2 then (linesIn pa n).find? fun l => !s.lockable c l f.key else none) with
      | some sec, _ => (s, .error ⟨7, 0xFF, a + (sec * 48 - pa), false⟩)
      | none, some l => (s, .error ⟨6, 0xFF, a + (l * 192 - pa), false⟩)
      | none, none => s.canWrite core c rest
/-- Writes bytes at a context's address; nothing is written when a page of it cannot be. -/
def State.ctxWrite (s : State) (core : Option Nat) (c : Nat) (a : DWord) (bs : List Byte) : State × Except TErr Unit :=
  if 2 ^ 57 < a.toNat + bs.length then (s, .error ⟨2, s.depth c, a.toNat, false⟩)
  else
    let ps := pieces a.toNat bs.length
    match s.canWrite core c ps with
    | (s, .error e) => (s, .error e)
    | (s, .ok _) => s.ctxWriteL core c ps bs

end Sys2Proof.Machine
end

