-- ==== Sys2Proof/Machine/Hub.lean ====
section
/-! DEFINITION. What the hub keeps and every chapter shares: bins and the continuation pool (R324 to R327), event counters
(R426, R427), rings (R307, R467), trace buffers (R433), the mailbox and debug stops (R441 to R445), and copy-on-write (R419). -/

namespace Sys2Proof.Machine

/-! ### Bins and pool (R324, R326) -/

/-- A record joins the filling bin of its key or takes a free bin of the region (R324, R450). -/
def State.binRec (s : State) (ctx region : Nat) (r : Rec) : Option State :=
  let key := fun (b : Bin) =>
    b.region == region && b.ctx == ctx && !b.closed &&
      (match b.recs.head? with
       | some q => q.entry == r.entry && q.control == r.control
       | none => false)
  match s.bins.find? key with
  | some b =>
    let recs := b.recs ++ [r]
    let full := decide (32 ≤ recs.length)
    some { s with
      fresh := s.fresh + 1
      bins := s.bins.map fun x =>
        if x.region == region && x.idx == b.idx then
          { x with recs := recs, closed := full, closeNo := if full then s.fresh else x.closeNo }
        else x }
  | none =>
    let used := (s.bins.filter (·.region == region)).map (·.idx)
    match (List.range 64).find? fun i => !used.contains i with
    | some i => some { s with bins := s.bins ++ [⟨region, i, ctx, [r], false, s.ns.toNat, 0⟩] }
    | none => none

/-- Records of the context in its pool, parked or not. -/
def State.poolCount (s : State) (ctx : Nat) : Nat := (s.pool.filter (·.ctx == ctx)).length

/-- The pool's address and capacity. -/
def State.poolDesc (s : State) (ctx : Nat) : DWord × Nat :=
  ((s.ctx? ctx).map fun c => (c.desc.pool, c.desc.pooln)).getD (0, 0)
/-- The address of a slot of the pool. -/
def State.poolAddr (s : State) (ctx k : Nat) : DWord := (s.poolDesc ctx).1 + BitVec.ofNat 64 (64 * k)
/-- The lowest-numbered slot that holds no record: the arrangement within the pool is the hub's own (DESIGN CHOICE, log 17). -/
def State.poolSlot (s : State) (ctx : Nat) : Nat :=
  let used := (s.pool.filter (·.ctx == ctx)).map (·.slot)
  ((List.range (used.length + 1)).find? fun i => !used.contains i).getD 0
/-- The 64 bytes of a record (R322). -/
def Rec.bytes (r : Rec) : List Byte :=
  leBytes 8 r.entry.toNat ++ (List.range 14).flatMap fun i => leBytes 4 (r.payload.getD i 0).toNat
/-- A record as its bytes give it; the hub keeps its mark and its order (R450). -/
def Rec.ofBytes (r : Rec) (bs : List Byte) : Rec :=
  { r with entry := BitVec.ofNat 64 (leNat (bs.take 8))
           payload := (List.range 14).map fun i => BitVec.ofNat 32 (leNat ((bs.drop (8 + 4 * i)).take 4)) }
/-- The hub reads the bytes of a pooled record at context scope (R326). -/
def State.poolRead (s : State) (r : PoolRec) : State × Except TErr Rec :=
  match s.ctxRead none r.ctx (s.poolAddr r.ctx r.slot) 64 .r with
  | (s, .error e) => (s, .error e)
  | (s, .ok bs) => (s, .ok (r.rec_.ofBytes bs))

/-- A WORK_INVALID record for a pooled record whose read fails (R326, R392). -/
def State.poolLost (s : State) (r : PoolRec) (e : TErr) : State :=
  s.raise { TrapRec.empty with
    cause := 0x1D, reason := e.code, ctx := r.ctx, depth := s.depth r.ctx, sdep := e.sdep, addr := s.poolAddr r.ctx r.slot
    aux := BitVec.ofNat 64 e.addr }

/-- The first element that satisfies p, and the list without it. -/
def takeFirst {α : Type} (p : α → Bool) : List α → Option (α × List α)
  | [] => none
  | x :: xs =>
    if p x then some (x, xs)
    else
      match takeFirst p xs with
      | some (y, ys) => some (y, x :: ys)
      | none => none

/-- A pooled record goes to a bin; none while none takes it. One that cannot be read is reported and lost (R326). -/
def State.poolToBin (s : State) (r : PoolRec) : Option State :=
  match s.binRec r.ctx r.region r.rec_ with
  | none => none
  | some _ =>
    let rest := { s with pool := s.pool.filter fun q => !(q.ctx == r.ctx && q.slot == r.slot) }
    match rest.poolRead r with
    | (t, .error e) => some (t.poolLost r e)
    | (t, .ok q) => t.binRec r.ctx r.region q
/-- While a region has a free bin or a joinable one, it takes its oldest pooled record that is not parked (R326). -/
def State.refill (s : State) (region : Nat) : Nat → State
  | 0 => s
  | n + 1 =>
    match s.pool.find? fun r => r.region == region && r.parked.isNone with
    | none => s
    | some r =>
      match s.poolToBin r with
      | none => s
      | some t => t.refill region n
/-- A released record enters a bin, or the pool while that has room; else it stays parked at its counter (R304, R327). -/
def State.releaseOne (s : State) (r : PoolRec) : State :=
  match s.poolToBin r with
  | some t => t
  | none =>
    if s.poolCount r.ctx < (s.poolDesc r.ctx).2 then
      { s with pool := s.pool.map fun q => if q.ctx == r.ctx && q.slot == r.slot then { q with parked := none, due := false } else q }
    else s
/-- Released records that waited for room, of every region, in parking order; one that finds room can make some for another. -/
def State.releaseDues (s : State) : Nat → State
  | 0 => s
  | n + 1 => ((s.pool.filter (·.due)).foldl State.releaseOne s).releaseDues n
/-- The records that bins or pool have room for: those of a region that are pooled first, then those released (R304, R326,
R327). -/
def State.refillAll (s : State) (region : Nat) : State :=
  let s := s.refill region s.pool.length
  s.releaseDues (s.pool.filter (·.due)).length

/-! ### Event counters (R426, R427) -/

/-- Sets an event counter and releases the records whose target it reaches (R327); a counter that the context lacks is left
(R427). -/
def State.setCounter (s : State) (ctx idx : Nat) (v : DWord) : State :=
  match s.ctx? ctx with
  | none => s
  | some c =>
    if c.counters ≤ idx then s
    else
      let s := s.modCtx ctx fun c => { c with ev := smSet 0 c.ev idx v }
      let hit := fun (r : PoolRec) =>
        r.ctx == ctx && (match r.parked with
          | some (i, t) => i == idx && decide (t.toNat ≤ v.toNat)
          | none => false)
      let regions := ((s.pool.filter hit).map (·.region)).eraseDups
      regions.foldl State.refillAll { s with pool := s.pool.map fun r => if hit r then { r with due := true } else r }
def State.counter (s : State) (ctx idx : Nat) : DWord :=
  match s.ctx? ctx with
  | none => 0
  | some c => smGet 0 c.ev idx
/-- Adds one on a program's behalf (R427). -/
def State.bumpCounter (s : State) (ctx idx : Nat) : State := s.setCounter ctx idx (s.counter ctx idx + 1)

/-! ### Rings (R307, R467) -/

/-- How a record meets its ring: its index, no room, or why the ring is unusable, code 0 where no access failed (R364, R467). -/
inductive RingRes where
  | ok (index : Word)
  | full
  | bad (e : TErr)
  deriving DecidableEq, Repr, Inhabited

structure Ring where
  base : Nat
  head : Word
  tail : Word
  log2n : Nat
  ctr : Nat
  lost : Nat
  deriving DecidableEq, Repr, Inhabited

/-- A ring descriptor's fields (R307). -/
def ringOf (bs : List Byte) : Ring :=
  let f := fun o n => leNat ((bs.drop o).take n)
  { base := f 0 8, head := BitVec.ofNat 32 (f 8 4), tail := BitVec.ofNat 32 (f 12 4), log2n := f 16 1, ctr := f 18 2
    lost := f 20 4 }

/-- Reads a descriptor and tests it as its producer does (R467). -/
def State.ringRead (s : State) (ctx : Nat) (desc : DWord) (rsize : Nat) : State × Except TErr Ring :=
  match s.ctxRead none ctx desc 32 .r with
  | (s, .error e) => (s, .error e)
  | (s, .ok bs) =>
    let r := ringOf bs
    if r.log2n < 4 || 20 < r.log2n || leNat ((bs.drop 17).take 1) != rsize || r.base % 64 != 0 then (s, .error ⟨0, 0xFF, 0, false⟩)
    else (s, .ok r)

/-- Records standing between HEAD and TAIL. -/
def Ring.used (r : Ring) : Nat := (r.tail - r.head).toNat
def Ring.slot (r : Ring) (rsize : Nat) (i : Word) : DWord :=
  BitVec.ofNat 64 (r.base + 2 ^ rsize * (i.toNat % 2 ^ r.log2n))

/-- A producer writes one record, then advances TAIL and increments CTR (R307); `keep` slots stay free (R405). -/
def State.ringAppend (s : State) (ctx : Nat) (desc : DWord) (rsize keep : Nat) (bytes : List Byte) : State × RingRes :=
  match s.ringRead ctx desc rsize with
  | (s, .error c) => (s, .bad c)
  | (s, .ok r) =>
    if 2 ^ r.log2n ≤ r.used + keep then (s, .full)
    else
      match s.canWrite none ctx (pieces (desc + 12).toNat 4) with
      | (s, .error e) => (s, .bad e)
      | (s, .ok _) =>
        match s.ctxWrite none ctx (r.slot rsize r.tail) bytes with
        | (s, .error e) => (s, .bad e)
        | (s, .ok _) =>
          match s.ctxWrite none ctx (desc + 12) (leBytes 4 (r.tail + 1).toNat) with
          | (s, .error e) => (s, .bad e)
          | (s, .ok _) => (s.bumpCounter ctx r.ctr, .ok r.tail)

/-- Whether a ring is usable to its producer, the next slot included (R467). -/
def State.ringUsable (s : State) (ctx : Nat) (desc : DWord) (rsize : Nat) : State × Bool :=
  match s.ringRead ctx desc rsize with
  | (s, .error _) => (s, false)
  | (s, .ok r) =>
    match s.canWrite none ctx (pieces (desc + 12).toNat 4) with
    | (s, .error _) => (s, false)
    | (s, .ok _) =>
      match s.canWrite none ctx (pieces (r.slot rsize r.tail).toNat (2 ^ rsize)) with
      | (s, .error _) => (s, false)
      | (s, .ok _) => (s, true)

/-- Counts a dropped record in LOST, saturating, while the descriptor can be written (R307, R467). -/
def State.ringLost (s : State) (ctx : Nat) (desc : DWord) : State :=
  match s.ctxRead none ctx desc 32 .r with
  | (s, .error _) => s
  | (s, .ok bs) =>
    let n := min (leNat ((bs.drop 20).take 4) + 1) (2 ^ 32 - 1)
    (s.ctxWrite none ctx (desc + 20) (leBytes 4 n)).1

/-! ### Trace buffers (R433) -/

/-- A SYNC of the path that a packet belongs to, in the place of packets lost before it. (DEDUCED, log 53) -/
def State.syncOf (s : State) (r : RingRec) : List Byte :=
  let p := (r.bytes.getD 1 0).toNat % 8
  match s.group? r.group with
  | some x => pktBytes 1 p x (s.depth x.ctx) (x.path p).pc (x.mask p) 0 s.ns.toNat
  | none => leField 1 1 ++ (r.bytes.drop 1).take 19 ++ leField 4 0 ++ leField 8 s.ns.toNat
def State.traceRing (s : State) (ctx : Nat) : DWord := ((s.ctx? ctx).map fun c => smGet 0 c.obs 0x2020).getD 0
/-- Packets go to the buffer in order, whose last free slot is kept; from the first that does not fit, each is dropped and
counted. -/
def State.tracePuts (s : State) (r : RingRec) : List (List Byte) → State
  | [] => s
  | b :: rest =>
    let mark := fun (t : State) (lost : Bool) =>
      { t with sessions := t.sessions.map fun z => if z.grid == r.grid then { z with lost } else z }
    match s.ringAppend r.ctx (s.traceRing r.ctx) 5 1 b with
    | (t, .ok _) => (mark t false).tracePuts r rest
    | (t, _) => mark (t.ringLost r.ctx (t.traceRing r.ctx)) true
/-- One packet goes to the buffer, after a loss behind a SYNC. -/
def State.tracePut (s : State) (r : RingRec) : State :=
  match s.sessions.find? (·.grid == r.grid) with
  | none => s
  | some ses => s.tracePuts r (if ses.lost then [s.syncOf r, r.bytes] else [r.bytes])
/-- The packets held for a grid are written, in order. -/
def State.flushTrace (s : State) (grid : Nat) : State :=
  let mine := s.traceHeld.filter (·.grid == grid)
  mine.foldl State.tracePut { s with traceHeld := s.traceHeld.filter (·.grid != grid) }
/-- A session closes; with a cause, under a TERMINATED packet in the slot kept for it (R405). -/
def State.closeSession (s : State) (grid : Nat) (cause : Option Nat) : State :=
  match s.sessions.find? (·.grid == grid) with
  | none => s
  | some ses =>
    let s := s.flushTrace grid
    let s := match cause with
      | none => s
      | some c =>
        let bytes := leField 1 11 ++ leField 1 0 ++ leField 2 (ctxField ses.ctx (s.depth ses.ctx)) ++ leField 4 0 ++
          leField 8 0 ++ leField 4 0 ++ leField 4 c ++ leField 8 s.ns.toNat
        match s.ringAppend ses.ctx (s.traceRing ses.ctx) 5 0 bytes with
        | (t, .ok _) => t
        | (t, _) => t.ringLost ses.ctx (t.traceRing ses.ctx)
    { s with sessions := s.sessions.filter (·.grid != grid) }
/-- The packets of a group's session are written, at its retirement and at every eviction. -/
def State.flushOf (s : State) (x : Group) : State :=
  match x.grid with
  | some k => if s.traceHeld.any (·.grid == k) then s.flushTrace k else s
  | none => s

/-! ### The mailbox (R444, R445) -/

/-- MBOX of a context. -/
def State.mboxOf (s : State) (ctx : Nat) : DWord := ((s.ctx? ctx).map (·.desc.mbox)).getD 0

/-- Whether the mailbox is enabled and usable (R441). -/
def State.mboxUsable (s : State) (ctx : Nat) : State × Bool :=
  let d := s.mboxOf ctx
  if d = 0 then (s, false) else s.ringUsable ctx d 6

/-- Writes a mailbox record, or holds it behind those that wait (R304, R468); a disabled or unusable mailbox takes none
(R467). -/
def State.mboxPut (s : State) (ctx g : Nat) (bytes : List Byte) : State :=
  let held := { s with mboxHeld := s.mboxHeld ++ [⟨ctx, g, 0, bytes⟩] }
  if s.mboxHeld.any (·.ctx == ctx) then held
  else
    match s.ringAppend ctx (s.mboxOf ctx) 6 0 bytes with
    | (t, .ok _) => t
    | (_, .full) => held
    | (t, .bad _) => t

/-- The next stop serial, which skips 0 (R445). -/
def State.nextSerial (s : State) (ctx : Nat) : State × Word :=
  match s.ctx? ctx with
  | none => (s, 1)
  | some c =>
    let n := c.sserial + 1
    (s.modCtx ctx fun c => { c with sserial := if n = 0 then 1 else n }, c.sserial)

/-- A mailbox record's fields (R444). -/
structure MBox where
  kind : Nat
  event : Nat
  mask : Word
  hit : Word
  pending : Bool
  fault : Bool
  index : Nat
  status : Nat
  token : Nat
  addr : DWord
  aux : DWord

def mboxBytes (g : Group) (depth p : Nat) (pc : DWord) (hdr : Bool) (pos : Nat) (b : MBox) : List Byte :=
  let fl := b.pending.toNat * 2 ^ 12 + b.fault.toNat * 2 ^ 11 + b.index % 8 * 2 ^ 8 + hdr.toNat * 2 ^ 7 +
    pos % 16 * 2 ^ 3 + p % 8
  leField 1 b.kind ++ leField 1 b.event ++ leField 2 (ctxField g.ctx depth) ++ leField 4 g.who.toNat ++
  leField 8 (pc.toNat % 2 ^ 57) ++ leField 4 b.mask.toNat ++ leField 4 b.hit.toNat ++ leField 2 fl ++
  leField 1 b.status ++ leField 1 0 ++ leField 4 b.token ++ leField 8 b.addr.toNat ++ leField 8 b.aux.toNat ++
  leField 16 0

/-- What a debug stop reports. -/
structure DStop where
  event : Nat
  index : Nat
  hit : Word
  addr : DWord
  aux : DWord
  fault : Bool

/-- The STOP record of a path under the next serial enters the mailbox (R444, R445). -/
def State.stopRecord (s : State) (g p : Nat) (d : DStop) : State × Word :=
  match s.group? g with
  | none => (s, 0)
  | some x =>
    let y := x.path p
    let (s, tok) := s.nextSerial x.ctx
    let bytes := mboxBytes x (s.depth x.ctx) p y.pc y.hdr (if y.hdr then 0 else y.pos)
      ⟨1, d.event, x.mask p, d.hit, false, d.fault, d.index, 0, tok.toNat, d.addr, d.aux⟩
    (s.mboxPut x.ctx g bytes, tok)
/-- A path's STEP is over. -/
def State.stepOver (s : State) (g p : Nat) : State :=
  s.modGroup g fun x => x.modPath p fun y => { y with stepping := false, stepped := false }
/-- One path becomes HALTED under a token of its own, and its STOP record enters the mailbox (R441, R445). -/
def State.haltPath (s : State) (g p : Nat) (d : DStop) : State :=
  match s.group? g with
  | none => s
  | some x =>
    let code := if d.event == 3 then 0x32 else if d.event ≤ 2 then 0x31 else 0
    let r := (s.emit g p 9 (x.path p).pc (x.mask p) code 0).stopRecord g p d
    (r.1.modGroup g fun x => x.modPath p fun y =>
      { y with st := .halted, dtoken := r.2.toNat, fetched := false, stepping := false, stepped := false, release := none
               stop := if code = 0 then none else some ⟨code, r.2.toNat, 0, d.event == 1⟩ }).parkedShare x.core x.ctx
/-- The end of a STEP, or a halt that ALLP asks for: with no usable mailbox there is no stop (R441, R467). -/
def State.haltIf (s : State) (g p : Nat) (d : DStop) : State :=
  match s.group? g with
  | none => s
  | some x =>
    match s.mboxUsable x.ctx with
    | (s, true) => s.haltPath g p d
    | (s, false) => s.stepOver g p
/-- A STOP record of a STEP whose path does not halt: its instruction has stopped with a cause, or its lanes have all ceased to be
live (R448). -/
def State.stepRecord (s : State) (g p : Nat) (d : DStop) : State :=
  match s.group? g with
  | none => s
  | some x =>
    match s.mboxUsable x.ctx with
    | (s, true) => (s.stopRecord g p d).1.stepOver g p
    | (s, false) => s.stepOver g p

/-- A debug word of a context (R438). -/
def State.dbgWord (s : State) (ctx a : Nat) : DWord :=
  match s.ctx? ctx with
  | none => 0
  | some c => smGet 0 c.dbg a
/-- The paths of a group that ALLP halts beside those that stop: READY, BLOCKED or in REGANG (R443). -/
def State.allOthers (s : State) (x : Group) (stops : List Nat) : List Nat :=
  if bitAt (s.dbgWord x.ctx 0x1000).toNat 62 then
    x.usedPaths.filter fun q =>
      !stops.contains q && ((x.path q).st == .ready || (x.path q).st == .blocked || (x.path q).st == .regang)
  else []
/-- The stops of some paths, and, with ALLP, of the group's other paths, in ascending path index (R443;
DEDUCED, log 109). -/
def State.stopAll (s : State) (x : Group) (stops : List Nat) (f : State → Nat → State) : State :=
  let others := s.allOthers x stops
  (List.range 8).foldl (fun s q =>
    if stops.contains q then f s q else if others.contains q then s.haltIf x.uid q ⟨5, 0, 0, 0, 0, false⟩ else s) s

/-- A precise stop of a path; when a STEP let it issue, that ends with a STOP record that carries the cause too (R448). -/
def State.stopHere (s : State) (g p : Nat) (c : Cause) : State :=
  match s.group? g with
  | none => s
  | some x =>
    let t := s.raiseStop g p c
    if (x.path p).stepping && (s.mboxUsable x.ctx).2 then
      t.stopAll x [p] fun t q => t.stepRecord g q ⟨4, 0, 0, 0, BitVec.ofNat 64 c.code, true⟩
    else t

/-- A debug stop at a path (R441, R443); with no usable mailbox it is the cause BREAKPOINT or WATCHPOINT, or, for a STEP
or HALT, no stop at all. The mailbox is tested at the path's own record (R467). -/
def State.debugStop (s : State) (g p : Nat) (d : DStop) (cause : Cause) : State :=
  let without := fun (s : State) => if d.event ≤ 3 then s.stopHere g p cause else s
  match s.group? g with
  | none => s
  | some x =>
    match s.mboxUsable x.ctx with
    | (s, true) => s.stopAll x [p] fun s q => if (s.mboxUsable x.ctx).2 then s.haltPath g q d else without s
    | (s, false) => without s

/-- After a step, the paths that a STEP released halt where they stand, and those that it emptied are reported (R448). -/
def State.haltStepped (s : State) (g : Nat) : State :=
  match s.group? g with
  | none => s
  | some x =>
    let qs := (List.range 8).filter fun q => (x.path q).stepped && ((x.path q).st == .ready || (x.path q).st == .free)
    if qs.isEmpty then s
    else s.stopAll x qs fun s q =>
      if (x.path q).st == .ready then s.haltIf g q ⟨4, 0, 0, 0, 0, false⟩ else s.stepRecord g q ⟨4, 0, 0, 0, 0, false⟩

/-! ### Copy-on-write (R419) -/

/-- Whether a part of a trace meets base pages lo to hi - 1 of context e. -/
def Span.meets (e lo hi : Nat) (t : Span) : Bool := t.ctx == e && decide (t.page < hi) && decide (lo < t.page + t.n)
/-- Whether a trace holds one of those pages. -/
def tracePass (e lo hi : Nat) (tr : List Span) : Bool := tr.any (Span.meets e lo hi)
/-- Removes the flattened entries of every cache whose trace at context e's level holds a page of a range (R379). -/
def State.dropTrace (s : State) (e lo hi : Nat) : State :=
  { s with flat := s.flat.filter fun f => !tracePass e lo hi f.trace }

/-- A page of a context's space for a copy-on-write resolution: where it lies, under the key that the leaf of the page names, if
it names one (R374). -/
def State.cowPage (s : State) (par a key : Nat) (acc : Acc) : State × Except TErr (Nat × Flat × Nat) :=
  match s.hubTranslate none par a acc with
  | (s, .error e) => (s, .error e)
  | (s, .ok (pa, f, inst)) =>
    if key = 0 then (s, .ok (pa, f, inst))
    else
      match s.instOf key with
      | none => (s, .error ⟨5, s.depth par, a, false⟩)
      | some k => (s, .ok (pa, { f with key }, k))
/-- The bytes of an old page go to a new one, both under the key of the access. -/
def State.cowCopy (s : State) (par old new key : Nat) : State × Bool :=
  match s.cowPage par old key .r with
  | (s, .error _) => (s, false)
  | (s, .ok (pa, f, inst)) =>
    match s.readAt par pa 12288 old f inst false with
    | (s, .error _) => (s, false)
    | (s, .ok bs) =>
      match s.cowPage par new key .w with
      | (s, .error _) => (s, false)
      | (s, .ok (qa, g, jnst)) =>
        match s.writeAt par qa new g jnst bs with
        | (s, .error _) => (s, false)
        | (s, .ok _) => (s, true)
/-- A leaf is rewritten to name another page: COW clear, A and D set. -/
def State.cowLeaf (s : State) (par : Nat) (l : Lvl) (npn : Nat) : State :=
  let inst := (s.instOf l.leaf.key).getD 0
  let e := leNat ((List.range 8).map fun i => s.readUnder inst (l.leaf.pa + i))
  let e := e - e % 2 ^ 44 + npn % 2 ^ 44
  let e := if bitAt e 49 then e - 2 ^ 49 else e
  let e := if bitAt e 48 then e else e + 2 ^ 48
  let e := if bitAt e 47 then e else e + 2 ^ 47
  let s := s.nodeTouch par true l.leaf
  let s := ((List.range 8).zip (leBytes 8 e)).foldl (fun s b => s.writeUnder inst (l.leaf.pa + b.1) b.2) s
  if l.leaf.home = 3 then s.dieWrite par (lineOf l.leaf.pa) (2 ^ (sectorOf l.leaf.pa % 4)) 0 else s

/-- Resolves a write that meets a COW base-page leaf of a context with an open snapshot: copy, rewrite, remove, log. False when it
cannot, and the write raises PERMISSION. A copy that itself meets a HOME 1 leaf or another memory cause, and a log that cannot
take the record, count as one that cannot be made: R419 names no place for their causes (DESIGN CHOICE, log 98). -/
def State.cowResolve (s : State) (c a : Nat) : State × Bool :=
  match s.walk c a with
  | .error _ => (s, false)
  | .ok (ls, _, _) =>
    match ls.find? (·.cow) with
    | none => (s, false)
    | some l =>
      match s.ctx? l.ctx with
      | none => (s, false)
      | some t =>
        match t.snap, t.parent with
        | some sn, some par =>
          if l.size != 1 || sn.npages ≤ sn.next || ls.any (fun m => !m.cow && !m.w) then (s, false)
          else
            let new := sn.area.toNat + sn.next * 12288
            match s.ringRead par sn.log 5 with
            | (s, .error _) => (s, false)
            | (s, .ok r) =>
              if 2 ^ r.log2n ≤ r.used then (s, false)
              else
                match s.cowCopy par (l.pn * 12288) new (keyOf (ls.take ((ls.findIdx (·.ctx == l.ctx)) + 1))) with
                | (u, false) => (u, false)
                | (u, true) =>
                  let u := u.cowLeaf par l (new / 12288)
                  let u := u.modCtx l.ctx fun c => { c with snap := some { sn with next := sn.next + 1 } }
                  let u := u.dropTrace l.ctx (l.input / 12288) (l.input / 12288 + 1)
                  let entry := leField 8 l.node ++ leField 8 l.pn ++ leField 8 (new / 12288) ++ leField 8 0
                  match u.ringAppend par sn.log 5 0 entry with
                  | (u, .ok _) => (u, true)
                  | _ => (s, false)
        | _, _ => (s, false)

/-- A translation for a write, with COW leaves resolved (R376, R419). -/
def State.translateCow (s : State) (core : Option Nat) (c a : Nat) (acc : Acc) : Nat → State × Except TErr Flat
  | 0 => s.translate core c a acc
  | n + 1 =>
    match s.translate core c a acc with
    | (s, .error e) =>
      if e.cow && e.code == 3 && (acc == .w || acc == .rw) then
        match s.cowResolve c a with
        | (s, true) => s.translateCow core c a acc n
        | (s, false) => (s, .error e)
      else (s, .error e)
    | r => r

end Sys2Proof.Machine
end

