-- ==== Sys2Proof/Machine/Operands.lean ====
section
/-! DEFINITION. Operand forms: what a source reads, when an instruction is held or stopped at issue (R87, R201), how a
result is written with its latch (R38, R68), and the one evaluation that an ALU form and its closure share. -/

namespace Sys2Proof.Machine

/-! ### The issuing path -/

/-- The group and path at issue. -/
def withIssue (s : State) (f : Group → Nat → Res) : Res :=
  match s.cur with
  | none => .fault .noIssuer
  | some i =>
    match s.group? i.g with
    | none => .fault .noIssuer
    | some x => f x i.p

/-- The group with its path past the word; a path that a STEP released then halts (R448). -/
def State.retire (s : State) (x : Group) (p : Nat) : State :=
  (s.setGroup (x.modPath p Path.advance)).haltStepped x.uid

/-- The path of a group moves past its word, the rest of the group as the state has it. -/
def State.pass (s : State) (g p : Nat) : State :=
  (s.modGroup g fun x => x.modPath p Path.advance).haltStepped g

/-! ### Registers that an operand names -/

/-- The registers of n rows from vk. -/
def Group.rows (x : Group) (k n : Nat) : List Reg := (List.range n).map fun i => .v (x.wb + k + i)

/-- The registers that a source reads. s0 and m0 are never pending (R68, R69). -/
def Group.srcRegs (x : Group) (a : Src) (wide : Bool) : List Reg :=
  match a with
  | .v n => x.rows n (if wide then 2 else 1)
  | .s n => if n = 0 then [] else [.s n]
  | .m n => if n = 0 then [] else [.m n]
  | _ => []

/-- The registers of a destination. -/
def Group.dstRegs (x : Group) (d : Dst) (wide : Bool) : List Reg :=
  match d with
  | .v n => x.srcRegs (.v n) wide
  | .s n => x.srcRegs (.s n) false
  | .m n => x.srcRegs (.m n) false
  | .off => []

/-- The guard's mask register, which the instruction reads (R37). -/
def Group.guardRegs (x : Group) (p : Nat) : List Reg :=
  let y := x.path p
  let h := y.head.toNat
  if hdrGuarded h y.pos then x.srcRegs (.m (hdrGidx h)) false else []

/-- Whether a source is a deferred latch (R55, R313). -/
def Path.deferredLatch (y : Path) : Src → Bool
  | .b n => y.dlatch.any (·.latch == n)
  | _ => false
/-- Whether it is one whose closure has not run. -/
def Path.awaitsLatch (y : Path) : Src → Bool
  | .b n => y.dlatch.any fun d => d.latch == n && d.value.isEmpty
  | _ => false
/-- A latch in a lane: the result of the closure that stands for it, or what the clause has written (R38, R55). -/
def Path.latchGet (y : Path) (n lane : Nat) : Word :=
  match y.dlatch.find? fun d => d.latch == n && laneOn d.lanes lane with
  | some d => d.value.getD lane 0
  | none => smGet 0 y.latch (n * 32 + lane)
/-- The deferred latches once latch k has been written in some lanes. -/
def Path.keepDeferred (y : Path) (k : Nat) (e : Word) : List DLatch :=
  (y.dlatch.map fun (d : DLatch) => if d.latch == k then { d with lanes := d.lanes &&& ~~~e } else d).filter (·.lanes != 0)

/-! ### Holds and the stop of R201 -/

/-- What the registers of an instruction allow. -/
inductive Gate where
  | go
  | hold
  | poison (o : Out)
  deriving Repr, Inhabited

/-- An outstanding producer of the register that met poison. -/
def Group.poisonOf (x : Group) (r : Reg) : Option Out :=
  x.outs.find? fun o => o.poison != 0 && o.regs.contains r && !o.discard.contains r

/-- Whether every sector request of an instruction has landed or met poison. -/
def Group.settled (x : Group) (inst : Nat) : Bool := !x.outs.any fun o => o.inst == inst && o.poison == 0

/-- An instruction that reads or writes a pending register is held; one whose producer met poison stops (R87, R201). -/
def Group.gate (x : Group) (rs : List Reg) : Gate :=
  match rs.findSome? x.poisonOf with
  | some o => if x.settled o.inst then .poison o else .hold
  | none => if rs.any x.pending then .hold else .go

/-- The stop of a poisoned load: the poisoned lanes, the lowest one's address, and the load's own PC (R201, R392). -/
def State.poisonStop (s : State) (x : Group) (p : Nat) (o : Out) : State :=
  let same := x.outs.filter fun q => q.inst == o.inst && q.poison != 0
  let lanes := same.foldl (fun m q => m ||| q.poison) 0
  let low := lowLane lanes
  let va := ((same.find? fun q => laneOn q.poison low).map (·.poisonVa)).getD 0
  s.stopHere x.uid p { Cause.plain 0x17 0 with
    lanes := laneVecIn (maskOf (o.whole.map (·.lane)) &&& ~~~x.helpers) lanes 7, addr := va, aux2 := o.pc
    load := o.inst }

/-- The lanes of source registers that hold a word struck by an uncorrectable error (R199). A path reads the registers in
its lanes; a helper lane never raises a fault (R15). -/
def Group.badLanes (x : Group) (p : Nat) (rs : List Reg) : Word :=
  maskOf (x.badRows.filterMap fun k => if rs.contains (.v (k / 32)) then some (k % 32) else none) &&&
    x.mask p &&& ~~~x.helpers

/-- An instruction waits for its sources, destinations and guard, then runs in its executing lanes. -/
def gated (s : State) (srcs : List (Src × Bool)) (more : Group → List Reg) (f : Group → Nat → Word → Res) : Res :=
  withIssue s fun x p =>
    let rs := srcs.flatMap (fun a => x.srcRegs a.1 a.2)
    match x.gate (x.guardRegs p ++ rs ++ more x) with
    | .hold => .next s
    | .poison o => .next (s.poisonStop x p o)
    | .go =>
      let bad := x.badLanes p rs
      if bad != 0 then
        .next (s.stopHere x.uid p { Cause.plain 0x17 0 with lanes := laneVecIn (x.exec p &&& ~~~x.helpers) bad 7 })
      else if srcs.any fun a => (x.path p).awaitsLatch a.1 then .next s
      else f x p (x.exec p)

/-- An instruction that runs once for the group when at least one lane would execute (R37). -/
def once (s : State) (srcs : List (Src × Bool)) (more : Group → List Reg) (f : Group → Nat → Word → Res) : Res :=
  gated s srcs more fun x p e => if e = 0 then .next (s.retire x p) else f x p e

/-! ### Source values -/

/-- An identity name (R71, R72). -/
def idVal (s : State) (x : Group) (i : IdName) (lane : Nat) : Nat :=
  match i with
  | .lane => lane
  | .quad => lane / 4
  | .group => if x.bin then 0 else x.gi
  | .wg => if x.bin then 0 else x.wg
  | .coh => x.idCoh.toNat
  | .grid => x.idGrid.toNat
  | .core => x.core
  | .region => x.core / 8
  | .ctx => x.ctx
  | .clk => s.cycle.toNat % 2 ^ 32

/-- An operand: a source, whether it is read at 64 bits, and the format that an immediate converts to (R32). -/
structure Oper where
  src : Src
  wide : Bool
  conv : Option FFmt

/-- The value of an immediate operand (R32, R54). -/
def Oper.immVal (o : Oper) (i : BitVec 11) : Nat :=
  match o.conv with
  | some f => (roundF f .rne (.fin (decide (i.toInt < 0)) i.toInt.natAbs 0)).1
  | none => wrapInt (if o.wide then 64 else 32) i.toInt

/-- The value of an operand in each lane; an m register gives its whole word. -/
def Oper.val (o : Oper) (s : State) (x : Group) (p lane : Nat) : Nat :=
  match o.src with
  | .v n => (x.vGet n lane).toNat + (if o.wide then 2 ^ 32 * (x.vGet (n + 1) lane).toNat else 0)
  | .b n => ((x.path p).latchGet n lane).toNat
  | .s n => if o.wide then (x.sGet n).toNat else (x.sGet n).toNat % 2 ^ 32
  | .m n => (x.mRead p n).toNat
  | .idn i => idVal s x i lane
  | .imm i => o.immVal i

/-! ### Bound operands (R314) -/

/-- Whether a register of a bound operand still has a producer before the closure. -/
def Group.awaits (x : Group) (id : Nat) (reg : Reg) : Bool :=
  (x.outs.any fun o => decide (o.id < id) && o.regs.contains reg && !o.discard.contains reg) ||
  x.rcq.any fun c => decide (c.id < id) && c.regs.contains reg && !c.discard.contains reg

/-- The next row of a pair. -/
def Reg.succ : Reg → Reg
  | .v n => .v (n + 1)
  | r => r

/-- Copies a register's 32 lanes into a row, with the marks of struck words (R199; DESIGN CHOICE, log 47). -/
def Group.copyRow (x : Group) (reg : Reg) (r : Nat) : Group :=
  match reg with
  | .v n =>
    let y := x.rowPut r (x.rowAll n)
    { y with badRows := y.badRows ++ ((List.range 32).filter fun l => x.badRows.contains (n * 32 + l)).map (r * 32 + ·) }
  | _ => x

/-- A bound input is copied into its row when its producer has written the register, in all 32 lanes; while a load has met poison,
the row holds the lanes that have landed (R320). -/
def Group.captureSlot (x : Group) (id : Nat) (c : CSlot) : Group × CSlot :=
  match c with
  | .bound reg r r2 wide rows lo hi =>
    let lo' := lo && x.awaits id reg
    let hi' := hi && x.awaits id reg.succ
    let x := if rows && lo && (!lo' || (x.poisonOf reg).isSome) then x.copyRow reg r else x
    let x := if rows && hi && (!hi' || (x.poisonOf reg.succ).isSome) then x.copyRow reg.succ r2 else x
    (x, if lo' || hi' then .bound reg r r2 wide rows lo' hi' else if rows then .row r r2 wide else .none)
  | _ => (x, c)

/-- Copies every bound input whose producer has run. -/
def Group.captureBound (x : Group) : Group :=
  x.rcq.foldl (fun x c =>
    let ra := x.captureSlot c.id c.a
    let rb := ra.1.captureSlot c.id c.b
    let rc := rb.1.captureSlot c.id c.c
    let rd := rc.1.captureSlot c.id c.d
    { rd.1 with rcq := rd.1.rcq.map fun q =>
        if q.id == c.id then { q with a := ra.2, b := rb.2, c := rc.2, d := rd.2 } else q }) x

/-! ### Results -/

/-- What a 32-bit or 64-bit result writes to an s register (R68). -/
def sExtend (wide sign : Bool) (r : Nat) : DWord :=
  if wide then BitVec.ofNat 64 r
  else if sign then (BitVec.ofNat 32 r).signExtend 64 else BitVec.ofNat 64 (r % 2 ^ 32)

/-- Writes one lane of a v register or pair. -/
def Group.vPut (x : Group) (n : Nat) (wide : Bool) (lane r : Nat) : Group :=
  let x := x.vSet n lane (BitVec.ofNat 32 r)
  if wide then x.vSet (n + 1) lane (BitVec.ofNat 32 (r / 2 ^ 32)) else x

/-- Writes a result in the executing lanes; a uniform result once, when a lane executes (R36, R69). -/
def Group.putDst (x : Group) (d : Dst) (wide sign : Bool) (e : Word) (r : Nat → Nat) : Group :=
  match d with
  | .v n => (lanesOf e).foldl (fun x l => x.vPut n wide l (r l)) x
  | .s n => if e = 0 then x else x.sSet n (sExtend wide sign (r 0))
  | .m n => x.mSet n ((lanesOf e).foldl (fun m l => setBit m l (r l % 2 == 1)) (x.mGet n))
  | .off => x

/-- Writes b(pos mod 8): a vector or mask result in the executing lanes, a uniform result in every lane (R38). (DEDUCED, log 24) -/
def Path.putLatch (y : Path) (uniform : Bool) (e : Word) (r : Nat → Nat) : Path :=
  if e = 0 then y
  else
    let k := y.pos % 8
    let lanes := if uniform then List.range 32 else lanesOf e
    { y with
      latch := lanes.foldl (fun m l => smSet 0 m (k * 32 + l) (BitVec.ofNat 32 (r (if uniform then 0 else l)))) y.latch
      dlatch := y.keepDeferred k (if uniform then 0xFFFFFFFF else e) }

/-- A status or result of a uniform instruction: s(d), zero-extended at 64 bits, and its latch (R38). -/
def Group.putStatus (x : Group) (p d : Nat) (r : DWord) : Group :=
  (x.sSet d r).modPath p fun y => y.putLatch true 1 fun _ => r.toNat

/-- A uniform instruction with a status ends (R38). -/
def State.finish (s : State) (g p d : Nat) (r : DWord) : State :=
  (s.modGroup g fun x => (x.putStatus p d r).modPath p Path.advance).haltStepped g

/-! ### ALU forms -/

/-- An ALU form: its destination, its operands a, b and c, whether it also reads its destination, whether its result
lands later, and its result and flags in each lane, from the operands' lanes, the lanes available to an exchange and the
lanes that execute. -/
structure Alu where
  d : Dst
  dwide : Bool
  dsign : Bool
  srcs : List Oper
  old : Bool
  trans : Bool
  f : Nat → (Nat → Nat → Nat) → (Nat → Nat) → Word → Word → Nat × FFlags

/-- An integer operand. -/
def opI (a : Src) (wide : Bool) : Oper := ⟨a, wide, none⟩
/-- A floating-point operand of a format. -/
def opF (a : Src) (f : FFmt) : Oper := ⟨a, false, some f⟩

/-- A form whose result in a lane depends on that lane's sources alone. -/
def aluLane (d : Dst) (dwide dsign : Bool) (srcs : List Oper) (f : (Nat → Nat) → Nat × FFlags) : Alu :=
  ⟨d, dwide, dsign, srcs, false, false, fun l v _ _ _ => f fun k => v k l⟩
/-- The same without flags. -/
def aluInt (d : Dst) (dwide dsign : Bool) (srcs : List Oper) (f : (Nat → Nat) → Nat) : Alu :=
  aluLane d dwide dsign srcs fun v => (f v, .none)

/-- The destination as a source, for a form that reads it. -/
def Alu.oldSrc (a : Alu) : List (Src × Bool) :=
  match a.old, a.d with
  | true, .v n => [(.v n, a.dwide)]
  | true, .s n => [(.s n, a.dwide)]
  | true, .m n => [(.m n, a.dwide)]
  | _, _ => []
/-- The sources of an ALU form, its destination among them where it reads that. -/
def Alu.reads (a : Alu) : List (Src × Bool) := (a.srcs.map fun o => (o.src, o.wide)) ++ a.oldSrc
/-- The registers that an ALU form reads or writes. -/
def Alu.regs (a : Alu) (x : Group) : List Reg :=
  a.srcs.flatMap (fun o => x.srcRegs o.src o.wide) ++ x.dstRegs a.d a.dwide

/-- The destination's value in each lane, for a form that reads it; free where it is suppressed (DESIGN CHOICE, log 22). -/
def Alu.oldVal (a : Alu) (s : State) (x : Group) (lane : Nat) : Nat :=
  match a.d with
  | .v n => (Oper.val (opI (.v n) a.dwide) s x 0 lane)
  | .s n => (Oper.val (opI (.s n) a.dwide) s x 0 lane)
  | .m n => (x.mGet n).toNat
  | .off => (Config.freeWord (s.free + 2 * lane)).toNat + 2 ^ 32 * (Config.freeWord (s.free + 2 * lane + 1)).toNat

/-- The result in each lane at issue. -/
def Alu.result (a : Alu) (s : State) (x : Group) (p : Nat) (e : Word) (lane : Nat) : Nat × FFlags :=
  a.f lane (fun k l => ((a.srcs[k]?).map fun o => o.val s x p l).getD 0) (a.oldVal s x) (x.mask p) e

/-- The flags that an instruction raises: never a helper lane's, but always a uniform instruction's (R144). -/
def aluFlags (uniform : Bool) (e helpers : Word) (r : Nat → Nat × FFlags) : FFlags :=
  if uniform then (if e = 0 then .none else (r 0).2)
  else (lanesOf (e &&& ~~~helpers)).foldl (fun f l => f.or (r l).2) .none

/-- A transcendental's producer: its results and flags, for when it lands (R86, R144, R163). -/
def transOut (id path : Nat) (pc : DWord) (regs : List Reg) (e : Word) (r : Nat → Nat) (fl : FFlags) : Out :=
  { id, inst := id, path, pc, op := .trans, regs, lanes := e
    accs := (lanesOf e).map fun l => ⟨l, 0, none, r l, 0⟩
    agent := 0, hist := [], acq := false, rel := false, scope := .qd, alone := false, bytes := 0, fl, discard := [], whole := []
    poison := 0, poisonVa := 0, rpl := none }

/-- What an ALU form does to its group when it runs at issue, its path moved past it. -/
def Alu.apply (a : Alu) (s : State) (x : Group) (p : Nat) (e : Word) : Group :=
  let r := a.result s x p e
  let x' := x.putDst a.d a.dwide a.dsign e fun l => (r l).1
  let x' := { x' with fl := x'.fl.or (aluFlags a.d.isS e x.helpers r) }
  x'.modPath p fun y => (y.putLatch a.d.isS e fun l => (r l).1).advance

/-- Issue of an ALU form (R36 to R40, R87). -/
def aluIssue (a : Alu) (s : State) : Res :=
  gated s a.reads (fun x => x.dstRegs a.d a.dwide) fun x p e =>
    if a.trans then
      if e = 0 then .next (s.retire x p)
      else
        let r := a.result s x p e
        let o := transOut s.fresh p (x.path p).pc (x.dstRegs a.d a.dwide) e (fun l => (r l).1) (aluFlags false e x.helpers r)
        .next ({ s with fresh := s.fresh + 1 }.retire { x with outs := x.outs ++ [o] } p)
    else
      let t := if a.old && a.d = .off then { s with free := s.free + 64 } else s
      .next ((t.setGroup (a.apply s x p e)).haltStepped x.uid)

/-! ### Latches of an instruction (R55) -/

/-- The sources of an instruction that can be latches. -/
def latchSrcs : Instr → List Src
  | .iadd _ _ a b | .isub _ _ a b | .imul _ _ a b | .imulh _ _ _ a b | .imin _ _ _ a b | .imax _ _ _ a b
  | .and _ _ a b | .or _ _ a b | .xor _ _ a b | .andn _ _ a b | .orn _ _ a b | .shl _ _ a b | .shr _ _ a b
  | .sar _ _ a b | .rot _ _ a b | .icmp _ _ _ _ a b | .qbc _ _ a b | .shfl _ _ _ a b | .shflx _ _ _ a b
  | .shflup _ _ _ a b | .shfldn _ _ _ a b | .fadd _ _ _ a b | .fmul _ _ _ a b | .fcmp _ _ _ a b | .fmin _ _ a b
  | .fmax _ _ a b => [a, b]
  | .imad _ _ a b c | .idp4 _ _ _ a b c | .shf _ _ _ a b c | .bfx _ _ _ a b c | .bfi _ _ a b c | .perm _ a b c
  | .sel _ _ a b c | .fma _ _ _ a b c | .fdp2 _ _ _ a b c | .fpack _ _ _ a b c => [a, b, c]
  | .iabs _ _ a | .ineg _ _ a | .popc _ _ a | .clz _ _ a | .ctz _ _ a | .brev _ _ a | .mov _ _ _ a | .qxch _ _ _ a
  | .vote _ _ a | .gred _ _ _ _ a | .gscan _ _ _ _ _ a | .frnd _ _ _ a | .cvt _ _ _ _ _ a | .fsqrt _ _ _ a
  | .frcp _ _ a | .frsq _ _ a | .fex2 _ _ a | .flg2 _ _ a | .fsin _ _ a | .fcos _ _ a | .ftanh _ _ a => [a]
  | .lea _ _ m => [m.index]
  | .lget _ _ _ b => [b]
  | .lput _ _ b c => [b, c]
  | .ld _ _ _ _ m | .atom _ _ _ _ _ m | .bpref _ m | .ipref _ m | .cflush _ m | .cinv _ m => [m.index]
  | .st _ _ _ x m | .red _ _ _ _ x m => [x, m.index]
  | .bra c _ =>
    match c with
    | .nz x | .z x => [x]
    | _ => []
  | _ => []

/-- The latches that an instruction reads. -/
def latchReads (i : Instr) : List Nat :=
  (latchSrcs i).filterMap fun a => match a with
    | .b n => some n
    | _ => none

/-- Whether a form has a destination field and does not mark it pending: then it writes its latch (R38, R55; DEDUCED, log 24). -/
def writesLatch : Instr → Bool
  | .iadd .. | .isub .. | .imul .. | .imulh .. | .imad .. | .iabs .. | .ineg .. | .imin .. | .imax .. | .idp4 ..
  | .and .. | .or .. | .xor .. | .andn .. | .orn .. | .shl .. | .shr .. | .sar .. | .rot .. | .shf .. | .bfx ..
  | .bfi .. | .popc .. | .clz .. | .ctz .. | .brev .. | .perm .. | .icmp .. | .sel .. | .mov .. | .movGetv ..
  | .movi .. | .moviH1 .. | .moviH2 .. | .lea .. | .qxch .. | .qbc .. | .shfl .. | .shflx .. | .shflup ..
  | .shfldn .. | .vote .. | .gred .. | .gscan .. | .fadd .. | .fmul .. | .fma .. | .fdp2 .. | .frnd .. | .fcmp ..
  | .fmin .. | .fmax .. | .cvt .. | .quant .. | .dequant .. | .fpack .. | .fpackFlags .. | .sopen .. | .sstat ..
  | .launch .. | .launchChild .. | .cpy .. | .cpyl .. | .cbatch .. | .cwait .. | .evinc .. | .evincI .. | .evset ..
  | .evrd .. | .clk .. | .clkNs .. | .dcreate .. | .dgrant .. | .dtake .. | .dfreeze .. | .dthaw .. | .dckptSave ..
  | .dckptLoad .. | .drevoke .. | .dsnapOpen .. | .dsnapClose .. | .keygen .. | .keykill .. | .hqpop ..
  | .hqdoneResume .. | .hqdoneKill .. | .hqdoneRedirect .. | .sysr .. | .sysw .. | .resume .. => true
  | _ => false

/-- Whether b(n) is written at position q of a clause whose words are `ws` (R55). -/
def latchWritten (ws : List DWord) (q n : Nat) : Bool :=
  (List.range q).any fun p => p % 8 == n && (match decode (ws.getD p 0).toNat with
    | some i => writesLatch i
    | none => false)

end Sys2Proof.Machine
end

