-- ==== Sys2Proof/Machine/Int.lean ====
section
/-! DEFINITION. Integer and bit forms (R93 to R111). -/

namespace Sys2Proof.Machine

/-- The width N of R93. -/
def widthOf (wide : Bool) : Nat := if wide then 64 else 32

/-! ### Arithmetic (R97, R98) -/

/-- An arithmetic form of R97 on exact values. -/
def aluArith (mo : IMod) (d : Dst) (srcs : List Src) (t : Int → Int → Int → Int) : Alu :=
  aluInt d mo.wide mo.signed (srcs.map fun a => opI a mo.wide) fun v =>
    let rd := fun k => readInt mo.signed (widthOf mo.wide) (v k)
    fitInt mo (t (rd 0) (rd 1) (rd 2))

def aluIadd (mo : IMod) (d : Dst) (a b : Src) : Alu := aluArith mo d [a, b] fun x y _ => x + y
def aluIsub (mo : IMod) (d : Dst) (a b : Src) : Alu := aluArith mo d [a, b] fun x y _ => x - y
def aluImul (mo : IMod) (d : Dst) (a b : Src) : Alu := aluArith mo d [a, b] fun x y _ => x * y
def aluImad (mo : IMod) (d : Dst) (a b c : Src) : Alu := aluArith mo d [a, b, c] fun x y z => x * y + z
def aluIabs (mo : IMod) (d : Dst) (a : Src) : Alu := aluArith mo d [a] fun x _ _ => Int.ofNat x.natAbs
def aluIneg (mo : IMod) (d : Dst) (a : Src) : Alu := aluArith mo d [a] fun x _ _ => -x
/-- The upper half of the exact product. -/
def aluImulh (wide signed : Bool) (d : Dst) (a b : Src) : Alu :=
  aluArith ⟨wide, signed, false⟩ d [a, b] fun x y _ => (x * y).fdiv (2 ^ widthOf wide)
def aluImin (wide signed : Bool) (d : Dst) (a b : Src) : Alu :=
  aluArith ⟨wide, signed, false⟩ d [a, b] fun x y _ => min x y
def aluImax (wide signed : Bool) (d : Dst) (a b : Src) : Alu :=
  aluArith ⟨wide, signed, false⟩ d [a, b] fun x y _ => max x y

/-- The byte dot product, exact before its one wrap or saturation (R98). -/
def idp4Sum (signed : Bool) (x y z : Nat) : Int :=
  (List.range 4).foldl
    (fun t i => t + readInt signed 8 (x / 2 ^ (8 * i)) * readInt signed 8 (y / 2 ^ (8 * i))) (readInt signed 32 z)
def aluIdp4 (signed sat : Bool) (d : Dst) (a b c : Src) : Alu :=
  aluInt d false signed [opI a false, opI b false, opI c false] fun v =>
    fitInt ⟨false, signed, sat⟩ (idp4Sum signed (v 0) (v 1) (v 2))

/-! ### Logic and shifts (R99 to R101) -/

/-- A form of two N-bit operands. -/
def aluLogic (wide : Bool) (d : Dst) (a b : Src) (f : Nat → Nat → Nat) : Alu :=
  aluInt d wide false [opI a wide, opI b wide] fun v => f (v 0) (v 1)

/-- The complement on N bits. -/
def notN (wide : Bool) (x : Nat) : Nat := 2 ^ widthOf wide - 1 - x % 2 ^ widthOf wide

def aluAnd (wide : Bool) (d : Dst) (a b : Src) : Alu := aluLogic wide d a b fun x y => x &&& y
def aluOr (wide : Bool) (d : Dst) (a b : Src) : Alu := aluLogic wide d a b fun x y => x ||| y
def aluXor (wide : Bool) (d : Dst) (a b : Src) : Alu := aluLogic wide d a b fun x y => x ^^^ y
def aluAndn (wide : Bool) (d : Dst) (a b : Src) : Alu := aluLogic wide d a b fun x y => x &&& notN wide y
def aluOrn (wide : Bool) (d : Dst) (a b : Src) : Alu := aluLogic wide d a b fun x y => x ||| notN wide y

/-- A shift of an N-bit operand by a 32-bit amount (R100). -/
def aluShift (wide : Bool) (d : Dst) (a b : Src) (f : Nat → Nat → Nat → Nat) : Alu :=
  aluInt d wide false [opI a wide, opI b false] fun v => f (widthOf wide) (v 0) (v 1)

def shlN (n x k : Nat) : Nat := if n ≤ k then 0 else x * 2 ^ k % 2 ^ n
def shrN (n x k : Nat) : Nat := if n ≤ k then 0 else x % 2 ^ n / 2 ^ k
def sarN (n x k : Nat) : Nat := wrapInt n ((sext x n).fdiv (2 ^ min k n))
def rotN (n x k : Nat) : Nat :=
  let j := k % n
  (x * 2 ^ j % 2 ^ n) + x % 2 ^ n / 2 ^ (n - j)

def aluShl (wide : Bool) (d : Dst) (a b : Src) : Alu := aluShift wide d a b shlN
def aluShr (wide : Bool) (d : Dst) (a b : Src) : Alu := aluShift wide d a b shrN
def aluSar (wide : Bool) (d : Dst) (a b : Src) : Alu := aluShift wide d a b sarN
def aluRot (wide : Bool) (d : Dst) (a b : Src) : Alu := aluShift wide d a b rotN

/-- The funnel shift of {b, a} (R101). -/
def shfN (left : Bool) (n x y k : Nat) : Nat :=
  let s := min k n
  let w := y % 2 ^ n * 2 ^ n + x % 2 ^ n
  if left then w * 2 ^ s / 2 ^ n % 2 ^ n else w / 2 ^ s % 2 ^ n
def aluShf (left wide : Bool) (d : Dst) (a b c : Src) : Alu :=
  aluInt d wide false [opI a wide, opI b wide, opI c false] fun v => shfN left (widthOf wide) (v 0) (v 1) (v 2)

/-! ### Bit fields (R102 to R105) -/

/-- bfx: the field's bits, then extended (R102). -/
def bfxN (signed : Bool) (n x pos len : Nat) : Nat :=
  let len := min len n
  if len = 0 then 0
  else
    let f := ofBits ((List.range len).map fun i =>
      if pos + i < n then bitAt x (pos + i) else signed && bitAt x (n - 1))
    wrapInt n (readInt signed len f)
def aluBfx (wide signed : Bool) (d : Dst) (a b c : Src) : Alu :=
  aluInt d wide signed [opI a wide, opI b false, opI c false] fun v =>
    bfxN signed (widthOf wide) (v 0) (v 1) (v 2)

/-- bfi: len low bits of x over y from pos (R103). -/
def bfiN (n x y c : Nat) : Nat :=
  let pos := c % 256
  let len := c / 256 % 256
  ofBits ((List.range n).map fun i =>
    if pos ≤ i && i < pos + len then bitAt x (i - pos) else bitAt y i)
def aluBfi (wide : Bool) (d : Dst) (a b c : Src) : Alu :=
  aluInt d wide false [opI a wide, opI b wide, opI c false] fun v => bfiN (widthOf wide) (v 0) (v 1) (v 2)

/-- A count or reversal of N bits (R104). -/
def aluBits (wide : Bool) (d : Dst) (a : Src) (f : Nat → Nat → Nat) : Alu :=
  aluInt d wide false [opI a wide] fun v => f (v 0) (widthOf wide)
def aluPopc (wide : Bool) (d : Dst) (a : Src) : Alu := aluBits wide d a popcount
def aluClz (wide : Bool) (d : Dst) (a : Src) : Alu := aluBits wide d a clzN
def aluCtz (wide : Bool) (d : Dst) (a : Src) : Alu := aluBits wide d a ctzN
def aluBrev (wide : Bool) (d : Dst) (a : Src) : Alu := aluBits wide d a brevN

/-- Result byte i of perm (R105). -/
def permByte (x y c i : Nat) : Nat :=
  let n := c / 2 ^ (4 * i) % 16
  let b := (y % 2 ^ 32 * 2 ^ 32 + x % 2 ^ 32) / 2 ^ (8 * (n % 8)) % 256
  if 8 ≤ n then (if 128 ≤ b then 255 else 0) else b
def permN (x y c : Nat) : Nat := packFields 8 ((List.range 4).map (permByte x y c))
def aluPerm (d : Dst) (a b c : Src) : Alu :=
  aluInt d false false [opI a false, opI b false, opI c false] fun v => permN (v 0) (v 1) (v 2)

/-! ### Compare and select (R106, R107) -/

def icmpX (cc : ICond) (x y : Int) : Bool :=
  match cc with
  | .eq => decide (x = y)
  | .ne => decide (x ≠ y)
  | .lt => decide (x < y)
  | .le => decide (x ≤ y)
  | .gt => decide (y < x)
  | .ge => decide (y ≤ x)
def aluIcmp (cc : ICond) (wide signed : Bool) (d : Dst) (a b : Src) : Alu :=
  aluInt d d.isS false [opI a wide, opI b wide] fun v =>
    let rd := fun k => readInt signed (widthOf wide) (v k)
    (icmpX cc (rd 0) (rd 1)).toNat

/-- sel: a mask bit in the vector form, a whole N-bit value in the uniform one (R107; DEDUCED, log 14). -/
def aluSel (wide : Bool) (d : Dst) (a b c : Src) : Alu :=
  { d, dwide := wide, dsign := false, srcs := [opI a wide, opI b wide, opI c wide], old := false, trans := false
    f := fun l v _ _ _ => (if (if d.isS then v 2 l != 0 else bitAt (v 2 l) l) then v 0 l else v 1 l, .none) }

/-! ### Moves and addresses (R108 to R111) -/

/-- mov: an m destination takes bit L of a mask word, or whether a lane value is not zero (R108). -/
def movVal (d : Dst) (a : Src) (l x : Nat) : Nat :=
  match d, a with
  | .m _, .v _ => (x != 0).toNat
  | .m _, .b _ => (x != 0).toNat
  | .m _, _ => (bitAt x l).toNat
  | _, _ => x
def aluMov (wide signed : Bool) (d : Dst) (a : Src) : Alu :=
  { d, dwide := wide, dsign := signed && !a.isM, srcs := [opI a wide], old := false, trans := false
    f := fun l v _ _ _ => (movVal d a l (v 0 l), .none) }
def aluMovGetv (d : Dst) (i : IdName) : Alu := aluInt d false false [opI (.idn i) false] fun v => v 0

/-- movi of R110. -/
def moviN (wide signed : Bool) (i : Nat) : Nat := wrapInt (widthOf wide) (readInt signed 24 i)
def aluMovi (wide signed : Bool) (d : Dst) (i : BitVec 24) : Alu :=
  aluInt d wide signed [] fun _ => moviN wide signed i.toNat

/-- The destination with bits [lo + n − 1 : lo] replaced. -/
def replaceBits (old lo n x : Nat) : Nat := old - fld old lo n * 2 ^ lo + x % 2 ^ n * 2 ^ lo
/-- A form that replaces bits of its destination. -/
def aluReplace (wide signed : Bool) (d : Dst) (f : Nat → Nat) : Alu :=
  { d, dwide := wide, dsign := signed, srcs := [], old := true, trans := false
    f := fun l _ o _ _ => (f (o l), .none) }
def aluMoviH1 (wide signed : Bool) (d : Dst) (i : BitVec 24) : Alu :=
  aluReplace wide signed d fun o =>
    if wide then replaceBits o 24 24 i.toNat else replaceBits (o % 2 ^ 32) 24 8 i.toNat
def aluMoviH2 (signed : Bool) (d : Dst) (i : BitVec 24) : Alu :=
  aluReplace true signed d fun o => replaceBits o 48 16 i.toNat

/-- ea(base, index, scale, offset), the index as a signed 32-bit value (R33, R41). -/
def eaOf (base index scale : Nat) (off : BitVec 16) : DWord :=
  BitVec.ofNat 64 (wrapInt 64 (Int.ofNat base + sext index 32 * 2 ^ scale + off.toInt))
def aluLea (wide : Bool) (d : Dst) (m : MemOp) : Alu :=
  aluInt d wide false [opI (.s m.base) true, opI m.index false] fun v =>
    let a := (eaOf (v 0) (v 1) m.scale m.off).toNat
    if wide then a else a % 2 ^ 32

/-! ### Meanings -/

def execIadd (mo : IMod) (d : Dst) (a b : Src) (s : State) := commit s (aluIssue (aluIadd mo d a b) s)
def execIsub (mo : IMod) (d : Dst) (a b : Src) (s : State) := commit s (aluIssue (aluIsub mo d a b) s)
def execImul (mo : IMod) (d : Dst) (a b : Src) (s : State) := commit s (aluIssue (aluImul mo d a b) s)
def execImulh (wide signed : Bool) (d : Dst) (a b : Src) (s : State) :=
  commit s (aluIssue (aluImulh wide signed d a b) s)
def execImad (mo : IMod) (d : Dst) (a b c : Src) (s : State) := commit s (aluIssue (aluImad mo d a b c) s)
def execIabs (mo : IMod) (d : Dst) (a : Src) (s : State) := commit s (aluIssue (aluIabs mo d a) s)
def execIneg (mo : IMod) (d : Dst) (a : Src) (s : State) := commit s (aluIssue (aluIneg mo d a) s)
def execImin (wide signed : Bool) (d : Dst) (a b : Src) (s : State) :=
  commit s (aluIssue (aluImin wide signed d a b) s)
def execImax (wide signed : Bool) (d : Dst) (a b : Src) (s : State) :=
  commit s (aluIssue (aluImax wide signed d a b) s)
def execIdp4 (signed sat : Bool) (d : Dst) (a b c : Src) (s : State) :=
  commit s (aluIssue (aluIdp4 signed sat d a b c) s)
def execAnd (wide : Bool) (d : Dst) (a b : Src) (s : State) := commit s (aluIssue (aluAnd wide d a b) s)
def execOr (wide : Bool) (d : Dst) (a b : Src) (s : State) := commit s (aluIssue (aluOr wide d a b) s)
def execXor (wide : Bool) (d : Dst) (a b : Src) (s : State) := commit s (aluIssue (aluXor wide d a b) s)
def execAndn (wide : Bool) (d : Dst) (a b : Src) (s : State) := commit s (aluIssue (aluAndn wide d a b) s)
def execOrn (wide : Bool) (d : Dst) (a b : Src) (s : State) := commit s (aluIssue (aluOrn wide d a b) s)
def execShl (wide : Bool) (d : Dst) (a b : Src) (s : State) := commit s (aluIssue (aluShl wide d a b) s)
def execShr (wide : Bool) (d : Dst) (a b : Src) (s : State) := commit s (aluIssue (aluShr wide d a b) s)
def execSar (wide : Bool) (d : Dst) (a b : Src) (s : State) := commit s (aluIssue (aluSar wide d a b) s)
def execRot (wide : Bool) (d : Dst) (a b : Src) (s : State) := commit s (aluIssue (aluRot wide d a b) s)
def execShf (left wide : Bool) (d : Dst) (a b c : Src) (s : State) :=
  commit s (aluIssue (aluShf left wide d a b c) s)
def execBfx (wide signed : Bool) (d : Dst) (a b c : Src) (s : State) :=
  commit s (aluIssue (aluBfx wide signed d a b c) s)
def execBfi (wide : Bool) (d : Dst) (a b c : Src) (s : State) := commit s (aluIssue (aluBfi wide d a b c) s)
def execPopc (wide : Bool) (d : Dst) (a : Src) (s : State) := commit s (aluIssue (aluPopc wide d a) s)
def execClz (wide : Bool) (d : Dst) (a : Src) (s : State) := commit s (aluIssue (aluClz wide d a) s)
def execCtz (wide : Bool) (d : Dst) (a : Src) (s : State) := commit s (aluIssue (aluCtz wide d a) s)
def execBrev (wide : Bool) (d : Dst) (a : Src) (s : State) := commit s (aluIssue (aluBrev wide d a) s)
def execPerm (d : Dst) (a b c : Src) (s : State) := commit s (aluIssue (aluPerm d a b c) s)
def execIcmp (cc : ICond) (wide signed : Bool) (d : Dst) (a b : Src) (s : State) :=
  commit s (aluIssue (aluIcmp cc wide signed d a b) s)
def execSel (wide : Bool) (d : Dst) (a b c : Src) (s : State) := commit s (aluIssue (aluSel wide d a b c) s)
def execMov (wide signed : Bool) (d : Dst) (a : Src) (s : State) := commit s (aluIssue (aluMov wide signed d a) s)
def execMovGetv (d : Dst) (i : IdName) (s : State) := commit s (aluIssue (aluMovGetv d i) s)
def execMovi (wide signed : Bool) (d : Dst) (i : BitVec 24) (s : State) :=
  commit s (aluIssue (aluMovi wide signed d i) s)
def execMoviH1 (wide signed : Bool) (d : Dst) (i : BitVec 24) (s : State) :=
  commit s (aluIssue (aluMoviH1 wide signed d i) s)
def execMoviH2 (signed : Bool) (d : Dst) (i : BitVec 24) (s : State) :=
  commit s (aluIssue (aluMoviH2 signed d i) s)
def execLea (wide : Bool) (d : Dst) (m : MemOp) (s : State) := commit s (aluIssue (aluLea wide d m) s)

end Sys2Proof.Machine
end

