-- ==== Sys2Proof/Machine/Lane.lean ====
section
/-! DEFINITION. Lane-exchange forms (R112 to R119). -/

namespace Sys2Proof.Machine

/-! ### Exchanges within a quad and shuffles (R114, R115) -/

/-- An exchange: each lane takes a's value in lane j, or its own where j is outside the path (R112). -/
def aluExchange (d : Dst) (wide : Bool) (srcs : List Oper) (j : Nat → (Nat → Nat → Nat) → Nat) : Alu :=
  { d, dwide := wide, dsign := false, srcs, old := false, trans := false
    f := fun l v _ avail _ =>
      let k := j l v
      (v 0 (if k < 32 && laneOn avail k then k else l), .none) }

/-- The source lane of qxch. -/
def qxchLane (p : QPat) (l : Nat) : Nat :=
  let i := l % 4
  4 * (l / 4) + (match p with
    | .x1 => i ^^^ 1
    | .x2 => i ^^^ 2
    | .x3 => i ^^^ 3
    | .r1 => (i + 1) % 4)
def aluQxch (p : QPat) (wide : Bool) (d : Dst) (a : Src) : Alu :=
  aluExchange d wide [opI a wide] fun l _ => qxchLane p l
def aluQbc (wide : Bool) (d : Dst) (a b : Src) : Alu :=
  aluExchange d wide [opI a wide, opI b false] fun l v => 4 * (l / 4) + v 1 l % 4

/-- The segment width. -/
def shWidth : ShW → Nat
  | .w32 => 32 | .w16 => 16 | .w8 => 8 | .w4 => 4 | .w2 => 2

def aluShuffle (w : ShW) (wide : Bool) (d : Dst) (a b : Src) (j : (wd base l k : Nat) → Nat) : Alu :=
  aluExchange d wide [opI a wide, opI b false] fun l v => j (shWidth w) (l - l % shWidth w) l (v 1 l)
def aluShfl (w : ShW) (wide : Bool) (d : Dst) (a b : Src) : Alu :=
  aluShuffle w wide d a b fun wd base _ k => base + k % wd
def aluShflx (w : ShW) (wide : Bool) (d : Dst) (a b : Src) : Alu :=
  aluShuffle w wide d a b fun wd _ l k => l ^^^ (k % wd)
def aluShflup (w : ShW) (wide : Bool) (d : Dst) (a b : Src) : Alu :=
  aluShuffle w wide d a b fun wd base l k => if k < wd && base + k ≤ l then l - k else l
def aluShfldn (w : ShW) (wide : Bool) (d : Dst) (a b : Src) : Alu :=
  aluShuffle w wide d a b fun wd base l k => if k < wd && l + k < base + wd then l + k else l

/-! ### Votes, reductions and scans (R116, R117) -/

/-- The value that vote reads in a lane: bit L of a mask, or the lane's 32 bits. -/
def voteVal (a : Src) (v : Nat → Nat → Nat) (l : Nat) : Nat :=
  if a.isM then (bitAt (v 0 l) l).toNat else v 0 l
def ballotOf (a : Src) (v : Nat → Nat → Nat) (e : Word) : Word :=
  maskOf ((lanesOf e).filter fun l => voteVal a v l != 0)
/-- The result of vote over the lanes E. -/
def voteRes (op : VoteOp) (a : Src) (v : Nat → Nat → Nat) (e : Word) : Nat :=
  let ls := lanesOf e
  match op with
  | .any => (ls.any fun l => voteVal a v l != 0).toNat
  | .all => (ls.all fun l => voteVal a v l != 0).toNat
  | .ballot => (ballotOf a v e).toNat
  | .eq => (ls.all fun l => voteVal a v l == voteVal a v (ls.headD 0)).toNat
/-- An m destination takes its lane's bit of the ballot word, or the result (R116). -/
def voteLane (op : VoteOp) (d : Dst) (a : Src) (v : Nat → Nat → Nat) (e : Word) (l : Nat) : Nat :=
  let r := voteRes op a v e
  match d, op with
  | .m _, .ballot => (bitAt r l).toNat
  | _, _ => r
def aluVote (op : VoteOp) (d : Dst) (a : Src) : Alu :=
  { d, dwide := false, dsign := false, srcs := [opI a false], old := false, trans := false
    f := fun l v _ _ e => (voteLane op d a v e l, .none) }

/-- One step of a fold (R117). -/
def redStep (op : RedOp) (signed : Bool) (n x y : Nat) : Nat :=
  match op with
  | .add => (x + y) % 2 ^ n
  | .min => if readInt signed n y < readInt signed n x then y else x
  | .max => if readInt signed n x < readInt signed n y then y else x
  | .and => x &&& y
  | .or => x ||| y
  | .xor => x ^^^ y
/-- The identity of a fold (R117). -/
def redId (op : RedOp) (signed : Bool) (n : Nat) : Nat :=
  match op with
  | .add | .or | .xor => 0
  | .and => 2 ^ n - 1
  | .min => if signed then 2 ^ (n - 1) - 1 else 2 ^ n - 1
  | .max => if signed then 2 ^ (n - 1) else 0
/-- The fold over lanes in ascending order. -/
def redFold (op : RedOp) (signed : Bool) (n : Nat) (xs : List Nat) : Nat :=
  xs.foldl (redStep op signed n) (redId op signed n)
def aluGred (op : RedOp) (wide signed : Bool) (d : Dst) (a : Src) : Alu :=
  { d, dwide := wide, dsign := signed, srcs := [opI a wide], old := false, trans := false
    f := fun _ v _ _ e => (redFold op signed (widthOf wide) ((lanesOf e).map (v 0)), .none) }
def aluGscan (op : RedOp) (ex wide signed : Bool) (d : Dst) (a : Src) : Alu :=
  { d, dwide := wide, dsign := signed, srcs := [opI a wide], old := false, trans := false
    f := fun l v _ _ e =>
      (redFold op signed (widthOf wide)
        (((lanesOf e).filter fun j => if ex then j < l else j ≤ l).map (v 0)), .none) }

/-! ### Another group's lanes (R118, R119) -/

/-- The target group of an address word, in the issuing workgroup. -/
def State.laneTarget (s : State) (coh wg w : Nat) : Option Group :=
  s.groups.find? fun t => t.coh == coh && t.wg == wg && t.gi == w / 32 % 32 && !t.retired

/-- Whether the target's register is pending, but for the issuer's producer `own`. -/
def State.targetPending (s : State) (coh wg w a : Nat) (wide : Bool) (own : Option (Nat × Nat)) : Bool :=
  match s.laneTarget coh wg w with
  | none => false
  | some t =>
    decide (a + (if wide then 2 else 1) ≤ t.win) &&
      (t.rows a (if wide then 2 else 1)).any fun r =>
        { t with outs := t.outs.filter fun o => own != some (t.uid, o.id) }.pending r

/-- A row's bytes (R73). -/
def rowBytes (ws : List Word) : List Byte := ws.flatMap fun w => leBytes 4 w.toNat
/-- Writes one row of a group to its spill slot, as the core's hub access of the context does (R73, R466). -/
def State.rowOut (s : State) (x : Group) (row : Nat) : State × Except TErr Unit :=
  s.ctxWrite none x.ctx (x.slotBase + BitVec.ofNat 64 (128 * row)) (rowBytes (x.rowAll row))
/-- A register of a group in one lane; that of a saved group as its spill slot holds it (R73, R118; a slot that cannot be read
leaves the value saved, DESIGN CHOICE, log 17). -/
def State.laneReg (s : State) (t : Group) (k lane : Nat) : Word :=
  if t.saved && !t.resident then
    match (s.ctxRead none t.ctx (t.slotBase + BitVec.ofNat 64 (128 * (t.wb + k) + 4 * lane)) 4 .r).2 with
    | .ok bs => BitVec.ofNat 32 (leNat bs)
    | .error _ => t.vGet k lane
  else t.vGet k lane
/-- The rows of a saved group that have changed are written to its slot (R73, R118, R443). -/
def State.saveRows (s : State) (g : Nat) (rows : List Nat) : State :=
  match s.group? g with
  | none => s
  | some x => if x.saved && !x.resident then rows.foldl (fun s r => (s.rowOut x (x.wb + r)).1) s else s

/-- What lget receives in one lane. -/
def State.lgetVal (s : State) (x : Group) (w a : Nat) (wide : Bool) : Nat :=
  match s.laneTarget x.coh x.wg w with
  | none => 0
  | some t =>
    if t.win < a + (if wide then 2 else 1) then 0
    else (s.laneReg t a (w % 32)).toNat + (if wide then 2 ^ 32 * (s.laneReg t (a + 1) (w % 32)).toNat else 0)

/-- Whether the word that lget reads in one lane has been struck by an uncorrectable error (R199). -/
def State.lgetBad (s : State) (x : Group) (w a : Nat) (wide : Bool) : Bool :=
  match s.laneTarget x.coh x.wg w with
  | none => false
  | some t =>
    decide (a + (if wide then 2 else 1) ≤ t.win) &&
      (List.range (if wide then 2 else 1)).any fun i => t.badRows.contains ((t.wb + a + i) * 32 + w % 32)
/-- lget marks its destination pending and is served later. -/
def lgetIssue (wide : Bool) (d a : Nat) (b : Src) (s : State) : Res :=
  gated s [(b, false)] (fun x => x.dstRegs (.v d) wide) fun x p e =>
    if e = 0 then .next (s.retire x p)
    else
      let o : Out :=
        { id := s.fresh, inst := s.fresh, path := p, pc := (x.path p).pc, op := .lget wide
          regs := x.dstRegs (.v d) wide, lanes := e
          accs := (lanesOf e).map fun l => ⟨l, 0, none, (opI b false).val s x p l, a⟩
          agent := 0, hist := [], acq := false, rel := false, scope := .qd, alone := false, bytes := 0, fl := .none, discard := []
          whole := (lanesOf e).map fun l => ⟨l, 0, none, 0, 0⟩, poison := 0, poisonVa := 0, rpl := none }
      .next ({ s with fresh := s.fresh + 1 }.retire { x with outs := x.outs ++ [o] } p)

/-- Writes one lane of registers given by rows, but for discarded ones (R89). -/
def Group.landLane (x : Group) (o : Out) (lane r : Nat) : Group :=
  (List.range o.regs.length).foldl (fun (x : Group) i =>
    match o.regs[i]? with
    | some (Reg.v row) =>
      if o.discard.contains (Reg.v row) then x else x.rowSet row lane (BitVec.ofNat 32 (r / 2 ^ (32 * i)))
    | _ => x) x

/-- The landing of an lget: every target register is free, and all lanes that have not exited are read at one instant
(R118, R175). A lane that reads a struck word leaves the destination pending, and the path stops at its next use, as for a
poisoned load (R199; log 47). -/
def lgetLand (g k : Nat) (s : State) : Res :=
  match s.group? g with
  | none => .next s
  | some x =>
    match x.outs.find? (·.id == k) with
    | some o =>
      match o.op with
      | .lget wide =>
        let as := o.accs.filter fun c => laneOn o.lanes c.lane
        if o.poison != 0 || as.any fun c => s.targetPending x.coh x.wg c.x c.y wide (some (g, k)) then .next s
        else
          let bad := as.filter fun c => !laneOn x.helpers c.lane && s.lgetBad x c.x c.y wide
          let x' := (as.filter fun c => !bad.contains c).foldl (fun y c => y.landLane o c.lane (s.lgetVal x c.x c.y wide)) x
          let outs := if bad.isEmpty then x'.outs.filter (·.id != k)
            else x'.outs.map fun q => if q.id == k then { q with poison := maskOf (bad.map (·.lane)) } else q
          .next (s.setGroup { x' with outs }.captureBound)
      | _ => .next s
    | none => .next s

/-- lput goes on at once; it takes effect later, at one instant (R118, R119). -/
def lputIssue (wide : Bool) (a : Nat) (b c : Src) (s : State) : Res :=
  gated s [(b, false), (c, wide)] (fun _ => []) fun x p e =>
    let k : LPut :=
      { id := s.fresh, coh := x.coh, wg := x.wg, wide, reg := a
        lanes := (lanesOf e).map fun l => ((opI b false).val s x p l, (opI c wide).val s x p l) }
    .next ((if e = 0 then s else { s with fresh := s.fresh + 1, lputs := s.lputs ++ [k] }).retire x p)

/-- One lane of an lput; an absent target or a name beyond its window drops it. -/
def State.lputLane (s : State) (k : LPut) (w v : Nat) : State :=
  match s.laneTarget k.coh k.wg w with
  | none => s
  | some y =>
    if y.win < k.reg + (if k.wide then 2 else 1) then s
    else
      (s.modGroup y.uid fun y => y.vPut k.reg k.wide (w % 32) v).saveRows y.uid (if k.wide then [k.reg, k.reg + 1] else [k.reg])
/-- An lput takes effect once no register that it names is pending, its highest lane last (the model's own turn, DESIGN
CHOICE, log 25). -/
def State.lputLand (s : State) (k : Nat) : State :=
  match s.lputs.find? (·.id == k) with
  | none => s
  | some q =>
    if q.lanes.any fun l => s.targetPending q.coh q.wg l.1 q.reg q.wide none then s
    else
      let s := q.lanes.foldl (fun s l => s.lputLane q l.1 l.2) s
      { s with lputs := s.lputs.filter (·.id != k) }

/-! ### Meanings -/

def execQxch (pat : QPat) (wide : Bool) (d : Dst) (a : Src) (s : State) :=
  commit s (aluIssue (aluQxch pat wide d a) s)
def execQbc (wide : Bool) (d : Dst) (a b : Src) (s : State) := commit s (aluIssue (aluQbc wide d a b) s)
def execShfl (w : ShW) (wide : Bool) (d : Dst) (a b : Src) (s : State) :=
  commit s (aluIssue (aluShfl w wide d a b) s)
def execShflx (w : ShW) (wide : Bool) (d : Dst) (a b : Src) (s : State) :=
  commit s (aluIssue (aluShflx w wide d a b) s)
def execShflup (w : ShW) (wide : Bool) (d : Dst) (a b : Src) (s : State) :=
  commit s (aluIssue (aluShflup w wide d a b) s)
def execShfldn (w : ShW) (wide : Bool) (d : Dst) (a b : Src) (s : State) :=
  commit s (aluIssue (aluShfldn w wide d a b) s)
def execVote (op : VoteOp) (d : Dst) (a : Src) (s : State) := commit s (aluIssue (aluVote op d a) s)
def execGred (op : RedOp) (wide signed : Bool) (d : Dst) (a : Src) (s : State) :=
  commit s (aluIssue (aluGred op wide signed d a) s)
def execGscan (op : RedOp) (ex wide signed : Bool) (d : Dst) (a : Src) (s : State) :=
  commit s (aluIssue (aluGscan op ex wide signed d a) s)
def execLget (wide : Bool) (d a : Nat) (b : Src) (s : State) := commit s (lgetIssue wide d a b s)
def execLgetLanding (g k : Nat) (s : State) := commit s (lgetLand g k s)
def execLput (wide : Bool) (a : Nat) (b c : Src) (s : State) := commit s (lputIssue wide a b c s)

end Sys2Proof.Machine
end

