-- ==== Sys2Proof/Machine/Float.lean ====
section
/-! DEFINITION. Floating-point, conversion, quantising and packing forms (R142 to R163). -/

namespace Sys2Proof.Machine

/-! ### Operands (R34, R142, R143) -/

/-- A source modifier on a value's sign bit. -/
def modSign (f : FFmt) (neg abs : Bool) (x : Nat) : Nat :=
  let x := x % 2 ^ f.width
  let top := 2 ^ (f.width - 1)
  let x := if abs then x % top else x
  if neg then (if x < top then x + top else x - top) else x

/-- a and b after their modifiers. -/
def fA (fm : FMod) (x : Nat) : Nat := modSign (ftyFmt fm.ty) fm.negA fm.absA x
def fB (fm : FMod) (x : Nat) : Nat := modSign (ftyFmt fm.ty) fm.negB fm.absB x

/-- A float form of the format's operands. -/
def aluFloat (fm : FMod) (d : Dst) (srcs : List Src) (f : (Nat → Nat) → Nat × FFlags) : Alu :=
  aluLane d false false (srcs.map fun a => opF a (ftyFmt fm.ty)) f

/-! ### Arithmetic (R145 to R149) -/

def aluFadd (rm : Rm) (fm : FMod) (d : Dst) (a b : Src) : Alu :=
  let t := ftyFmt fm.ty
  aluFloat fm d [a, b] fun v => faddF t rm (fval t (fA fm (v 0))) (fval t (fB fm (v 1)))
def aluFmul (rm : Rm) (fm : FMod) (d : Dst) (a b : Src) : Alu :=
  let t := ftyFmt fm.ty
  aluFloat fm d [a, b] fun v => fmulF t rm (fval t (fA fm (v 0))) (fval t (fB fm (v 1)))
def aluFma (rm : Rm) (fm : FMod) (d : Dst) (a b c : Src) : Alu :=
  let t := ftyFmt fm.ty
  aluFloat fm d [a, b, c] fun v => fmaF t rm (fval t (fA fm (v 0))) (fval t (fB fm (v 1))) (fval t (v 2))

/-- The packed elements of an fdp2 source, the modifier on both (R143, R149). -/
def dp2Vals (t : FFmt) (neg abs : Bool) (x : Nat) : FV × FV :=
  (fval t (modSign t neg abs x), fval t (modSign t neg abs (x / 2 ^ 16)))
def aluFdp2 (rm : Rm) (fm : FMod) (d : Dst) (a b c : Src) : Alu :=
  let t := ftyFmt fm.ty
  aluLane d false false [opI a false, opI b false, opF c fp32] fun v =>
    let x := dp2Vals t fm.negA fm.absA (v 0)
    let y := dp2Vals t fm.negB fm.absB (v 1)
    fdp2F rm x.1 y.1 x.2 y.2 (fval fp32 (v 2))
def aluFrnd (rm : Rm) (fm : FMod) (d : Dst) (a : Src) : Alu :=
  let t := ftyFmt fm.ty
  aluFloat fm d [a] fun v => frndF t rm (fval t (fA fm (v 0)))
def aluFcmp (cc : FCond) (fm : FMod) (d : Dst) (a b : Src) : Alu :=
  let t := ftyFmt fm.ty
  aluLane d d.isS false [opF a t, opF b t] fun v =>
    let x := fval t (fA fm (v 0))
    let y := fval t (fB fm (v 1))
    ((fcmpX cc x y).toNat, FFlags.none.withIv (x.isSig || y.isSig))
def aluFmin (fm : FMod) (d : Dst) (a b : Src) : Alu :=
  aluFloat fm d [a, b] fun v => fminmaxF (ftyFmt fm.ty) false (fA fm (v 0)) (fB fm (v 1))
def aluFmax (fm : FMod) (d : Dst) (a b : Src) : Alu :=
  aluFloat fm d [a, b] fun v => fminmaxF (ftyFmt fm.ty) true (fA fm (v 0)) (fB fm (v 1))

/-! ### Conversion and packing (R153 to R160) -/

/-- The format that an immediate source of cvt converts to (R32); none for an integer type. -/
def ctyConv (t : CTy) : Option FFmt := if t.isInt then none else some (ctyFlt t)
def aluCvt (rm : Rm) (sat : Bool) (dt st : CTy) (d : Dst) (a : Src) : Alu :=
  aluLane d dt.wide ((ctyInt dt).map (·.2) == some true) [⟨a, st.wide, ctyConv st⟩] fun v =>
    cvtF rm sat dt st (v 0)

def pkFmt : PkFmt → FFmt
  | .f16 => fp16 | .bf16 => bfp16 | .e4m3 => fpE4m3 | .e5m2 => fpE5m2
/-- One rounded element with its flags (R160). -/
def packOne (f : PkFmt) (rm : Rm) (x : Nat) : Nat × FFlags :=
  let v := fval fp32 x
  let r := roundF (pkFmt f) rm v
  (r.1, r.2.withIv v.isSig)
def packVal (f : PkFmt) (p q c : Nat) : Nat :=
  if f.narrow then p + q * 2 ^ 8 + c % 2 ^ 16 * 2 ^ 16 else p + q * 2 ^ 16
def aluFpack (f : PkFmt) (rm : Rm) (d : Dst) (a b c : Src) : Alu :=
  aluLane d false false ([opF a fp32, opF b fp32] ++ if f.narrow then [opI c false] else []) fun v =>
    let p := packOne f rm (v 0)
    let q := packOne f rm (v 1)
    (packVal f p.1 q.1 (v 2), p.2.or q.2)

/-! ### Transcendental forms (R150 to R152) -/

/-- A form whose result lands later (R86). -/
def aluTrans (fm : FMod) (d : Dst) (a : Src) (f : Nat → Nat × FFlags) : Alu :=
  { aluFloat fm d [a] (fun v => f (fA fm (v 0))) with trans := true }
def aluFsqrt (rm : Rm) (fm : FMod) (d : Dst) (a : Src) : Alu :=
  aluTrans fm d a fun x => fsqrtF (ftyFmt fm.ty) rm (fval (ftyFmt fm.ty) x)
def aluFrcp (fm : FMod) (d : Dst) (a : Src) : Alu := aluTrans fm d a frcpF
def aluFrsq (fm : FMod) (d : Dst) (a : Src) : Alu := aluTrans fm d a frsqF
def aluFex2 (fm : FMod) (d : Dst) (a : Src) : Alu := aluTrans fm d a fex2F
def aluFlg2 (fm : FMod) (d : Dst) (a : Src) : Alu := aluTrans fm d a flg2F
def aluFsin (fm : FMod) (d : Dst) (a : Src) : Alu := aluTrans fm d a fsinF
def aluFcos (fm : FMod) (d : Dst) (a : Src) : Alu := aluTrans fm d a fcosF
def aluFtanh (fm : FMod) (d : Dst) (a : Src) : Alu := aluTrans fm d a ftanhF

/-- A transcendental result lands in the lanes that have not exited, and sets its flags (R86, R144, R175). -/
def transLand (g k : Nat) (s : State) : Res :=
  match s.group? g with
  | none => .next s
  | some x =>
    match x.outs.find? (·.id == k) with
    | some o =>
      if o.op = .trans then
        let x' := (o.accs.filter fun c => laneOn o.lanes c.lane).foldl (fun y c => y.landLane o c.lane c.x) x
        .next (s.setGroup { x' with outs := x'.outs.filter (·.id != k), fl := x'.fl.or o.fl }.captureBound)
      else .next s
    | none => .next s

/-! ### Twin-scale blocks (R156 to R158) -/

/-- n registers read as sources. -/
def blockSrcs (a n : Nat) : List (Src × Bool) := (List.range n).map fun i => (Src.v (a + i), false)
/-- The registers of a block, one lane. -/
def Group.blockLane (x : Group) (a n lane : Nat) : List Nat := (List.range n).map fun i => (x.vGet (a + i) lane).toNat

/-- The element words of a quantised block (R132). -/
def quantWords (f : TsFmt) (els : List Nat) : List Nat :=
  let w := packFields (tsWidth f) els
  (List.range f.regs).map fun i => w / 2 ^ (32 * i) % 2 ^ 32

/-- quant in one lane. -/
def quantOne (f : TsFmt) (d sp a : Nat) (src : Group) (x : Group) (lane : Nat) : Group :=
  let q := quantLane f (src.blockLane a 32 lane)
  let ws := quantWords f q.1
  let x := (List.range ws.length).foldl (fun (x : Group) i => x.vSet (d + i) lane (BitVec.ofNat 32 (ws.getD i 0))) x
  x.vSet sp lane (BitVec.ofNat 32 q.2.1)

def quantIssue (f : TsFmt) (d sp a : Nat) (s : State) : Res :=
  gated s (blockSrcs a 32) (fun x => x.rows d f.regs ++ x.rows sp 1) fun x p e =>
    let fl := aluFlags false e x.helpers fun l => (0, (quantLane f (x.blockLane a 32 l)).2.2)
    let x' := (lanesOf e).foldl (quantOne f d sp a x) x
    let x' := { x' with fl := x'.fl.or fl }
    .next (s.retire (x'.modPath p fun y => y.putLatch false e fun l => (x'.vGet d l).toNat) p)

/-- dequant in one lane (R158). -/
def dequantOne (f : TsFmt) (d a sp : Nat) (src : Group) (x : Group) (lane : Nat) : Group :=
  let w := packFields 32 (src.blockLane a f.regs lane)
  let pair := (src.vGet sp lane).toNat % 2 ^ 16
  (List.range 32).foldl (fun (x : Group) i =>
    let el := w / 2 ^ (tsWidth f * i) % 2 ^ tsWidth f
    x.vSet (d + i) lane (BitVec.ofNat 32 (toF32 (tsVal f pair el)))) x

def dequantIssue (f : TsFmt) (d a sp : Nat) (s : State) : Res :=
  gated s (blockSrcs a f.regs ++ blockSrcs sp 1) (fun x => x.rows d 32) fun x p e =>
    let x' := (lanesOf e).foldl (dequantOne f d a sp x) x
    .next (s.retire (x'.modPath p fun y => y.putLatch false e fun l => (x'.vGet d l).toNat) p)

/-! ### The sticky flags (R161, R162) -/

def FFlags.toNat (f : FFlags) : Nat :=
  16 * f.iv.toNat + 8 * f.dz.toNat + 4 * f.of.toNat + 2 * f.uf.toNat + f.nx.toNat
/-- Clears the flags whose bits are set. -/
def FFlags.clear (f : FFlags) (x : Nat) : FFlags :=
  ⟨f.iv && !bitAt x 4, f.dz && !bitAt x 3, f.of && !bitAt x 2, f.uf && !bitAt x 1, f.nx && !bitAt x 0⟩
/-- Whether an instruction of the group has still to set its flags (R162). -/
def Group.flagsAwaited (x : Group) : Bool :=
  !x.rcq.isEmpty || !x.mpend.isEmpty || x.outs.any fun o => o.op == .trans

def fpackFlagsIssue (d : Dst) (a : Src) (s : State) : Res :=
  once s [(a, true)] (fun x => x.dstRegs d false) fun x p e =>
    if x.flagsAwaited then .next s
    else
      let old := x.fl.toNat
      let x' := x.putDst d false false e fun _ => old
      let x' := { x' with fl := x.fl.clear ((opI a true).val s x p 0) }
      let uni := match d with
        | .v _ => false
        | _ => true
      .next (s.retire (x'.modPath p fun y => y.putLatch uni e fun _ => old) p)

/-! ### Meanings -/

def execFadd (rm : Rm) (fm : FMod) (d : Dst) (a b : Src) (s : State) := commit s (aluIssue (aluFadd rm fm d a b) s)
def execFmul (rm : Rm) (fm : FMod) (d : Dst) (a b : Src) (s : State) := commit s (aluIssue (aluFmul rm fm d a b) s)
def execFma (rm : Rm) (fm : FMod) (d : Dst) (a b c : Src) (s : State) :=
  commit s (aluIssue (aluFma rm fm d a b c) s)
def execFdp2 (rm : Rm) (fm : FMod) (d : Dst) (a b c : Src) (s : State) :=
  commit s (aluIssue (aluFdp2 rm fm d a b c) s)
def execFrnd (rm : Rm) (fm : FMod) (d : Dst) (a : Src) (s : State) := commit s (aluIssue (aluFrnd rm fm d a) s)
def execFcmp (cc : FCond) (fm : FMod) (d : Dst) (a b : Src) (s : State) :=
  commit s (aluIssue (aluFcmp cc fm d a b) s)
def execFmin (fm : FMod) (d : Dst) (a b : Src) (s : State) := commit s (aluIssue (aluFmin fm d a b) s)
def execFmax (fm : FMod) (d : Dst) (a b : Src) (s : State) := commit s (aluIssue (aluFmax fm d a b) s)
def execCvt (rm : Rm) (sat : Bool) (dt st : CTy) (d : Dst) (a : Src) (s : State) :=
  commit s (aluIssue (aluCvt rm sat dt st d a) s)
def execQuant (f : TsFmt) (d sp a : Nat) (s : State) := commit s (quantIssue f d sp a s)
def execDequant (f : TsFmt) (d a sp : Nat) (s : State) := commit s (dequantIssue f d a sp s)
def execFpack (f : PkFmt) (rm : Rm) (d : Dst) (a b c : Src) (s : State) :=
  commit s (aluIssue (aluFpack f rm d a b c) s)
def execFpackFlags (d : Dst) (a : Src) (s : State) := commit s (fpackFlagsIssue d a s)
def execFsqrt (rm : Rm) (fm : FMod) (d : Dst) (a : Src) (s : State) := commit s (aluIssue (aluFsqrt rm fm d a) s)
def execFrcp (fm : FMod) (d : Dst) (a : Src) (s : State) := commit s (aluIssue (aluFrcp fm d a) s)
def execFrsq (fm : FMod) (d : Dst) (a : Src) (s : State) := commit s (aluIssue (aluFrsq fm d a) s)
def execFex2 (fm : FMod) (d : Dst) (a : Src) (s : State) := commit s (aluIssue (aluFex2 fm d a) s)
def execFlg2 (fm : FMod) (d : Dst) (a : Src) (s : State) := commit s (aluIssue (aluFlg2 fm d a) s)
def execFsin (fm : FMod) (d : Dst) (a : Src) (s : State) := commit s (aluIssue (aluFsin fm d a) s)
def execFcos (fm : FMod) (d : Dst) (a : Src) (s : State) := commit s (aluIssue (aluFcos fm d a) s)
def execFtanh (fm : FMod) (d : Dst) (a : Src) (s : State) := commit s (aluIssue (aluFtanh fm d a) s)
def execTranscendentalLanding (g k : Nat) (s : State) := commit s (transLand g k s)

end Sys2Proof.Machine
end

