-- ==== Sys2Proof/Machine/Access.lean ====
section
/-! DEFINITION. Memory accesses of a group: addresses and checks (R224 to R229), watch ranges (R440), replay clocks
(R434 to R436), sector requests (R195), the copies that own lines (R217, R361, R362), and how a load lands and a write is
performed (R204 to R216). -/

namespace Sys2Proof.Machine

/-! ### Places -/

/-- The place n bytes on. -/
def Place.add : Place → Nat → Place
  | .phys a h k i, n => .phys (a + n) h k i
  | .pin c w o, n => .pin c w (o + n)
/-- Whether two accesses share a location (R205). -/
def Place.overlaps (p : Place) (n : Nat) (q : Place) (m : Nat) : Bool :=
  match p, q with
  | .phys a _ _ _, .phys b _ _ _ => decide (a < b + m) && decide (b < a + n)
  | .pin c w a, .pin d v b => c == d && w == v && decide (a < b + m) && decide (b < a + n)
  | _, _ => false
/-- The unit that an uncorrectable error strikes: a sector, or an 8-byte word of a core-pinned page (R198, R199). -/
def Place.grain : Place → Nat × Nat × Nat × Nat
  | .phys a _ _ _ => (0, 0, 0, sectorOf a)
  | .pin c w o => (1, c, w, o / 8)
def Place.grainSize : Place → Nat
  | .phys .. => 48
  | .pin .. => 8
/-- The sector of a place. -/
def Place.sector : Place → Nat × Nat × Nat × Nat
  | .phys a _ _ _ => (0, 0, 0, sectorOf a)
  | .pin c w o => (1, c, w, o / 48)
/-- The request that a place belongs to: one sector (R195). Accesses of one instruction that reach a sector under several
homes or keys are one request too, so that its lanes keep their order there (R205; DEDUCED, log 85). -/
def Place.request : Option Place → Nat × Nat × Nat × Nat
  | some p => p.sector
  | none => (2, 0, 0, 0)
/-- The bytes of an access. -/
def Place.bytes (p : Place) (n : Nat) : List Place := (List.range n).map p.add

/-- Whether the place stands in poison. (DEDUCED, log 37) -/
def State.placeBad (s : State) (p : Place) : Bool :=
  match p with
  | .phys a _ _ _ => s.poisoned a
  | .pin c w o => ((s.wg? c w).map fun x => x.badPin.contains (o / 8)).getD false
/-- Clears the poison of a place's unit. -/
def State.placeClear (s : State) (p : Place) : State :=
  match p with
  | .phys a _ _ _ => s.clearPoison (sectorOf a)
  | .pin c w o => s.modWg c w fun x => { x with badPin := x.badPin.filter (· != o / 8) }
/-- The byte at a place. -/
def State.placeByte (s : State) (p : Place) : Byte :=
  match p with
  | .phys a _ _ i => s.readUnder i a
  | .pin c w o => ((s.wg? c w).map fun x => smGet 0 x.pin o).getD 0
def State.placePut (s : State) (p : Place) (b : Byte) : State :=
  match p with
  | .phys a _ _ i => s.writeUnder i a b
  | .pin c w o => s.modWg c w fun x => { x with pin := smSet 0 x.pin o b }
/-- n bytes from a place, little-endian. -/
def State.placeNat (s : State) (p : Place) (n : Nat) : Nat := leNat ((p.bytes n).map s.placeByte)
/-- Whether the key instance of a place is still alive (R197). -/
def State.placeLive (s : State) (p : Place) : Bool :=
  match p with
  | .phys _ _ k i => s.instOf k == some i
  | .pin .. => true

/-- Whether a list of byte places covers the whole unit that p stands in. -/
def coversGrain (ps : List Place) (p : Place) : Bool :=
  let offs := (ps.filter fun q => q.grain == p.grain).map fun q => match q with
    | .phys a _ _ _ => a
    | .pin _ _ o => o
  offs.eraseDups.length == p.grainSize
/-- The places of poisoned units that a write covers in part (R200). -/
def State.partBad (s : State) (ps : List Place) : List Place := ps.filter fun p => s.placeBad p && !coversGrain ps p

/-! ### Lines that a copy owns (R217, R361, R362) -/

/-- The bytes that a copy moves, in destination order; none as the source is padding. -/
def CopyShape.moves : CopyShape → List (DWord × Option DWord)
  | .bytes dst src len => (List.range len).map fun i => (dst + BitVec.ofNat 64 i, some (src + BitVec.ofNat 64 i))
  | .layout dst origin ystr xstr cstr drow h width ch esz y0 x0 ph pw sy sx =>
    (List.range (ph * pw)).flatMap fun p =>
      let y : Int := y0 + Int.ofNat (p / pw * sy)
      let x : Int := x0 + Int.ofNat (p % pw * sx)
      let inside := decide (0 ≤ y) && decide (y < Int.ofNat h) && decide (0 ≤ x) && decide (x < Int.ofNat width)
      (List.range ch).flatMap fun c =>
        (List.range (2 ^ esz)).map fun i =>
          (dst + BitVec.ofNat 64 (p * drow + c * 2 ^ esz + i),
           if inside then some (origin + BitVec.ofNat 64 (y.toNat * ystr + x.toNat * xstr + c * cstr + i)) else none)

/-- Where a destination byte lies, by the translations taken at issue (R362). -/
def Copy.placeOf (c : Copy) (a : DWord) : Option Place :=
  (c.pages.find? fun p => p.index == a.toNat / 12288).map fun p => p.place.add (a.toNat % 12288)
/-- The line of a place. -/
def Place.line : Place → Nat × Nat × Nat × Nat
  | .phys a _ _ _ => (0, 0, 0, lineOf a)
  | .pin c w o => (1, c, w, o / 192)
/-- The destination bytes that a copy has still to write: a line's bytes are written together (R218). -/
def Copy.left (c : Copy) : List (DWord × Option DWord) :=
  if c.moved || c.failed.isSome then [] else c.shape.moves.drop c.done
/-- The destination lines of a copy that it still owns. -/
def Copy.lines (c : Copy) : List (Nat × Nat × Nat × Nat) := (c.left.filterMap fun b => (c.placeOf b.1).map Place.line).eraseDups
/-- Whether a copy holds an access of a group that was issued at number `id`: no copy does that is the group's own later copy, or one
behind that, which comes after the access (R207, R218; DEDUCED, log 32). -/
def State.copyHolds (s : State) (g id : Nat) (c : Copy) : Bool :=
  !s.copies.any fun d => d.group == g && decide (id < d.id) && decide (d.id ≤ c.id)
/-- Whether a copy still owns the line of a place, so that an access waits until it has finished the line (R217). -/
def State.owned (s : State) (g id : Nat) (p : Place) : Bool :=
  s.copies.any fun c => c.lines.contains p.line && s.copyHolds g id c

/-! ### Checks of the lanes (R225 to R229) -/

/-- The failure that an erased key gives: its level is found by a walk (R374). -/
def State.keyErr (s : State) (c a : Nat) : TErr :=
  match s.walk c a with
  | .ok (ls, _, _) => ((ls.filterMap s.keyFail).head?).getD ⟨5, s.depth c, a, false⟩
  | .error _ => ⟨5, s.depth c, a, false⟩

/-- A core-pinned access of a cohort's member (R190). -/
def State.pinnedPlace (s : State) (coh wg : Nat) (f : Flat) (a : Nat) : Option Place :=
  let p := f.ppage + (a / 12288 - f.page)
  let c := ((s.wg? coh wg).map (·.pages)).getD 0
  let n := ((s.cohort? coh).map (·.wgs)).getD 0
  if c = 0 || f.size != 1 || n ≤ p / c then none
  else
    match s.wg? coh (p / c) with
    | some w => if w.retired then none else some (.pin coh (p / c) (p % c * 12288 + a % 12288))
    | none => none
/-- Whether what a workgroup's pages hold can be reached: those of a saved one stand in its save image, under the key of the
spill area's pages (R190). -/
def State.imageLive (s : State) (w : Workgroup) : Bool :=
  match w.image with
  | none => true
  | some k => s.instOf k.1 == some k.2
/-- The same of the workgroup that a pinned place belongs to. -/
def State.pinLive (s : State) (p : Place) : Bool :=
  match p with
  | .pin c w _ => ((s.wg? c w).map s.imageLive).getD true
  | .phys .. => true

/-- A code without a translation stage. -/
def laneErr (code : Nat) : TErr := ⟨code, 0xFF, 0, false⟩

/-- The place of one address for a member of a cohort, its HOME 2 line locked when `lock` is set (R193). -/
def State.placeFor (s : State) (core : Option Nat) (c coh wg a : Nat) (acc : Acc) (lock : Bool) :
    State × Except TErr Place :=
  match s.translateCow core c a acc 4 with
  | (s, .error e) => (s, .error e)
  | (s, .ok f) =>
    if f.home == 1 then
      match s.pinnedPlace coh wg f a, s.instOf f.key with
      | some p, some _ => if s.pinLive p then (s, .ok p) else (s, .error ⟨5, s.depth c, a, false⟩)
      | some _, none => (s, .error (s.keyErr c a))
      | none, _ => (s, .error (laneErr 4))
    else
      match s.instOf f.key with
      | none => (s, .error (s.keyErr c a))
      | some inst =>
        let pa := f.target a
        let p : Place := .phys pa f.home f.key inst
        if f.home == 2 && lock then
          if s.lockable c (lineOf pa) f.key then (s.lockLine c (lineOf pa) f.key 0 0 (f.through (a / 12288)), .ok p)
          else (s, .error (laneErr 6))
        else (s, .ok p)

/-- One lane's check: the first cause of R226 that holds, but for poison. -/
def State.checkLane (s : State) (x : Group) (n : Nat) (acc : Acc) (va : DWord) : State × Except TErr Place :=
  if va.toNat % n != 0 then (s, .error (laneErr 1))
  else s.placeFor (some x.core) x.ctx x.coh x.wg va.toNat acc true

/-- What the check of one lane found. -/
structure LaneChk where
  lane : Nat
  va : DWord
  res : Except TErr Place

/-- The checks of the lanes, in ascending order. -/
def State.checkLanes (s : State) (x : Group) (n : Nat) (acc : Acc) : List (Nat × DWord) → State × List LaneChk
  | [] => (s, [])
  | (l, va) :: rest =>
    let r := s.checkLane x n acc va
    let q := r.1.checkLanes x n acc rest
    (q.1, ⟨l, va, r.2⟩ :: q.2)

/-- The byte places of the lanes that raised nothing. -/
def chkPlaces (n : Nat) (cs : List LaneChk) : List Place :=
  cs.flatMap fun c => match c.res with
    | .ok p => p.bytes n
    | .error _ => []

/-- The POISON check of a write: one that covers part of a poisoned sector; a read-modify-write, any of it (R200). (DEDUCED, log 39) -/
def State.checkPoison (s : State) (n : Nat) (rmw : Bool) (cs : List LaneChk) : List LaneChk :=
  let ps := chkPlaces n cs
  cs.map fun c => match c.res with
    | .ok p =>
      if (p.bytes n).any fun b => s.placeBad b && (rmw || !coversGrain ps b) then { c with res := .error (laneErr 7) }
      else c
    | .error _ => c

/-- The code of a check; 0 where it raised nothing. -/
def LaneChk.code (c : LaneChk) : Nat :=
  match c.res with
  | .ok _ => 0
  | .error e => e.code

/-- The stop of lanes that failed (R226, R227, R392): the cause of highest priority, its lowest lane's address, and every
lane's code. A lane whose composed translation names no memory shows code 0 beside a lane that raises a cause (DESIGN CHOICE,
log 13). -/
def checkCause (cs : List LaneChk) : Option Cause :=
  let codes := (cs.map (·.code)).filter fun k => k != 0 && k != 0xFF
  match codes with
  | [] => none
  | k :: ks =>
    let code := ks.foldl min k
    match cs.find? (·.code == code) with
    | none => none
    | some c =>
      let e := match c.res with
        | .error e => e
        | .ok _ => laneErr code
      some { code := 0x10 + code
             lanes := laneVec ((List.range 32).map fun l => ((cs.find? (·.lane == l)).map fun k => if k.code == 0xFF then 0 else k.code).getD 0xF)
             reason := 0, addr := c.va, aux := BitVec.ofNat 64 e.addr, aux2 := 0, sdep := e.sdep, cow := e.cow
             load := 0, after := false }

/-! ### Watch ranges (R440) -/

/-- The lanes of an access of n bytes that watch range k matches. -/
def State.watchHit (s : State) (ctx k n : Nat) (rd wr : Bool) (cs : List LaneChk) : Word :=
  let base := (s.dbgWord ctx (0x1080 + 16 * k)).toNat
  let ctl := (s.dbgWord ctx (0x1088 + 16 * k)).toNat
  let len := ctl % 2 ^ 40
  if bitAt ctl 63 && ((rd && bitAt ctl 62) || (wr && bitAt ctl 61)) then
    maskOf ((cs.filter fun c => decide (c.va.toNat < base + len) && decide (base < c.va.toNat + n)).map (·.lane))
  else 0
/-- The lowest-numbered range that matches, and the lanes it matches. -/
def State.watchMatch (s : State) (ctx n : Nat) (rd wr : Bool) (cs : List LaneChk) : Option (Nat × Word) :=
  if bitAt (s.dbgWord ctx 0x1000).toNat 63 then
    ((List.range 4).map fun k => (k, s.watchHit ctx k n rd wr cs)).find? (·.2 != 0)
  else none

/-! ### Sector requests and what an access costs (R195, R347) -/

/-- The lanes' accesses, one list for each request. -/
def requests (as : List LaneAcc) : List (List LaneAcc) :=
  ((as.map fun a => Place.request a.place).eraseDups).map fun k => as.filter fun a => Place.request a.place == k

/-- What a request does to the caches of lines and the energy account; it changes no value (R185, R347). What a HOME 3 write
moves is counted once it is performed (`dieDone`). -/
def State.touch (s : State) (x : Group) (load atomic : Bool) (p : Place) : State :=
  match p with
  | .pin .. => s
  | .phys a home key _ =>
    let line := lineOf a
    let sec := sectorOf a % 4
    let bit := 2 ^ sec
    if home = 3 then
      let s := s.dieTouch line key
      if load then s.dramMove x.ctx line bit false else s
    else if home = 0 && atomic then
      { (s.recall none line).cacheTouch x.ctx line key bit bit with l1 := s.l1.filter (·.line != line) }
    else if home = 0 then
      let hit := (s.l1.any fun l => l.core == x.core && l.line == line && l.key == key && bitAt l.present sec) &&
        s.cache.any (·.line == line)
      let s := if hit then s else (s.recall (some x.core) line).cacheTouch x.ctx line key bit 0
      s.l1Touch x.core line key sec x.uid (!load)
    else (s.recall none line).cacheTouch x.ctx line key bit (if load then 0 else bit)
/-- The sectors that accesses reach, each with the home and key of one that reaches it so. -/
def sectorsOf (as : List LaneAcc) : List Place :=
  let ps := as.filterMap (·.place)
  ((ps.map fun p => match p with
    | .phys a h k i => Place.phys (sectorOf a * 48) h k i
    | .pin c w o => .pin c w (o / 48 * 48)).eraseDups)
/-- The same for every sector of an instruction. -/
def State.touchAll (s : State) (x : Group) (load atomic : Bool) (as : List LaneAcc) : State :=
  (sectorsOf as).foldl (fun s p => s.touch x load atomic p) s

/-- HOME 3 writes that have been performed: a store that covers a sector whole needs no read (R188, R300). -/
def State.dieDone (s : State) (x : Group) (atomic : Bool) (n : Nat) (as : List LaneAcc) : State :=
  let ps := (as.filterMap (·.place)).flatMap (·.bytes n)
  (sectorsOf as).foldl (fun s p => match p with
    | .phys pa 3 _ _ =>
      let bit := 2 ^ (sectorOf pa % 4)
      s.dieWrite x.ctx (lineOf pa) bit (if !atomic && coversGrain ps p then bit else 0)
    | _ => s) s

/-! ### Replay (R434 to R436) -/

/-- The lines with clocks that an instruction touches, with the address of the lowest lane that touches each. -/
def clockLines (as : List LaneAcc) : List (Nat × Nat × DWord) :=
  let all := as.filterMap fun a => match a.place with
    | some (.phys pa home key _) => if home == 0 || home == 2 then some (lineOf pa, key, a.va) else none
    | _ => none
  ((all.map (·.1)).eraseDups).filterMap fun l => all.find? (·.1 == l)

/-- A PAIR record (R435). -/
def pairBytes (h lc g gclk : Nat) (va pc : DWord) : List Byte :=
  leField 1 1 ++ leField 1 0 ++ leField 2 h ++ leField 2 g ++ leField 2 0 ++ leField 4 lc ++ leField 4 gclk ++
  leField 8 va.toNat ++ leField 8 pc.toNat
/-- A GROUP record (R435). -/
def groupBytes (x : Group) : List Byte :=
  leField 1 2 ++ leField 1 0 ++ leField 2 0 ++ leField 2 x.rnum ++ leField 2 0 ++ leField 4 x.who.toNat ++
  leField 4 x.idGrid.toNat ++ leField 8 x.kent.toNat ++ leField 8 0

/-- The replay ring of a context (R429). -/
def State.rplRing (s : State) (ctx : Nat) : DWord := ((s.ctx? ctx).map fun c => smGet 0 c.obs 0x2030).getD 0
/-- A replay record is written, or held by the hub behind those that wait (R436). -/
def State.rplPut (s : State) (x : Group) (b : List Byte) : State :=
  let held := { s with replayHeld := s.replayHeld ++ [⟨x.ctx, x.uid, 0, b⟩] }
  if s.replayHeld.any (·.ctx == x.ctx) then held
  else
    match s.ringAppend x.ctx (s.rplRing x.ctx) 5 0 b with
    | (t, .ok _) => t
    | _ => held
/-- Whether the log takes no record now. -/
def State.rplFull (s : State) (ctx : Nat) : Bool :=
  (s.replayHeld.any (·.ctx == ctx)) || match (s.ringAppend ctx (s.rplRing ctx) 5 0 (List.replicate 32 0)).2 with
    | .ok _ => false
    | _ => true
/-- A recorded group issues nothing while a replay record of it is held (R436). -/
def State.replayHolds (s : State) (x : Group) : Bool := x.rnum != 0 && s.replayHeld.any (·.group == x.uid)

/-- MAXW of a writer, and MAXW with it as the most recent of sixteen (R435). -/
def maxwGet (ws : List (Nat × Word)) (h : Nat) : Word := ((ws.find? (·.1 == h)).map (·.2)).getD 0
def maxwSet (ws : List (Nat × Word)) (h : Nat) (c : Word) : List (Nat × Word) :=
  ((h, c) :: ws.filter (·.1 != h)).take 16

/-- The dependences of accesses to lines: MAXW after them and the records that they log. -/
def pairsOf (s : State) (x : Group) (g : Nat) (pc : DWord) :
    List (Nat × DWord) → List (Nat × Word) → List (Nat × Word) × List (List Byte)
  | [], ws => (ws, [])
  | (l, va) :: rest, ws =>
    match s.cache.find? (·.line == l) with
    | some m =>
      if m.writer != x.rnum && m.writer != 0 && m.writer != 0xFFE && decide ((maxwGet ws m.writer).toNat < m.clock.toNat)
      then
        let r := pairsOf s x g pc rest (maxwSet ws m.writer m.clock)
        (r.1, pairBytes m.writer m.clock.toNat x.rnum g va pc :: r.2)
      else pairsOf s x g pc rest ws
    | none => pairsOf s x g pc rest ws
/-- An instruction of a recorded group is held at issue while a record of the group is held, or while the log is full and the
instruction would log one (R436). -/
def State.rplWaits (s : State) (x : Group) (p : Nat) (as : List LaneAcc) : Bool :=
  x.rnum != 0 && ((s.replayHolds x) ||
    (!(pairsOf s x 0 (x.path p).pc ((clockLines as).map fun l => (l.1, l.2.2)) x.maxw).2.isEmpty && s.rplFull x.ctx))
/-- What the clocks need of a recorded group's instruction once its requests are performed. -/
def rplAcc (x : Group) (p inst : Nat) (as : List LaneAcc) : Option RplAcc :=
  if x.rnum = 0 then none else some ⟨inst, (x.path p).pc, (clockLines as).map fun l => (l.1, l.2.2), 0⟩
/-- The clock that a request leads to: G moves once for the instruction, at its first request, and past the clock of every line
that it touches but by a write of its own (R435). -/
def rplClock (s : State) (x : Group) (r : RplAcc) (ls : List Nat) : Nat :=
  ls.foldl (fun g l => match s.cache.find? (·.line == l) with
    | some m => if m.writer == x.rnum && m.clock.toNat == r.stamp && r.stamp != 0 then g else max g (m.clock.toNat + 1)
    | none => g) (if r.stamp = 0 then x.gclk.toNat + 1 else r.stamp)
/-- The group's clock, its MAXW and the stamp of the instruction's other requests after a request. -/
def Group.clocked (x : Group) (r : RplAcc) (g : Nat) (ws : List (Nat × Word)) : Group :=
  let stamp := fun (q : Option RplAcc) => q.map fun q => if q.inst == r.inst then { q with stamp := g } else q
  { x with gclk := BitVec.ofNat 32 (max x.gclk.toNat g), maxw := ws
           outs := x.outs.map fun (o : Out) => { o with rpl := stamp o.rpl }
           sbuf := x.sbuf.map fun (e : SEntry) => { e with rpl := stamp e.rpl } }
/-- A request is performed: the clocks of its lines and of a recorded group move, and its dependences are logged. What another
agent writes leaves no known writer (R434, R435; DEDUCED, log 38). -/
def State.clock (s : State) (g : Nat) (r : Option RplAcc) (as : List LaneAcc) (write : Bool) : State :=
  match s.group? g with
  | none => s
  | some x =>
    if !s.recording then s
    else
      let ls := clockLines as
      let s := ls.foldl (fun s l => if s.cache.any (·.line == l.1) then s else s.cacheTouch x.ctx l.1 l.2.1 0 0) s
      let lines := ls.map (·.1)
      match (if x.rnum = 0 then none else r) with
      | none => if write then s.unrecorded lines else s
      | some r =>
        let n := rplClock s x r lines
        if 2 ^ 32 ≤ n then
          let s := s.modGroup g fun x => { x with rnum := 0 }
          if write then s.unrecorded lines else s
        else
          let q := pairsOf s x n r.pc (lines.map fun l => (l, ((r.vas.find? (·.1 == l)).map (·.2)).getD 0)) x.maxw
          let s := (q.2.foldl (fun s b => s.rplPut x b) s).modGroup g fun x => x.clocked r n q.1
          if write then
            { s with cache := s.cache.map fun m =>
                if lines.contains m.line then { m with clock := BitVec.ofNat 32 n, writer := x.rnum } else m }
          else s

/-! ### Program order within a group (R182, R206, R209) -/

/-- Whether access `id` of agent `a` stands before access `i` of the agent `b` with that history in program order.
(DEDUCED, log 31) -/
def precedes (id a i b : Nat) (hist : List Before) : Bool :=
  decide (id < i) && (a == b || hist.any fun h => h.agent == a && decide (id < h.upto))
/-- Whether a join or regang stands between them as well (R182, R210). -/
def syncs (id a : Nat) (hist : List Before) : Bool := hist.any fun h => h.sync && h.agent == a && decide (id < h.upto)
/-- Whether accesses share a location. -/
def accsOverlap (as : List LaneAcc) (n : Nat) (bs : List LaneAcc) (m : Nat) : Bool :=
  as.any fun a => bs.any fun b => match a.place, b.place with
    | some p, some q => p.overlaps n q m
    | _, _ => false
/-- Whether accesses share a line. -/
def accsShareLine (as bs : List LaneAcc) : Bool :=
  as.any fun a => bs.any fun b => match a.place, b.place with
    | some p, some q => p.line == q.line
    | _, _ => false
/-- A memory read of the group. -/
def Out.isRead (o : Out) : Bool :=
  match o.op with
  | .load _ | .atom _ _ => true
  | _ => false
def Out.isAtom (o : Out) : Bool :=
  match o.op with
  | .atom _ _ => true
  | _ => false
/-- A read whose value is not determined. -/
def Out.undecided (o : Out) : Bool := o.isRead && o.poison == 0
def SEntry.isClean (e : SEntry) : Bool :=
  match e.op with
  | .clean _ _ => true
  | _ => false
/-- An acquire whose value is not yet determined holds the agent's later accesses (R212). -/
def Group.acqHeld (x : Group) (p i : Nat) : Bool :=
  let y := x.path p
  x.outs.any fun o => o.acq && o.undecided && precedes o.id o.agent i y.agent y.hist
/-- The reads that stand before access `i` of a path. -/
def Group.readsBefore (x : Group) (p i : Nat) : Bool :=
  let y := x.path p
  x.outs.any fun o => o.undecided && precedes o.id o.agent i y.agent y.hist
/-- Whether an order waits for a store-buffer entry: one at a scope that holds no other agent, for those alone whose data is still
pending and for a cflush or cinv (R208, R215, R239). -/
def SEntry.awaited (e : SEntry) (lone : Bool) : Bool := !lone || e.waits.isSome || e.isClean
/-- The writes that an order of access `i` of a path waits for: every store-buffer entry allocated before it (R215), and the
path's own earlier atomics, which write too (R205). -/
def Group.writesBefore (x : Group) (p i : Nat) (lone : Bool) : Bool :=
  let y := x.path p
  (x.sbuf.any fun e => decide (e.id < i) && e.awaited lone) ||
  (!lone && x.outs.any fun o => o.isAtom && o.undecided && precedes o.id o.agent i y.agent y.hist)

/-! ### Scopes (R208) -/

/-- Whether a quad has a side that does not run. -/
def Quad.sided (q : Quad) : Bool := q.stack.any fun e => e.pend != 0 || e.sw
/-- Whether the group holds no agent but the path. -/
def Group.sole (x : Group) (p : Nat) : Bool :=
  (x.usedPaths.all (· == p)) && !(x.quads.any Quad.sided)
/-- Whether the instance of a scope holds no agent but the path itself. A write becomes visible to all other agents at one
instant (R207), so it is performed at such a scope from the start, and at any other when it is performed. (DEDUCED, log 30) -/
def State.alone (s : State) (x : Group) (p : Nat) (sc : Scope) : Bool :=
  let others := s.groups.filter fun y => y.uid != x.uid && !y.retired && y.coh == x.coh
  match sc with
  | .qd => !((x.quadsOf p).any fun q => (x.quad q).sided)
  | .gp => x.sole p
  | .wg => x.sole p && !others.any (·.wg == x.wg)
  | .co => x.sole p && others.isEmpty
  | .cx | .sy => false
/-- Whether a release at a scope keeps lines for the directory to recall (R214). -/
def scopeLazy : Scope → Bool
  | .co | .cx | .sy => true
  | _ => false
/-- Whether a fence at a scope waits at the banks (R221). -/
def scopeBanked : Scope → Bool
  | .cx | .sy => true
  | _ => false
/-- The order that a fence or a counter form of a path waits for, numbered at its first issue (R213, R215, R221): the path
with that number, and whether it has still to wait. -/
def State.orderHold (s : State) (x : Group) (p : Nat) (sc : Scope) (reads writes : Bool) : State × Bool :=
  let lone := s.alone x p sc
  let f := (x.path p).fence.getD ⟨s.fresh, none⟩
  let own := (reads && !lone && x.readsBefore p f.no) || (writes && x.writesBefore p f.no lone)
  -- Once its own writes have left the store buffer, a fence of .cx or .sy records what the banks have accepted.
  let f := if own || !writes || !scopeBanked sc || f.banks.isSome then f else { f with banks := some (s.bankMarks x.ctx) }
  if own || !s.banksDone (f.banks.getD []) then ({ s with fresh := s.fresh + 1 }.setGroup (x.modPath p fun y => { y with fence := some f }), true)
  else (if writes && scopeLazy sc then s.l1Release x.uid else s, false)

/-! ### Issue -/

/-- A memory form: its access, its sources beside the address, the registers it names, and what a watch sees. -/
structure MemForm where
  n : Nat
  acc : Acc
  mem : MemOp
  uniform : Bool
  srcs : List (Src × Bool)
  regs : Group → List Reg
  rd : Bool
  wr : Bool
  rmw : Bool

/-- The address of a memory operand in a lane (R224). -/
def memAddr (s : State) (x : Group) (p : Nat) (m : MemOp) (lane : Nat) : DWord :=
  eaOf (x.sGet m.base).toNat ((opI m.index false).val s x p lane) m.scale m.off

/-- The lanes that a memory instruction checks: a uniform one in its lowest executing lane (R225, R227). -/
def memLanes (uniform : Bool) (e helpers : Word) : List Nat :=
  if uniform then (if e = 0 then [] else [lowLane e]) else lanesOf (e &&& ~~~helpers)

/-- The checks of a memory instruction, its watch and the hold of its replay log; `go` then performs it in the lanes checked. -/
def memChecked (f : MemForm) (s : State) (x : Group) (p : Nat) (e : Word)
    (go : State → Group → List LaneAcc → Res) : Res :=
  let lanes := memLanes f.uniform e x.helpers
  let r := s.checkLanes x f.n f.acc (lanes.map fun l => (l, memAddr s x p f.mem l))
  let cs := if f.wr then r.1.checkPoison f.n f.rmw r.2 else r.2
  match checkCause cs with
  | some c =>
    .next ({ r.1 with cache := s.cache, l1 := s.l1, stale := s.stale, leftLines := s.leftLines }.stopHere x.uid p c)
  | none =>
    if cs.any (·.code == 0xFF) then .fault .noSuchMemory
    else
      match (if (x.path p).skip then none else r.1.watchMatch x.ctx f.n f.rd f.wr cs) with
      | some (k, hit) =>
        let va := ((cs.find? (·.lane == lowLane hit)).map (·.va)).getD 0
        .next (r.1.debugStop x.uid p ⟨3, k, hit, va, 0, false⟩ (Cause.plain 0x32 e))
      | none =>
        let as := cs.filterMap fun c => match c.res with
          | .ok pl => some { lane := c.lane, va := c.va, place := some pl, x := 0, y := 0 : LaneAcc }
          | .error _ => none
        if (f.rd || f.wr) && r.1.rplWaits x p as then .next s else go r.1 x as

/-- Issue of a memory form (R225, R231): it waits for its registers and for an acquire before it. -/
def memIssue (f : MemForm) (s : State) (go : State → Group → Nat → Word → List LaneAcc → Res) : Res :=
  gated s ((.s f.mem.base, true) :: (f.mem.index, false) :: f.srcs) f.regs fun x p e =>
    if e = 0 then .next (s.retire x p)
    else if x.acqHeld p s.fresh then .next s
    else memChecked f s x p e fun t x as => go t x p e as

/-- Outstanding producers for the requests of an instruction, under one instruction number. -/
def outsOf (x : Group) (p inst : Nat) (op : OutOp) (regs : List Reg) (acq rel : Bool) (sc : Scope) (alone : Bool) (n : Nat)
    (e : Word) (uniform : Bool) (whole : List LaneAcc) : Nat → List (List LaneAcc) → List Out
  | _, [] => []
  | id, as :: rest =>
    { id, inst, path := p, pc := (x.path p).pc, op, regs, lanes := if uniform then e else maskOf (as.map (·.lane))
      accs := as, agent := (x.path p).agent, hist := (x.path p).hist, acq, rel, scope := sc, alone, bytes := n, fl := .none
      discard := [], whole, poison := 0, poisonVa := 0, rpl := rplAcc x p inst whole } ::
      outsOf x p inst op regs acq rel sc alone n e uniform whole (id + 1) rest

/-- The trace of the entry that the translation of an address has just used (R377). -/
def State.traceOf (s : State) (core c a : Nat) : List Span :=
  ((s.flatHit (some core) c (a / 12288)).map (·.trace)).getD []
/-- Store-buffer entries for the requests of an instruction, under one instruction number (R195, R215). -/
def entriesOf (s : State) (x : Group) (p inst : Nat) (op : SOp) (rel : Bool) (sc : Scope) (n : Nat) (waits : Option Nat)
    (whole : List LaneAcc) : Nat → List (List LaneAcc) → List SEntry
  | _, [] => []
  | id, as :: rest =>
    let ps := as.flatMap fun a => match a.place with
      | some q => q.bytes n
      | none => []
    { id, op, accs := as, bytes := n, agent := (x.path p).agent, hist := (x.path p).hist, rel
      scope := sc, alone := s.alone x p sc, waits, deferred := waits.isSome
      heals := ((ps.filter s.placeBad).map Place.grain).eraseDups
      via := (as.flatMap fun a => s.traceOf x.core x.ctx a.va.toNat).eraseDups, rpl := rplAcc x p inst whole } ::
      entriesOf s x p inst op rel sc n waits whole (id + 1) rest

/-! ### Atomic operations (R234) -/

/-- The new value of an atomic operation at N bits. -/
def atomNew (op : AtOp) (n o x y : Nat) : Nat :=
  match op with
  | .add => (o + x) % 2 ^ n
  | .and => o &&& x
  | .or => o ||| x
  | .xor => o ^^^ x
  | .exch => x
  | .cas => if o = x then y else o
  | .mins => if sext x n < sext o n then x else o
  | .maxs => if sext o n < sext x n then x else o
  | .minu => min o x
  | .maxu => max o x

def State.placePutNat (s : State) (p : Place) (n x : Nat) : State :=
  (List.range n).foldl (fun s i => s.placePut (p.add i) (BitVec.ofNat 8 (x / 2 ^ (8 * i)))) s

/-- One lane's atomic step; what it read. -/
def State.atomStep (s : State) (op : AtOp) (n : Nat) (a : LaneAcc) : State × Nat :=
  match a.place with
  | none => (s, 0)
  | some p =>
    let o := s.placeNat p n
    (s.placePutNat p n (atomNew op (8 * n) o (a.x % 2 ^ (8 * n)) (a.y % 2 ^ (8 * n))), o)

/-- Lanes in ascending order, each with the value that its own step read (R195). -/
def State.atomAll (s : State) (op : AtOp) (n : Nat) : List LaneAcc → State × List (LaneAcc × Nat)
  | [] => (s, [])
  | a :: rest =>
    let r := s.atomStep op n a
    let q := r.1.atomAll op n rest
    (q.1, (a, r.2) :: q.2)

/-! ### Loads land (R206, R212, R232, R316) -/

/-- The byte that a store entry holds for a location; of several lanes, the highest-numbered (R195). -/
def SEntry.byteAt (e : SEntry) (p : Place) : Option Byte :=
  e.accs.reverse.findSome? fun a => match a.place with
    | some q =>
      ((List.range e.bytes).find? fun i => (q.add i).overlaps 1 p 1).map fun i => BitVec.ofNat 8 (a.x / 2 ^ (8 * i))
    | none => none

/-- The entries of the group that a read at `o` receives bytes from: its agent's earlier ones, and earlier deferred ones of
any path (R206, R316). -/
def Group.entriesBefore (x : Group) (o : Out) : List SEntry :=
  x.sbuf.filter fun e => !e.isClean && decide (e.id < o.id) && (e.agent == o.agent || e.deferred)
/-- Whether an entry stands before an access of the group so that they keep their order: by one agent's program order, or
as a deferred entry (R206, R316). -/
def SEntry.before (e : SEntry) (id agent : Nat) (hist : List Before) : Bool :=
  precedes e.id e.agent id agent hist || (e.deferred && decide (e.id < id))
/-- Whether an access of the group stands behind a join or regang that an earlier access has not passed (R210), or, as a
release, behind one that it waits for (R215); the requests of one release are performed in ascending order, for each waits for
those before it (DESIGN CHOICE, log 101). -/
def Group.orderedBehind (x : Group) (id agent : Nat) (hist : List Before) (rel lone : Bool) : Bool :=
  (x.sbuf.any fun e => decide (e.id < id) && ((rel && e.awaited lone) || syncs e.id e.agent hist)) ||
  x.outs.any fun q => q.undecided && decide (q.id < id) &&
    (syncs q.id q.agent hist || (rel && !lone && precedes q.id q.agent id agent hist))

/-- Whether the request may land now. (DEDUCED, log 3) -/
def State.readReady (s : State) (x : Group) (o : Out) : Bool :=
  let clash := x.sbuf.filter fun e =>
    !e.isClean && e.before o.id o.agent o.hist && accsOverlap e.accs e.bytes o.accs o.bytes
  let plain := clash.all fun e => e.op == .st && e.waits.isNone && (e.agent == o.agent || e.deferred)
  let reads := x.outs.any fun q => q.undecided && precedes q.id q.agent o.id o.agent o.hist &&
    accsOverlap q.accs q.bytes o.accs o.bytes
  o.undecided && plain && (!o.isAtom || clash.isEmpty) && !reads && !x.orderedBehind o.id o.agent o.hist o.rel o.alone &&
    !(o.accs.any fun a => (a.place.map (s.owned x.uid o.id)).getD false)

/-- A byte of a read: the group's own latest earlier store to it, or memory's. -/
def State.readByte (s : State) (x : Group) (o : Out) (p : Place) : Byte × Bool :=
  match (x.entriesBefore o).reverse.findSome? fun e => e.byteAt p with
  | some b => (b, false)
  | none => (s.placeByte p, s.placeBad p)

/-! ### Banks (R221, R222) -/

/-- A request that has written physical memory stands at the bank of its line; a core-pinned page has none. With `wide`, it is a
st of .cx or .sy, for which a clause wait on st waits as a fence of its scope does (R47). -/
def State.bankWrite (s : State) (x : Group) (wide : Bool) (as : List LaneAcc) : State :=
  match as.findSome? fun (a : LaneAcc) => a.place with
  | some (.phys a _ _ _) => s.bankTake ⟨x.ctx, x.uid, wide, lineOf a⟩
  | _ => s

/-- What a lane of a load receives, and whether it met poison. -/
def State.readLane (s : State) (x : Group) (o : Out) (a : LaneAcc) : Nat × Bool :=
  match a.place with
  | none => (0, false)
  | some p =>
    let bs := (p.bytes o.bytes).map fun q => s.readByte x o q
    (leNat (bs.map (·.1)), bs.any (·.2))

/-- The bits that a load type gives a destination of N bits (R232). -/
def loadBits (ty : LdTy) (x : Nat) : Nat :=
  match ty with
  | .s8 => wrapInt 64 (sext x 8)
  | .s16 => wrapInt 64 (sext x 16)
  | _ => x

/-- Writes one lane, or the s register of a uniform read. -/
def Group.landAt (x : Group) (o : Out) (lane r : Nat) : Group :=
  match o.regs with
  | [.s n] => if o.discard.contains (.s n) then x else x.sSet n (BitVec.ofNat 64 r)
  | _ => if laneOn o.lanes lane then x.landLane o lane r else x

/-- A group that has retired leaves the machine with its last access. -/
def State.reap (s : State) : State :=
  { s with groups := s.groups.filter fun x => !(x.retired && x.outs.isEmpty && x.sbuf.isEmpty && x.mpend.isEmpty) }

/-- Whether a lane is a helper lane, which reports no poison (R201). -/
def Group.isHelper (x : Group) (lane : Nat) : Bool := laneOn x.helpers lane

/-- A request's registers are written in the lanes that met no poison; while some did, its producer stays (R201). -/
def State.landed (s : State) (x : Group) (o : Out) (vals : List (LaneAcc × Nat × Bool)) : State :=
  let bad := vals.filter fun v => v.2.2 && !(x.isHelper v.1.lane && o.regs.all fun r => match r with
    | .v _ => true
    | _ => false) && (laneOn o.lanes v.1.lane)
  let x := (vals.filter fun v => !bad.contains v).foldl (fun y v => y.landAt o v.1.lane v.2.1) x
  let mask := maskOf (bad.map (·.1.lane))
  let va := ((bad.head?).map (·.1.va)).getD 0
  let outs := if bad.isEmpty then x.outs.filter (·.id != o.id)
    else x.outs.map fun q => if q.id == o.id then { q with poison := mask, poisonVa := va } else q
  (s.setGroup ({ x with outs := outs }.captureBound)).reap

/-- A helper lane that reads poison receives a free value (DESIGN CHOICE, log 22). -/
def freeBits (s : State) (lane : Nat) : Nat :=
  (List.range 4).foldl (fun t i => t + (Config.freeWord (s.free + 4 * lane + i)).toNat * 2 ^ (32 * i)) 0

/-- The group as it stands now. -/
def State.groupOr (s : State) (x : Group) : Group := (s.group? x.uid).getD x
/-- A unit of an access has been poisoned since its check (R229). -/
def State.accStruck (s : State) (n : Nat) (a : LaneAcc) : Bool := (a.place.map fun p => (p.bytes n).any s.placeBad).getD false
/-- A request of an atom is performed, and its lanes receive what their own steps read. A lane on a unit poisoned since its check
writes nothing and stops nothing, and what it returns is not stated (R229; DESIGN CHOICE, log 22). A release at .co or wider
marks the lines that its group has dirtied (R214). -/
def State.atomLand (s : State) (x : Group) (o : Out) (op : AtOp) : State :=
  let good := o.accs.filter fun a => !s.accStruck o.bytes a
  let s := if o.rel && scopeLazy o.scope then s.l1Release x.uid else s
  let r := (if good.isEmpty then s else s.touchAll x false true good).atomAll op o.bytes good
  let t := (r.1.dieDone x true o.bytes good).clock x.uid o.rpl good true
  let t := if good.isEmpty then t else t.bankWrite x false good
  let vals := o.accs.map fun a => (a, match r.2.find? (·.1.lane == a.lane) with
    | some v => v.2
    | none => freeBits s a.lane % 2 ^ (8 * o.bytes), false)
  let t := if good.length = o.accs.length then t else { t with free := t.free + 128 }
  t.landed (t.groupOr x) o vals
/-- One request of a ld or an atom lands. -/
def loadLand (g k : Nat) (s : State) : Res :=
  match s.group? g with
  | none => .next s
  | some x =>
    match x.outs.find? (·.id == k) with
    | none => .next s
    | some o =>
      if !s.readReady x o then .next s
      else
        match o.op with
        | .load ty =>
          let vals := o.accs.map fun a =>
            let r := s.readLane x o a
            (a, loadBits ty (if r.2 then freeBits s a.lane else r.1), r.2)
          let s := if vals.any (·.2.2) then { s with free := s.free + 128 } else s
          let s := s.clock g o.rpl o.accs false
          .next (s.landed (s.groupOr x) o vals)
        | .atom op _ => .next (s.atomLand x o op)
        | _ => .next s

/-! ### Writes are performed (R206, R211, R215, R229, R239) -/

/-- Whether an entry may be performed now. A cflush or cinv waits for the agent's earlier writes to its line (R239, R246).
(DEDUCED, log 3) -/
def State.writeReady (s : State) (x : Group) (e : SEntry) : Bool :=
  let entries := x.sbuf.any fun q => !q.isClean && q.before e.id e.agent e.hist &&
    if e.isClean then accsShareLine q.accs e.accs else accsOverlap q.accs q.bytes e.accs e.bytes
  let reads := x.outs.any fun o => o.undecided && precedes o.id o.agent e.id e.agent e.hist &&
    if e.isClean then o.isAtom && accsShareLine o.accs e.accs else accsOverlap o.accs o.bytes e.accs e.bytes
  e.waits.isNone && !entries && !reads && !x.orderedBehind e.id e.agent e.hist e.rel e.alone &&
    (e.isClean || !e.accs.any fun a => (a.place.map (s.owned x.uid e.id)).getD false)

/-- The bytes of a store in lane order, the last one to a byte standing (R195). -/
def SEntry.writes (e : SEntry) : List (Place × Byte) :=
  e.accs.flatMap fun a => match a.place with
    | some p => (List.range e.bytes).map fun i => (p.add i, BitVec.ofNat 8 (a.x / 2 ^ (8 * i)))
    | none => []

/-- A store takes effect but for the parts that fall in a unit poisoned since its check (R229); one that it covers whole,
and that has stood in poison since the check, is healed (R200). -/
def State.performStore (s : State) (e : SEntry) : State :=
  let ws := e.writes.filter fun w => !(s.placeBad w.1 && !e.heals.contains w.1.grain)
  let s := ws.foldl (fun s w => s.placeClear w.1) s
  ws.foldl (fun s w => s.placePut w.1 w.2) s

/-- cflush and cinv on one line (R239). A line that a HOME 2 access has locked is written back and stays, whichever home the
form reaches it through: R193 never drops it (DESIGN CHOICE, log 100). -/
def State.cleanLine (s : State) (x : Group) (drop wide : Bool) (p : Place) : State :=
  match p with
  | .pin .. => s
  | .phys a home _ _ =>
    let line := lineOf a
    let s := if drop then
        { s with icache := s.icache.filter fun l => !(l.line == line && (wide || l.core == x.core)) } else s
    let mine := fun (l : L1Line) => l.line == line && l.core == x.core
    if home == 0 && wide then
      match s.cache.find? (·.line == line) with
      | none => s
      | some l => if drop && !l.locked then s.evictLine l else s.writeLine l
    else if home == 0 then
      let s := s.l1Back mine
      if drop then { s with l1 := s.l1.filter fun l => !mine l } else s
    else if home == 2 && wide then
      match s.cache.find? (·.line == line) with
      | none => s
      | some l => s.writeLine l
    else s

/-- A red takes effect in ascending lane order, but for units poisoned since its check. -/
def State.performRed (s : State) (e : SEntry) (op : AtOp) : State :=
  (s.atomAll op e.bytes (e.accs.filter fun a => !s.accStruck e.bytes a)).1

/-- An entry's effect; one under an erased key is lost (R197). -/
def State.perform (s : State) (x : Group) (e : SEntry) : State :=
  if e.accs.any fun a => !((a.place.map s.placeLive).getD true) then s
  else
    match e.op with
    | .st =>
      let t := ((s.touchAll x false false e.accs).performStore e).dieDone x false e.bytes e.accs
      (t.clock x.uid e.rpl e.accs true).bankWrite x (scopeBanked e.scope) e.accs
    | .red op _ =>
      let t := ((s.touchAll x false true e.accs).performRed e op).dieDone x true e.bytes e.accs
      (t.clock x.uid e.rpl e.accs true).bankWrite x false e.accs
    | .clean drop wide =>
      match e.accs.findSome? fun (a : LaneAcc) => a.place with
      | some p => s.cleanLine x drop wide p
      | none => s
/-- A release at .co or wider, once performed, marks the lines that its group has dirtied; what a group leaves behind it when
it retires is written back (R214). -/
def State.afterWrite (s : State) (x : Group) (e : SEntry) : State :=
  let s := if e.rel && scopeLazy e.scope then s.l1Release x.uid else s
  if x.retired then s.l1Back fun l => l.writers.any (·.1 == x.uid) else s

/-- A store-buffer entry is performed and leaves the buffer. -/
def writePerformed (g k : Nat) (s : State) : Res :=
  match s.group? g with
  | none => .next s
  | some x =>
    match x.sbuf.find? (·.id == k) with
    | none => .next s
    | some e =>
      if s.writeReady x e then
        .next (((s.perform x e).afterWrite x e).modGroup g fun x => { x with sbuf := x.sbuf.filter (·.id != k) }).reap
      else .next s

end Sys2Proof.Machine
end

