-- ==== Sys2Proof/Machine/Fetch.lean ====
section
/-! DEFINITION. Instruction fetch: the instruction cache (R241, R243), the clause buffer and its checks (R242, R244, R44),
and the wait of a clause (R47). -/

namespace Sys2Proof.Machine

/-! ### Lines (R241, R243) -/

/-- Where a line is fetched from: the translation that names it, the pages that it passes through, and its key instance. -/
structure FetchAt where
  pa : Nat
  inst : Nat
  via : Flat
  pages : List Span
def FetchAt.home (a : FetchAt) : Nat := a.via.home
def FetchAt.key (a : FetchAt) : Nat := a.via.key

/-- Why a fetch fails (R243): the reason and the stage that failed. -/
structure FetchErr where
  reason : Nat
  addr : Nat
  sdep : Nat
  aux : Nat

/-- The reason of a lane code. -/
def fetchReason : Nat → Nat
  | 2 => 1
  | 3 => 2
  | 4 => 3
  | 5 => 4
  | c => c
/-- The lane code of a reason. -/
def reasonCode (r : Nat) : Nat := if r = 5 then 7 else r + 1

/-- The translation of line l for a fetch. -/
def State.fetchLine (s : State) (core ctx l : Nat) : State × Except FetchErr FetchAt :=
  match s.translate (some core) ctx (192 * l) .x with
  | (s, .error e) => (s, .error ⟨fetchReason e.code, 192 * l, e.sdep, e.addr⟩)
  | (s, .ok f) =>
    if f.home == 1 then (s, .error ⟨3, 192 * l, 0xFF, 0⟩)
    else
      match s.instOf f.key with
      | none =>
        let e := s.keyErr ctx (192 * l)
        (s, .error ⟨4, 192 * l, e.sdep, e.addr⟩)
      | some inst => (s, .ok ⟨f.target (192 * l), inst, f, f.through (192 * l / 12288)⟩)

/-- The line in a core's instruction cache; one without bytes is being filled. -/
def State.icLine (s : State) (core : Nat) (a : FetchAt) : Option ICLine :=
  s.icache.find? fun l => l.core == core && l.line == lineOf a.pa && l.key == a.key
/-- A line enters the cache of a core: 128 sets of 4 ways, least recently used (R241). -/
def State.icInsert (s : State) (l : ICLine) : State :=
  let set := s.icache.filter fun m => m.core == l.core && m.line % 128 == l.line % 128
  let s := if set.length < 4 then s
    else
      match set.foldl (fun (b : Option ICLine) m => match b with
        | none => some m
        | some n => if m.used < n.used then some m else b) none with
      | none => s
      | some v => { s with icache := s.icache.filter fun m => !(m.core == v.core && m.line == v.line && m.key == v.key) }
  { s with icache := l :: s.icache }
/-- A miss asks for a fill from the memory-side cache, which recalls a dirty copy first (R243). A HOME 2 line that cannot be
locked is filled all the same, R243 having no reason for it (DESIGN CHOICE, log 90). -/
def State.icMiss (s : State) (core ctx : Nat) (a : FetchAt) : State :=
  let line := lineOf a.pa
  let s := s.softTouch ctx line 15 a.via a.pages
  { s.icInsert ⟨s.fresh, core, line, a.key, a.inst, [], s.steps, a.via.trace⟩ with fresh := s.fresh + 1 }

/-- What a fetch of one line finds: its bytes, or that it waits for a fill. -/
def State.fetchBytes (s : State) (core ctx : Nat) (a : FetchAt) : State × Option (List Byte) :=
  let now := (List.range 192).map fun i => s.readUnder a.inst (a.pa + i)
  if a.home == 3 then ((s.dieTouch (lineOf a.pa) a.key).dramMove ctx (lineOf a.pa) 15 false, some now)
  else
    match s.icLine core a with
    | some l =>
      if l.bytes.isEmpty then (s, none)
      else
        ({ s with icache := s.icache.map fun m =>
            if m.core == core && m.line == l.line && m.key == l.key then { m with used := s.steps } else m },
         some l.bytes)
    | none => (s.icMiss core ctx a, none)

/-- A fill reads each sector of its line once and completes (R246, R247). -/
def instructionFill (core line : Nat) (s : State) : Res :=
  .next { s with icache := s.icache.map fun l =>
    if l.core == core && l.line == line && l.bytes.isEmpty then
      { l with bytes := (List.range 192).map fun i => s.readUnder l.inst (line * 192 + i) }
    else l }

/-! ### Words of a clause (R242, R244) -/

/-- What a fetch of words gives: the words, a failure, or a wait for a fill. -/
inductive Fetched where
  | words (ws : List DWord)
  | fail (e : FetchErr)
  | wait

/-- The first poisoned byte address among a line's bytes from lo to hi (virtual). (DEDUCED, log 40) -/
def State.fetchPoison (s : State) (l lo hi : Nat) (a : FetchAt) : Option Nat :=
  ((List.range 4).map fun k => 192 * l + 48 * k).find? fun v =>
    decide (v < hi) && decide (lo < v + 48) && s.poisoned (a.pa + (v - 192 * l))

/-- Fetches the bytes from `lo` to `hi` of the lines in order; the first failing condition counts. -/
def State.fetchRange (s : State) (core ctx lo hi : Nat) : List Nat → State × Except FetchErr (Option (List Byte))
  | [] => (s, .ok (some []))
  | l :: rest =>
    match s.fetchLine core ctx l with
    | (s, .error e) => (s, .error e)
    | (s, .ok a) =>
      match s.fetchPoison l lo hi a with
      | some v => (s, .error ⟨5, v, 0xFF, 0⟩)
      | none =>
        let r := s.fetchBytes core ctx a
        match r.1.fetchRange core ctx lo hi rest with
        | (s, .error e) => (s, .error e)
        | (s, .ok more) =>
          match r.2, more with
          | some bs, some more => (s, .ok (some (bs ++ more)))
          | _, _ => (s, .ok none)

/-- The lines that hold the bytes from lo to hi. -/
def fetchLines (lo hi : Nat) : List Nat := (List.range ((hi - 1) / 192 + 1 - lo / 192)).map fun i => lo / 192 + i

/-- The n words from an address. -/
def State.fetchWords (s : State) (core ctx : Nat) (a : DWord) (n : Nat) : State × Fetched :=
  if n = 0 then (s, .words [])
  else
    let lo := a.toNat
    let hi := lo + 8 * n
    match s.fetchRange core ctx lo hi (fetchLines lo hi) with
    | (s, .error e) => (s, .fail e)
    | (s, .ok none) => (s, .wait)
    | (s, .ok (some bs)) =>
      (s, .words ((List.range n).map fun i => BitVec.ofNat 64 (leNat ((bs.drop (lo - lo / 192 * 192 + 8 * i)).take 8))))

/-- The stop of a fetch (R244): every lane of MASK that is not a helper lane holds the reason's code. -/
def fetchCause (x : Group) (p : Nat) (e : FetchErr) : Cause :=
  { code := 0x05, lanes := laneVecOf (x.mask p &&& ~~~x.helpers) (reasonCode e.reason), reason := e.reason
    addr := BitVec.ofNat 64 e.addr, aux := BitVec.ofNat 64 e.aux, aux2 := 0, sdep := e.sdep, cow := false, load := 0, after := false }

/-! ### after(RJ) (R170) -/

/-- What forming after(RJ) gives. -/
inductive After where
  | at (pc : DWord)
  | fail (e : FetchErr)
  | illegal
  | wait

/-- Fetches the header at RJ as a path fetches a header, and reads its COUNT (R242, R243). -/
def State.afterRj (s : State) (core ctx : Nat) (rj : DWord) : State × After :=
  match s.fetchRange core ctx rj.toNat (rj.toNat + 8) [rj.toNat / 192] with
  | (s, .error e) => (s, .fail e)
  | (s, .ok none) => (s, .wait)
  | (s, .ok (some bs)) =>
    let h := leNat ((bs.drop (rj.toNat % 192)).take 8)
    if rj.toNat % 8 != 0 || !hdrOk h then (s, .illegal)
    else (s, .at (rj + BitVec.ofNat 64 (8 * (hdrCount h + 2))))

/-! ### The wait of a clause (R47) -/

/-- Poisoned producers that stop a path: those of its lanes, or those that a queued closure awaits (R201, R320). -/
def Group.poisonFor (x : Group) (p : Nat) (only : Out → Bool) (res : Bool) : Option Out :=
  x.outs.find? fun o => o.poison != 0 && x.settled o.inst &&
    ((only o && (o.lanes &&& x.mask p != 0 || o.path == p)) ||
     (res && x.rcq.any fun c => o.regs.any fun r => [c.a, c.b, c.c, c.d].any fun t => match t with
       | .bound reg _ _ _ _ lo hi => (lo && reg == r) || (hi && reg.succ == r)
       | _ => false))

/-- Whether a category of R47 is complete for the group. -/
def State.waitDone (s : State) (x : Group) (k : Nat) : Bool :=
  let outs := fun (f : OutOp → Bool) => !x.outs.any fun o => f o.op
  match k with
  | 0 => outs fun o => match o with
    | .load _ | .lget _ | .accr _ _ _ => true
    | _ => false
  | 1 => (!x.sbuf.any fun e => e.awaited e.alone && match e.op with
      | .red _ _ => false
      | _ => true) && !s.bankQ.any fun w => w.group == x.uid && w.wide
  | 2 => (!x.sbuf.any fun e => match e.op with
      | .red _ _ => true
      | _ => false) && outs fun o => match o with
    | .atom _ _ => true
    | _ => false
  | 3 => x.mpend.isEmpty && (outs fun o => match o with
      | .adstat _ _ => true
      | _ => false) && !s.fills.any fun f => f.asks.any fun a => a.group == x.uid && a.prefetch
  | 4 => !s.copies.any (·.group == x.uid)
  | 6 => !s.launches.any fun l => l.from_ == x.uid && !l.read
  | 7 => x.rcq.isEmpty
  | _ => true

/-- The poisoned load that a clause wait on ld or atom, or on res, reports (R201). -/
def Group.waitPoison (x : Group) (p wait : Nat) : Option Out :=
  x.poisonFor p (fun o => bitAt wait 7 || match o.op with
    | .load _ => bitAt wait 0
    | .atom _ _ => bitAt wait 2
    | _ => false) (bitAt wait 7)

/-- An instruction that drains the residual closure queue (R312): it stops for a poisoned load, holds while the queue is
not empty, and otherwise goes on. -/
def drained (s : State) (x : Group) (p : Nat) (k : Res) : Res :=
  match x.poisonFor p (fun _ => true) true with
  | some o => .next (s.poisonStop x p o)
  | none => if x.rcq.isEmpty then k else .next s

/-! ### CLAUSE_FETCH -/

/-- A cinv of the group that has not completed holds its fetches (R246). -/
def Group.cinvHolds (x : Group) : Bool :=
  x.sbuf.any fun e => match e.op with
    | .clean drop _ => drop
    | _ => false

/-- A failed fetch stops the path (R244). -/
def fetchStop (s : State) (x : Group) (p : Nat) (e : FetchErr) : Res :=
  if e.reason = 0xFF then .fault .noSuchMemory else .next (s.stopHere x.uid p (fetchCause x p e))
/-- A clause that fails its checks stops the path at its header (R44). -/
def illegalClause (s : State) (x : Group) (p : Nat) : Res := .next (s.stopHere x.uid p (Cause.plain 0x01 (x.mask p)))

/-- The clause buffer of a group takes a clause, and holds no other (R242). -/
def Group.buffer (x : Group) (p : Nat) (f : Path → Path) : Group :=
  { x with paths := (List.range 8).map fun q =>
      if q = p then f (x.path q)
      else if (x.path q).hdr then { x.path q with head := 0, words := [], fetched := false } else { x.path q with fetched := false } }

/-- Whether the word before a header is the count word of a kernel, so that the header is the kernel's first (R82). -/
def isCountWord (w : Nat) : Bool := fld w 54 10 == 0x2BF && fld w 16 38 == 0

/-- A group started from a record stops at an entry that is not the first clause header of a kernel (R178; that the count
word before it tells is DEDUCED, log 91). The answer is none while the count word is being fetched. -/
def State.entryOk (s : State) (x : Group) (h : DWord) : State × Option Bool :=
  if x.bin && h == x.kent then
    match s.fetchWords x.core x.ctx (h - 8) 1 with
    | (s, .words ws) => (s, some (isCountWord (ws.getD 0 0).toNat))
    | (s, .fail _) => (s, some false)
    | (s, .wait) => (s, none)
  else (s, some true)

/-- The header of a path's clause: its line is fetched before it is checked (R242). Poison in another sector of that line is met
only once a header that passes its checks has told that the clause reaches it (DESIGN CHOICE, log 102). -/
def State.fetchHeader (s : State) (x : Group) (h : DWord) : State × Fetched :=
  if h.toNat % 8 = 0 then s.fetchWords x.core x.ctx h 1
  else
    match s.fetchRange x.core x.ctx h.toNat (h.toNat + 8) [h.toNat / 192] with
    | (s, .error e) => (s, .fail e)
    | (s, .ok none) => (s, .wait)
    | (s, .ok (some _)) => (s, .words [])

/-- The clause at a path's header is fetched and checked; its first word issues once its wait is over (R242). -/
def fetchClause (s : State) (x : Group) (p : Nat) : Res :=
  let h := (x.path p).pc
  match s.fetchHeader x h with
  | (s, .fail e) => fetchStop s x p e
  | (s, .wait) => .next s
  | (s, .words ws) =>
    let hd := ws.getD 0 0
    if h.toNat % 8 != 0 || !hdrOk hd.toNat then illegalClause s x p
    else
      match s.fetchWords x.core x.ctx h (hdrCount hd.toNat + 2) with
      | (s, .fail e) => fetchStop s x p e
      | (s, .wait) => .next s
      | (s, .words all) =>
        match s.entryOk x h with
        | (s, none) => .next s
        | (s, some entry) =>
          if entry && clauseOk hd.toNat 0 ((all.drop 1).map (·.toNat)) then
            .next (s.modGroup x.uid fun x => x.buffer p fun y => { y with head := hd, words := all.drop 1, fetched := true })
          else illegalClause s x p

/-- Whether the wait of the clause that a path has fetched is over (R47). -/
def State.waitOver (s : State) (x : Group) (p : Nat) : Bool :=
  let w := hdrWait (x.path p).head.toNat
  (List.range 8).all fun k => !bitAt w k || s.waitDone x k
/-- The path stands at the first word of its clause. -/
def Path.enter (y : Path) : Path := { y with hdr := false, pos := 0, pc := y.pc + 8, latch := [], dlatch := [] }

/-- A resumed stop fetches its words from POS on again (R244). -/
def refetch (s : State) (x : Group) (p : Nat) : Res :=
  let y := x.path p
  match s.fetchWords x.core x.ctx y.pc (hdrCount y.head.toNat + 1 - y.pos) with
  | (s, .fail e) => fetchStop s x p e
  | (s, .wait) => .next s
  | (s, .words ws) =>
    .next (s.modGroup x.uid fun x => x.buffer p fun y => { y with words := y.words.take y.pos ++ ws, fetched := true })

/-- Resumption forms after(RJ) again (R170). -/
def reformAfter (s : State) (x : Group) (p : Nat) : Res :=
  match s.afterRj x.core x.ctx (x.path p).pc with
  | (s, .at pc) => .next (s.modGroup x.uid fun x => x.modPath p fun y => { y.endClause pc with stepped := y.stepped })
  | (s, .fail e) => fetchStop s x p e
  | (s, .illegal) => illegalClause s x p
  | (s, .wait) => .next s

/-- A path inside its clause, whose words the clause buffer holds (R45). -/
def Path.inClause (y : Path) : Bool := y.st == .ready && !y.hdr && y.fetched
/-- What holds the fetches of a path: a cinv of its group, an acquire that it has passed and that is not yet determined (R246), a
replay record (R436), or another path's clause in progress (R45, R242). -/
def State.fetchHolds (s : State) (x : Group) (p : Nat) : Bool :=
  x.cinvHolds || x.acqHeld p s.fresh || s.replayHolds x || (List.range 8).any fun q => q != p && (x.path q).inClause
/-- CLAUSE_FETCH for a path of a group in its partition's active set. -/
def clauseFetch (g p : Nat) (s : State) : Res :=
  match s.group? g with
  | none => .next s
  | some x =>
    let y := x.path p
    if !x.resident || !x.active || y.st != .ready || s.fetchHolds x p then .next s
    else if y.formAfter then reformAfter s x p
    else if y.fetched then .next s
    else if y.hdr then fetchClause s x p
    else refetch s x p

end Sys2Proof.Machine
end

