-- ==== Sys2Proof/Machine/Paths.lean ====
section
/-! DEFINITION. The motion of paths and what ends work: regrouping (R167), the join stack's resolution (R170, R175), exit,
retirement (R17), barriers (R424, R425), regang (R176) and the kill (R403). -/

namespace Sys2Proof.Machine

/-! ### Regrouping (R167) -/

/-- Where a quad of a path goes: an address, or a rejoin address whose after() could not be formed (R170). Its accesses go
on behind those of the path (`cur`; with `sync`, past a join of both sides, R182), and behind those named by `add`. A quad
whose after(RJ) could not be formed and one that goes to RJ itself share a PC, but the first has still to form its address,
so they become two paths (DESIGN CHOICE, log 93). -/
structure QuadTo where
  quad : Nat
  pc : DWord
  form : Bool
  cur : Bool
  sync : Bool
  add : List Before
  deriving DecidableEq, Repr, Inhabited

/-- A quad that goes on as its path does. -/
def QuadTo.on (q : Nat) (pc : DWord) : QuadTo := ⟨q, pc, false, true, false, []⟩

/-- The accesses of a path so far, as those of another agent stand behind them. -/
def Path.past (y : Path) (now : Nat) (sync : Bool) : List Before := y.hist ++ [⟨y.agent, now, sync⟩]
/-- Only accesses that are outstanding can be waited for. -/
def Group.prune (x : Group) (hs : List Before) : List Before :=
  (hs.filter fun h => (x.outs.any fun o => o.agent == h.agent && decide (o.id < h.upto)) ||
    x.sbuf.any fun e => e.agent == h.agent && decide (e.id < h.upto)).eraseDups

/-- A new path's entry, an agent of its own (R182). -/
def Path.start (pc : DWord) (form stepping : Bool) (agent : Nat) (hist : List Before) : Path :=
  { Path.freePath with st := .ready, pc, hdr := true, formAfter := form, stepping, stepped := stepping, agent, hist }

/-- A group at its start (R66, R90, R165, R334): every path quad holds the lanes of `mask` and its helper lanes. -/
def Group.start (uid ctx coh wg gi core part win nres : Nat) (control : Bool) (kent : DWord) (mask helper : Word) : Group :=
  let four := fun (q : Nat) (m : Word) => (m >>> (4 * q)).setWidth 4
  { uid, ctx, grid := none, coh, wg, gi, idCoh := 0, idGrid := 0xFFFFFFFF, bin := false, core, part, startNo := uid
    active := true, resident := true, saved := false, retired := false, control, yielded := false, win, nres, wb := 0, rlo := 0
    slot := 0, slotBase := 0, kent, v := [], s := [], m := [], d := [], defer := false, fl := .none
    quads := (List.range 8).map fun q =>
      if four q mask = 0 then ⟨none, 0, 0, 0, []⟩
      else ⟨some 0, four q (mask ||| helper), four q (mask ||| helper), four q helper, []⟩
    paths := Path.start kent false false uid [] :: (List.range 7).map fun _ => Path.freePath
    last := 7, rcq := [], outs := [], sbuf := [], ws := [], nb := 0, unb := [], unbFails := [], batches := [], report := []
    doneBatch := 0, alatch := none, subs := [], mpend := [], ad := ⟨0, 0, []⟩, applies := [], wv := false, wt := 0
    barc := false, rnum := 0, gclk := 0, maxw := [], badRows := [], awake := none, handler := none, waitSince := 0 }

/-- Quads of one group move to one entry. -/
def Group.moveQuads (x : Group) (qs : List Nat) (p : Nat) : Group :=
  qs.foldl (fun (x : Group) q => x.setQuad q { x.quad q with path := some p }) x

/-- One set of quads takes the lowest-numbered FREE entry. -/
def State.splitOff (s : State) (g p : Nat) (stepping : Bool) (pc : DWord) (form : Bool) (hist : List Before) (qs : List Nat) :
    State :=
  match s.group? g with
  | none => s
  | some x =>
    let k := ((List.range 8).find? fun k => (x.path k).st == .free && k != p).getD 7
    let (s, id) := s.newId
    let s := s.modGroup g fun x => (x.moveQuads qs k).setPath k (Path.start pc form stepping id hist)
    let mask := ((s.group? g).map (·.mask k)).getD 0
    s.emit g p 5 pc mask p k

/-- The branch maps of paths that end are emitted, while a session is open (R432; DEDUCED, log 43). -/
def State.flushMaps (s : State) (g : Nat) (ps : List Nat) : State :=
  match (s.group? g).bind s.session? with
  | none => s
  | some _ => ps.foldl (fun s p => s.flushMap g p) s

/-- The accesses that stand before those of the quads of one set. -/
def setHist (x : Group) (y : Path) (now : Nat) (ts : List QuadTo) : List Before :=
  x.prune ((if ts.any (·.cur) then y.past now (ts.any (·.sync)) else []) ++ ts.flatMap (·.add))

/-- After a control instruction, the quads of a path that stand at different addresses become different paths (R167). Quads
that all go on together and behind the path's own accesses alone keep its agent; else every path is a new one (R182). -/
def State.regroup (s : State) (g p : Nat) (fall : DWord) (goes : List QuadTo) : State :=
  match s.group? g, goes with
  | none, _ => s
  | some x, [] =>
    let y := x.path p
    (s.flushMaps g [p]).modGroup g fun x => x.setPath p
      { Path.freePath with pc := y.pc, pos := y.pos, stepping := y.stepping, stepped := y.stepping }
  | some x, t :: _ =>
    let y := x.path p
    let keep : DWord × Bool := if goes.any fun t => t.pc == fall && !t.form then (fall, false) else (t.pc, t.form)
    let set := fun (k : DWord × Bool) => goes.filter fun t => (t.pc, t.form) == k
    let same := goes.all fun t => (t.pc, t.form) == keep && t.cur && !t.sync && t.add.isEmpty
    let (s, id) := s.newId
    let s := s.modGroup g fun x => x.modPath p fun y =>
      let z := { y.endClause keep.1 with formAfter := keep.2 }
      if same then z else { z with agent := id, hist := setHist x y id (set keep) }
    let rest := ((goes.map fun t => (t.pc, t.form)).eraseDups).filter (· != keep)
    rest.foldl (fun s k =>
      s.splitOff g p y.stepping k.1 k.2 (setHist x y id (set k)) ((set k).map (·.quad))) s

/-- Every quad of a path goes to one address. -/
def Group.allTo (x : Group) (p : Nat) (pc : DWord) : List QuadTo := (x.quadsOf p).map fun q => QuadTo.on q pc

/-! ### Retirement (R17, R175) -/

/-- A workgroup retires when its groups have and its producer's copies have completed (R17, R368); its pages and
allocation are then discarded (R189, R191). -/
def State.settleWgs (s : State) : State :=
  { s with wgs := s.wgs.map fun w =>
      if !w.retired && (s.groups.all fun x => !(x.coh == w.coh && x.wg == w.idx) || x.retired) &&
          !s.copies.any fun c => c.coh == w.coh && c.wg == w.idx then
        { w with retired := true, pin := [], acc := [], badPin := [], badAcc := [] }
      else w }
/-- A cohort retires when its workgroups have (R17). -/
def State.settleCohorts (s : State) : State :=
  let gone := s.cohorts.filter fun c => s.wgs.all fun w => w.coh != c.uid || w.retired
  let s := gone.foldl (fun s c => match c.grid with
    | some k => s.modGrid k fun g => { g with gone := g.gone + 1 }
    | none => s) s
  let ids := gone.map (·.uid)
  { s with cohorts := s.cohorts.filter fun c => !ids.contains c.uid
           wgs := s.wgs.filter fun w => !ids.contains w.coh
           groups := s.groups.map fun x => if ids.contains x.coh then { x with mpend := [] } else x }
/-- A ladder ends when its core holds no group of its context (R402); with the last one of a withdrawal, the core leaves
the schedulable set (R464). -/
def State.endLadders (s : State) : State :=
  let live := s.ladders.filter fun l => s.holdsGroup l.core l.ctx
  let gone := s.ladders.filter fun l => l.withdraw && !live.any fun m => m.core == l.core && m.withdraw
  { s with
    ladders := live
    coreWords := gone.foldl (fun m l =>
      smSet ⟨false, 0, 0⟩ m l.core { smGet ⟨false, 0, 0⟩ m l.core with wdrn := true }) s.coreWords }
def State.settle (s : State) : State := s.settleWgs.settleCohorts.endLadders

/-- Paths that a barrier held go on at the fall-through address of their clause (R424). -/
def State.wake (s : State) (g : Nat) (f : Wake → Bool) : State :=
  (s.modGroup g fun x =>
    { x with paths := x.paths.map fun y =>
        if y.st == .blocked && f y.wake then { y.advance with st := .ready, wake := .none } else y }).haltStepped g

/-- The current phase of a workgroup completes once every group that has not retired has arrived (R424), and every lput of
its groups has taken effect (R119). -/
def State.checkBar (s : State) (coh w : Nat) : State :=
  match s.wg? coh w with
  | none => s
  | some k =>
    let gs := s.groups.filter fun x => x.coh == coh && x.wg == w && !x.retired
    if gs.isEmpty || (!gs.all fun x => k.arrived.contains x.gi) || s.lputs.any fun l => l.coh == coh && l.wg == w then s
    else
      let s := s.modWg coh w fun k => { k with wph := k.wph + 1, arrived := [] }
      gs.foldl (fun s x => s.wake x.uid fun y => match y with
        | .bar _ => true
        | _ => false) s
/-- The cohort's phase completes once every group of a workgroup that has not retired has issued barc, and every lput of its
groups has taken effect, as at a bar (R119, R425). -/
def State.checkBarc (s : State) (coh : Nat) : State :=
  let gs := s.groups.filter fun x => x.coh == coh && !x.retired
  if gs.isEmpty || !gs.all (·.barc) || s.lputs.any fun l => l.coh == coh then s
  else
    let s := s.modCohort coh fun c => { c with cph := c.cph + 1 }
    gs.foldl (fun s x => (s.modGroup x.uid fun x => { x with barc := false }).wake x.uid fun y => match y with
      | .barc _ => true
      | _ => false) s

/-- A companion update that holds a row-replay entry (R276). -/
def MPend.isReplay (m : MPend) : Bool :=
  match m.upd with
  | .comp _ _ _ _ _ _ _ r => r
  | _ => false
/-- Whether a lookup, fill or replay of the group is outstanding (R279, R283). -/
def adBusy (s : State) (x : Group) : Bool :=
  (x.mpend.any MPend.isReplay) || (s.fills.any fun f => f.asks.any (·.group == x.uid)) || x.applies.any fun a =>
    a.rows.any fun r => r.fail.isNone && (r.entry.isNone || r.slice.isNone)

/-- What outlives a group's lanes: its atomics still take place (R175). -/
def Out.outlives (o : Out) : Bool :=
  match o.op with
  | .atom _ _ => o.poison == 0
  | _ => false

/-- A group with no live lane retires (R17): its lanes' landings are discarded, its subscriptions and closures dropped, and
the lines that it dirtied are written back (R214). One group fewer can make the parked groups of its core too many (R349). -/
def State.retireGroup (s : State) (g p : Nat) : State :=
  match s.group? g with
  | none => s
  | some x =>
    let s := ((s.flushMaps g (List.range 8)).emit g p 10 (x.path p).pc 0 0 s.ns.toNat).flushOf x
    let s := s.l1Back fun l => l.writers.any (·.1 == g)
    let s : State := { s with cmds := s.cmds.filter (·.g != g) }
    let s := s.modGroup g fun x =>
      { x with retired := true, active := false, rcq := [], subs := [], alatch := none, handler := none
               mpend := x.mpend.filter fun (m : MPend) => !m.isReplay, applies := []
               outs := x.outs.filter Out.outlives
               quads := x.quads.map fun q => { q with path := none, qm := 0, alive := 0, stack := [] }
               paths := x.paths.map fun y => 
                 { Path.freePath with pc := y.pc, pos := y.pos, stepping := y.stepping, stepped := y.stepping } }
    let s := s.haltStepped g
    let s := (s.checkBar x.coh x.wg).checkBarc x.coh
    (s.settle.reap).parkedShare x.core x.ctx

/-! ### Meeting again (R176) -/

/-- Once every live quad stands in a path in REGANG, the paths merge at one address, or the group stops (DEDUCED, log 42). What
the merged path does is ordered behind what the paths did (R182, R210). -/
def State.regangCheck (s : State) (g : Nat) : State :=
  match s.group? g with
  | none => s
  | some x =>
    let ps := x.usedPaths
    match ps with
    | [] => s
    | k :: rest =>
      if !ps.all fun p => (x.path p).st == .regang then s
      else if ps.all fun p => (x.path p).pc == (x.path k).pc then
        let a := (x.path k).pc
        let (s, id) := s.newId
        let step := ps.any fun p => (x.path p).stepping
        let hist := x.prune (ps.flatMap fun p => (x.path p).past id true)
        let s := if rest.isEmpty then s else s.flushMaps g rest
        let s := s.modGroup g fun x =>
          let x := rest.foldl (fun (x : Group) p => x.setPath p Path.freePath) x
          (x.moveQuads x.liveQuads k).modPath k fun y =>
            { y.advance with
              st := .ready, stop := none, wake := .none, skip := false, stepping := step, stepped := step, agent := id, hist }
        let mask := ((s.group? g).map (·.mask k)).getD 0
        let s := if rest.isEmpty then s else s.emit g k 7 a mask (rest.foldl (fun n p => n + 2 ^ p) 0) 0
        s.haltStepped g
      else if ps.any fun p => (x.path p).stop.isSome then s
      else
        -- One record, for the lowest-numbered path; every path stays in REGANG, and a STEP of one has ended with the cause.
        let s := s.raiseStop g k (Cause.plain 0x24 (x.mask k))
        let s := s.modGroup g fun x => x.modPath k fun y => { y with st := .regang, fetched := true }
        (ps.filter fun p => (x.path p).stepping).foldl (fun s p => s.stepRecord g p ⟨4, 0, 0, 0, 0x24, true⟩) s

/-! ### Exits (R175) -/

/-- What resolving a quad's stack gives. -/
inductive QNext where
  | retire
  | goTo (qm : BitVec 4) (ppc : DWord) (hist : List Before)
  | release (qm : BitVec 4) (rj : DWord) (hist : List Before)
  deriving DecidableEq, Repr, Inhabited

/-- The loop of R175 on the stack of a quad whose mask is no longer non-empty; `past` is what the side that ends has
accessed. -/
def Quad.resolve (q : Quad) (past : List Before) : List JEntry → List JEntry × QNext
  | [] => ([], .retire)
  | e :: rest =>
    if !e.sw && q.nonEmpty (e.pend &&& q.alive) then
      ({ e with sw := true, hist := past } :: rest, .goTo (e.pend &&& q.alive) e.ppc e.hist)
    else if q.nonEmpty (e.full &&& q.alive) then
      (rest, .release (e.full &&& q.alive) e.rj (past ++ e.hist))
    else q.resolve (past ++ e.hist) rest

/-- The four bits of quad q. -/
def quadBits (q : Nat) (m : Word) : BitVec 4 := (m >>> (4 * q)).setWidth 4

/-- One quad after lanes have ceased to be live, and how it resolves its stack if its mask is empty. A quad of the path whose mask
held helper lanes alone before resolves it too, whether or not a lane of it executes (DESIGN CHOICE, log 104). -/
def Group.quadAfter (x : Group) (y : Path) (now q : Nat) (lanes : Word) : Quad × Option (List JEntry × QNext) :=
  let d := x.quad q
  let l := quadBits q lanes
  let d := { d with alive := d.alive &&& ~~~l, qm := d.qm &&& ~~~l }
  (d, if d.nonEmpty d.qm then none else some (d.resolve (y.past now true) d.stack))
/-- One quad after lanes have ceased to be live: its new state and where it goes, if it stays. -/
def State.exitQuad (s : State) (x : Group) (y : Path) (q : Nat) (lanes : Word) (fall : DWord) :
    State × Quad × Option QuadTo :=
  match x.quadAfter y s.fresh q lanes with
  | (d, none) => (s, d, some (.on q fall))
  | (d, some (_, .retire)) => (s, { d with path := none, qm := 0, alive := 0, stack := [] }, none)
  | (d, some (st, .goTo qm ppc hist)) => (s, { d with qm, stack := st }, some ⟨q, ppc, false, false, false, hist⟩)
  | (d, some (st, .release qm rj hist)) =>
    let d := { d with qm, stack := st }
    match y.rjs.find? (·.1 == rj) with
    | some k => (s, d, some ⟨q, k.2, false, false, false, hist⟩)
    | none =>
      match s.afterRj x.core x.ctx rj with
      | (s, .at pc) => (s, d, some ⟨q, pc, false, false, false, hist⟩)
      | (s, _) => (s, d, some ⟨q, rj, true, false, false, hist⟩)
/-- The headers at some rejoin addresses are fetched one after the other, each after(RJ) kept; whether one is still to come. -/
def State.fetchRjs (s : State) (g p : Nat) : List DWord → State × Bool
  | [] => (s, false)
  | rj :: rest =>
    match s.group? g with
    | none => (s, false)
    | some x =>
      if (x.path p).rjs.any (·.1 == rj) then s.fetchRjs g p rest
      else
        match s.afterRj x.core x.ctx rj with
        | (t, .wait) => (t, true)
        | (t, .at pc) => (t.modGroup g fun x => x.modPath p fun y => { y with rjs := y.rjs ++ [(rj, pc)] }).fetchRjs g p rest
        | (t, _) => t.fetchRjs g p rest
/-- Whether lanes that cease to be live release siblings whose after(RJ) is still being fetched: its header's line is not
there yet, or a cinv of the group or an acquire before it has not completed (R170, R243, R246). The instruction waits, and the
lines are asked for. -/
def State.exitWaits (s : State) (x : Group) (p : Nat) (lanes : Word) : State × Bool :=
  let rjs := ((x.quadsOf p).filterMap fun q => match (x.quadAfter (x.path p) s.fresh q lanes).2 with
    | some (_, .release _ rj _) => some rj
    | _ => none).eraseDups
  if rjs.isEmpty then (s, false)
  else if x.cinvHolds || x.acqHeld p s.fresh then (s, true)
  else s.fetchRjs x.uid p rjs

/-- All quads of a path. -/
def State.exitQuads (s : State) (x : Group) (y : Path) (lanes : Word) (fall : DWord) :
    List Nat → State × List (Nat × Quad) × List QuadTo
  | [] => (s, [], [])
  | q :: rest =>
    let r := s.exitQuad x y q lanes fall
    let t := r.1.exitQuads x y lanes fall rest
    (t.1, (q, r.2.1) :: t.2.1, (match r.2.2 with
      | some k => k :: t.2.2
      | none => t.2.2))

/-- A path that released siblings forms after(RJ), and stops where it cannot (R170); none while a cinv of the group has not completed
(R246). -/
def State.stopForms (s : State) (g : Nat) : State :=
  match s.group? g with
  | none => s
  | some x =>
    if x.cinvHolds then s
    else (x.usedPaths.filter fun p => (x.path p).formAfter && (x.path p).st == .ready).foldl (fun s p =>
      match s.afterRj x.core x.ctx (x.path p).pc with
      | (s, .at pc) => s.modGroup g fun x => x.modPath p fun y => { y.endClause pc with stepped := y.stepped }
      | (s, .fail e) => s.stopHere g p (fetchCause x p e)
      | (s, .illegal) => s.stopHere g p (Cause.plain 0x01 (x.mask p))
      | (s, .wait) => s) s

/-- Landings for lanes that have exited are discarded (R175). -/
def Out.without (o : Out) (lanes : Word) : Out := { o with lanes := o.lanes &&& ~~~lanes, poison := o.poison &&& ~~~lanes }

/-- Lanes of a path cease to be live (R175, R178): quads resolve their stacks, the path regroups, and a group with no live
quad retires. -/
def State.exitLanes (s : State) (g p : Nat) (lanes : Word) : State :=
  match s.group? g with
  | none => s
  | some x =>
    let y := x.path p
    let fall := y.fall
    let r := s.exitQuads x y lanes fall (x.quadsOf p)
    let s := r.1.modGroup g fun x =>
      let x := r.2.1.foldl (fun (x : Group) k => x.setQuad k.1 k.2) x
      { x with outs := x.outs.map fun o => if o.regs.any fun r => match r with
          | .v _ => true
          | _ => false then o.without lanes else o }
    let mask := ((s.group? g).map (·.mask p)).getD 0
    let s := if mask = 0 then s else s.emit g p 4 y.pc mask lanes.toNat 0
    let s := s.regroup g p fall r.2.2
    match s.group? g with
    | none => s
    | some x =>
      if x.liveQuads.isEmpty then s.retireGroup g p
      else (((s.stopForms g).regangCheck g).haltStepped g).parkedShare x.core x.ctx

/-! ### Kill (R403) -/

/-- A copy whose producer is killed fails with status 4 and the prefix that it has written, unless it has failed already
(R364; its FADDR is 0, DESIGN CHOICE, log 33). -/
def Copy.killed (c : Copy) : Copy :=
  if c.failed.isSome then c else { c with failed := some ⟨4, 0, c.done, 0, 0xFF, false⟩ }
/-- Copies of killed work fail, those of a producer that has exited included. -/
def State.killCopies (s : State) (p : Copy → Bool) : State :=
  { s with copies := s.copies.map fun c => if p c then c.killed else c }

/-- A group ends without being saved. (DEDUCED, log 44) -/
def State.killGroup (s : State) (g : Nat) : State :=
  match s.group? g with
  | none => s
  | some x =>
    if x.retired then s
    else
      let s := s.killCopies (·.group == g)
      let s := s.modGroup g fun x => { x with sbuf := x.sbuf.filter (·.waits.isNone) }
      s.retireGroup g x.last
/-- Groups end, with every copy of their cohorts (R403). -/
def State.killGroups (s : State) (gs : List Nat) : State :=
  let cohs := (s.groups.filter fun x => gs.contains x.uid).map (·.coh)
  gs.foldl State.killGroup (s.killCopies fun c => cohs.contains c.coh)

end Sys2Proof.Machine
end

