-- ==== Sys2Proof/Machine/MemForms.lean ====
section
/-! DEFINITION. The memory forms and their events (R224 to R245): ld, st, atom, red, fence, bpref, cflush, cinv, ipref, the
landing of a load, the performing of a write, and clause fetch. -/

namespace Sys2Proof.Machine

/-! ### ld (R232) -/

/-- Bytes of a load type. -/
def ldSize : LdTy → Nat
  | .s8 | .n8 => 1
  | .s16 | .n16 => 2
  | .b32 => 4
  | .b64 => 8
  | .b128 => 16
/-- The registers that a load writes. -/
def ldRegs (ty : LdTy) (d : Dst) (x : Group) : List Reg :=
  match d with
  | .v n => x.rows n (ldSize ty / 4 |> max 1)
  | _ => x.dstRegs d false

def ldForm (ty : LdTy) (d : Dst) (m : MemOp) : MemForm :=
  { n := ldSize ty, acc := .r, mem := m, uniform := d.isS, srcs := [], regs := ldRegs ty d, rd := true, wr := false
    rmw := false }

/-- A helper lane's load is never checked; where its read would raise a cause, a HOME 2 line that cannot be locked among
them, it reads zero (R15, R228). -/
def State.helperAcc (s : State) (x : Group) (p : Nat) (f : MemForm) (lane : Nat) : State × LaneAcc :=
  let va := memAddr s x p f.mem lane
  match (if va.toNat % f.n != 0 then (s, .error (laneErr 1))
    else s.placeFor (some x.core) x.ctx x.coh x.wg va.toNat .r true) with
  | (s, .ok pl) => (s, ⟨lane, va, some pl, 0, 0⟩)
  | (s, .error _) => (s, ⟨lane, va, none, 0, 0⟩)

/-- The accesses of a load: the lanes checked, and for a vector form its helper lanes. -/
def State.loadAccs (s : State) (x : Group) (p : Nat) (f : MemForm) (as : List LaneAcc) : List Nat → State × List LaneAcc
  | [] => (s, [])
  | l :: rest =>
    let r := match as.find? (·.lane == l) with
      | some a => (s, a)
      | none => s.helperAcc x p f l
    let q := r.1.loadAccs x p f as rest
    (q.1, r.2 :: q.2)

def ldIssue (ty : LdTy) (acq : Bool) (d : Dst) (m : MemOp) (s : State) : Res :=
  let f := ldForm ty d m
  memIssue f s fun t x p e as =>
    let r := if f.uniform then (t, as) else t.loadAccs x p f as (lanesOf e)
    let t := r.1
    let rs := requests r.2
    let os := outsOf x p t.fresh (.load ty) (ldRegs ty d x) acq false .qd false f.n e f.uniform (rs.flatten) t.fresh rs
    .next ({ t.touchAll x true false as with fresh := t.fresh + rs.flatten.length }.retire { x with outs := x.outs ++ os } p)

/-! ### st and red (R233, R236) -/

/-- Bytes of a store type. -/
def stSize : StTy → Nat
  | .b8 => 1
  | .b16 => 2
  | .b32 => 4
  | .b64 => 8
  | .b128 => 16
/-- The data of a store as sources. -/
def stSrcs (n : Nat) (a : Src) : List (Src × Bool) :=
  match a with
  | .v k => if n = 16 then [(.v k, true), (.v (k + 2), true)] else [(a, decide (n = 8))]
  | _ => [(a, decide (n = 8))]
/-- The data in a lane. -/
def stData (s : State) (x : Group) (p n : Nat) (a : Src) (lane : Nat) : Nat :=
  let lo := (opI a (decide (8 ≤ n))).val s x p lane
  let hi := match a with
    | .v k => if n = 16 then (opI (.v (k + 2)) true).val s x p lane else 0
    | _ => 0
  (lo + 2 ^ 64 * hi) % 2 ^ (8 * n)

/-- A store is uniform when its data, base and index all are (R233). -/
def stForm (n : Nat) (a : Src) (m : MemOp) : MemForm :=
  { n, acc := .w, mem := m, uniform := a.uni && m.index.uni, srcs := stSrcs n a, regs := fun _ => [], rd := false
    wr := true, rmw := false }
/-- A red reads and writes, but needs only permission to write (R226); it steps once in each executing lane, whatever its operands
(R234). -/
def redForm (n : Nat) (a : Src) (m : MemOp) : MemForm := { stForm n a m with uniform := false, rmw := true }

/-- The store-buffer entries of a store or red enter in program order (R206, R215). -/
def storeGo (op : SOp) (rel : Bool) (sc : Scope) (n : Nat) (waits : Option Nat) (data : Nat → Nat) (t : State)
    (x : Group) (p : Nat) (as : List LaneAcc) : State × Group :=
  let as := as.map fun (a : LaneAcc) => { a with x := data a.lane }
  let rs := requests as
  ({ t with fresh := t.fresh + rs.length },
   { x with sbuf := x.sbuf ++ entriesOf t x p t.fresh op rel sc n waits as t.fresh rs })

def stIssue (ty : StTy) (sc : Scope) (rel : Bool) (a : Src) (m : MemOp) (s : State) : Res :=
  memIssue (stForm (stSize ty) a m) s fun t x p _ as =>
    let r := storeGo .st rel sc (stSize ty) none (stData s x p (stSize ty) a) t x p as
    .next (r.1.retire r.2 p)
def redIssue (op : AtOp) (wide : Bool) (sc : Scope) (rel : Bool) (a : Src) (m : MemOp) (s : State) : Res :=
  let n := if wide then 8 else 4
  memIssue (redForm n a m) s fun t x p _ as =>
    let r := storeGo (.red op wide) rel sc n none (stData s x p n a) t x p as
    .next (r.1.retire r.2 p)

/-! ### atom (R234, R235) -/

/-- The registers that an atomic names, and those that it writes. -/
def atomRegs (op : AtOp) (wide : Bool) (d : Dst) (x : Group) : List Reg :=
  match d with
  | .v n => x.rows n ((if wide then 2 else 1) * if op = .cas then 2 else 1)
  | .s n => x.srcRegs (.s n) false ++ if op = .cas then x.srcRegs (.s (n + 1)) false else []
  | _ => []
def atomForm (op : AtOp) (wide : Bool) (d : Dst) (m : MemOp) : MemForm :=
  { n := if wide then 8 else 4, acc := .rw, mem := m, uniform := d.isS, srcs := [], regs := atomRegs op wide d
    rd := true, wr := true, rmw := true }
/-- The operand and the swap value of an atomic in a lane. -/
def atomOps (s : State) (x : Group) (p : Nat) (wide : Bool) (d : Dst) (lane : Nat) : Nat × Nat :=
  match d with
  | .v n =>
    ((opI (.v n) wide).val s x p lane, (opI (.v (n + if wide then 2 else 1)) wide).val s x p lane)
  | .s n => ((opI (.s n) wide).val s x p lane, (opI (.s (n + 1)) wide).val s x p lane)
  | _ => (0, 0)
def atomIssue (op : AtOp) (wide : Bool) (sc : Scope) (o : Order) (d : Dst) (m : MemOp) (s : State) : Res :=
  let f := atomForm op wide d m
  memIssue f s fun t x p e as =>
    let as := as.map fun (a : LaneAcc) =>
      let v := atomOps s x p wide d a.lane
      { a with x := v.1, y := v.2 }
    let rs := requests as
    let acq := o == .acq || o == .ar
    let rel := o == .rel || o == .ar
    let os := outsOf x p t.fresh (.atom op wide) (x.dstRegs d wide) acq rel sc (t.alone x p sc) f.n e f.uniform (rs.flatten)
      t.fresh rs
    .next ({ t with fresh := t.fresh + rs.length }.retire { x with outs := x.outs ++ os } p)

/-! ### fence (R213, R237) -/

/-- A fence holds its path until the accesses that it orders are performed at its scope. -/
def fenceIssue (sc : Scope) (o : Order) (s : State) : Res :=
  once s [] (fun _ => []) fun x p _ =>
    drained s x p
      (match s.orderHold x p sc (o != .rlx) (o != .acq) with
       | (t, true) => .next t
       | (t, false) => .next (t.retire x p))

/-! ### bpref (R238) -/

/-- A cause of a uniform instruction with the address of its operand (R392). -/
def uniCause (code : Nat) (e : Word) (lane : Nat) (addr : DWord) : Cause :=
  { Cause.plain code 0 with lanes := laneVecUniform e lane, addr := addr }

def bprefIssue (r : Nat) (m : MemOp) (s : State) : Res :=
  once s [(.s m.base, true), (m.index, false), (.s r, true)] (fun _ => []) fun x p e =>
    let a := memAddr s x p m 0
    let w := (x.sGet r).toNat
    let sig := bitAt w 63
    let ctr := fld w 40 16
    let len := w % 2 ^ 40
    let limit := ((s.ctx? x.ctx).map (·.counters)).getD 0
    if sig && limit ≤ ctr then .next (s.stopHere x.uid p (uniCause 0x1E e 0xE a))
    else
      let lo := lineOf a.toNat
      let b : Bpref :=
        { id := s.fresh, ctx := x.ctx, core := x.core, lo, hi := if len = 0 then lo else lineOf (a.toNat + len - 1) + 1
          ctr := if sig then some ctr else none }
      .next ({ s with fresh := s.fresh + 1, bprefs := s.bprefs ++ [b] }.retire x p)

/-- One line is filled, or left where it cannot be (R238, R194). -/
def State.bprefLine (s : State) (b : Bpref) (l : Nat) : State :=
  if 2 ^ 57 ≤ 192 * l then s
  else
    match s.translate (some b.core) b.ctx (192 * l) .r with
    | (s, .error _) => s
    | (s, .ok f) =>
      let pa := f.target (192 * l)
      if (f.home != 0 && f.home != 2) || (s.instOf f.key).isNone || (sectorsIn pa 192).any fun k => s.poison.contains k
      then s
      else s.softTouch b.ctx (lineOf pa) 15 f (f.through (192 * l / 12288))
def bprefDone (k : Nat) (s : State) : Res :=
  match s.bprefs.find? (·.id == k) with
  | none => .next s
  | some b =>
    let s := (List.range (b.hi - b.lo)).foldl (fun s i => s.bprefLine b (b.lo + i)) s
    let s := { s with bprefs := s.bprefs.filter (·.id != k) }
    .next (match b.ctr with
      | some c => s.bumpCounter b.ctx c
      | none => s)

/-! ### cflush and cinv (R239) -/

/-- One access for each line that the lanes name, as the lowest lane that names it reaches it (R239; DESIGN CHOICE for lanes that
reach one line under different homes, log 100). -/
def lineRequests (as : List LaneAcc) : List (List LaneAcc) :=
  ((as.filterMap fun a => a.place.map Place.line).eraseDups).filterMap fun k =>
    (as.find? fun a => a.place.map Place.line == some k).map fun a => [a]
/-- Each executing lane that is not a helper lane is checked: R suffices, for a leaf that gives W gives R (R372). -/
def cleanForm (m : MemOp) : MemForm :=
  { n := 1, acc := .r, mem := m, uniform := false, srcs := [], regs := fun _ => [], rd := false, wr := false
    rmw := false }
def cleanIssue (drop : Bool) (sc : Scope) (m : MemOp) (s : State) : Res :=
  memIssue (cleanForm m) s fun t x p _ as =>
    let rs := lineRequests as
    let op : SOp := .clean drop (sc == .cx || sc == .sy)
    .next ({ t with fresh := t.fresh + rs.length }.retire
      { x with sbuf := x.sbuf ++ entriesOf t x p t.fresh op false sc 1 none as t.fresh rs } p)

/-! ### ipref (R245) -/

/-- One line is fetched, unless it cannot be: poison in any of its sectors counts, for there is no clause (R243, R245; DESIGN
CHOICE, log 102). -/
def State.iprefLine (s : State) (core ctx l : Nat) : State :=
  if 2 ^ 57 ≤ 192 * l then s
  else
    match s.fetchLine core ctx l with
    | (s, .error _) => s
    | (s, .ok a) =>
      if (a.home != 0 && a.home != 2) || (s.fetchPoison l (192 * l) (192 * l + 192) a).isSome ||
          (s.icLine core a).isSome then s
      else s.icMiss core ctx a
def iprefIssue (n : Nat) (m : MemOp) (s : State) : Res :=
  once s [(.s m.base, true), (m.index, false)] (fun _ => []) fun x p _ =>
    let l := lineOf (memAddr s x p m 0).toNat
    .next (((List.range n).foldl (fun s i => s.iprefLine x.core x.ctx (l + i)) s).retire x p)

/-! ### Meanings -/

def execLd (ty : LdTy) (_sc : Scope) (acq : Bool) (d : Dst) (m : MemOp) (s : State) :=
  commit s (ldIssue ty acq d m s)
def execLoadLanding (g k : Nat) (s : State) := commit s (loadLand g k s)
def execSt (ty : StTy) (sc : Scope) (rel : Bool) (a : Src) (m : MemOp) (s : State) :=
  commit s (stIssue ty sc rel a m s)
def execAtom (op : AtOp) (wide : Bool) (sc : Scope) (o : Order) (d : Dst) (m : MemOp) (s : State) :=
  commit s (atomIssue op wide sc o d m s)
def execRed (op : AtOp) (wide : Bool) (sc : Scope) (rel : Bool) (a : Src) (m : MemOp) (s : State) :=
  commit s (redIssue op wide sc rel a m s)
def execFence (sc : Scope) (o : Order) (s : State) := commit s (fenceIssue sc o s)
def execBpref (r : Nat) (m : MemOp) (s : State) := commit s (bprefIssue r m s)
def execBprefDone (k : Nat) (s : State) := commit s (bprefDone k s)
def execCflush (sc : Scope) (m : MemOp) (s : State) := commit s (cleanIssue false sc m s)
def execCinv (sc : Scope) (m : MemOp) (s : State) := commit s (cleanIssue true sc m s)
def execIpref (n : Nat) (m : MemOp) (s : State) := commit s (iprefIssue n m s)
def execClauseFetch (g p : Nat) (s : State) := commit s (clauseFetch g p s)
def execInstructionFill (core line : Nat) (s : State) := commit s (instructionFill core line s)
def execWritePerformed (g k : Nat) (s : State) := commit s (writePerformed g k s)

end Sys2Proof.Machine
end

