-- ==== Sys2Proof/Machine/Matrix.lean ====
section
/-! DEFINITION. The accumulator store, format descriptors, the matrix updates and the operand streams (R134 to R141, R248
to R271). -/

namespace Sys2Proof.Machine

/-! ### Element types (R57, R254, R256) -/

/-- The depth K of a type's rate class; 0 for a type of none (R254, R257). -/
def mDepth (t : Nat) : Nat :=
  if t = 0x12 then 128
  else if t = 0x10 || t = 0x11 || t = 0x13 then 64
  else if t = 0x0E || t = 0x0F || t = 0x14 then 32
  else 0
/-- The twin-scale format of a type. -/
def mTs (t : Nat) : Option TsFmt :=
  if t = 0x12 then some .ts4 else if t = 0x13 then some .ts8 else if t = 0x14 then some .ts12 else none
/-- Bits of an element. -/
def mBits (t : Nat) : Nat :=
  match mTs t with
  | some f => tsWidth f
  | none => if t = 0x10 || t = 0x11 then 8 else if t = 0x0D then 32 else 16
/-- The scalar format of a type that is not twin-scale. -/
def mFmt (t : Nat) : FFmt :=
  if t = 0x0E then fp16 else if t = 0x0F then bfp16 else if t = 0x10 then fpE4m3 else if t = 0x11 then fpE5m2 else fp32
/-- An element's value under its block's scale pair (R121, R131). -/
def mVal (t pair x : Nat) : FV :=
  match mTs t with
  | some f => tsVal f pair x
  | none => fval (mFmt t) x
/-- Element registers n_A, and scale registers q (R254, R256). -/
def mRegs (t : Nat) : Nat := if t = 0x14 then 12 else 16
def mScales (t : Nat) : Nat := if t = 0x12 then 2 else if t = 0x13 || t = 0x14 then 1 else 0
/-- Bytes of a column of B or P (R257, R274). -/
def mColBytes (t : Nat) : Nat := if t = 0x14 then 48 else 64

/-- Elements 0 to K - 1 from their bits and the scale pair of each block. -/
def mElems (t raw : Nat) (pair : Nat → Nat) : List FV :=
  (List.range (mDepth t)).map fun k => mVal t (pair (k / 32)) (raw / 2 ^ (mBits t * k) % 2 ^ mBits t)

/-- A lane's registers as one little-endian integer. -/
def wordsNat (ws : List Word) : Nat := leNat (ws.flatMap fun w => leBytes 4 w.toNat)
/-- Row i of A (R256). -/
def aRow (t : Nat) (els scs : List Word) : List FV :=
  mElems t (wordsNat els) fun m => (scs.getD (m / 2) 0).toNat / 2 ^ (16 * (m % 2)) % 2 ^ 16
/-- n bytes at an offset. -/
def sliceNat (bs : List Byte) (o n : Nat) : Nat := leNat ((bs.drop o).take n)
/-- A column of B or P whose scale pairs start at `so` (R257, R274). -/
def bCol (t : Nat) (bs : List Byte) (so j : Nat) : List FV :=
  mElems t (sliceNat bs (mColBytes t * j) (mColBytes t)) fun m => sliceNat bs (so + 2 * (j * (mDepth t / 32) + m)) 2

/-! ### Sums (R134 to R137) -/

/-- One update of an accumulator word: IV and OF alone are kept (R134, R136). -/
def accStep (a : Word) (s : FV × Bool) : Word × FFlags :=
  let r := accUpdate a.toNat s.1 s.2
  (BitVec.ofNat 32 r.1, r.2)

/-- The updates of one element, in ascending groups of eight; `marked` gives the groups that read +0 (R134, R137). A signalling NaN
of A whose products all stand in such a group sets no IV (DESIGN CHOICE, log 103). -/
def accGroups (a : Word) (row col : List FV) (marked : Nat → Bool) : Word × FFlags :=
  (List.range (row.length / 8)).foldl (fun t g =>
    let s : FV × Bool := if marked g then (.zero false, false)
      else groupSum (((row.drop (8 * g)).take 8).zip ((col.drop (8 * g)).take 8))
    let u := accStep t.1 s
    (u.1, t.2.or u.2)) (a, .none)

/-! ### Descriptors (R253, R254) -/

def descA (d : BitVec 512) : Nat := d.toNat % 2 ^ 64
def descB (d : BitVec 512) : Nat := d.toNat / 2 ^ 64 % 2 ^ 64
def dAType (d : BitVec 512) : Nat := descA d % 2 ^ 5
def dASoff (d : BitVec 512) : Nat := fld (descA d) 16 5
def dBType (d : BitVec 512) : Nat := descB d % 2 ^ 5
def dBSoff (d : BitVec 512) : Nat := fld (descB d) 16 16
def dBmap (d : BitVec 512) : Nat := fld (descB d) 32 16

/-- Whether areas (start, length) lie within n bytes and do not overlap. -/
def areasOk (n : Nat) : List (Nat × Nat) → Bool
  | [] => true
  | a :: rest =>
    decide (a.1 + a.2 ≤ n) && rest.all (fun b => decide (a.1 + a.2 ≤ b.1) || decide (b.1 + b.2 ≤ a.1)) && areasOk n rest
/-- The bitmap, element and scale areas of a tile image (R257). -/
def tileAreas (d : BitVec 512) : List (Nat × Nat) :=
  let t := dBType d
  [(dBmap d, 8), (0, 32 * mColBytes t)] ++ (if (mTs t).isSome then [(dBSoff d, 2 * mDepth t)] else [])
/-- The conditions of R254, for an mma whose va is `a`; the stride is that of an open subscription. -/
def descOk (d : BitVec 512) (a win : Nat) (stride : Option Nat) : Bool :=
  let ta := dAType d
  let tb := dBType d
  let tsa := (mTs ta).isSome
  let tsb := (mTs tb).isSome
  let wa := descA d
  let wb := descB d
  mDepth ta != 0 && mDepth ta == mDepth tb &&
  fld wa 8 4 == (if tsa then 5 else 0) && fld wb 8 4 == (if tsb then 5 else 0) &&
  (if tsa then decide (a + dASoff d + mScales ta ≤ win) && decide (mRegs ta ≤ dASoff d) else dASoff d == 0) &&
  (match stride with
   | some n => areasOk n (tileAreas d)
   | none => true) &&
  decide (a + mRegs ta ≤ win) && (tsb || dBSoff d == 0) &&
  wa / 2 ^ 21 == 0 && fld wa 12 4 == 0 && fld wa 5 3 == 0 && wb / 2 ^ 48 == 0 && fld wb 12 4 == 0 && fld wb 5 3 == 0 &&
  d.toNat / 2 ^ 128 == 0

/-! ### Accumulator words (R248) -/

def Workgroup.accAt (w : Workgroup) (o : Nat) : Word := smGet 0 w.acc (o / 4)
def Workgroup.accPut (w : Workgroup) (o : Nat) (x : Word) : Workgroup :=
  { w with acc := smSet 0 w.acc (o / 4) x, badAcc := w.badAcc.filter (· != o / 4) }
/-- Whether an uncorrectable error struck the word (R199). (DEDUCED, log 47) -/
def Workgroup.accBad (w : Workgroup) (o : Nat) : Bool := w.badAcc.contains (o / 4)
/-- The offset of row i, column c of a block. -/
def accOff (o row c : Nat) : Nat := o + 128 * row + 4 * c

/-- Writes a row's words from a column on. -/
def Workgroup.rowPut (w : Workgroup) (o row c : Nat) (xs : List Word) : Workgroup :=
  (List.range xs.length).foldl (fun w i => w.accPut (accOff o row (c + i)) (xs.getD i 0)) w
/-- Updates a row's columns 0 to n - 1; a poisoned word that the update reads stays so, and one that depends on a
poisoned word becomes so (R199). -/
def Workgroup.rowUpd (w : Workgroup) (o row n : Nat) (z bad : Bool) (f : Nat → Word → Word × FFlags) : Workgroup × FFlags :=
  (List.range n).foldl (fun t c =>
    let k := accOff o row c
    let r := f c (if z then 0 else t.1.accAt k)
    let still := bad || (!z && t.1.accBad k)
    let w := t.1.accPut k r.1
    (if still then { w with badAcc := (k / 4) :: w.badAcc } else w, t.2.or r.2)) (w, .none)

/-! ### Adapter slices (R273, R274, R138, R139) -/

def entCtrl (e : List Byte) : Nat := sliceNat e 24 8
def entRank (e : List Byte) : Nat := 4 * 2 ^ (entCtrl e % 4)
def entPType (e : List Byte) : Nat := fld (entCtrl e) 8 5
def entQType (e : List Byte) : Nat := fld (entCtrl e) 16 5
def entAlpha (e : List Byte) : Nat := sliceNat e 16 4
def entGen (e : List Byte) : Word := BitVec.ofNat 32 (sliceNat e 20 4)

/-- Element (c, j) of a Q slice (R274). -/
def qElem (e slice : List Byte) (c j : Nat) : FV :=
  let t := entQType e
  let n := if t = 0x0D then 4 else 2
  fval (mFmt t) (sliceNat slice (n * (32 * c + j)) n)

/-- adapply's update of one element: acc + alpha · s with one rounding (R139, R136). A zero s adds +0 whatever alpha is: an
infinite or NaN alpha then makes no NaN, and IV is set for a signalling one alone (R139 says both that R136 applies to
alpha · s and that a zero s adds +0; DESIGN CHOICE, log 97). -/
def applyUpdate (a : Word) (e : List Byte) (ts : List FV) (q : Nat → FV) : Word × FFlags :=
  let s := groupSum ((List.range ts.length).map fun c => (ts.getD c (.zero false), q c))
  let al := fval fp32 (entAlpha e)
  let p := fmulX al s.1
  if s.1.isZero then accStep a (.zero false, s.2 || al.isSig) else accStep a (p.1, s.2 || p.2 || al.isSig)

/-! ### One pending update of one row -/

/-- What an update makes of its workgroup's allocation, and its flags. -/
def MPend.apply (m : MPend) (w : Workgroup) : Workgroup × FFlags :=
  match m.upd with
  | .zero c n => (w.rowPut m.o m.row c (List.replicate n 0), .none)
  | .write c xs => (w.rowPut m.o m.row c xs, .none)
  | .mma z els scs d tile =>
    let row := aRow (dAType d) els scs
    let map := sliceNat tile (dBmap d) 8
    w.rowUpd m.o m.row 32 z false fun j a =>
      accGroups a row (bCol (dBType d) tile (dBSoff d) j) fun g => bitAt map (4 * g + j / 8)
  | .comp _ _ els scs d (some e) (some sl) _ =>
    let row := aRow (dAType d) els scs
    let t := entPType e
    w.rowUpd (m.o + 4096) m.row (entRank e) false false fun c a =>
      accGroups a row (bCol t sl (entRank e * mColBytes t) c) fun _ => false
  | .comp .. => (w, .none)
  | .apply _ _ e q =>
    let at_ := fun c => accOff (m.o + 4096) m.row c
    let cols := List.range (entRank e)
    let ts := cols.map fun c => fval fp32 (w.accAt (at_ c)).toNat
    w.rowUpd m.o m.row 32 false (cols.any fun c => w.accBad (at_ c)) fun j a =>
      applyUpdate a e ts fun c => qElem e q c j

/-- The blocks whose row an update reads or writes. -/
def MPend.blocks (m : MPend) : List Nat :=
  match m.upd with
  | .comp .. => [m.o + 4096]
  | .apply .. => [m.o, m.o + 4096]
  | _ => [m.o]
/-- Whether its adapter segments are known. -/
def MPend.ready (m : MPend) : Bool :=
  match m.upd with
  | .comp _ _ _ _ _ e sl _ => e.isSome && sl.isSome
  | _ => true
def MPend.isMma (m : MPend) : Bool :=
  match m.upd with
  | .mma .. | .comp .. => true
  | _ => false
def MPend.meets (m : MPend) (block row : Nat) : Bool := m.row == row && m.blocks.contains block

/-- An accr that has not landed and reads a row of a block. -/
def Out.readsRow (o : Out) (block row : Nat) : Bool :=
  match o.op with
  | .accr b _ _ => b == block && laneOn o.lanes row && o.poison == 0
  | _ => false

/-- Program order on a row: no earlier update or read of it is outstanding (R270). -/
def Group.rowFree (x : Group) (id block row : Nat) : Bool :=
  !(x.mpend.any fun q => decide (q.id < id) && q.meets block row) &&
  !x.outs.any fun o => decide (o.id < id) && o.readsRow block row

/-- MMA_UPDATE: one pending update of one row takes effect, indivisibly (R270, R271). -/
def mmaUpdate (g k : Nat) (s : State) : Res :=
  match s.group? g with
  | none => .next s
  | some x =>
    match x.mpend.find? (·.id == k) with
    | none => .next s
    | some m =>
      if !m.ready || !m.blocks.all fun b => x.rowFree m.id b m.row then .next s
      else
        match s.wg? x.coh x.wg with
        | none => .next s
        | some w =>
          let r := m.apply w
          let s := s.modWg x.coh x.wg fun _ => if w.retired then w else r.1
          .next (s.modGroup g fun x =>
            { x with mpend := x.mpend.filter (·.id != k), fl := x.fl.or r.2 }).reap

/-! ### accw, accr, accz (R249 to R252) -/

/-- The allocation of the group's workgroup. -/
def State.accSize (s : State) (x : Group) : Nat := ((s.wg? x.coh x.wg).map (·.accSize)).getD 0
/-- ACC_RANGE (R249). (DEDUCED, log 48) -/
def State.accBadOff (s : State) (x : Group) (o need : Nat) : Bool := o % 4096 != 0 || decide (s.accSize x < o + need)
/-- The stop of a uniform cause of this chapter (R250). -/
def State.accStop (s : State) (x : Group) (p : Nat) (e : Word) (lane : Nat) (addr : DWord) : State :=
  s.stopHere x.uid p (uniCause (0x10 + lane) e lane addr)

/-- Rows of blocks that hold a word struck by an uncorrectable error, which a reader of the accumulators stops for (R199). A
row with an update of the group still to come is left to that update, which keeps the word struck unless it overwrites it
(DESIGN CHOICE, log 47). -/
def State.accBadRows (s : State) (x : Group) (blocks : List Nat) (cols : Nat) (rows : Word) : Word :=
  match s.wg? x.coh x.wg with
  | none => 0
  | some w =>
    maskOf ((lanesOf rows).filter fun r => blocks.any fun b =>
      !(x.mpend.any fun q => q.meets b r) && (List.range cols).any fun c => w.accBad (accOff b r c))
/-- The stop of a matrix form that reads such a row. -/
def State.accPoison (s : State) (x : Group) (p : Nat) (rows bad : Word) : State :=
  s.stopHere x.uid p { Cause.plain 0x17 0 with lanes := laneVecIn rows bad 7 }

/-- Updates of one instruction, one for each row, with consecutive numbers. -/
def pendRows (inst o : Nat) (f : Nat → MUpd) : Nat → List Nat → List MPend
  | _, [] => []
  | id, r :: rest => { id, inst, o, row := r, upd := f r } :: pendRows inst o f (id + 1) rest

/-- accw and accz: the update of each executing row that is not a helper lane. -/
def accIssue (o : Nat) (srcs : List (Src × Bool)) (f : Group → Nat → MUpd) (s : State) : Res :=
  gated s ((.s o, true) :: srcs) (fun _ => []) fun x p e =>
    let off := (x.sGet o).toNat
    if s.accBadOff x off 4096 then .next (s.accStop x p e 8 (x.sGet o))
    else
      let rows := lanesOf (e &&& ~~~x.helpers)
      let ms := pendRows s.fresh off (f x) s.fresh rows
      .next ({ s with fresh := s.fresh + rows.length }.retire { x with mpend := x.mpend ++ ms } p)
def accwIssue (o a n c : Nat) (s : State) : Res :=
  accIssue o ((List.range n).map fun i => (.v (a + i), false))
    (fun x r => .write c ((List.range n).map fun i => x.vGet (a + i) r)) s
def acczIssue (o n c : Nat) (s : State) : Res := accIssue o [] (fun _ _ => .zero c n) s

/-- accr marks its registers pending; each lane lands by itself. -/
def accrIssue (o a n c : Nat) (s : State) : Res :=
  gated s [(.s o, true)] (fun x => x.rows a n) fun x p e =>
    let off := (x.sGet o).toNat
    if s.accBadOff x off 4096 then .next (s.accStop x p e 8 (x.sGet o))
    else
      let ls := lanesOf e
      let os := (List.range ls.length).map fun i =>
        { id := s.fresh + i, inst := s.fresh, path := p, pc := (x.path p).pc, op := .accr off n c, regs := x.rows a n
          lanes := maskOf [ls.getD i 0], accs := [], agent := (x.path p).agent, hist := [], acq := false
          rel := false, scope := .qd, alone := false, bytes := 0, fl := .none, discard := [], whole := [], poison := 0
          poisonVa := 0, rpl := none : Out }
      .next ({ s with fresh := s.fresh + ls.length }.retire { x with outs := x.outs ++ os } p)

/-- A lane of an accr lands once every earlier update of its row has completed, replays included (R252, R270); a word
that an uncorrectable error struck leaves it pending (R199). -/
def accrLand (g k : Nat) (s : State) : Res :=
  match s.group? g with
  | none => .next s
  | some x =>
    match x.outs.find? (·.id == k) with
    | none => .next s
    | some o =>
      match o.op, s.wg? x.coh x.wg with
      | .accr off n c, some w =>
        let l := lowLane o.lanes
        if o.poison != 0 || x.mpend.any fun q => decide (q.id < o.id) && q.meets off l then .next s
        else if o.lanes != 0 && (List.range n).any (fun i => w.accBad (accOff off l (c + i))) && !x.isHelper l then
          .next (s.setGroup { x with outs := x.outs.map fun q => if q.id == k then { q with poison := o.lanes } else q })
        else
          let r := leNat ((List.range n).flatMap fun i => leBytes 4 (w.accAt (accOff off l (c + i))).toNat)
          let y := if o.lanes = 0 then x else x.landLane o l r
          .next ((s.setGroup { y with outs := y.outs.filter (·.id != k) }.captureBound).reap)
      | _, _ => .next s

/-! ### Reads that a uniform instruction makes at issue (R255, R265) -/

/-- A read of n bytes at issue by a uniform instruction: the causes of R226, POISON at the instruction itself, and the
group's own earlier writes before it. -/
def uniRead (n : Nat) (m : MemOp) (s : State) (x : Group) (p : Nat) (e : Word) (k : State → List Byte → Res) : Res :=
  if x.acqHeld p s.fresh then .next s
  else
    let f : MemForm :=
      { n, acc := .r, mem := m, uniform := true, srcs := [], regs := fun _ => [], rd := false, wr := false, rmw := false }
    memChecked f s x p e fun t x as =>
      match as with
      | [] => .next s
      | a :: _ =>
        let ps := (a.place.map (·.bytes n)).getD []
        let o : Out :=
          { id := t.fresh, inst := t.fresh, path := p, pc := (x.path p).pc, op := .load .b128, regs := [], lanes := e
            accs := ps.map fun q => { a with place := some q }, agent := (x.path p).agent, hist := (x.path p).hist, acq := false
            rel := false, scope := .qd, alone := false, bytes := 1, fl := .none, discard := [], whole := [], poison := 0
            poisonVa := 0, rpl := none }
        let bs := ps.map (t.readByte x o)
        if !t.readReady x o then .next s
        else if bs.any (·.2) then
          .next (t.stopHere x.uid p { uniCause 0x17 e 7 (memAddr s x p m 0) with aux2 := (x.path p).pc })
        else k (t.touchAll x true false o.accs) (bs.map (·.1))

/-- mfmt (R255). -/
def mfmtIssue (d b : Nat) (k : BitVec 9) (s : State) : Res :=
  once s [(.s b, true)] (fun _ => []) fun x p e =>
    uniRead 64 ⟨b, .imm 0, 0, BitVec.ofInt 16 (64 * k.toInt)⟩ s x p e fun t bs =>
      .next ((t.modGroup x.uid fun x => { x with d := smSet 0 x.d d (BitVec.ofNat 512 (leNat bs)) }).pass x.uid p)

/-! ### Operand streams (R262 to R268) -/

/-- A subscription that is not open: sclose keeps nothing of it (DESIGN CHOICE, log 107). -/
def Sub.closed : Sub := ⟨false, 0, 0, 0, 0, 0, 0, 0, []⟩
def Group.sub (x : Group) (h : Nat) : Sub := x.subs.getD h .closed
def Group.setSub (x : Group) (h : Nat) (u : Sub) : Group := { x with subs := ((List.range 4).map x.sub).set h u }
/-- Address of a slot's tile image. -/
def Sub.tile (u : Sub) (j : Nat) : DWord := u.baseVa + BitVec.ofNat 64 ((u.p + j) * u.stride)
/-- Slots of the window that tiles below COUNT fill. -/
def Sub.live (u : Sub) : Nat := min u.w (u.count - u.p)

/-- Open subscriptions of a core. -/
def State.coreSubs (s : State) (core : Nat) : List Sub :=
  (s.groups.filter fun g => g.core == core && g.resident).flatMap fun g => g.subs.filter (·.isOpen)

/-- sopen (R265). -/
def sopenIssue (d r w h : Nat) (s : State) : Res :=
  once s [(.s r, true)] (fun x => x.srcRegs (.s d) true) fun x p e =>
    uniRead 64 ⟨r, .imm 0, 0, 0⟩ s x p e fun t bs =>
      let stride := sliceNat bs 8 4
      let count := sliceNat bs 12 4
      let subs := t.coreSubs x.core
      let total := subs.foldl (fun n (u : Sub) => n + u.w * u.stride) 0
      let st : Nat :=
        if stride % 64 != 0 || stride < 64 || 12288 < stride || count = 0 || leNat (bs.drop 16) != 0 then 3
        else if (x.sub h).isOpen then 2
        else if 16 ≤ subs.length || 196608 < total + w * stride then 1
        else 0
      let t := if st != 0 then t
        else
          let u : Sub := ⟨true, x.sGet r, BitVec.ofNat 64 (sliceNat bs 0 8), stride, count, w, 0, t.fresh, []⟩
          ({ t with fresh := t.fresh + 1 }.modGroup x.uid fun x =>
            x.setSub h { u with slots := List.replicate u.live (.fetching [] []) }).l1Fit x.core
      .next (t.finish x.uid p d (BitVec.ofNat 64 st))

/-- sadv: every earlier mma has taken its tile when it issued (R266). -/
def sadvIssue (h n : Nat) (s : State) : Res :=
  once s [] (fun _ => []) fun x p e =>
    let u := x.sub h
    if !u.isOpen then .next (s.accStop x p e 0xA 0)
    else
      let v := { u with p := u.p + n, bound := s.fresh }
      let kept := (u.slots.drop n).take v.live
      let v := { v with slots := kept ++ List.replicate (v.live - kept.length) (.fetching [] []) }
      .next ({ s with fresh := s.fresh + 1 }.retire (x.setSub h v) p)
def scloseIssue (h : Nat) (s : State) : Res :=
  once s [] (fun _ => []) fun x p _ => .next (s.retire (x.setSub h .closed) p)

/-- The status word of a subscription (R267); all zero for a handle that is closed, POS and W among it (DESIGN CHOICE, log 107). -/
def Sub.word (u : Sub) : Nat :=
  let fails := u.slots.filterMap fun k => match k with
    | .failed c _ _ => some c
    | _ => none
  let ready := (u.slots.takeWhile fun k => match k with
    | .landed _ _ => true
    | _ => false).length
  if !u.isOpen then 0
  else 2 ^ 63 + (if fails.isEmpty then 0 else 2 ^ 62) + fails.headD 0 * 2 ^ 58 + ready * 2 ^ 54 + (u.w - 1) * 2 ^ 51 +
    u.p % 2 ^ 32
def sstatIssue (d h : Nat) (s : State) : Res :=
  once s [] (fun x => x.srcRegs (.s d) true) fun x p _ => .next (s.finish x.uid p d (BitVec.ofNat 64 (x.sub h).word))

/-- What a fetch by an engine of a core gives of one line: its bytes, with the key id that it reads under, or the first cause of
R226 from 0x2 to 0x5 or POISON; a HOME 2 line that cannot be locked is none (R268, R278; DESIGN CHOICE, log 90). -/
def State.engineRead (s : State) (core ctx : Nat) (a : DWord) (n : Nat) : State × Except TErr (List Byte × Nat) :=
  match s.readPiece (some core) ctx a.toNat n .r true with
  | (t, .error e) => (t, .error e)
  | (t, .ok bs) =>
    (t, .ok (bs, match (s.translate (some core) ctx a.toNat .r).2 with
      | .ok f => f.key
      | .error _ => 0))
/-- Whether a copy still owns the line of an address, so that an engine's fetch for these askers, each a group with the number of its
request, waits until it has finished it (R217). -/
def State.lineOwned (s : State) (core ctx : Nat) (a : DWord) (asks : List (Nat × Nat)) : Bool :=
  match (s.translate (some core) ctx a.toNat .r).2 with
  | .ok f => s.copies.any fun c =>
      c.lines.contains (0, 0, 0, lineOf (f.target a.toNat)) && asks.all fun k => s.copyHolds k.1 k.2 c
  | .error _ => false
/-- Bytes of a range of n that lie in the line where `got` bytes end. -/
def lineChunk (a : DWord) (n got : Nat) : Nat := min (n - got) (192 - (a.toNat + got) % 192)

/-- Whether accesses of a group numbered from `lo` to `hi` - 1 are still to be performed. -/
def State.heldIn (s : State) (g lo hi : Nat) : Bool :=
  match s.group? g with
  | none => false
  | some x => (x.sbuf.any fun e => !e.isClean && decide (lo ≤ e.id) && decide (e.id < hi)) ||
      x.outs.any fun o => o.undecided && decide (lo ≤ o.id) && decide (o.id < hi)
/-- Accesses of a group below a bound that must be performed before a fetch (R220). -/
def State.boundHeld (s : State) (g bound : Nat) : Bool := s.heldIn g 0 bound

/-- SLOT_FETCH: one line of a slot is read as one snapshot; the last makes the slot landed (R268). (DEDUCED, log 46) -/
def slotFetch (g h j : Nat) (s : State) : Res :=
  match s.group? g with
  | none => .next s
  | some x =>
    let u := x.sub h
    match u.slots[j]? with
    | some (.fetching got keys) =>
      let a := u.tile j
      if !x.resident || !u.isOpen || s.boundHeld g u.bound ||
          s.lineOwned x.core x.ctx (a + BitVec.ofNat 64 got.length) [(g, u.bound)] then .next s
      else
        let put := fun (t : State) (k : Slot) =>
          t.modGroup g fun x => x.setSub h { x.sub h with slots := (x.sub h).slots.set j k }
        match s.engineRead x.core x.ctx (a + BitVec.ofNat 64 got.length) (lineChunk a u.stride got.length) with
        | (t, .error e) => .next (put t (.failed e.code e.addr e.sdep))
        | (t, .ok (bs, key)) =>
          let all := got ++ bs
          let keys := (key :: keys).eraseDups
          .next (put t (if u.stride ≤ all.length then .landed all keys else .fetching all keys))
    | _ => .next s

/-! ### mma (R258 to R261) -/

/-- The registers that an mma captures: elements, then scales. -/
def captured (d : BitVec 512) (a : Nat) : List Nat × List Nat :=
  ((List.range (mRegs (dAType d))).map (a + ·), (List.range (mScales (dAType d))).map (a + dASoff d + ·))
/-- What X holds: the latch, or the registers of R256 in all 32 lanes. -/
def Group.xOf (x : Group) (d : BitVec 512) (a : Nat) : ALatch :=
  match x.alatch with
  | some l => l
  | none =>
    let r := captured d a
    let all := fun (k : Nat) => (List.range 32).map (x.vGet k)
    ⟨r.1.map all, r.2.map all⟩
/-- Row i of X for a descriptor. -/
def ALatch.row (l : ALatch) (d : BitVec 512) (i : Nat) : List Word × List Word :=
  (((l.els.take (mRegs (dAType d))).map (·.getD i 0)), ((l.scs.take (mScales (dAType d))).map (·.getD i 0)))
/-- Mmas of the group that have not completed. -/
def Group.mmas (x : Group) : Nat := (((x.mpend.filter MPend.isMma).map (·.inst)).eraseDups).length

/-- The holds of R261 and the checks of R259; then the updates of the tile rows, with what `.ad` adds. -/
def mmaIssue (reuse z : Bool) (o a n h j need : Nat) (ids : List (Src × Bool))
    (ad : State → Group → BitVec 512 → ALatch → Nat → Word → Option (State × Group)) (s : State) : Res :=
  let grab := fun (x : Group) =>
    let d := x.dGet n
    if x.alatch.isNone && descOk d a x.win none then
      let r := captured d a
      (r.1 ++ r.2).map fun k => (Src.v k, false)
    else []
  withIssue s fun x0 _ => gated s ((.s o, true) :: ids ++ grab x0) (fun _ => []) fun x p e =>
    let d := x.dGet n
    let u := x.sub h
    let off := (x.sGet o).toNat
    if 4 ≤ x.mmas then .next s
    else if !descOk d a x.win (if u.isOpen then some u.stride else none) then .next (s.accStop x p e 9 0)
    else if s.accBadOff x off need then .next (s.accStop x p e 8 (x.sGet o))
    else if !u.isOpen || u.w ≤ j || u.count ≤ u.p + j then .next (s.accStop x p e 0xA 0)
    else
      match u.slots[j]? with
      | some (.failed _ aux sdep) =>
        .next (s.stopHere x.uid p { uniCause 0x1B e 0xB (u.tile j) with aux := BitVec.ofNat 64 aux, sdep := sdep })
      | some (.landed tile _) =>
        let l := x.xOf d a
        if l.els.length < mRegs (dAType d) || l.scs.length < mScales (dAType d) then .next (s.accStop x p e 9 0)
        else
          let on := e &&& ~~~x.helpers
          let rows := lanesOf on
          let upd := fun i =>
            let r := l.row d i
            MUpd.mma z r.1 r.2 d tile
          let ms := pendRows s.fresh off upd s.fresh rows
          let inst := s.fresh
          let t := { s with fresh := s.fresh + rows.length + 1 }
          let y := { x with mpend := x.mpend ++ ms, alatch := if reuse then some l else none }
          let bad := s.accBadRows x [off] 32 on
          if !z && bad != 0 then .next (s.accPoison x p on bad)
          else
            match ad t y d l inst on with
            | none => .next s
            | some (t, y) => .next (t.retire y p)
      | _ => .next s

/-! ### Meanings -/

def execAccw (o a n c : Nat) (s : State) := commit s (accwIssue o a n c s)
def execAccr (o a n c : Nat) (s : State) := commit s (accrIssue o a n c s)
def execAccrLanding (g k : Nat) (s : State) := commit s (accrLand g k s)
def execAccz (o n c : Nat) (s : State) := commit s (acczIssue o n c s)
def execMfmt (d b : Nat) (k : BitVec 9) (s : State) := commit s (mfmtIssue d b k s)
def execMma (reuse z : Bool) (o a d h j : Nat) (s : State) :=
  commit s (mmaIssue reuse z o a d h j 4096 [] (fun t x _ _ _ _ => some (t, x)) s)
def execMmaUpdate (g k : Nat) (s : State) := commit s (mmaUpdate g k s)
def execSopen (d r w h : Nat) (s : State) := commit s (sopenIssue d r w h s)
def execSadv (h n : Nat) (s : State) := commit s (sadvIssue h n s)
def execSclose (h : Nat) (s : State) := commit s (scloseIssue h s)
def execSstat (d h : Nat) (s : State) := commit s (sstatIssue d h s)
def execSlotFetch (g h j : Nat) (s : State) := commit s (slotFetch g h j s)

end Sys2Proof.Machine
end

