-- ==== Sys2Proof/Machine/Adapter.lean ====
section
/-! DEFINITION. Adapters: the adapter cache and its fills, mma.ad row by row, adapply, adstat, adbind, adfetch and adinv
(R273 to R289). -/

namespace Sys2Proof.Machine

/-! ### Entries and slices (R273, R274, R278) -/

/-- Whether an entry is valid, but for the rate class of a descriptor (R278). -/
def entOk (e : List Byte) : Bool :=
  let c := entCtrl e
  bitAt c 63 && fld c 56 7 == 0 && fld c 21 3 == 0 && fld c 13 3 == 0 && fld c 2 6 == 0 &&
  (entQType e == 0x0D || entQType e == 0x0E || entQType e == 0x0F) && mDepth (entPType e) != 0 &&
  fld c 24 16 != 0 && fld c 40 16 != 0 && sliceNat e 0 8 % 64 == 0 && sliceNat e 8 8 % 64 == 0
/-- KSL or NSL (R273). -/
def entSlices (e : List Byte) (q : Bool) : Nat := if q then fld (entCtrl e) 40 16 else fld (entCtrl e) 24 16
/-- SP or SQ (R274). -/
def sliceSize (e : List Byte) (q : Bool) : Nat :=
  let r := entRank e
  let t := entPType e
  if q then 32 * (if entQType e = 0x0D then 4 else 2) * r
  else (r * mColBytes t + (if (mTs t).isSome then 2 * r * mDepth t / 32 else 0) + 63) / 64 * 64
def sliceAddr (e : List Byte) (q : Bool) (n : Nat) : DWord :=
  BitVec.ofNat 64 (sliceNat e (if q then 8 else 0) 8 + n * sliceSize e q)
def sliceKind (q : Bool) (n : Nat) : SegKind := if q then .q n else .p n

/-! ### The cache (R280, R281) -/

/-- Blocks of 128 bytes. -/
def Seg.blocks (k : Seg) : Nat :=
  match k.kind with
  | .entry => 1
  | _ => (k.bytes.length + 127) / 128
/-- Whether a segment has a tag; an entry copy's GEN is no part of it. -/
def Seg.tagged (k : Seg) (core ctx id : Nat) (kind : SegKind) (gen : Word) : Bool :=
  k.core == core && k.ctx == ctx && k.id == id && k.kind == kind && (kind == .entry || k.gen == gen)
def State.seg? (s : State) (core ctx id : Nat) (kind : SegKind) (gen : Word) : Option Seg :=
  s.segs.find? fun (k : Seg) => k.tagged core ctx id kind gen
/-- A lookup uses a segment (R280, R281). -/
def State.segUse (s : State) (core ctx id : Nat) (kind : SegKind) (gen : Word) : State :=
  { s with segs := s.segs.map fun (k : Seg) =>
      if k.tagged core ctx id kind gen then { k with used := s.steps, prefetched := false } else k }

/-- The adapter and slice that an update or a row of an adapply needs. -/
def MPend.needs (m : MPend) (k : Seg) : Bool :=
  match m.upd with
  | .comp i ks _ _ _ e _ _ => i == k.id && (k.kind == .entry || (k.kind == .p ks && e.any fun b => entGen b == k.gen))
  | .apply i n e _ => i == k.id && (k.kind == .entry || (k.kind == .q n && entGen e == k.gen))
  | _ => false
def Apply.needs (a : Apply) (k : Seg) : Bool :=
  a.rows.any fun r => r.fail.isNone && r.id == k.id &&
    (k.kind == .entry || (k.kind == .q a.n && r.entry.any fun b => entGen b == k.gen))
/-- A segment is held while an mma.ad or adapply has yet to use it or a replay waits on it. -/
def State.segHeld (s : State) (k : Seg) : Bool :=
  s.groups.any fun g => g.core == k.core && g.ctx == k.ctx && !g.retired &&
    ((g.mpend.any fun m => m.needs k) || g.applies.any fun a => a.needs k)

/-- The least recently used of a list of segments. -/
def lruSeg (ks : List Seg) : Option Seg :=
  ks.foldl (fun (b : Option Seg) k => match b with
    | none => some k
    | some m => if k.used < m.used then some k else b) none
/-- Makes room for n blocks on a core; false where held segments leave none. -/
def State.segRoom (s : State) (core ctx n : Nat) : Nat → State × Bool
  | 0 => (s, false)
  | fuel + 1 =>
    let mine := s.segs.filter (·.core == core)
    if (mine.foldl (fun m (k : Seg) => m + k.blocks) 0) + n ≤ 8192 then (s, true)
    else
      let free := mine.filter fun k => !s.segHeld k
      match lruSeg (free.filter (·.ctx != ctx)), lruSeg (free.filter (·.ctx == ctx)) with
      | some v, _ => { s with segs := s.segs.erase v }.segRoom core ctx n fuel
      | none, some v => { s with segs := s.segs.erase v }.segRoom core ctx n fuel
      | none, none => (s, false)
/-- A segment enters the cache. -/
def State.segPut (s : State) (k : Seg) : State :=
  let s := { s with segs := s.segs.filter fun (j : Seg) => !j.tagged k.core k.ctx k.id k.kind k.gen }
  match s.segRoom k.core k.ctx k.blocks (s.segs.length + 1) with
  | (s, true) => { s with segs := k :: s.segs }
  | (s, false) => s

/-- Blocks that adfetch has filled and no lookup has used (R281). (DEDUCED, log 49) -/
def State.prefetchFull (s : State) (core ctx : Nat) : Bool :=
  decide (4096 ≤ (s.segs.filter fun k => k.core == core && k.ctx == ctx && k.prefetched).foldl
    (fun n (k : Seg) => n + k.blocks) 0)

/-! ### Requests -/

/-- Whether a fill serves a waiter with that number whatever generation it carries (R287, R289). -/
def SegFill.servesAll (f : SegFill) (no : Nat) : Bool := f.doomed.all (decide <| no < ·) && f.doomGen.all fun d => decide (no < d.2)
/-- Whether a fill that carries a generation serves a waiter with that number. -/
def SegFill.serves (f : SegFill) (gen : Word) (no : Nat) : Bool :=
  f.doomed.all (decide <| no < ·) && f.doomGen.all fun d => d.1 != gen || decide (no < d.2)
/-- Whether a group's waiter with that number has asked for the fill, or it has asked for it later: its accesses before the waiter
come before the fill (R220). -/
def SegFill.covers (f : SegFill) (g no : Nat) : Bool := f.asks.any fun a => a.group == g && decide (no ≤ a.no)
/-- Whether a fill is of a segment; an entry's generation is no part of it. -/
def SegFill.isFor (f : SegFill) (core ctx id : Nat) (kind : SegKind) (gen : Word) : Bool :=
  f.core == core && f.ctx == ctx && f.ad == id && f.kind == kind && (kind == .entry || f.gen == gen)
/-- Whether a waiter can join a fill that has read nothing yet: none of its group's accesses before it is outstanding, but for those
that the fill awaits already (R220). -/
def State.joins (s : State) (f : SegFill) (g no : Nat) : Bool :=
  f.got.isEmpty && !s.heldIn g (((f.asks.filter (·.group == g)).map (·.no)).foldl max 0) no

/-- A group's waiter `no` asks for a fill: it joins one in flight that will serve it, or has one of its own; one asked for on
behalf of a fill that has been dropped is dropped with it. -/
def State.fillAsk (s : State) (x : Group) (no id : Nat) (kind : SegKind) (addr : DWord) (size : Nat) (gen : Word)
    (prefetch : Bool) (wants : List FillWant) (doomed : Option Nat) : State :=
  let ask : FillAsk := ⟨x.uid, no, prefetch⟩
  let fit := fun (f : SegFill) => f.isFor x.core x.ctx id kind gen && f.servesAll no
  if s.fills.any fun f => fit f && f.covers x.uid no then s
  else
    match s.fills.find? fun f => fit f && s.joins f x.uid no with
    | some j =>
      { s with fills := s.fills.map fun (f : SegFill) =>
          if f.id == j.id then { f with asks := f.asks ++ [ask], wants := f.wants ++ wants } else f }
    | none =>
      { s with
        fresh := s.fresh + 1
        fills := s.fills ++
          [{ id := s.fresh, core := x.core, ctx := x.ctx, ad := id, kind, addr, size, gen, got := [], asks := [ask], wants
             doomed, doomGen := [], keys := [] }] }
/-- The table in force: the entry's address, or none for an id out of range (R273, R283). -/
def State.entryAt (s : State) (ctx id : Nat) : Option DWord :=
  match s.ctx? ctx with
  | none => none
  | some c => if c.adCount ≤ id then none else some (c.adBase + BitVec.ofNat 64 (32 * id))
/-- A slice's fill. -/
def State.sliceAsk (s : State) (x : Group) (no id : Nat) (q : Bool) (n : Nat) (e : List Byte) (prefetch : Bool)
    (doomed : Option Nat) : State :=
  s.fillAsk x no id (sliceKind q n) (sliceAddr e q n) (sliceSize e q) (entGen e) prefetch [] doomed

/-- The failure of an entry for a use: `cls` is the depth of the descriptor's rate class, 0 for any (R278). -/
def entFail (e : List Byte) (q : Bool) (n cls : Nat) : Option Nat :=
  if !entOk e || (cls != 0 && mDepth (entPType e) != cls) then some 2
  else if entSlices e q ≤ n then some 3
  else none

/-! ### Waiters -/

/-- A failed row, kept for adstat and adapply; one record for each row (R279). -/
def Group.failRow (x : Group) (f : AdFail) : Group :=
  { x with ad := { x.ad with fails := f :: x.ad.fails.filter (·.row != f.row) } }

/-- The bytes of an entry reach a replay that awaits it: with its slice where that is present, or a failure. -/
def MPend.gotEntry (m : MPend) (id : Nat) (e : List Byte) (slice : SegKind → Word → Option (List Byte)) :
    Except AdFail MPend :=
  match m.upd with
  | .comp i ks els scs d none sl r =>
    if i != id then .ok m
    else
      match entFail e false ks (mDepth (dAType d)) with
      | some why => .error ⟨m.row, why, i, ks, 0⟩
      | none => .ok { m with upd := .comp i ks els scs d (some e) (sl <|> slice (.p ks) (entGen e)) r }
  | _ => .ok m
/-- The bytes of a slice reach a replay that awaits it. -/
def MPend.gotSlice (m : MPend) (id : Nat) (kind : SegKind) (gen : Word) (bs : List Byte) : MPend :=
  match m.upd with
  | .comp i ks els scs d (some e) none r =>
    if i == id && kind == .p ks && entGen e == gen then { m with upd := .comp i ks els scs d (some e) (some bs) r } else m
  | _ => m
/-- Whether a replay awaits a fill. -/
def MPend.awaits (m : MPend) (id : Nat) (kind : SegKind) (gen : Word) : Bool :=
  match m.upd with
  | .comp i _ _ _ _ none _ _ => i == id && kind == .entry
  | .comp i ks _ _ _ (some e) none _ => i == id && kind == .p ks && entGen e == gen
  | _ => false
/-- The failure of a replay. -/
def MPend.failed (m : MPend) (why code : Nat) : AdFail :=
  match m.upd with
  | .comp i ks _ _ _ _ _ _ => ⟨m.row, why, i, ks, code⟩
  | _ => ⟨m.row, why, 0, 0, code⟩

def ARow.gotEntry (r : ARow) (n id : Nat) (e : List Byte) (slice : SegKind → Word → Option (List Byte)) : ARow :=
  if r.id != id || r.entry.isSome || r.fail.isSome then r
  else
    match entFail e true n 0 with
    | some why => { r with fail := some ⟨r.row, why, r.id, n % 2 ^ 16, 0⟩ }
    | none => { r with entry := some e, slice := r.slice <|> slice (.q n) (entGen e) }
def ARow.awaits (r : ARow) (n id : Nat) (kind : SegKind) (gen : Word) : Bool :=
  r.id == id && r.fail.isNone &&
    (match r.entry with
     | none => kind == .entry
     | some e => r.slice.isNone && kind == .q n && entGen e == gen)

/-- Applies f to the rows of every adapply held. -/
def Group.mapApplies (x : Group) (f : Nat → Nat → ARow → ARow) : Group :=
  { x with applies := x.applies.map fun a => { a with rows := a.rows.map (f a.id a.n) } }

/-- Replays of a group that a test fails leave it with their failures. -/
def Group.dropReplays (x : Group) (f : MPend → Except AdFail MPend) : Group :=
  x.mpend.foldl (fun (y : Group) m => match f m with
    | .ok k => { y with mpend := y.mpend ++ [k] }
    | .error e => y.failRow e) { x with mpend := [] }

/-- Slices that a group's replays and adapplies still lack are asked for; for a waiter that a dropped fill gave its entry,
the slice is dropped too. -/
def State.askSlices (s : State) (g : Nat) (doomed : Option Nat) : State :=
  match s.group? g with
  | none => s
  | some x =>
    let s := x.mpend.foldl (fun (s : State) m => match m.upd with
      | .comp i ks _ _ _ (some e) none _ => s.sliceAsk x m.id i false ks e false (doomed.filter (decide <| m.id < ·))
      | _ => s) s
    x.applies.foldl (fun (s : State) a => a.rows.foldl (fun (s : State) r => match r.entry, r.slice, r.fail with
      | some e, none, none => s.sliceAsk x a.id r.id true a.n e false (doomed.filter (decide <| a.id < ·))
      | _, _, _ => s) s) s

/-- Groups whose lookups a fill can serve. -/
def State.fillGroups (s : State) (f : SegFill) : List Group :=
  s.groups.filter fun g => g.core == f.core && g.ctx == f.ctx && !g.retired

/-- The slices of the adfetch numbered `no`, those present left out (R284). -/
def State.wantSlices (s : State) (x : Group) (no id : Nat) (e : List Byte) (q : Bool) (first n : Nat) : State :=
  if !entOk e then s
  else
    (List.range n).foldl (fun (s : State) i =>
      let k := first + i
      if entSlices e q ≤ k || (s.seg? x.core x.ctx id (sliceKind q k) (entGen e)).isSome || s.prefetchFull x.core x.ctx
      then s else s.sliceAsk x no id q k e true none) s

/-- A fill fails: its waiters do (R278). -/
def State.fillFail (s : State) (f : SegFill) (why code : Nat) : State :=
  (s.fillGroups f).foldl (fun s g => s.modGroup g.uid fun x =>
    (x.dropReplays fun m =>
      if m.awaits f.ad f.kind f.gen && f.servesAll m.id && f.covers g.uid m.id then .error (m.failed why code) else .ok m).mapApplies
      fun no n r =>
        if r.awaits n f.ad f.kind f.gen && f.servesAll no && f.covers g.uid no then
          { r with fail := some ⟨r.row, why, r.id, n % 2 ^ 16, code⟩ } else r)
    { s with fills := s.fills.filter (·.id != f.id) }

/-- Whether a fill that carries a generation serves a group's replay, or a row of its adapply, that awaits it. -/
def MPend.served (m : MPend) (g : Nat) (f : SegFill) (gen : Word) : Bool :=
  m.awaits f.ad f.kind f.gen && f.serves gen m.id && f.covers g m.id
def ARow.served (r : ARow) (g no n : Nat) (f : SegFill) (gen : Word) : Bool :=
  r.awaits n f.ad f.kind f.gen && f.serves gen no && f.covers g no
/-- The slices of a landed entry that a group's waiters look up. -/
def Group.entryUses (x : Group) (f : SegFill) (gen : Word) : List SegKind :=
  ((x.mpend.filterMap fun m => match m.upd with
    | .comp _ ks .. => if m.served x.uid f gen then some (SegKind.p ks) else none
    | _ => none) ++
   x.applies.flatMap fun a => (a.rows.filter fun r => r.served x.uid a.id a.n f gen).map fun _ => SegKind.q a.n)

/-- A fill lands: it serves its waiters and, unless it was dropped meanwhile, becomes a segment (R277, R287). -/
def State.fillLand (s : State) (f : SegFill) (bs : List Byte) : State :=
  let gen := if f.kind == .entry then entGen bs else f.gen
  let gs := s.fillGroups f
  let dead := f.doomed <|> ((f.doomGen.find? (·.1 == gen)).map (·.2))
  let s := { s with fills := s.fills.filter (·.id != f.id) }
  let k : Seg := ⟨f.core, f.ctx, f.ad, f.kind, gen, bs, f.asks.all (·.prefetch), s.steps, f.keys⟩
  let s := if dead.isSome then s else s.segPut k
  let slice := fun (kind : SegKind) (g : Word) => (s.seg? f.core f.ctx f.ad kind g).map (·.bytes)
  let s := gs.foldl (fun (s : State) g =>
    if f.kind == .entry then
      let s := (g.entryUses f gen).foldl (fun (s : State) kind => s.segUse f.core f.ctx f.ad kind gen) s
      let s := s.modGroup g.uid fun x =>
        (x.dropReplays fun m => if m.served g.uid f gen then m.gotEntry f.ad bs slice else .ok m).mapApplies
          fun no n r => if r.served g.uid no n f gen then r.gotEntry n f.ad bs slice else r
      s.askSlices g.uid dead
    else
      s.modGroup g.uid fun x =>
        ({ x with mpend := x.mpend.map fun (m : MPend) => if m.served g.uid f gen then m.gotSlice f.ad f.kind f.gen bs else m }).mapApplies
          fun no n r => if r.served g.uid no n f gen then { r with slice := some bs } else r) s
  if dead.isSome then s
  else
    f.wants.foldl (fun s w => match s.group? w.group with
      | some x => s.wantSlices x w.no f.ad bs w.q w.first w.n
      | none => s) s

/-- ADAPTER_FILL: one line of a fill is read; the last makes it land, or it fails (R278, R280, R289). One that adfetches alone ask
for is given up where their quota is full (R281). (DEDUCED, log 46) -/
def adapterFill (k : Nat) (s : State) : Res :=
  match s.fills.find? (·.id == k) with
  | none => .next s
  | some f =>
    let a := f.addr + BitVec.ofNat 64 f.got.length
    if f.asks.all (·.prefetch) && s.prefetchFull f.core f.ctx then
      .next { s with fills := s.fills.filter (·.id != k) }
    else if (f.asks.any fun a => s.boundHeld a.group a.no) || s.lineOwned f.core f.ctx a (f.asks.map fun k => (k.group, k.no)) then .next s
    else
      match s.engineRead f.core f.ctx a (lineChunk f.addr f.size f.got.length) with
      | (t, .error e) => .next (t.fillFail f 4 e.code)
      | (t, .ok (bs, key)) =>
        let f := { f with got := f.got ++ bs, keys := (key :: f.keys).eraseDups }
        if f.size ≤ f.got.length then
          .next (if f.kind == .entry && !entOk f.got then t.fillFail f 2 0 else t.fillLand f f.got)
        else .next { t with fills := t.fills.map fun (j : SegFill) => if j.id == k then f else j }

/-! ### mma.ad (R275 to R277) -/

/-- Row-replay entries in use on a core (R276). -/
def State.replays (s : State) (core : Nat) : Nat :=
  (s.groups.filter fun g => g.core == core).foldl (fun n g => n + (g.mpend.filter MPend.isReplay).length) 0
/-- Whether a companion row has a replay outstanding. -/
def Group.replayOn (x : Group) (block row : Nat) : Bool := x.mpend.any fun m => m.isReplay && m.meets block row

/-- One row's lookups: the entry and slice that are present. -/
def State.adLook (s : State) (x : Group) (id : Nat) (q : Bool) (n : Nat) : Option (List Byte) × Option (List Byte) :=
  match s.seg? x.core x.ctx id .entry 0 with
  | none => (none, none)
  | some e => (some e.bytes, (s.seg? x.core x.ctx id (sliceKind q n) (entGen e.bytes)).map (·.bytes))
/-- A lookup uses the entry copy, and the slice where that is present. -/
def State.adUse (s : State) (x : Group) (id : Nat) (q : Bool) (n : Nat) (e : List Byte) : State :=
  (s.segUse x.core x.ctx id .entry 0).segUse x.core x.ctx id (sliceKind q n) (entGen e)

/-- A row misses (R275). (DEDUCED, log 49) -/
def Group.missRow (x : Group) (row : Nat) : Group :=
  { x with ad := { x.ad with miss := setBit x.ad.miss row true, count := x.ad.count + 1 } }

/-- One row of an mma.ad. -/
def adRow (i off inst : Nat) (d : BitVec 512) (l : ALatch) (t : State) (y : Group) (row : Nat) : State × Group :=
  let v := (y.vGet i row).toNat
  let id := v % 2 ^ 16
  let ks := v / 2 ^ 16
  let r := l.row d row
  let cls := mDepth (dAType d)
  let (e, sl) := t.adLook y id false ks
  let ok := match e with
    | some e => (entFail e false ks cls).isNone
    | none => true
  let hit := e.isSome && sl.isSome && ok
  let y := if hit then y else y.missRow row
  let add := fun (e sl : Option (List Byte)) =>
    let m : MPend := ⟨t.fresh, inst, off, row, .comp id ks r.1 r.2 d e sl (!hit || y.replayOn (off + 4096) row)⟩
    ({ t with fresh := t.fresh + 1 }, { y with mpend := y.mpend ++ [m] })
  match e with
  | none =>
    match t.entryAt y.ctx id with
    | none => (t, y.failRow ⟨row, 1, id, ks, 0⟩)
    | some a =>
      let (t, y) := add none none
      (t.fillAsk y (t.fresh - 1) id .entry a 32 0 false [] none, y)
  | some e =>
    let t := t.adUse y id false ks e
    match entFail e false ks cls with
    | some why => (t, y.failRow ⟨row, why, id, ks, 0⟩)
    | none =>
      let (t, y) := add (some e) sl
      (if hit then t else t.sliceAsk y (t.fresh - 1) id false ks e false none, y)

/-- The rows of an mma.ad; none while too few row-replay entries are free. -/
def adRows (i o : Nat) (t : State) (y : Group) (d : BitVec 512) (l : ALatch) (inst : Nat) (lanes : Word) :
    Option (State × Group) :=
  let off := (y.sGet o).toNat
  let rows := (lanesOf lanes).filter fun r => (y.vGet i r).toNat % 2 ^ 16 != 0xFFFF
  let miss := rows.filter fun r =>
    let v := (y.vGet i r).toNat
    let k := t.adLook y (v % 2 ^ 16) false (v / 2 ^ 16)
    k.1.isNone || k.2.isNone || y.replayOn (off + 4096) r
  if 64 < t.replays y.core + miss.length then none
  else some (rows.foldl (fun a r => adRow i off inst d l a.1 a.2 r) (t, y))

/-! ### adapply (R285, R288) -/

/-- Rows that an adapply's first attempt looks up; one whose entry copy or Q slice is absent misses (R285; DEDUCED, log 49). -/
def applyLook (n no : Nat) (s : State) (x : Group) (row id : Nat) : State × Group × ARow :=
  let (e, sl) := s.adLook x id true n
  let r : ARow := ⟨row, id, none, none, none⟩
  match e with
  | some e =>
    let r := r.gotEntry n id e fun _ _ => sl
    let s := s.adUse x id true n e
    if sl.isSome then (s, x, r)
    else (if r.fail.isSome then s else s.sliceAsk x no id true n e false none, x.missRow row, r)
  | none =>
    match s.entryAt x.ctx id with
    | none => (s, x.missRow row, { r with fail := some ⟨row, 1, id, n % 2 ^ 16, 0⟩ })
    | some a => (s.fillAsk x no id .entry a 32 0 false [] none, x.missRow row, r)
def applyStart (n no : Nat) (s : State) (x : Group) : List (Nat × Nat) → State × Group × List ARow
  | [] => (s, x, [])
  | (row, id) :: rest =>
    let r := applyLook n no s x row id
    let q := applyStart n no r.1 r.2.1 rest
    (q.1, q.2.1, r.2.2 :: q.2.2)

/-- The failure that an adapply reports for a row. -/
def Group.rowFail (x : Group) (r : ARow) : Option AdFail :=
  match r.fail with
  | some f => some f
  | none => x.ad.fails.find? (·.row == r.row)
/-- ADAPTER_FAULT (R288, R392). -/
def applyFault (s : State) (x : Group) (p : Nat) (e : Word) (rows : List ARow) : State :=
  let fs := rows.filterMap x.rowFail
  match fs with
  | [] => s
  | f :: _ =>
    let code := fun l => if laneOn e l then (if fs.any (·.row == l) then 0xC else 0) else 0xF
    s.stopHere x.uid p { Cause.plain 0x1C e with
      lanes := laneVec ((List.range 32).map code), reason := f.reason
      aux := BitVec.ofNat 64 (f.id % 2 ^ 16 + f.slice % 2 ^ 16 * 2 ^ 16 + f.code % 16 * 2 ^ 32) }

/-- Once every lookup has an answer, the adapply faults or its updates join the rows' order. -/
def applyGo (off : Nat) (s : State) (x : Group) (p : Nat) (e : Word) (a : Apply) : Res :=
  if a.rows.any fun r => r.fail.isNone && (r.entry.isNone || r.slice.isNone) then .next (s.setGroup x)
  else
    let x := { x with applies := x.applies.filter (·.path != p) }
    let on := maskOf (a.rows.map (·.row))
    let bad := s.accBadRows x [off] 32 on ||| maskOf ((a.rows.filter fun r =>
      s.accBadRows x [off + 4096] (entRank (r.entry.getD [])) (maskOf [r.row]) != 0).map (·.row))
    if a.rows.any fun r => (x.rowFail r).isSome then .next (applyFault (s.setGroup x) x p e a.rows)
    else if bad != 0 then .next ((s.setGroup x).accPoison x p on bad)
    else
      let upd := fun i => match a.rows.find? (·.row == i) with
        | some r => MUpd.apply r.id a.n (r.entry.getD []) (r.slice.getD [])
        | none => MUpd.write 0 []
      let ms := pendRows s.fresh off upd s.fresh (a.rows.map (·.row))
      .next ({ s with fresh := s.fresh + a.rows.length }.retire { x with mpend := x.mpend ++ ms } p)

def adapplyIssue (o i n : Nat) (s : State) : Res :=
  gated s [(.s o, true), (.v i, false), (.s n, true)] (fun _ => []) fun x p e =>
    let off := (x.sGet o).toNat
    let id := fun r => (x.vGet i r).toNat % 2 ^ 16
    let rows := (lanesOf (e &&& ~~~x.helpers)).filter fun r => id r != 0xFFFF
    if s.accBadOff x off 8192 then .next (s.accStop x p e 8 (x.sGet o))
    else if rows.any fun r => x.replayOn (off + 4096) r then .next s
    else
      match x.applies.find? fun a => a.path == p && a.pc == (x.path p).pc with
      | some a => applyGo off s x p e a
      | none =>
        let sl := (x.sGet n).toNat
        let r := applyStart sl s.fresh { s with fresh := s.fresh + 1 } x (rows.map fun r => (r, id r))
        let a : Apply := ⟨s.fresh, p, (x.path p).pc, sl, r.2.2⟩
        applyGo off r.1 { r.2.1 with applies := a :: r.2.1.applies.filter (·.path != p) } p e a

/-! ### adstat (R286) -/

def maskRows (f : Nat → Bool) : Nat := (maskOf ((List.range 32).filter f)).toNat
/-- The word that adstat reads. -/
def Group.adWord (x : Group) (sel : AdSel) : Nat :=
  let low := (List.range 32).findSome? fun i => x.ad.fails.find? (·.row == i)
  match sel with
  | .m => x.ad.miss.toNat * 2 ^ 32 + maskRows fun i => x.mpend.any fun m => m.isReplay && m.row == i
  | .f =>
    maskRows (fun i => x.ad.fails.any (·.row == i)) * 2 ^ 32 +
      (match low with
       | some f => f.reason % 16 * 2 ^ 28 + (if f.reason = 4 then f.code % 16 else 0) * 2 ^ 24
       | none => 0)
  | .n => x.ad.count.toNat
def Group.adClear (x : Group) (sel : AdSel) : Group :=
  { x with ad := match sel with
      | .m => { x.ad with miss := 0 }
      | .f => { x.ad with fails := [] }
      | .n => { x.ad with count := 0 } }

def adstatIssue (sel : AdSel) (clr : Bool) (d : Nat) (s : State) : Res :=
  once s [] (fun x => x.srcRegs (.s d) true) fun x p e =>
    let o : Out :=
      { id := s.fresh, inst := s.fresh, path := p, pc := (x.path p).pc, op := .adstat sel clr
        regs := if d = 0 then [] else [.s d], lanes := e, accs := [], agent := 0, hist := [], acq := false, rel := false
        scope := .qd, alone := false, bytes := 0, fl := .none, discard := [], whole := [], poison := 0, poisonVa := 0
        rpl := none }
    .next ({ s with fresh := s.fresh + 1 }.retire { x with outs := x.outs ++ [o] } p)
/-- ADSTAT_LANDING: earlier lookups were made at their issue, so it may land. -/
def adstatLand (g k : Nat) (s : State) : Res :=
  match s.group? g with
  | none => .next s
  | some x =>
    match x.outs.find? (·.id == k) with
    | none => .next s
    | some o =>
      match o.op with
      | .adstat sel clr =>
        let v := BitVec.ofNat 64 (x.adWord sel)
        let y := match o.regs with
          | [.s d] => if o.discard.contains (.s d) then x else x.sSet d v
          | _ => x
        let y := if clr then y.adClear sel else y
        .next (s.setGroup { y with outs := y.outs.filter (·.id != k) }.captureBound).reap
      | _ => .next s

/-! ### adbind, adfetch, adinv (R283, R284, R287) -/

/-- A fill in flight is dropped at the number `no`: it still serves the waiters below it. -/
def SegFill.drop (f : SegFill) (no : Nat) : SegFill := { f with doomed := some (f.doomed.getD no) }
/-- Drops segments of a context, and its fills in flight once they have served their waiters. -/
def State.segDrop (s : State) (ctx : Nat) (seg : Seg → Bool) (fill : SegFill → Bool) : State :=
  { s with segs := s.segs.filter fun (k : Seg) => !(k.ctx == ctx && seg k)
           fills := s.fills.map fun (f : SegFill) => if f.ctx == ctx && fill f then f.drop s.fresh else f }

def adbindIssue (b n : Nat) (s : State) : Res :=
  once s [(.s b, true), (.s n, true)] (fun _ => []) fun x p e =>
    if (x.sGet b).toNat % 64 != 0 then .next (s.stopHere x.uid p (uniCause 0x11 e 1 (x.sGet b)))
    else if adBusy s x then .next s
    else
      let s := s.modCtx x.ctx fun c => { c with adBase := x.sGet b, adCount := (x.sGet n).toNat % 2 ^ 16 }
      .next ((s.segDrop x.ctx (fun _ => true) fun _ => true).pass x.uid p)

def adfetchIssue (q : Bool) (r : Nat) (s : State) : Res :=
  once s [(.s r, true)] (fun _ => []) fun x p _ =>
    let w := (x.sGet r).toNat
    let id := w % 2 ^ 16
    let first := fld w 16 16
    let n := fld w 32 8 + 1
    let no := s.fresh
    let s := { s with fresh := no + 1 }
    let s := match s.seg? x.core x.ctx id .entry 0 with
      | some e => s.wantSlices x no id e.bytes q first n
      | none =>
        match s.entryAt x.ctx id with
        | some a =>
          if s.prefetchFull x.core x.ctx then s
          else s.fillAsk x no id .entry a 32 0 true [⟨x.uid, no, q, first, n⟩] none
        | none => s
    .next (s.pass x.uid p)

def adinvIssue (srcs : List (Src × Bool)) (f : Group → State → State) (s : State) : Res :=
  once s srcs (fun _ => []) fun x p _ => .next ((f x s).pass x.uid p)
def adinvIdIssue (r : Nat) (s : State) : Res :=
  adinvIssue [(.s r, true)] (fun x s =>
    let id := (x.sGet r).toNat % 2 ^ 16
    s.segDrop x.ctx (fun k => k.id == id) fun f => f.ad == id) s
def adinvGenIssue (r : Nat) (s : State) : Res :=
  adinvIssue [(.s r, true)] (fun x s =>
    let gen : Word := (x.sGet r).setWidth 32
    let s := s.segDrop x.ctx (fun k => k.gen == gen) fun f => f.kind != .entry && f.gen == gen
    { s with fills := s.fills.map fun (f : SegFill) =>
        if f.ctx == x.ctx && f.kind == .entry then { f with doomGen := (gen, s.fresh) :: f.doomGen } else f }) s
def adinvAllIssue (s : State) : Res :=
  adinvIssue [] (fun x s => s.segDrop x.ctx (fun _ => true) fun _ => true) s

/-! ### Meanings -/

def execMmaAd (reuse z : Bool) (o a d h j i : Nat) (s : State) :=
  commit s (mmaIssue reuse z o a d h j 8192 [(.v i, false)] (adRows i o) s)
def execAdbind (b n : Nat) (s : State) := commit s (adbindIssue b n s)
def execAdfetchP (x : Nat) (s : State) := commit s (adfetchIssue false x s)
def execAdfetchQ (x : Nat) (s : State) := commit s (adfetchIssue true x s)
def execAdapply (o i n : Nat) (s : State) := commit s (adapplyIssue o i n s)
def execAdstat (sel : AdSel) (clr : Bool) (d : Nat) (s : State) := commit s (adstatIssue sel clr d s)
def execAdstatLanding (g k : Nat) (s : State) := commit s (adstatLand g k s)
def execAdinvId (x : Nat) (s : State) := commit s (adinvIdIssue x s)
def execAdinvGen (x : Nat) (s : State) := commit s (adinvGenIssue x s)
def execAdinvAll (s : State) := commit s (adinvAllIssue s)
def execAdapterFill (k : Nat) (s : State) := commit s (adapterFill k s)

end Sys2Proof.Machine
end

