-- ==== Sys2Proof/Machine/Deferral.lean ====
section
/-! DEFINITION. Deferral and residual closures (R310 to R320): which instructions defer, capture and binding, the queue
head, dmode and drain. -/

namespace Sys2Proof.Machine

/-- The ALU form of an instruction marked "Defers" (R313), but for st and red. -/
def aluOf : Instr → Option Alu
  | .iadd mo d a b => some (aluIadd mo d a b)
  | .isub mo d a b => some (aluIsub mo d a b)
  | .imul mo d a b => some (aluImul mo d a b)
  | .imulh w sg d a b => some (aluImulh w sg d a b)
  | .imad mo d a b c => some (aluImad mo d a b c)
  | .iabs mo d a => some (aluIabs mo d a)
  | .ineg mo d a => some (aluIneg mo d a)
  | .imin w sg d a b => some (aluImin w sg d a b)
  | .imax w sg d a b => some (aluImax w sg d a b)
  | .idp4 sg sat d a b c => some (aluIdp4 sg sat d a b c)
  | .and w d a b => some (aluAnd w d a b)
  | .or w d a b => some (aluOr w d a b)
  | .xor w d a b => some (aluXor w d a b)
  | .andn w d a b => some (aluAndn w d a b)
  | .orn w d a b => some (aluOrn w d a b)
  | .shl w d a b => some (aluShl w d a b)
  | .shr w d a b => some (aluShr w d a b)
  | .sar w d a b => some (aluSar w d a b)
  | .rot w d a b => some (aluRot w d a b)
  | .shf l w d a b c => some (aluShf l w d a b c)
  | .bfx w sg d a b c => some (aluBfx w sg d a b c)
  | .bfi w d a b c => some (aluBfi w d a b c)
  | .popc w d a => some (aluPopc w d a)
  | .clz w d a => some (aluClz w d a)
  | .ctz w d a => some (aluCtz w d a)
  | .brev w d a => some (aluBrev w d a)
  | .perm d a b c => some (aluPerm d a b c)
  | .icmp cc w sg d a b => some (aluIcmp cc w sg d a b)
  | .sel w d a b c => some (aluSel w d a b c)
  | .mov w sg d a => some (aluMov w sg d a)
  | .movGetv d i => some (aluMovGetv d i)
  | .movi w sg d i => some (aluMovi w sg d i)
  | .moviH1 w sg d i => some (aluMoviH1 w sg d i)
  | .moviH2 sg d i => some (aluMoviH2 sg d i)
  | .lea w d m => some (aluLea w d m)
  | .qxch pt w d a => some (aluQxch pt w d a)
  | .qbc w d a b => some (aluQbc w d a b)
  | .shfl k w d a b => some (aluShfl k w d a b)
  | .shflx k w d a b => some (aluShflx k w d a b)
  | .shflup k w d a b => some (aluShflup k w d a b)
  | .shfldn k w d a b => some (aluShfldn k w d a b)
  | .vote op d a => some (aluVote op d a)
  | .gred op w sg d a => some (aluGred op w sg d a)
  | .gscan op ex w sg d a => some (aluGscan op ex w sg d a)
  | .fadd rm fm d a b => some (aluFadd rm fm d a b)
  | .fmul rm fm d a b => some (aluFmul rm fm d a b)
  | .fma rm fm d a b c => some (aluFma rm fm d a b c)
  | .fdp2 rm fm d a b c => some (aluFdp2 rm fm d a b c)
  | .frnd rm fm d a => some (aluFrnd rm fm d a)
  | .fcmp cc fm d a b => some (aluFcmp cc fm d a b)
  | .fmin fm d a b => some (aluFmin fm d a b)
  | .fmax fm d a b => some (aluFmax fm d a b)
  | .cvt rm sat dt st d a => some (aluCvt rm sat dt st d a)
  | .fpack f rm d a b c => some (aluFpack f rm d a b c)
  | .fsqrt rm fm d a => some (aluFsqrt rm fm d a)
  | .frcp fm d a => some (aluFrcp fm d a)
  | .frsq fm d a => some (aluFrsq fm d a)
  | .fex2 fm d a => some (aluFex2 fm d a)
  | .flg2 fm d a => some (aluFlg2 fm d a)
  | .fsin fm d a => some (aluFsin fm d a)
  | .fcos fm d a => some (aluFcos fm d a)
  | .ftanh fm d a => some (aluFtanh fm d a)
  | _ => none

/-- A store that can defer: its data, bytes, address, kind and order (R231, R313). -/
structure StoreOf where
  data : Src
  n : Nat
  mem : MemOp
  op : SOp
  rel : Bool
  sc : Scope
def storeOf : Instr → Option StoreOf
  | .st ty sc rel x m => if ty = .b128 then none else some ⟨x, stSize ty, m, .st, rel, sc⟩
  | .red op w sc rel x m => some ⟨x, if w then 8 else 4, m, .red op w, rel, sc⟩
  | _ => none

/-- What an instruction that can defer reads: its operands, and its destination where it reads it. -/
def deferSrcs (i : Instr) : List Oper :=
  match aluOf i, storeOf i with
  | some a, _ => a.srcs ++ a.oldSrc.map fun r => opI r.1 r.2
  | none, some st => [opI st.data (decide (st.n = 8))]
  | none, none => []
/-- Its destination registers. -/
def deferDst (x : Group) (i : Instr) : List Reg :=
  match aluOf i with
  | some a => x.dstRegs a.d a.dwide
  | none => []

/-- The rows that captures and bindings need: one for each v register and latch named (R314). -/
inductive RowKey where
  | reg (row : Nat)
  | latch (n : Nat)
  deriving DecidableEq, Repr, Inhabited
def rowKeys (x : Group) (os : List Oper) : List RowKey :=
  (os.flatMap fun o => match o.src with
    | .v n => if o.wide then [.reg (x.wb + n), .reg (x.wb + n + 1)] else [.reg (x.wb + n)]
    | .b n => [.latch n]
    | _ => []).eraseDups

/-- Whether an instruction defers at issue (R313); one that reads or writes a poisoned register stops instead (R201). -/
def Group.defers (x : Group) (p : Nat) (i : Instr) : Bool :=
  let y := x.path p
  let os := deferSrcs i
  let dst := deferDst x i
  let regs := os.flatMap fun o => x.srcRegs o.src o.wide
  let isV := fun (r : Reg) => match r with
    | .v _ => true
    | _ => false
  let addr := match storeOf i with
    | some st => x.srcRegs (.s st.mem.base) true ++ x.srcRegs st.mem.index false
    | none => []
  x.defer && !hdrNodefer y.head.toNat && ((aluOf i).isSome || (storeOf i).isSome) &&
    ((regs.filter isV).any x.pending || os.any (fun o => y.deferredLatch o.src) || dst.any x.pending) &&
    !((regs.filter (fun r => !isV r)) ++ x.guardRegs p ++ addr).any x.pending &&
    !((storeOf i).map fun st => y.awaitsLatch st.mem.index).getD false &&
    decide ((rowKeys x os).length ≤ 3) &&
    !(regs ++ dst ++ x.guardRegs p ++ addr).any fun r => (x.poisonOf r).isSome

/-- The lanes in which an instruction that defers reads a struck word: one that its register's producers are still to replace is
none (R199). -/
def Group.deferBad (x : Group) (p : Nat) (i : Instr) : Word :=
  let os := deferSrcs i
  let regs := (os.flatMap fun o => x.srcRegs o.src o.wide) ++
    ((storeOf i).map fun st => x.srcRegs st.mem.index false).getD []
  regs.foldl (fun m r =>
    let coming := (x.outs.filter fun o => o.regs.contains r && !o.discard.contains r).foldl (fun m o => m ||| o.lanes)
      ((x.rcq.filter fun c => c.regs.contains r && !c.discard.contains r).foldl (fun m c => m ||| c.lanes) 0)
    m ||| (x.badLanes p [r] &&& ~~~coming)) 0

/-! ### Headroom (R74, R318) -/

/-- The rows that a closure's operand holds. -/
def CSlot.rowsHeld : CSlot → List Nat
  | .row r r2 wide => if wide then [r, r2] else [r]
  | .bound _ r r2 wide rows _ _ => if !rows then [] else if wide then [r, r2] else [r]
  | .latchOf _ r _ => [r]
  | _ => []
def Closure.rowsHeld (c : Closure) : List Nat := c.a.rowsHeld ++ c.b.rowsHeld ++ c.c.rowsHeld ++ c.d.rowsHeld
def Group.heldRows (x : Group) : List Nat := (x.rcq.flatMap Closure.rowsHeld).eraseDups
/-- The free headroom rows, ascending: above the window and within the residency (DESIGN CHOICE, log 16). -/
def Group.freeRows (x : Group) : List Nat :=
  let lo := x.wb + x.win
  ((List.range (x.rlo + x.nres - lo)).map (lo + ·)).filter fun r => !x.heldRows.contains r

/-! ### Capture (R314) -/

/-- The row allotted to a key. -/
def rowOf (keys : List RowKey) (rows : List Nat) (k : RowKey) : Nat := rows.getD (keys.idxOf k) 0

/-- How an operand is prepared. -/
def captureOper (s : State) (x : Group) (p : Nat) (keys : List RowKey) (rows : List Nat) (o : Oper) : CSlot :=
  match o.src with
  | .imm _ => .none
  | .s n => .val (x.sGet n)
  | .m n => .val ((x.mRead p n).setWidth 64)
  | .idn .lane => .laneId false
  | .idn .quad => .laneId true
  | .idn i => .val (BitVec.ofNat 64 (idVal s x i 0))
  | .b n =>
    match (x.path p).dlatch.find? (·.latch == n) with
    | some d =>
      if d.value.isEmpty then .latchOf d.closure (rowOf keys rows (.latch n)) d.lanes else .row (rowOf keys rows (.latch n)) 0 false
    | none => .row (rowOf keys rows (.latch n)) 0 false
  | .v n =>
    let r := rowOf keys rows (.reg (x.wb + n))
    let r2 := if o.wide then rowOf keys rows (.reg (x.wb + n + 1)) else 0
    let lo := x.pending (.v (x.wb + n))
    let hi := o.wide && x.pending (.v (x.wb + n + 1))
    if lo || hi then .bound (.v (x.wb + n)) r r2 o.wide true lo hi else .row r r2 o.wide

/-- A pending destination that the form does not read is bound to its producer (R314). -/
def bindDst (x : Group) (d : Dst) (wide : Bool) : CSlot :=
  match x.dstRegs d wide with
  | r :: rest =>
    let hi := rest.any x.pending
    if x.pending r || hi then .bound r 0 0 (!rest.isEmpty) false (x.pending r) hi else .none
  | [] => .none

/-- Copies what is ready into the rows: v registers that are not pending, and latches as they stand. -/
def Group.fillRows (x : Group) (p : Nat) (keys : List RowKey) (rows : List Nat) : Group :=
  keys.foldl (fun (y : Group) k => match k with
    | .reg row => if x.pending (.v row) then y else y.copyRow (.v row) (rowOf keys rows k)
    | .latch n => y.rowPut (rowOf keys rows k) ((List.range 32).map fun l => (x.path p).latchGet n l)) x

/-- The closure record of a deferring instruction. -/
def closureOf (s : State) (x : Group) (p : Nat) (i : Instr) (w : DWord) (e : Word) (rows : List Nat) : Closure :=
  let y := x.path p
  let os := deferSrcs i
  let keys := rowKeys x os
  let slot := fun k => ((os[k]?).map (captureOper s x p keys rows)).getD .none
  let d := match aluOf i with
    | some a => if a.old then slot a.srcs.length else bindDst x a.d a.dwide
    | none => .none
  let n := match aluOf i with
    | some a => a.srcs.length
    | none => 1
  { id := s.fresh, word := w, pc := y.pc, lanes := e, avail := x.mask p, path := p, pos := y.pos
    a := if 0 < n then slot 0 else .none, b := if 1 < n then slot 1 else .none, c := if 2 < n then slot 2 else .none
    d, regs := deferDst x i
    latchBase := (List.range 32).map fun l => y.latchGet (y.pos % 8) l
    base := (y.dlatch.find? fun d => d.latch == y.pos % 8 && d.value.isEmpty).map fun d => (d.closure, d.lanes)
    discard := [] }

/-- The path goes on as if the instruction had retired; its latch, if it has one, is deferred for the rest of the clause. -/
def Group.deferPath (x : Group) (p : Nat) (c : Closure) (latch : Bool) : Group :=
  x.modPath p fun y =>
    let k := y.pos % 8
    { y with dlatch := if latch then ⟨k, c.id, c.avail, []⟩ :: y.dlatch.filter (·.latch != k) else y.dlatch }.advance

/-- A DEFER packet, with DEF set (R432). -/
def State.traceDefer (s : State) (x : Group) (p : Nat) (c : Closure) : State :=
  if bitAt (((s.ctx? x.ctx).map fun (k : Context) => smGet 0 k.obs 0x2010).getD 0).toNat 62 then
    s.emit x.uid p 8 c.pc c.lanes (x.rcq.length + 1) 0
  else s

/-- The closure enters the queue and the path moves on. -/
def State.enqueue (s : State) (x : Group) (p : Nat) (c : Closure) (latch : Bool) : State :=
  let s := s.traceDefer x p c
  let x := ((s.group? x.uid).map fun y => { x with paths := y.paths }).getD x
  (s.setGroup { (x.deferPath p c latch) with rcq := x.rcq ++ [c] }).haltStepped x.uid

/-- A deferral: a queue entry, then its rows, then for a store its checks and its store-buffer entries (R314 to R318). -/
def deferIssue (w : DWord) (s : State) : Res :=
  withIssue s fun x p =>
    match decode w.toNat with
    | none => .fault .formMismatch
    | some i =>
      if !x.defers p i || 32 ≤ x.rcq.length then .next s
      else if x.deferBad p i != 0 then
        .next (s.stopHere x.uid p { Cause.plain 0x17 0 with
          lanes := laneVecIn (x.exec p &&& ~~~x.helpers) (x.deferBad p i) 7 })
      else
        let e := x.exec p
        let keys := rowKeys x (deferSrcs i)
        let free := x.freeRows
        if free.length < keys.length then
          if x.wb ≤ x.rlo then .next s
          else .next (s.setGroup { x with handler := some (p, 0x2A, keys.length) })
        else
          let rows := free.take keys.length
          match storeOf i with
          | none =>
            let c := closureOf s x p i w e rows
            .next ({ s with fresh := s.fresh + 1 }.enqueue (x.fillRows p keys rows) p c (writesLatch i))
          | some st =>
            if e != 0 && x.acqHeld p s.fresh then .next s
            else
              let f := if st.op == .st then stForm st.n st.data st.mem else redForm st.n st.data st.mem
              memChecked f s x p e fun t x as =>
                let c := closureOf t x p i w e rows
                let r := storeGo st.op st.rel st.sc st.n (some c.id) (fun _ => 0) { t with fresh := t.fresh + 1 } x p as
                .next (r.1.enqueue (r.2.fillRows p keys rows) p c false)

/-! ### The queue head (R315, R316) -/

def CSlot.ready : CSlot → Bool
  | .bound .. | .latchOf .. => false
  | _ => true
def Closure.ready (c : Closure) : Bool := c.a.ready && c.b.ready && c.c.ready && c.d.ready

/-- An operand of a closure in a lane. -/
def slotVal (x : Group) (o : Oper) (c : CSlot) (lane : Nat) : Nat :=
  match c with
  | .val v => if o.wide then v.toNat else v.toNat % 2 ^ 32
  | .row r r2 wide => (x.rowGet r lane).toNat + (if wide then 2 ^ 32 * (x.rowGet r2 lane).toNat else 0)
  | .laneId q => if q then lane / 4 else lane
  | _ => match o.src with
    | .imm i => o.immVal i
    | _ => 0

/-- Writes a destination but for registers that a debugger has written since (R89). -/
def Group.putKept (x : Group) (d : Dst) (wide sign : Bool) (e : Word) (r : Nat → Nat) (discard : List Reg) : Group :=
  match d with
  | .v n =>
    (lanesOf e).foldl (fun (x : Group) l =>
      let x := if discard.contains (.v (x.wb + n)) then x else x.vSet n l (BitVec.ofNat 32 (r l))
      if wide && !discard.contains (.v (x.wb + n + 1)) then x.vSet (n + 1) l (BitVec.ofNat 32 (r l / 2 ^ 32)) else x) x
  | .s n => if discard.contains (.s n) then x else x.putDst d wide sign e r
  | .m n => if discard.contains (.m n) then x else x.putDst d wide sign e r
  | .off => x

/-- The result reaches the closures bound to it and stands for the deferred latch; the latch itself does not change (R55,
R314, R315). -/
def Group.putDeferred (x : Group) (c : Closure) (uniform : Bool) (r : Nat → Nat) : Group :=
  let val := fun l => if uniform then (if c.lanes = 0 then c.latchBase.getD l 0 else BitVec.ofNat 32 (r 0))
    else if laneOn c.lanes l then BitVec.ofNat 32 (r l) else c.latchBase.getD l 0
  let vals := (List.range 32).map val
  let x := x.modPath c.path fun y =>
    { y with dlatch := y.dlatch.map fun (d : DLatch) => if d.closure == c.id then { d with value := vals } else d }
  let rows := (x.rcq.flatMap fun q => [q.a, q.b, q.c, q.d]).filterMap fun t => match t with
    | .latchOf id r lanes => if id == c.id then some (r, lanes) else none
    | _ => none
  let x := rows.eraseDups.foldl (fun (x : Group) r =>
    (lanesOf r.2).foldl (fun (x : Group) l => x.rowSet r.1 l (val l)) x) x
  let fix := fun (t : CSlot) => match t with
    | .latchOf id r _ => if id == c.id then CSlot.row r 0 false else t
    | _ => t
  let base := fun (q : Closure) => match q.base with
    | some (id, lanes) =>
      if id == c.id then
        { q with base := none
                 latchBase := (List.range 32).map fun l => if laneOn lanes l then val l else q.latchBase.getD l 0 }
      else q
    | none => q
  { x with rcq := x.rcq.map fun q => { base q with a := fix q.a, b := fix q.b, c := fix q.c, d := fix q.d } }

/-- The v registers that a closure writes are struck where a row that it reads is (R199; DESIGN CHOICE, log 47). -/
def Group.passBad (x y : Group) (c : Closure) : Group :=
  if c.rowsHeld.any fun r => (lanesOf c.avail).any fun l => x.badRows.contains (r * 32 + l) then
    { y with badRows := y.badRows ++ c.regs.flatMap fun r => match r with
        | .v n => if c.discard.contains r then [] else (lanesOf c.lanes).map (n * 32 + ·)
        | _ => [] }
  else y
/-- The effect of the head on its group (R315). -/
def Group.runClosure (x : Group) (s : State) (c : Closure) (i : Instr) : Group :=
  let x := { x with rcq := x.rcq.filter (·.id != c.id) }
  match aluOf i with
  | some a =>
    let vals := fun k l =>
      ((a.srcs[k]?).map fun o => slotVal x o (if k = 0 then c.a else if k = 1 then c.b else c.c) l).getD 0
    let old := fun l => match a.d with
      | .off => a.oldVal s x l
      | .v n => slotVal x (opI (.v n) a.dwide) c.d l
      | .s n => slotVal x (opI (.s n) a.dwide) c.d l
      | .m n => slotVal x (opI (.m n) a.dwide) c.d l
    let r := fun l => a.f l vals old c.avail c.lanes
    let fl := aluFlags a.d.isS c.lanes x.helpers r
    let x := { x with fl := x.fl.or fl }
    if a.trans then
      if c.lanes = 0 then x
      else { x with outs := x.outs ++ [{ transOut c.id c.path c.pc c.regs c.lanes (fun l => (r l).1) .none with discard := c.discard }] }
    else
      (x.passBad (x.putKept a.d a.dwide a.dsign c.lanes (fun l => (r l).1) c.discard) c).putDeferred c a.d.isS fun l => (r l).1
  | none =>
    let n := ((storeOf i).map (·.n)).getD 4
    let data := fun l => slotVal x (opI (((storeOf i).map (·.data)).getD (.imm 0)) (decide (n = 8))) c.a l % 2 ^ (8 * n)
    { x with sbuf := x.sbuf.map fun e =>
        if e.waits == some c.id then
          { e with waits := none, accs := e.accs.map fun (a : LaneAcc) => { a with x := data a.lane } }
        else e }

/-- Whether the head of a group's queue can run: every bound input has been copied, and no replay record of the group is held (R315,
R436). -/
def State.closureReady (s : State) (x : Group) : Bool := x.rcq.head?.any Closure.ready && !s.replayHolds x
/-- CLOSURE_RUN: the head takes an issue slot of a group of the active set (R315, R351). -/
def closureRun (g : Nat) (s : State) : Res :=
  match s.group? g with
  | none => .next s
  | some x =>
    match x.rcq with
    | [] => .next s
    | c :: _ =>
      if !s.closureReady x || !x.resident || !x.active then .next s
      else
        match decode c.word.toNat with
        | none => .next s
        | some i =>
          let t := if (aluOf i).isSome then { s with free := s.free + 64 } else s
          .next (t.setGroup (x.runClosure s c i).captureBound)

/-! ### dmode and drain (R310, R311) -/

def dmodeOnIssue (s : State) : Res :=
  once s [] (fun _ => []) fun x p _ => .next (s.retire { x with defer := true } p)
def dmodeOffIssue (s : State) : Res :=
  once s [] (fun _ => []) fun x p _ => drained s x p (.next (s.retire { x with defer := false } p))
def drainIssue (s : State) : Res :=
  once s [] (fun _ => []) fun x p _ => drained s x p (.next (s.retire x p))

/-! ### Meanings -/

def execDmodeOn (s : State) := commit s (dmodeOnIssue s)
def execDmodeOff (s : State) := commit s (dmodeOffIssue s)
def execDrain (s : State) := commit s (drainIssue s)
def execDefer (w : DWord) (s : State) := commit s (deferIssue w s)
def execClosureRun (g : Nat) (s : State) := commit s (closureRun g s)

end Sys2Proof.Machine
end

