-- ==== Sys2Proof/Machine/Turn.lean ====
section
/-! DEFINITION. What a step does before it runs an instruction: the order of a group's paths (R45, R180), the checks of a
word (R63, R62, R55, R64) and its comparators (R439), and which of the table's rows an mbox or sysw word is. -/

namespace Sys2Proof.Machine

/-! ### Registers below W (R54) -/

/-- One past the highest v register that a source reads. -/
def srcTop (a : Src) (wide : Bool) : Nat :=
  match a with
  | .v n => if wide then n + 2 else n + 1
  | _ => 0
def dstTop (d : Dst) (wide : Bool) : Nat :=
  match d with
  | .v n => if wide then n + 2 else n + 1
  | _ => 0
/-- The highest of a list. -/
def topOf (xs : List Nat) : Nat := xs.foldl max 0

/-- One past the highest v register that an instruction reads or writes; of an mma, only those its word names. -/
def Instr.vTop (i : Instr) : Nat :=
  match aluOf i with
  | some a => topOf (dstTop a.d a.dwide :: a.srcs.map fun o => srcTop o.src o.wide)
  | none =>
    match i with
    | .lget w d a b => topOf [srcTop (.v d) w, srcTop (.v a) w, srcTop b false]
    | .lput w a b c => topOf [srcTop (.v a) w, srcTop b false, srcTop c w]
    | .quant f d sp a => topOf [d + f.regs, sp + 1, a + 32]
    | .dequant f d a sp => topOf [d + 32, a + f.regs, sp + 1]
    | .fpackFlags d a => topOf [dstTop d false, srcTop a false]
    | .ld ty _ _ d m => topOf [dstTop d false + (max 1 (ldSize ty / 4) - 1), srcTop m.index false]
    | .st ty _ _ x m =>
      topOf [match x with
        | .v n => n + max 1 (stSize ty / 4)
        | _ => 0, srcTop m.index false]
    | .atom op w _ _ d m =>
      topOf [match d with
        | .v n => n + (if w then 2 else 1) * (if op = .cas then 2 else 1)
        | _ => 0, srcTop m.index false]
    | .red _ w _ _ x m => topOf [srcTop x w, srcTop m.index false]
    | .bpref _ m | .ipref _ m | .cflush _ m | .cinv _ m => srcTop m.index false
    | .accw _ a n _ | .accr _ a n _ => a + n
    | .mma _ _ _ a _ _ _ => a + 1
    | .mmaAd _ _ _ a _ _ _ i => topOf [a + 1, i + 1]
    | .adapply _ i _ => i + 1
    | .bra c _ =>
      (match c with
       | .nz x | .z x => srcTop x false
       | _ => 0)
    | .brp _ x _ => srcTop x false
    | .suspend _ _ _ q => q + 14
    | .spawn _ q => q + 14
    | _ => 0
/-- A frame size above W (R177). -/
def Instr.frame : Instr → Nat
  | .call _ f _ | .calli _ _ f | .ret _ f => 8 * f
  | _ => 0
/-- Whether an instruction names only what the group has. -/
def Group.fits (x : Group) (i : Instr) : Bool := decide (Instr.vTop i ≤ x.win) && decide (Instr.frame i ≤ x.win)

/-! ### The table's rows of mbox and sysw -/

/-- The row of a sysw by the word that it writes (R399, R429, R438), and of an mbox by its command (R447). (DEDUCED, log 9) -/
def resolve (x : Group) (i : Instr) : Instr :=
  match i with
  | .sysw d a v =>
    let w := (x.sGet a).toNat % 2 ^ 32
    if w = 0x10 then .hctl d a v
    else if w = 0x20 then .qreset d a v
    else if 0x1000 ≤ w && w ≤ 0x1FFF then .debugWordWrite d a v
    else if w = 0x2028 then .rplctl d a v
    else i
  | .resume d a b c t =>
    let op := (x.sGet a).toNat / 2 ^ 60 % 16
    if op = 2 then .step d a b c t
    else if op = 3 then .halt d a b c t
    else if op = 4 then .rdreg d a b c t
    else if op = 5 then .wrreg d a b c t
    else if op = 6 then .dump d a b c t
    else i
  | _ => i

/-- A row that happens beside the instructions. -/
def Instr.isEvent (i : Instr) : Bool :=
  !Instr.isWord i && match i with
    | .defer _ | .hctl .. | .qreset .. | .debugWordWrite .. | .rplctl .. | .step .. | .halt .. | .rdreg ..
    | .wrreg .. | .dump .. => false
    | _ => true

/-! ### Choice of a path (R45, R180) -/

/-- The READY paths in ascending order, from the one after path k. -/
def Group.readyFrom (x : Group) (k : Nat) : List Nat :=
  ((List.range 8).map fun i => (k + 1 + i) % 8).filter fun p => (x.path p).st == .ready
/-- The path that issues next: the one whose clause is under way, or the next READY one after the last. -/
def Group.nextPath (x : Group) : Option Nat :=
  match (List.range 8).find? fun p => (x.path p).inClause with
  | some p => some p
  | none => (x.readyFrom x.last).head?

/-- What a turn does. -/
inductive Choice where
  /-- Nothing can be done. -/
  | idle
  /-- The machine changes without an instruction: a stop at the word, or a move of the device. -/
  | set (t : State)
  /-- An instruction or event runs. -/
  | run (i : Instr) (t : State)

/-- An armed comparator that hits the word at PC (R439). -/
def State.bpHit (s : State) (x : Group) (p : Nat) : Option Nat :=
  if bitAt (s.dbgWord x.ctx 0x1000).toNat 63 && !(x.path p).skip then
    (List.range 8).find? fun n =>
      let b := (s.dbgWord x.ctx (0x1040 + 8 * n)).toNat
      bitAt b 63 && b % 2 ^ 57 == (x.path p).pc.toNat
  else none

/-- The checks of one word, in order (R64, R439), and what then runs. -/
def State.chooseWord (s : State) (x : Group) (p : Nat) : Choice :=
  let y := x.path p
  let w := y.word.toNat
  let e := x.exec p
  let t := { s with cur := some ⟨x.uid, p⟩ }
  match s.bpHit x p with
  | some n => .set (s.debugStop x.uid p ⟨2, n, 0, 0, 0, false⟩ (Cause.plain 0x31 e))
  | none =>
    if s.replayHolds x then .idle
    else if decide (0x380 ≤ opOf w) && decide (opOf w ≤ 0x38F) && !x.control then
      .set (s.stopHere x.uid p (Cause.plain 0x03 e))
    else
      match decode w with
      | none => .set (s.stopHere x.uid p (Cause.plain 0x02 e))
      | some i =>
        if !x.fits i then .set (s.stopHere x.uid p (Cause.plain 0x02 e))
        else if (latchReads i).any fun n => !latchWritten y.words y.pos n then
          .set (s.stopHere x.uid p (Cause.plain 0x04 e))
        else if x.defers p i then .run (.defer y.word) t
        else .run (resolve x i) t

/-- Whether Grace has halted a group: a ladder past T1 runs on a core that holds a group of its cohort (R402). -/
def State.graced (s : State) (x : Group) : Bool :=
  s.ladders.any fun l => l.ctx == x.ctx && decide (2 ≤ l.stage) &&
    s.groups.any fun g => g.coh == x.coh && g.core == l.core && g.resident && !g.retired
/-! ### Time (R422) -/

/-- A step takes one core cycle or more (DESIGN CHOICE, log 6); device time moves by that many cycles of the clock, and what
is less than a nanosecond is kept. -/
def State.tick (s : State) : State :=
  let k := 1 + Config.stepCycles s.steps
  let t := k * 1000 + s.nsRem
  { s with steps := s.steps + 1, cycle := s.cycle + BitVec.ofNat 64 k, ns := s.ns + BitVec.ofNat 64 (t / s.clockMhz)
           nsRem := t % s.clockMhz }

/-! ### A word placed for the next step -/

/-- A header of class k with one word (R43). -/
def oneHeader (k : Nat) : Nat := 0xA * 2 ^ 60 + k * 2 ^ 57

/-- A control group of the root on core 0 that stands at one word, the oldest of its partition. -/
def oneGroup (g : Nat) (w : DWord) : Group :=
  { Group.start g 0 g 0 0 0 0 1536 2048 true 0 0xFFFFFFFF 0 with
    idGrid := 0, startNo := 0
    paths := { Path.freePath with
        st := .ready, pc := 8, hdr := false, pos := 0, head := BitVec.ofNat 64 (oneHeader (opClass (opOf w.toNat)))
        words := [w], fetched := true } :: (List.range 7).map fun _ => Path.freePath }

/-- The state with that group in a workgroup and cohort of its own, which issues next. -/
def State.placeWord (s : State) (w : DWord) : State :=
  let g := s.fresh
  { s with
    fresh := s.fresh + 1
    boot := { s.boot with state := 1 }
    groups := s.groups ++ [oneGroup g w]
    wgs := s.wgs ++ [{ coh := g, idx := 0, core := 0, groups := 1, pages := 96, pin := [], accSize := 4194304, acc := []
                       wph := 0, arrived := [], producer := 0, retired := false, badPin := [], badAcc := [], image := none }]
    cohorts := s.cohorts ++ [{ uid := g, ctx := 0, grid := none, index := 0, region := 0, wgs := 1, resident := true
                               evictNo := 0, cph := 0 }]
    sched := .issue g 0 :: s.sched }

end Sys2Proof.Machine
end

