-- ==== Sys2Proof/Machine/Control.lean ====
section
/-! DEFINITION. Control forms (R171 to R179, R81) and the spill handler (R75 to R77, R318). -/

namespace Sys2Proof.Machine

/-! ### Branches (R171, R172) -/

/-- The target of a B-format transfer (R52). -/
def bTarget (y : Path) (off : BitVec 32) : DWord := y.pc + BitVec.ofNat 64 (wrapInt 64 (off.toInt * 8))

/-- The lanes that satisfy a condition. -/
def braLanes (s : State) (x : Group) (p : Nat) (c : BrCond) : Word :=
  match c with
  | .al => BitVec.allOnes 32
  | .m n => x.mRead p n
  | .nm n => ~~~x.mRead p n
  | .nz a => maskOf ((List.range 32).filter fun l => (opI a false).val s x p l != 0)
  | .z a => maskOf ((List.range 32).filter fun l => (opI a false).val s x p l == 0)
def braSrcs : BrCond → List (Src × Bool)
  | .al => []
  | .m n | .nm n => [(.m n, false)]
  | .nz a | .z a => [(a, false)]

/-- One quad at a branch: where it goes, with its mark holding the lanes that fall through when it divides (R171). The two
sides are then agents of their own (R182). -/
def braQuad (x : Group) (y : Path) (now q : Nat) (take : Word) (target fall : DWord) : Quad × QuadTo :=
  let d := x.quad q
  let t := d.qm &&& quadBits q take
  let f := d.qm &&& ~~~t
  let past := y.past now false
  if t = 0 || target = fall then (d, .on q fall)
  else if f = 0 then (d, .on q target)
  else
    match d.stack with
    | e :: rest =>
      ({ d with qm := t, stack := { e with pend := f, ppc := fall, hist := past } :: rest }, ⟨q, target, false, false, false, past⟩)
    | [] => (d, .on q target)
/-- A quad divides without an open mark (R171). -/
def braUnmarked (x : Group) (q : Nat) (take : Word) (target fall : DWord) : Bool :=
  let d := x.quad q
  let t := d.qm &&& quadBits q take
  t != 0 && d.qm &&& ~~~t != 0 && target != fall && (match d.stack with
    | e :: _ => e.pend != 0
    | [] => true)

def braIssue (c : BrCond) (off : BitVec 32) (s : State) : Res :=
  gated s (braSrcs c) (fun _ => []) fun x p e =>
    let y := x.path p
    let target := bTarget y off
    let fall := y.fall
    let take := e &&& braLanes s x p c
    let qs := x.quadsOf p
    if qs.any fun q => braUnmarked x q take target fall then .next (s.stopHere x.uid p (Cause.plain 0x20 e))
    else
      let rs := qs.map fun q => (q, braQuad x y s.fresh q take target fall)
      let s := s.mapBranch x.uid p (take &&& x.mask p != 0)
      let s := s.modGroup x.uid fun x => rs.foldl (fun (x : Group) r => x.setQuad r.1 r.2.1) x
      let s := s.regroup x.uid p fall (rs.map (·.2.2))
      .next (s.haltStepped x.uid)

/-- brp tests the pending mark, never reads its register and never holds: a guard register that is pending is read as it
stands (R172; DEDUCED, log 41). sel names one register and no width: the mark of a pair's second register is not tested
(DESIGN CHOICE, log 105). -/
def brpIssue (np : Bool) (a : Src) (off : BitVec 32) (s : State) : Res :=
  withIssue s fun x p =>
    let e := x.exec p
    let pend := (x.srcRegs a false).any x.pending
    let taken := e != 0 && (if np then !pend else pend)
    let s := s.mapBranch x.uid p taken
    .next ((s.modGroup x.uid fun x => x.modPath p fun y =>
      y.endClause (if taken then bTarget y off else y.fall)).haltStepped x.uid)

/-! ### mjoin and join (R173, R174) -/

/-- mjoin ignores the guard, so the record of its JOIN_OVERFLOW has the path's lanes (R173; DEDUCED, log 92). -/
def mjoinIssue (off : BitVec 32) (s : State) : Res :=
  withIssue s fun x p =>
    let qs := x.quadsOf p
    if qs.any fun q => decide (8 ≤ (x.quad q).stack.length) then
      .next (s.stopHere x.uid p (Cause.plain 0x21 (x.mask p)))
    else
      let t := bTarget (x.path p) off
      let x := qs.foldl (fun (x : Group) q =>
        let d := x.quad q
        x.setQuad q { d with stack := ⟨d.qm, 0, false, 0, t, []⟩ :: d.stack }) x
      .next (s.retire x p)

/-- One quad at its join: it switches to its pending side, whose accesses stand behind those before the divergence alone, or
pops, and then goes on behind both sides (R174, R182). -/
def joinQuad (y : Path) (now q : Nat) (d : Quad) (fall : DWord) : Quad × QuadTo × Bool :=
  match d.stack with
  | [] => (d, .on q fall, false)
  | e :: rest =>
    if !e.sw && d.nonEmpty (e.pend &&& d.alive) then
      ({ d with qm := e.pend &&& d.alive, stack := { e with sw := true, hist := y.past now true } :: rest },
       ⟨q, e.ppc, false, false, false, e.hist⟩, true)
    else
      ({ d with qm := e.full &&& d.alive, stack := rest }, ⟨q, fall, false, true, e.sw || e.pend != 0, e.hist⟩, false)

/-- join acts for the whole path, whatever lanes its guard admits: it names no executing lane (R174; DESIGN CHOICE, log 94). -/
def joinIssue (s : State) : Res :=
  gated s [] (fun _ => []) fun x p e =>
    drained s x p
      (let y := x.path p
       let h := y.header
       let qs := x.quadsOf p
       if qs.any fun q => match (x.quad q).stack with
         | [] => true
         | j :: _ => j.rj != h then .next (s.stopHere x.uid p (Cause.plain 0x22 e))
       else
         let rs := qs.map fun q => (q, joinQuad y s.fresh q (x.quad q) y.fall)
         let bits := fun (sw : Bool) => rs.foldl (fun n r => if r.2.2.2 == sw then n + 2 ^ r.1 else n) 0
         let s := s.modGroup x.uid fun x => rs.foldl (fun (x : Group) r => x.setQuad r.1 r.2.1) x
         let mask := ((s.group? x.uid).map (·.mask p)).getD 0
         let s := s.emit x.uid p 6 h mask (bits true + bits false * 2 ^ 8) 0
         let s := s.regroup x.uid p y.fall (rs.map (·.2.2.1))
         .next (s.haltStepped x.uid))

/-! ### regang and exit (R175, R176) -/

/-- regang acts for the whole path, whatever lanes its guard admits (R176; DESIGN CHOICE, log 94). A group whose last READY path
waits here may be parked (R349). -/
def regangIssue (s : State) : Res :=
  gated s [] (fun _ => []) fun x p _ =>
    drained s x p
      (.next (((s.modGroup x.uid fun x => x.modPath p fun y => { y with st := .regang, skip := false }).regangCheck x.uid).parkedShare
        x.core x.ctx))

def exitIssue (s : State) : Res :=
  gated s [] (fun _ => []) fun x p e =>
    drained s x p
      (if e = 0 then .next (s.retire x p)
       else if adBusy s x then .next s
       else
         match s.exitWaits x p e with
         | (t, true) => .next t
         | (t, false) => .next (t.exitLanes x.uid p e))

/-! ### Calls and returns (R75, R177) -/

/-- The group's path goes to an address under a new window base; the working set is emptied (R80). An address of 2^57 or more
is kept whole, so that its fetch finds no translation; the manual does not say what the 57-bit PC field keeps of it (DESIGN
CHOICE, log 95). -/
def State.callTo (s : State) (x : Group) (p wb : Nat) (pc : DWord) : State :=
  (s.setGroup ({ x with wb, ws := [] }.modPath p fun y => y.endClause pc)).haltStepped x.uid

/-- A forward move of the window by f (R75): STACK_LIMIT, SPILL, or the move. -/
def forward (s : State) (x : Group) (p f : Nat) (e : Word) (go : Nat → Res) : Res :=
  let wb := x.wb + f
  if 4096 < wb + x.win then .next (s.stopHere x.uid p (Cause.plain 0x25 e))
  else if x.rlo + x.nres < wb + x.win then .next (s.setGroup { x with handler := some (p, 0x28, wb) })
  else go wb

/-- call and calli. -/
def callIssue (l f8 : Nat) (srcs : List (Src × Bool)) (target : Group → Path → DWord) (addr : Bool) (s : State) : Res :=
  once s srcs (fun x => x.srcRegs (.s l) true) fun x p e =>
    if 1 < x.usedPaths.length then .next (s.stopHere x.uid p (Cause.plain 0x23 e))
    else
      drained s x p (forward s x p (8 * f8) e fun wb =>
        let y := x.path p
        let t := target x y
        let s := if addr then s.emit x.uid p 3 y.pc (x.mask p) 0 t.toNat else s
        let x := ((s.group? x.uid).map fun z => { x with paths := z.paths }).getD x
        .next (s.callTo (x.sSet l y.fall) p wb t))
def retIssue (t f8 : Nat) (s : State) : Res :=
  once s [(.s t, true)] (fun _ => []) fun x p e =>
    if 1 < x.usedPaths.length then .next (s.stopHere x.uid p (Cause.plain 0x23 e))
    else
      drained s x p
        (if x.wb < 8 * f8 then .next (s.stopHere x.uid p (Cause.plain 0x25 e))
         else
           let wb := x.wb - 8 * f8
           if wb < x.rlo then .next (s.setGroup { x with handler := some (p, 0x29, wb) })
           else
             let s := s.emit x.uid p 3 (x.path p).pc (x.mask p) 0 (x.sGet t).toNat
             let x := ((s.group? x.uid).map fun z => { x with paths := z.paths }).getD x
             .next (s.callTo x p wb (x.sGet t)))

/-! ### yield, trap, brk, nop, rgn (R179, R81) -/

def yieldIssue (s : State) : Res :=
  gated s [] (fun _ => []) fun x p _ => .next (s.retire { x with yielded := true } p)
def trapIssue (code : BitVec 24) (s : State) : Res :=
  once s [] (fun _ => []) fun x p e =>
    .next (s.stopHere x.uid p { Cause.plain 0x30 e with aux := code.setWidth 64, after := true })
def brkIssue (code : BitVec 24) (s : State) : Res :=
  once s [] (fun _ => []) fun x p e =>
    .next (s.debugStop x.uid p ⟨1, 0, 0, 0, code.setWidth 64, false⟩ { Cause.plain 0x31 e with aux := code.setWidth 64, after := true })
def nopIssue (s : State) : Res := gated s [] (fun _ => []) fun x p _ => .next (s.retire x p)

/-- Reads code bytes with X access; none where any byte cannot be read. -/
def State.codeRead (s : State) (core ctx : Nat) (a : DWord) (n : Nat) : State × Option (List Byte) :=
  match s.ctxRead (some core) ctx a n .x with
  | (s, .ok bs) => (s, some bs)
  | (s, .error _) => (s, none)
/-- The registers that entry i of the region table at KENT lists (R81, R82); none of a table that is absent. A count word or an
entry that cannot be read, poisoned ones included, gives none (the rule names only the translation and permission of the
entry's read: DESIGN CHOICE, log 96). -/
def State.regionEntry (s : State) (x : Group) (i : Nat) : State × List Nat :=
  match s.codeRead x.core x.ctx (x.kent - 8) 8 with
  | (s, none) => (s, [])
  | (s, some bs) =>
    let w := leNat bs
    if w / 2 ^ 16 != 0x2BF * 2 ^ 38 || w % 2 ^ 16 ≤ i then (s, [])
    else
      match s.codeRead x.core x.ctx (x.kent - 8 - BitVec.ofNat 64 (192 * (w % 2 ^ 16 - i))) 192 with
      | (s, none) => (s, [])
      | (s, some es) => (s, ((List.range x.win).filter fun k => bitAt (leNat es) k).take 128)
def rgnIssue (i : BitVec 24) (s : State) : Res :=
  once s [] (fun _ => []) fun x p _ =>
    let r := s.regionEntry x i.toNat
    .next (r.1.retire { x with ws := r.2 } p)

/-! ### The spill handler (R76, R77, R318) -/

/-- Rows that enter residency at the top hold no defined value (DESIGN CHOICE, log 22). -/
def State.freshRows (s : State) (x : Group) (lo n : Nat) : State × Group :=
  ({ s with free := s.free + 32 * n },
   (List.range n).foldl (fun (x : Group) i =>
     x.rowPut (lo + i) ((List.range 32).map fun l => Config.freeWord (s.free + 32 * i + l))) x)

/-- Where a row of the spill slot lies, as the group's own access reaches it (R204, R466); a HOME 2 row may span two lines,
which are both locked (R193). -/
def State.rowPlace (s : State) (x : Group) (row : Nat) (acc : Acc) : State × Except TErr Place :=
  let a := (x.slotBase + BitVec.ofNat 64 (128 * row)).toNat
  match s.placeFor (some x.core) x.ctx x.coh x.wg a acc true with
  | (s, .error e) => (s, .error e)
  | (s, .ok p) =>
    match s.placeFor (some x.core) x.ctx x.coh x.wg (a + 127) acc true with
    | (s, .error e) => (s, .error e)
    | (s, .ok _) => (s, .ok p)
/-- The places of rows lo to lo + n − 1, or the row that fails. -/
def State.rowPlaces (s : State) (x : Group) (lo : Nat) (acc : Acc) : Nat → State × Except (Nat × TErr) (List Place)
  | 0 => (s, .ok [])
  | n + 1 =>
    match s.rowPlaces x lo acc n with
    | (s, .error e) => (s, .error e)
    | (s, .ok ps) =>
      match s.rowPlace x (lo + n) acc with
      | (s, .error e) => (s, .error (lo + n, e))
      | (s, .ok p) => (s, .ok (ps ++ [p]))

/-- The handler is part of its group (R204): it waits for an acquire before it, for accesses before a join or regang that it stands
behind, for the group's accesses that touch the rows it moves, and for a copy that owns a line of them (R206, R210, R212, R217). -/
def State.rowsHeld (s : State) (x : Group) (p : Nat) (ps : List Place) : Bool :=
  let near := fun (as : List LaneAcc) (n : Nat) => as.any fun a => match a.place with
    | some q => ps.any fun r => r.overlaps 128 q n
    | none => false
  x.acqHeld p s.fresh || x.orderedBehind s.fresh (x.path p).agent (x.path p).hist false false ||
  (x.sbuf.any fun e => !e.isClean && near e.accs e.bytes) ||
  (x.outs.any fun o => o.undecided && near o.accs o.bytes) ||
  ps.any fun r => s.owned x.uid s.fresh r || s.owned x.uid s.fresh (r.add 127)
/-- The handler moves rows at context scope through the memory-side cache (R76). -/
def State.rowsTouch (s : State) (x : Group) (ps : List Place) (write : Bool) : State :=
  ps.foldl (fun s q => match q with
    | .phys a home key _ => s.memSide x.ctx a 128 home key write
    | .pin .. => s) s

/-- Rows that have been written stand at their banks, and have crossed their channels where they lie at the base die (R188, R221). -/
def State.rowsDone (s : State) (x : Group) (ps : List Place) : State :=
  ps.foldl (fun s q => match q with
    | .phys a home _ _ =>
      (linesIn a 128).foldl (fun s l => s.bankTake ⟨x.ctx, x.uid, false, l⟩) (if home = 3 then s.diePut x.ctx a 128 else s)
    | .pin .. => s) s

/-- The handler's access fails: the group parks at its instruction (R77). An address that names no memory reports code 2
(DESIGN CHOICE, log 13). -/
def State.spillFault (s : State) (x : Group) (p code row : Nat) (e : TErr) : State :=
  let s := s.setGroup { x with handler := none }
  let c := if e.code = 0xFF then 2 else e.code
  s.stopHere x.uid p { Cause.plain code (x.exec p) with
    reason := c, addr := x.slotBase + BitVec.ofNat 64 (128 * row), aux := BitVec.ofNat 64 e.addr, sdep := e.sdep, cow := e.cow }

/-- Writes k rows from RLO to the spill slot and raises RLO (DEDUCED, log 45). A row with a word that an uncorrectable error
struck is not moved: the group, whose handler reads it, stops (R199; DEDUCED, log 47). -/
def State.spillRows (s : State) (x : Group) (p code k : Nat) : State :=
  match s.rowPlaces x x.rlo .w k with
  | (s, .error (row, e)) => s.spillFault x p code row e
  | (s, .ok ps) =>
    let bytes := ps.flatMap fun (q : Place) => q.bytes 128
    if s.rowsHeld x p ps then s
    else match (List.range k).find? fun i => x.badRows.any fun b => b / 32 == x.rlo + i with
    | some i => s.spillFault x p code (x.rlo + i) (laneErr 7)
    | none => match ps.findIdx? fun (q : Place) => (q.bytes 128).any fun b => s.placeBad b && !coversGrain bytes b with
    | some i => s.spillFault x p code (x.rlo + i) (laneErr 7)
    | none =>
      let s := bytes.foldl (fun s b => s.placeClear b) (s.rowsTouch x ps true)
      let s := (List.range k).foldl (fun s i =>
        let q := ps.getD i (.pin 0 0 0)
        let bs := rowBytes (x.rowAll (x.rlo + i))
        (List.range 128).foldl (fun s j => s.placePut (q.add j) (bs.getD j 0)) s) s
      let r := (s.rowsDone x ps).freshRows x (x.rlo + x.nres) k
      r.1.setGroup { r.2 with rlo := x.rlo + k, handler := none }

/-- Whether rows to be moved still await a landing (R76). -/
def Group.rowsPending (x : Group) (lo n : Nat) : Bool := (List.range n).any fun i => x.pending (.v (lo + i))

/-- SPILL: rows RLO to wb2 + W − n − 1 go to the spill slot. -/
def spillEvent (g : Nat) (s : State) : Res :=
  match s.group? g with
  | none => .next s
  | some x =>
    match x.handler with
    | some (p, 0x28, wb) =>
      let k := wb + x.win - x.nres - x.rlo
      if x.rowsPending x.rlo k then .next s else .next (s.spillRows x p 0x28 k)
    | _ => .next s

/-- Reads rows back from their places. -/
def State.fillRowsFrom (s : State) (x : Group) (lo : Nat) (ps : List Place) : Group :=
  (List.range ps.length).foldl (fun (x : Group) i =>
    let q := ps.getD i (.pin 0 0 0)
    x.rowPut (lo + i) ((List.range 32).map fun l => BitVec.ofNat 32 (s.placeNat (q.add (4 * l)) 4))) x

/-- FILL: rows wb2 to RLO − 1 come back from the spill slot. -/
def fillEvent (g : Nat) (s : State) : Res :=
  match s.group? g with
  | none => .next s
  | some x =>
    match x.handler with
    | some (p, 0x29, wb) =>
      let k := x.rlo - wb
      if x.rowsPending (wb + x.nres) k then .next s
      else
        match s.rowPlaces x wb .r k with
        | (s, .error (row, e)) => .next (s.spillFault x p 0x29 row e)
        | (s, .ok ps) =>
          if s.rowsHeld x p ps then .next s
          else
            match ps.findIdx? fun (q : Place) => (q.bytes 128).any s.placeBad with
            | some i => .next (s.spillFault x p 0x29 (wb + i) (laneErr 7))
            | none =>
              .next ((s.rowsTouch x ps false).setGroup { (s.fillRowsFrom x wb ps) with rlo := wb, handler := none })
    | _ => .next s

/-- DEFER_CAPACITY: rows go to the spill slot until the headroom suffices or none is left to move (R318). -/
def deferCapacity (g : Nat) (s : State) : Res :=
  match s.group? g with
  | none => .next s
  | some x =>
    match x.handler with
    | some (p, 0x2A, rows) =>
      let need := rows - x.freeRows.length
      let k := min (8 * ((need + 7) / 8)) (x.wb - x.rlo)
      if x.rowsPending x.rlo k then .next s else .next (s.spillRows x p 0x2A k)
    | _ => .next s

/-! ### Meanings -/

def execBra (c : BrCond) (off : BitVec 32) (s : State) := commit s (braIssue c off s)
def execBrp (np : Bool) (a : Src) (off : BitVec 32) (s : State) := commit s (brpIssue np a off s)
def execMjoin (off : BitVec 32) (s : State) := commit s (mjoinIssue off s)
def execJoin (s : State) := commit s (joinIssue s)
def execRegang (s : State) := commit s (regangIssue s)
def execCall (l f8 : Nat) (off : BitVec 32) (s : State) :=
  commit s (callIssue l f8 [] (fun _ y => bTarget y off) false s)
def execCalli (l t f8 : Nat) (s : State) :=
  commit s (callIssue l f8 [(.s t, true)] (fun x _ => x.sGet t) true s)
def execRet (t f8 : Nat) (s : State) := commit s (retIssue t f8 s)
def execExit (s : State) := commit s (exitIssue s)
def execYield (s : State) := commit s (yieldIssue s)
def execTrap (code : BitVec 24) (s : State) := commit s (trapIssue code s)
def execBrk (code : BitVec 24) (s : State) := commit s (brkIssue code s)
def execNop (s : State) := commit s (nopIssue s)
def execRgn (i : BitVec 24) (s : State) := commit s (rgnIssue i s)
def execSpill (g : Nat) (s : State) := commit s (spillEvent g s)
def execFill (g : Nat) (s : State) := commit s (fillEvent g s)
def execDeferCapacity (g : Nat) (s : State) := commit s (deferCapacity g s)

end Sys2Proof.Machine
end

