-- ==== Sys2Proof/Machine/Work.lean ====
section
/-! DEFINITION. Work creation: spawn, suspend and the bins (R322 to R328), launches and their packets (R329 to R333), kernel
graphs (R335 to R337), completion, and the flush of trace packets (R433). -/

namespace Sys2Proof.Machine

/-! ### Continuation records (R322, R323) -/

/-- The largest k up to 3 with W · 2^k ≤ n. -/
def hrOf (w n : Nat) : Nat :=
  if w * 8 ≤ n then 3 else if w * 4 ≤ n then 2 else if w * 2 ≤ n then 1 else 0
/-- The entry word checked and completed; none for a size above 24 (R323). -/
def entryWord (x : Group) (e : DWord) : Option DWord :=
  let wsz := e.toNat / 2 ^ 59
  if 24 < wsz then none
  else if wsz = 0 then
    some (BitVec.ofNat 64 (x.win / 64 * 2 ^ 59 + hrOf x.win x.nres * 2 ^ 57 + e.toNat % 2 ^ 57))
  else some e

/-- The records of the lanes, in ascending order. -/
def laneRecs (x : Group) (e : DWord) (v : Nat) (bound : Nat) (lanes : Word) : List Rec :=
  (lanesOf lanes).map fun l => ⟨e, (List.range 14).map fun i => x.vGet (v + i) l, x.control, x.uid, bound⟩

/-- Whether the context has no spill slot (R78). -/
def State.noSlots (s : State) (ctx : Nat) : Bool := ((s.ctx? ctx).map fun c => c.desc.spilln == 0).getD true

/-- How placing a record ends. -/
inductive Placed where
  | ok (t : State)
  | noRoom
  | fault (t : State) (addr : Nat) (e : TErr)

/-- A record enters the pool, parked or not (R326). -/
def State.poolPut (s : State) (ctx region : Nat) (r : Rec) (parked : Option (Nat × DWord)) : Placed :=
  if (s.poolDesc ctx).2 ≤ s.poolCount ctx then .noRoom
  else
    let k := s.poolSlot ctx
    match s.ctxWrite none ctx (s.poolAddr ctx k) r.bytes with
    | (t, .error e) => .fault t (s.poolAddr ctx k).toNat e
    | (t, .ok _) => .ok { t with pool := t.pool ++ [⟨ctx, region, k, r, parked, false⟩] }
/-- Records in order, each placed by f; all or none. -/
def placeAll (f : State → Rec → Placed) : State → List Rec → Placed
  | s, [] => .ok s
  | s, r :: rest =>
    match f s r with
    | .ok t => placeAll f t rest
    | q => q

/-- A pool access that faults parks the emitting group (R326, R392). -/
def poolFault (s : State) (x : Group) (p : Nat) (e : Word) (addr : Nat) (f : TErr) : State :=
  s.stopHere x.uid p { uniCause 0x1D e 0xD (BitVec.ofNat 64 addr) with
    reason := f.code, aux := BitVec.ofNat 64 f.addr, sdep := f.sdep, cow := f.cow }

def spawnIssue (e v : Nat) (s : State) : Res :=
  once s ((.s e, true) :: (List.range 14).map fun i => (.v (v + i), false)) (fun _ => []) fun x p ex =>
    match entryWord x (x.sGet e) with
    | none => .next (s.stopHere x.uid p (uniCause 0x1D ex 0xD 0))
    | some w =>
      if s.noSlots x.ctx then .next (s.stopHere x.uid p (uniCause 0x1D ex 0xD 0))
      else
        let region := x.core / 8
        let put := fun (t : State) (r : Rec) =>
          match t.binRec x.ctx region r with
          | some u => Placed.ok u
          | none => t.poolPut x.ctx region r none
        match placeAll put { s with fresh := s.fresh + 1 } (laneRecs x w v s.fresh (ex &&& ~~~x.helpers)) with
        | .ok t => .next (t.pass x.uid p)
        | .noRoom => .next s
        | .fault _ a f => .next (poolFault s x p ex a f)

/-- suspend (R178, R327). In no lane it drains and falls through, and tests neither its counter nor its entry word: R327's
steps do not say (DESIGN CHOICE, log 99). -/
def suspendIssue (c v e q : Nat) (s : State) : Res :=
  gated s ((.s c, true) :: (.s v, true) :: (.s e, true) :: (List.range 14).map fun i => (.v (q + i), false))
    (fun _ => []) fun x p ex =>
    drained s x p
      (if ex = 0 then .next (s.retire x p)
       else
         let ctr := (x.sGet c).toNat
         let limit := ((s.ctx? x.ctx).map (·.counters)).getD 0
         if limit ≤ ctr then .next (s.stopHere x.uid p (uniCause 0x1E ex 0xE 0))
         else
           match entryWord x (x.sGet e) with
           | none => .next (s.stopHere x.uid p (uniCause 0x1D ex 0xD 0))
           | some w =>
             if s.noSlots x.ctx then .next (s.stopHere x.uid p (uniCause 0x1D ex 0xD 0))
             else if adBusy s x then .next s
             else match s.exitWaits x p ex with
             | (t, true) => .next t
             | (s, false) =>
               let put := fun (t : State) (r : Rec) => t.poolPut x.ctx (x.core / 8) r (some (ctr, x.sGet v))
               match placeAll put { s with fresh := s.fresh + 1 } (laneRecs x w q s.fresh (ex &&& ~~~x.helpers)) with
               | .ok t =>
                 let t := t.exitLanes x.uid p ex
                 .next (t.setCounter x.ctx ctr (t.counter x.ctx ctr))
               | .noRoom => .next s
               | .fault _ a f => .next (poolFault s x p ex a f))

/-- BIN_TIMER: a filling bin whose timer has run closes (R324). -/
def binTimer (region idx : Nat) (s : State) : Res :=
  match s.bins.find? fun b => b.region == region && b.idx == idx && !b.closed with
  | none => .next s
  | some b =>
    if s.ns.toNat < b.started + ((s.ctx? b.ctx).map (·.bint)).getD 0 then .next s
    else
      .next { s with
        fresh := s.fresh + 1
        bins := s.bins.map fun x =>
          if x.region == region && x.idx == idx then { x with closed := true, closeNo := s.fresh } else x }

/-! ### Launch (R330) -/

/-- A uniform instruction whose translation fails (R226, R392). -/
def uniFault (s : State) (x : Group) (p : Nat) (e : Word) (va : DWord) (f : TErr) : Res :=
  if f.code = 0xFF then .fault .noSuchMemory
  else .next (s.stopHere x.uid p { uniCause (0x10 + f.code) e f.code va with
    aux := BitVec.ofNat 64 f.addr, sdep := f.sdep, cow := f.cow })

/-- The translations that the two ends of a range take, and the locks of their HOME 2 lines. -/
def State.rangeOk (s : State) (x : Group) (acc : Acc) : List Nat → State × Except TErr Unit
  | [] => (s, .ok ())
  | a :: rest =>
    match s.placeFor (some x.core) x.ctx x.coh x.wg a acc true with
    | (s, .error e) => (s, .error e)
    | (s, .ok _) => s.rangeOk x acc rest

/-- Empty packet fields, until a packet has been read. -/
def Packet.none : Packet :=
  { entry := 0, grid := 0, wgl := 0, coh := 0, concurrent := false, graph := false, win := 0, stk := 0, cstore := 0
    acc := 0, prio := 0, prod := [], done := .none, args := 0 }

/-- Takes the next launch serial of a context (R332). -/
def State.takeSerial (s : State) (ctx : Nat) : State × Word :=
  (s.modCtx ctx fun c => { c with lserial := c.lserial + 1 }, ((s.ctx? ctx).map (·.lserial)).getD 0)
/-- Whether launches into a queue open a trace session (R432). -/
def Context.traces (c : Context) (q : Nat) : Bool :=
  bitAt (smGet 0 c.obs 0x2010).toNat 63 && bitAt (smGet 0 c.obs 0x2018).toNat q

/-- Accepts a launch into queue q of a context, or finds the store full. -/
def State.submit (s : State) (ctx q : Nat) (addr : DWord) (via from_ : Nat) (control : Bool) : State × Bool :=
  match s.ctx? ctx with
  | none => (s, false)
  | some c =>
    if c.store ≤ (s.launches.filter (·.ctx == ctx)).length then (s, false)
    else
      let (s, serial) := s.takeSerial ctx
      let l : Launch :=
        { uid := s.fresh, ctx, queue := q, serial, addr, via, from_, bound := s.fresh, control, read := false
          pkt := .none, raw := [], walk := none, traced := c.traces q }
      ({ s with fresh := s.fresh + 1, launches := s.launches ++ [l] }, true)

def launchIssue (child : Bool) (d r q : Nat) (s : State) : Res :=
  once s ((.s r, true) :: [(.s d, true)]) (fun _ => []) fun x p e =>
    let who := (x.sGet d).toNat % 2 ^ 12
    let ctx := if child then who else x.ctx
    let c := s.ctx? ctx
    let a := x.sGet r
    if child && !x.control then .next (s.stopHere x.uid p (Cause.plain 0x03 e))
    else if (child && !s.isChild x.ctx who) || ((c.map (·.queues)).getD 0) ≤ q then
      .next (s.stopHere x.uid p (uniCause 0x1D e 0xD a))
    else
      let ctl := (c.map fun c => bitAt c.desc.ctlq.toNat q).getD false
      if !child && ctl && !x.control then .next (s.stopHere x.uid p (Cause.plain 0x03 e))
      else if a.toNat % 64 != 0 then .next (s.stopHere x.uid p (uniCause 0x11 e 1 a))
      else
        match s.rangeOk x .r [a.toNat, a.toNat + 127] with
        | (t, .error f) => uniFault t x p e a f
        | (t, .ok _) =>
          let r := t.submit ctx q a x.ctx x.uid ctl
          .next (r.1.finish x.uid p d (if r.2 then 0 else 1))

/-! ### Packets (R329, R331) -/

def parsePacket (bs : List Byte) : Packet :=
  let f := fun o n => sliceNat bs o n
  { entry := BitVec.ofNat 64 (f 0 8 % 2 ^ 57), grid := f 8 4, wgl := f 12 2, coh := f 14 1
    concurrent := bitAt (f 15 1) 0, graph := bitAt (f 15 1) 1, win := f 16 2, stk := f 18 2, cstore := f 20 4
    acc := f 24 4, prio := f 28 1, prod := (List.range 8).map fun i => f (32 + i) 1
    done := if bitAt (f 40 4) 31 then some (f 40 2) else none, args := BitVec.ofNat 64 (f 48 8) }
/-- Groups of a workgroup (R14). -/
def Packet.groups (k : Packet) : Nat := (k.wgl + 31) / 32
/-- FIELD: a field out of range or a reserved field non-zero (R329); with GRAPH only four fields are read. -/
def packetField (bs : List Byte) : Bool :=
  let f := fun o n => sliceNat bs o n
  let k := parsePacket bs
  let some_ := f 0 8 / 2 ^ 57 != 0 || f 15 1 / 4 != 0 || 7 < k.prio || f 40 4 / 2 ^ 16 % 2 ^ 15 != 0
  let rest := k.grid = 0 || k.wgl = 0 || 1024 < k.wgl || k.coh = 0 || 8 < k.coh || k.win % 64 != 0 || k.win = 0 ||
    1536 < k.win || k.stk % 8 != 0 || k.stk < k.win || 4096 < k.stk || k.cstore % 12288 != 0 || 1179648 < k.cstore ||
    k.acc % 4096 != 0 || 4194304 < k.acc || f 29 3 != 0 || f 44 4 != 0 || leNat (bs.drop 56) != 0 ||
    (List.range k.coh).any fun w => k.groups ≤ k.prod.getD w 0
  some_ || (!k.graph && rest)
/-- The first reason of R331 that applies to a packet; 0 for none. -/
def State.packetReason (s : State) (ctx : Nat) (bs : List Byte) : Nat :=
  let k := parsePacket bs
  let c := s.ctx? ctx
  if packetField bs then 1
  else if !k.graph && (12288 < k.groups * k.stk || ((c.map (·.desc.spilln)).getD 0) < k.coh * k.groups) then 2
  else if (k.done.map fun i => decide (((c.map (·.counters)).getD 0) ≤ i)).getD false then 3
  else 0

/-- A LAUNCH_INVALID record (R331, R392). (DESIGN CHOICE, log 59) -/
def State.launchInvalid (s : State) (ctx : Nat) (serial : Word) (reason : Nat) (addr : DWord) (code : Nat) : State :=
  s.raise { TrapRec.empty with
    cause := 0x41, reason, ctx, depth := s.depth ctx, addr
    aux := BitVec.ofNat 64 (serial.toNat + code % 16 * 2 ^ 32) }
/-- The completion counter of a launch or grid is incremented (R332, R427). -/
def State.doneUp (s : State) (ctx : Nat) (done : Option Nat) : State :=
  match done with
  | some i => s.bumpCounter ctx i
  | none => s
/-- An entry is freed. -/
def State.freeLaunch (s : State) (l : Nat) : State := { s with launches := s.launches.filter (·.uid != l) }

/-- A grid starts to offer its cohorts; a traced one opens a session (R432). -/
def State.addGrid (s : State) (l : Launch) (serial : Word) (k : Packet) : State × Nat :=
  let g := s.fresh
  let grid : Grid :=
    { uid := g, launch := l.uid, ctx := l.ctx, serial, pkt := k, control := l.control, placed := 0, gone := 0
      traced := l.traced }
  ({ s with
     fresh := s.fresh + 1, grids := s.grids ++ [grid]
     sessions := if l.traced then s.sessions ++ [⟨l.ctx, g, false⟩] else s.sessions }, g)

/-- LAUNCH_PACKET_READ (R330, R331): once the launcher's earlier entries are performed, the packet is read and checked. -/
def launchPacketRead (k : Nat) (s : State) : Res :=
  match s.launch? k with
  | none => .next s
  | some l =>
    if l.read || s.boundHeld l.from_ l.bound then .next s
    else
      match s.ctxRead none l.via l.addr 128 .r with
      | (t, .error e) => .next ((t.launchInvalid l.ctx l.serial 4 l.addr e.code).freeLaunch k)
      | (t, .ok bs) =>
        let pkt := parsePacket bs
        let why := t.packetReason l.ctx bs
        if why != 0 then
          .next (((t.launchInvalid l.ctx l.serial why l.addr 0).freeLaunch k).doneUp l.ctx pkt.done)
        else
          let walk : Option Walk :=
            if pkt.graph then some ⟨pkt.entry, none, List.replicate 8 0, none, 0, false⟩ else none
          let l := { l with read := true, pkt, raw := bs, walk }
          let t := t.modLaunch k fun _ => l
          .next (if pkt.graph then t else (t.addGrid l l.serial pkt).1)

/-! ### Order of launches (R333) -/

/-- The grids that a launch has started and that have not completed. -/
def State.gridsOf (s : State) (l : Nat) : List Grid := s.grids.filter (·.launch == l)
/-- Launches before one in its queue. -/
def State.before (s : State) (l : Launch) : List Launch :=
  (s.launches.filter fun k => k.ctx == l.ctx && k.queue == l.queue).takeWhile (·.uid != l.uid)
/-- Eligible: the oldest of its queue, or CONCURRENT behind an eligible one. -/
def eligible (l : Launch) : List Launch → Bool
  | [] => true
  | _ :: rest => (l :: rest).all fun j => j.read && j.pkt.concurrent
def State.isEligible (s : State) (l : Launch) : Bool := eligible l (s.before l)
/-- Every cohort of a launch has been offered. -/
def State.offered (s : State) (l : Launch) : Bool :=
  l.read && ((l.walk.map (·.ended)).getD true) && (s.gridsOf l.uid).all fun g => decide (g.pkt.grid ≤ g.placed)

/-! ### Graphs (R335 to R337) -/

/-- The walk ends with a reason. -/
def walkFail (s : State) (l : Launch) (w : Walk) (reason : Nat) (addr : DWord) (code : Nat) : State :=
  (s.launchInvalid l.ctx l.serial reason addr code).modLaunch l.uid fun l =>
    { l with walk := some { w with ended := true, cur := none } }
/-- Whether a node's bytes are well formed. -/
def nodeOk (bs : List Byte) : Bool :=
  let f := fun o n => sliceNat bs o n
  let b := f 24 8
  let c := f 32 8
  f 2 6 == 0 && leNat (bs.drop 40) == 0 &&
  (match f 0 1 with
   | 1 => f 1 1 / 2 == 0 && b == 0 && c == 0
   | 2 => decide (f 1 1 ≤ 5) && b / 2 ^ 32 == 0
   | 3 => decide (f 1 1 ≤ 7) && c / 2 ^ 32 == 0
   | 4 | 5 => f 1 1 == 0 && f 16 8 == 0 && b == 0 && c == 0
   | _ => false)

/-- The walk goes to a node. -/
def Walk.goto (w : Walk) (a : Nat) : Walk := { w with node := BitVec.ofNat 64 a, cur := none }
def State.setWalk (s : State) (l : Nat) (w : Walk) : State := s.modLaunch l fun l => { l with walk := some w }

/-- The condition of a COND node. -/
def condHolds (k x v : Nat) : Bool :=
  match k with
  | 0 => x == v
  | 1 => x != v
  | 2 => decide (x < v)
  | 3 => decide (v ≤ x)
  | 4 => decide (sext x 32 < sext v 32)
  | _ => decide (sext v 32 ≤ sext x 32)

/-- A KERNEL node: its packet is read and checked, and its grid starts (R336, R337). (DEDUCED, log 50) -/
def kernelNode (s : State) (l : Launch) (w : Walk) (bs : List Byte) : State :=
  let a := BitVec.ofNat 64 (sliceNat bs 16 8)
  let conc := bitAt (sliceNat bs 1 1) 0
  let go := fun (w : Walk) => w.goto (sliceNat bs 8 8)
  match (if a.toNat % 64 != 0 then (s, .error ⟨1, 0xFF, a.toNat, false⟩) else s.ctxRead none l.ctx a 128 .r) with
  | (s, .error e) =>
    (s.launchInvalid l.ctx l.serial (if e.code = 1 then 1 else 4) a (if e.code = 1 then 0 else e.code)).setWalk l.uid
      (go { w with steps := 0 })
  | (s, .ok pk) =>
    let pkt := parsePacket pk
    let why := s.packetReason l.ctx pk
    if why != 0 then
      ((s.launchInvalid l.ctx l.serial why a 0).doneUp l.ctx pkt.done).setWalk l.uid (go { w with steps := 0 })
    else if pkt.graph then walkFail s l w 6 w.node 0
    else
      let (s, serial) := s.takeSerial l.ctx
      let (s, g) := s.addGrid l serial { pkt with prio := l.pkt.prio }
      s.setWalk l.uid (go { w with steps := 0, waits := if conc then none else some g })

/-- A COND or LOOP node's word, read once the walk has joined. -/
def wordNode (s : State) (l : Launch) (w : Walk) (bs : List Byte) (go : Walk → Nat → Walk) : State :=
  let a := BitVec.ofNat 64 (sliceNat bs 16 8)
  match (if a.toNat % 4 != 0 then (s, .error ⟨1, 0xFF, a.toNat, false⟩) else s.ctxRead none l.ctx a 4 .r) with
  | (s, .error e) => walkFail s l w 8 w.node e.code
  | (s, .ok x) => s.setWalk l.uid (go w (leNat x))
def loopGo (bs : List Byte) (w : Walk) (x : Nat) : Walk :=
  let k := sliceNat bs 1 1
  let limit := sliceNat bs 32 4
  let n := w.counts.getD k 0
  if x != 0 && (limit == 0 || decide (n < limit)) then
    { w.goto (sliceNat bs 24 8) with counts := w.counts.set k (n + 1) }
  else { w.goto (sliceNat bs 8 8) with counts := w.counts.set k 0 }

/-- What a node does once it may. -/
def nodeRun (s : State) (l : Launch) (w : Walk) (bs : List Byte) : State :=
  let next := sliceNat bs 8 8
  match sliceNat bs 0 1 with
  | 1 => kernelNode s l w bs
  | 2 => wordNode s l w bs fun w x =>
      w.goto (if condHolds (sliceNat bs 1 1) x (sliceNat bs 24 4) then sliceNat bs 32 8 else next)
  | 3 => wordNode s l w bs (loopGo bs)
  | 4 => s.setWalk l.uid (w.goto next)
  | _ => s.setWalk l.uid { w with ended := true, cur := none }

/-- GRAPH_NODE: the walk of an eligible launch reads its node, or acts on it after its join (R336). -/
def graphNode (k : Nat) (s : State) : Res :=
  match s.launch? k with
  | none => .next s
  | some l =>
    match l.walk with
    | none => .next s
    | some w =>
      let waits := (w.waits.map fun g => (s.grid? g).isSome).getD false
      if w.ended || waits || !s.isEligible l || s.isFrozen l.ctx then .next s
      else
        match w.cur with
        | none =>
          if 65536 ≤ w.steps then .next (walkFail s l w 7 w.node 0)
          else if w.node.toNat % 64 != 0 then .next (walkFail s l w 5 w.node 0)
          else
            match s.ctxRead none l.ctx w.node 64 .r with
            | (t, .error _) => .next (walkFail t l w 5 w.node 0)
            | (t, .ok bs) =>
              .next (if nodeOk bs then t.setWalk k { w with cur := some bs, steps := w.steps + 1, waits := none }
                else walkFail t l w 5 w.node 0)
        | some bs =>
          if sliceNat bs 0 1 != 1 && !(s.gridsOf k).isEmpty then .next s else .next (nodeRun s l w bs)

/-! ### Completion (R17, R214, R332) -/

/-- Whether a grid's cohorts have all retired, with their accesses performed and the lines that they dirtied written back
(R214, R332). -/
def State.gridOver (s : State) (g : Grid) : Bool :=
  decide (g.pkt.grid ≤ g.placed) && decide (g.placed ≤ g.gone) &&
  !s.groups.any fun x => x.grid == some g.uid && (!x.retired || !x.outs.isEmpty || !x.sbuf.isEmpty ||
    s.l1.any fun l => l.dirty != 0 && l.writers.any (·.1 == x.uid))
/-- A grid leaves the machine with its trace session. -/
def State.dropGrid (s : State) (g : Grid) : State :=
  let s := s.closeSession g.uid none
  { s with grids := s.grids.filter (·.uid != g.uid) }
/-- A launch whose grids are complete and whose walk has ended completes. -/
def State.launchOver (s : State) (l : Nat) : State :=
  match s.launch? l with
  | none => s
  | some x =>
    if x.read && ((x.walk.map (·.ended)).getD true) && (s.gridsOf l).isEmpty then
      (s.freeLaunch l).doneUp x.ctx x.pkt.done
    else s

/-- GRID_COMPLETE, of a grid or of a launch with no grid left. -/
def gridComplete (k : Nat) (s : State) : Res :=
  match s.grid? k with
  | some g =>
    if !s.gridOver g then .next s
    else
      let graph := ((s.launch? g.launch).map fun l => l.walk.isSome).getD true
      let t := s.dropGrid g
      .next (if graph then t.doneUp g.ctx g.pkt.done else t.launchOver g.launch)
  | none => .next (s.launchOver k)

/-! ### Meanings -/

def execSpawn (e p : Nat) (s : State) := commit s (spawnIssue e p s)
def execSuspend (c v e p : Nat) (s : State) := commit s (suspendIssue c v e p s)
def execBinTimer (region bin : Nat) (s : State) := commit s (binTimer region bin s)
def execLaunch (d p q : Nat) (s : State) := commit s (launchIssue false d p q s)
def execLaunchChild (d p q : Nat) (s : State) := commit s (launchIssue true d p q s)
def execLaunchPacketRead (l : Nat) (s : State) := commit s (launchPacketRead l s)
def execGraphNode (l : Nat) (s : State) := commit s (graphNode l s)
def execGridComplete (l : Nat) (s : State) := commit s (gridComplete l s)

end Sys2Proof.Machine
end

