-- ==== Sys2Proof/Machine/Sched.lean ====
section
/-! DEFINITION. Scheduling: candidates and fits (R339 to R342), blocking and ageing (R343, R344), weights and energy (R345
to R348), placement and entry state (R334, R340), and temperature (R350). -/

namespace Sys2Proof.Machine

/-! ### Sorting -/

/-- Inserts after every element that is not greater. -/
def insertBy {α : Type} (lt : α → α → Bool) (x : α) : List α → List α
  | [] => [x]
  | y :: ys => if lt x y then x :: y :: ys else y :: insertBy lt x ys
def sortBy {α : Type} (lt : α → α → Bool) : List α → List α
  | [] => []
  | x :: xs => insertBy lt x (sortBy lt xs)
/-- Sorts by a number, equal ones in their order. -/
def sortOn {α : Type} (f : α → Nat) (xs : List α) : List α := xs.foldl (fun ys x => insertBy (fun a b => f a < f b) x ys) []

/-! ### Candidates (R339) -/

/-- An evicted cohort can go on: one of its groups has a READY path (R401), and its save images can be read (the manual does
not say what a restore does that cannot read one: DESIGN CHOICE, log 17). -/
def State.canRestore (s : State) (c : Cohort) : Bool :=
  !c.resident && (s.groups.any fun g => g.coh == c.uid && !g.retired && g.paths.any fun p => p.st == .ready) &&
    s.wgs.all fun w => w.coh != c.uid || s.imageLive w
/-- A closed bin whose records' earlier accesses are performed (R325, R210). -/
def State.binReady (s : State) (b : Bin) : Bool := b.closed && !b.recs.any fun r => s.boundHeld r.from_ r.bound

/-- The launches that offer cohorts: every eligible one that is not fully offered, in serial order (R333, R339). -/
def State.offering (s : State) (ctx : Nat) : List Launch :=
  sortOn (·.uid) (s.launches.filter fun l => l.ctx == ctx && !s.offered l && s.isEligible l)
/-- A queue's priority: that of its oldest launch that is not yet fully offered (R333). -/
def State.queuePrio (s : State) (ctx q : Nat) : Nat :=
  ((s.launches.find? fun l => l.ctx == ctx && l.queue == q && !s.offered l).map (·.pkt.prio)).getD 0
/-- The next cohort of each grid of those launches, with its priority. -/
def State.gridCands (s : State) (ctx : Nat) : List (Nat × Cand) :=
  (s.offering ctx).flatMap fun l =>
    (s.gridsOf l.uid).filterMap fun g =>
      if g.placed < g.pkt.grid then some (s.queuePrio ctx l.queue, .grid g.uid g.placed) else none

/-- A context that runs on another chip (R386; DESIGN CHOICE, log 12). -/
def State.isRemote (s : State) (ctx : Nat) : Bool :=
  ((s.ctx? ctx).map fun c => !(c.desc.chip == 0xFFFF || c.desc.chip == Config.thisChip)).getD false
/-- The candidate list of a context; a frozen one keeps its own, and places none (R407). -/
def State.cands (s : State) (ctx : Nat) : List Cand :=
  if s.isRemote ctx then []
  else
    let back := sortOn (·.evictNo) (s.cohorts.filter fun c => c.ctx == ctx && s.canRestore c)
    let grids := s.gridCands ctx
    let bins := sortOn (·.closeNo) (s.bins.filter fun b => b.ctx == ctx && s.binReady b)
    back.map (fun c => .restore c.uid) ++
      ((sortOn (fun g => 7 - g.1) (grids.filter (·.1 != 0))).map (·.2)) ++ bins.map (fun b => .bin b.region b.idx) ++
      ((grids.filter (·.1 == 0)).map (·.2))
def State.head? (s : State) (ctx : Nat) : Option Cand := (s.cands ctx).head?

/-! ### Fits (R342) -/

/-- What one workgroup takes of a core, its open subscriptions and their windows' bytes among it (R263). -/
structure WgNeed where
  groups : Nat
  rows : Nat
  pages : Nat
  acc : Nat
  subs : Nat
  window : Nat
/-- What a cohort takes. -/
structure Need where
  ctx : Nat
  wgs : List WgNeed
  slots : Nat
  only : Option Nat

/-- W and n of an entry word (R322). -/
def entryGeom (e : DWord) : Nat × Nat :=
  let w := 64 * (e.toNat / 2 ^ 59)
  (w, min 4096 (w * 2 ^ (e.toNat / 2 ^ 57 % 4)))
def State.bin? (s : State) (region idx : Nat) : Option Bin := s.bins.find? fun b => b.region == region && b.idx == idx
/-- Workgroups of a cohort that have not retired. -/
def State.liveWgs (s : State) (coh : Nat) : List Workgroup := s.wgs.filter fun w => w.coh == coh && !w.retired
def State.wgGroups (s : State) (w : Workgroup) : List Group :=
  s.groups.filter fun g => g.coh == w.coh && g.wg == w.idx && !g.retired

/-- The open subscriptions of groups, and the bytes of their windows. -/
def openSubs (gs : List Group) : List Sub := (gs.flatMap (·.subs)).filter (·.isOpen)
def windowBytes (us : List Sub) : Nat := us.foldl (fun n u => n + u.w * u.stride) 0

def State.need (s : State) : Cand → Option Need
  | .restore coh =>
    (s.cohort? coh).map fun c =>
      { ctx := c.ctx
        wgs := (s.liveWgs coh).map fun w =>
          let gs := s.wgGroups w
          ⟨gs.length, gs.foldl (fun n g => n + g.nres) 0, w.pages, w.accSize, (openSubs gs).length, windowBytes (openSubs gs)⟩
        slots := 0, only := some c.region }
  | .grid g _ =>
    (s.grid? g).map fun g =>
      { ctx := g.ctx
        wgs := List.replicate g.pkt.coh
          ⟨g.pkt.groups, g.pkt.groups * g.pkt.stk, g.pkt.cstore / 12288, g.pkt.acc, 0, 0⟩
        slots := g.pkt.coh * g.pkt.groups, only := none }
  | .bin region idx =>
    (s.bin? region idx).bind fun b => (b.recs.head?).map fun r =>
      { ctx := b.ctx, wgs := [⟨1, (entryGeom r.entry).2, 0, 0, 0, 0⟩], slots := 1, only := some region }

/-- Resident groups of a core. -/
def State.coreGroups (s : State) (k : Nat) : List Group := s.groups.filter fun g => g.core == k && g.resident && !g.retired
/-- The context that a core runs. -/
def State.coreCtx (s : State) (k : Nat) : Option Nat := ((s.coreGroups k).head?).map (·.ctx)
def State.coreIdle (s : State) (k : Nat) : Bool := (s.coreGroups k).isEmpty
/-- A core that a ladder empties of a context, or that is withdrawn, takes nothing more (R346, R402, R464). -/
def State.coreClosed (s : State) (k ctx : Nat) : Bool :=
  (s.ladders.any fun l => l.core == k && (l.ctx == ctx || l.withdraw)) || ((smGet ⟨false, 0, 0⟩ s.coreWords k).wdrn)
/-- Workgroups resident on a core. -/
def State.coreWgs (s : State) (k : Nat) : List Workgroup :=
  s.wgs.filter fun w => w.core == k && !w.retired && ((s.cohort? w.coh).map (·.resident)).getD false
/-- Whether a core takes one workgroup. -/
def State.coreTakes (s : State) (k ctx : Nat) (n : WgNeed) : Bool :=
  let gs := s.coreGroups k
  let ws := s.coreWgs k
  (gs.isEmpty || s.coreCtx k == some ctx) && !s.coreClosed k ctx && decide (gs.length + n.groups ≤ 64) &&
  decide (gs.foldl (fun m g => m + g.nres) 0 + n.rows ≤ 12288) &&
  decide (ws.foldl (fun m w => m + w.pages) 0 + n.pages ≤ 96) &&
  decide (ws.foldl (fun m w => m + w.accSize) 0 + n.acc ≤ 4194304) &&
  decide (n.subs = 0 ∨ (openSubs gs).length + n.subs ≤ 16 ∧ windowBytes (openSubs gs) + n.window ≤ 196608)

def regionCores (r : Nat) : List Nat := (List.range 8).map (8 * r + ·)
def State.idleCount (s : State) (r : Nat) : Nat := ((regionCores r).filter s.coreIdle).length
/-- ACTMAX of a region (R350; PRESUMED, log 20). -/
def State.actMax (s : State) (r : Nat) : Nat := smGet 8 s.actmax r

/-- Cores for the workgroups in order: those that run the context first. An idle core is refused while the region's cores that
are not idle already number ACTMAX (R350). (DEDUCED, log 52) -/
def State.pick (s : State) (ctx r : Nat) (order : List Nat) : List WgNeed → List Nat → Option (List Nat)
  | [], used => some used
  | n :: rest, used =>
    let room := decide (8 - s.idleCount r < s.actMax r)
    match order.find? fun k => !used.contains k && s.coreTakes k ctx n && (!s.coreIdle k || room) with
    | some k => s.pick ctx r order rest (used ++ [k])
    | none => none
/-- Spill slots that no group of a context holds (R73, R78). -/
def State.freeSlots (s : State) (ctx : Nat) : List Nat :=
  let used := (s.groups.filter fun g => g.ctx == ctx && !g.retired).map (·.slot)
  (List.range (((s.ctx? ctx).map (·.desc.spilln)).getD 0)).filter fun i => !used.contains i
/-- The cores that a cohort would take in a region; none where it does not fit. (DEDUCED, log 52) -/
def State.fit (s : State) (r : Nat) (c : Cand) : Option (List Nat) :=
  match s.need c with
  | none => none
  | some n =>
    if !(n.only.map (· == r)).getD true || (s.freeSlots n.ctx).length < n.slots then none
    else
      let run := (regionCores r).filter fun k => s.coreCtx k == some n.ctx
      let idle := (regionCores r).filter s.coreIdle
      s.pick n.ctx r (run ++ idle) n.wgs []
def regions : List Nat := List.range 96
def State.fitsSome (s : State) (c : Cand) : Bool := regions.any fun r => (s.fit r c).isSome

/-! ### Weights (R345, R347) -/

def State.children (s : State) (c : Nat) : List Context := s.contexts.filter fun x => x.parent == some c
def Context.frac (c : Context) : Nat := if c.parent.isNone then 2 ^ 32 else c.share
def State.chain (s : State) : Nat → Nat → Nat
  | 0, _ => 0
  | n + 1, c =>
    match s.ctx? c with
    | none => 0
    | some x =>
      match x.parent with
      | none => 2 ^ 32
      | some p => s.chain n p * x.share / 2 ^ 32
def State.weight (s : State) (c : Nat) : Nat :=
  let self := 2 ^ 32 - (s.children c).foldl (fun n x => n + x.share) 0
  min (s.chain 6 c * self / 2 ^ 32) (2 ^ 32 - 1)
/-- mJ that remain of a context's budget in the window. -/
def Context.remaining (c : Context) : Nat := c.ebudget - c.overrun - c.charge / 10 ^ 9
def Context.factor (c : Context) : Nat :=
  if c.ebudget = 2 ^ 32 - 1 then 2 ^ 32 - 1
  else if c.ebudget = 0 then 0 else min (2 ^ 32 * c.remaining / c.ebudget) (2 ^ 32 - 1)
def State.budgetFactor (s : State) : Nat → Nat → Nat
  | 0, _ => 2 ^ 32 - 1
  | n + 1, c =>
    match s.ctx? c with
    | none => 2 ^ 32 - 1
    | some x =>
      match x.parent with
      | none => x.factor
      | some p => min x.factor (s.budgetFactor n p)
def State.eff (s : State) (c : Nat) : Nat := s.weight c * s.budgetFactor 6 c / 2 ^ 32
/-- A budget on the chain has run out (R347). -/
def State.spent (s : State) (c : Nat) : Bool := s.budgetFactor 6 c == 0

/-- Contexts in the order of their selection keys in a region. -/
def State.keyed (s : State) (r : Nat) (cs : List Context) : List Nat :=
  let key := fun (c : Context) => ((s.eff c.id == 0).toNat, smGet 0 c.sv r, c.id)
  (sortBy (fun a b =>
    let x := key a
    let y := key b
    decide (x.1 < y.1) || (x.1 == y.1 && (decide (x.2.1 < y.2.1) || (x.2.1 == y.2.1 && decide (x.2.2 < y.2.2))))) cs).map
    (·.id)

/-! ### SV on gaining a candidate (R345) -/

def Cand.isIn (r : Nat) (s : State) (c : Cand) : Bool := (((s.need c).bind (·.only)).map (· == r)).getD true
def State.hasCand (s : State) (r ctx : Nat) : Bool := (s.cands ctx).any fun c => c.isIn r s
/-- The lowest SV among the contexts that run cores of a region. -/
def State.lowestSv (s : State) (r : Nat) : Option Nat :=
  (((regionCores r).filterMap s.coreCtx).eraseDups).foldl (fun (m : Option Nat) c =>
    let v := ((s.ctx? c).map fun x => smGet 0 x.sv r).getD 0
    match m with
    | none => some v
    | some w => some (min v w)) none
/-- Marks the regions in which a context has a candidate, its SV raised where it gained its first. -/
def State.gain (s : State) (ctx : Nat) : State :=
  let now := if (s.cands ctx).isEmpty then [] else regions.filter fun r => s.hasCand r ctx
  s.modCtx ctx fun c =>
    { c with
      had := now
      sv := (now.filter fun r => !c.had.contains r).foldl (fun m r =>
        smSet 0 m r (max (smGet 0 m r) ((s.lowestSv r).getD 0))) c.sv }
def State.gainAll (s : State) : State := (s.contexts.map (·.id)).foldl State.gain s

/-! ### Blocking (R343, R344) -/

/-- The region with the most cores that could take one of a head's workgroups. -/
def State.targetOf (s : State) (c : Cand) : Nat :=
  match s.need c with
  | none => 0
  | some n =>
    let count := fun r => ((regionCores r).filter fun k => (n.wgs.head?.map (s.coreTakes k n.ctx)).getD false).length
    match n.only with
    | some r => r
    | none => regions.foldl (fun b r => if count b < count r then r else b) 0
/-- Whether a candidate is its context's head and blocked now: it fits nowhere, and the context is not frozen (R407). -/
def State.isBlocked (s : State) (ctx : Nat) (c : Cand) : Bool := s.head? ctx == some c && !s.isFrozen ctx && !s.fitsSome c
/-- A head that fits nowhere blocks. One that has blocked keeps its target and age until it is placed, and gains no age while it
is not blocked; one that is a candidate no more is forgotten. -/
def State.blockHead (s : State) (ctx : Nat) : State :=
  let cs := s.cands ctx
  let s := s.modCtx ctx fun c =>
    { c with blocked := (c.blocked.filter fun b => cs.contains b.cand).map fun (b : Blocked) =>
        if s.isBlocked ctx b.cand then b else { b with ageAt := s.ns.toNat } }
  match cs.head? with
  | none => s
  | some h =>
    if !s.isBlocked ctx h || ((s.ctx? ctx).map fun c => c.blocked.any (·.cand == h)).getD true then s
    else
      let b : Blocked := ⟨h, s.targetOf h, s.ns.toNat, s.ns.toNat, 0⟩
      s.modCtx ctx fun c => { c with blocked := c.blocked ++ [b] }
/-- The entry of a context's blocked head. -/
def State.blockedHead (s : State) (ctx : Nat) : Option Blocked :=
  (s.head? ctx).bind fun h => (s.ctx? ctx).bind fun c => c.blocked.find? (·.cand == h)
/-- The head that holds a region: of those aged 8, the first that blocked. A frozen context's head holds none, for none of its
cohorts is placed (R407; DEDUCED, log 52). -/
def State.holder (s : State) (r : Nat) : Option Cand :=
  let bs := s.contexts.filterMap fun c =>
    if s.isFrozen c.id then none else (s.blockedHead c.id).filter fun b => b.age == 8 && b.target == r
  (bs.foldl (fun (m : Option Blocked) b => match m with
    | none => some b
    | some x => if b.since < x.since then some b else some x) none).map (·.cand)

/-! ### The choice of a region (R341) -/

/-- Placing is open to a candidate: no other head holds the region. -/
def openTo (holder : Option Cand) (c : Cand) : Bool := (holder.map (· == c)).getD true
def State.chooseAmong (s : State) (r : Nat) (ctxs : List Nat) : Option (Cand × List Nat) :=
  let hold := s.holder r
  let try_ := fun c => if openTo hold c then (s.fit r c).map fun ks => (c, ks) else none
  match ctxs.findSome? fun c => (s.head? c).bind try_ with
  | some x => some x
  | none => ctxs.findSome? fun c =>
    let blocked := fun x => s.head? c == some x && !s.fitsSome x
    ((s.cands c).filter fun x => !blocked x).findSome? try_
/-- Contexts whose budget is spent place only in steps in which no other has a candidate that fits (R347). -/
def State.chooseIn (s : State) (r : Nat) : Option (Cand × List Nat) :=
  let cs := s.contexts.filter fun c => !s.isFrozen c.id && s.hasCand r c.id
  match s.chooseAmong r (s.keyed r (cs.filter fun c => !s.spent c.id)) with
  | some x => some x
  | none => s.chooseAmong r (s.keyed r (cs.filter fun c => s.spent c.id))

/-- One region's choice, with the idle cores it would be left with. -/
structure Pick where
  region : Nat
  cand : Cand
  cores : List Nat
  left : Nat
def State.picks (s : State) : List Pick :=
  regions.filterMap fun r => (s.chooseIn r).map fun c =>
    ⟨r, c.1, c.2, s.idleCount r - (c.2.filter s.coreIdle).length⟩
/-- A cohort that several regions choose goes to the one left with the fewest idle cores. -/
def winners (ps : List Pick) : List Pick :=
  ps.filter fun p => !ps.any fun q =>
    q.cand == p.cand && (decide (q.left < p.left) || (q.left == p.left && decide (q.region < p.region)))

/-! ### Entry (R334, R340, R434) -/

/-- The partition with the fewest resident groups of a core. -/
def State.partOf (s : State) (k : Nat) : Nat :=
  let count := fun p => ((s.coreGroups k).filter (·.part == p)).length
  [1, 2, 3].foldl (fun b p => if count p < count b then p else b) 0
def State.activeRoom (s : State) (k p : Nat) : Bool :=
  decide (((s.coreGroups k).filter fun g => g.part == p && g.active).length < 4)
/-- A group that starts or is restored is numbered for replay and logged (R434, R436). -/
def State.number (s : State) (x : Group) : State × Group :=
  match s.ctx? x.ctx with
  | none => (s, x)
  | some c =>
    if !bitAt (smGet 0 c.obs 0x2028).toNat 63 then (s, { x with rnum := 0 })
    else if 4094 ≤ c.rplNext then (s.modCtx x.ctx fun c => { c with rplFull := true }, { x with rnum := 0 })
    else
      let x := { x with rnum := c.rplNext, gclk := 0, maxw := [] }
      let s := s.modCtx x.ctx fun c => { c with rplNext := c.rplNext + 1 }
      let held := { s with replayHeld := s.replayHeld ++ [⟨x.ctx, x.uid, 0, groupBytes x⟩] }
      if s.replayHeld.any (·.ctx == x.ctx) then (held, x)
      else
        match s.ringAppend x.ctx (s.rplRing x.ctx) 5 0 (groupBytes x) with
        | (t, .ok _) => (t, x)
        | _ => (held, x)
/-- A SYNC for each path in use (R432). (DEDUCED, log 53) -/
def State.syncAll (s : State) (x : Group) : State :=
  x.usedPaths.foldl (fun s p => s.emit x.uid p 1 (x.path p).pc (x.mask p) 0 s.ns.toNat) s
/-- A new group takes its partition and spill slot and begins. -/
def State.enter (s : State) (x : Group) : State :=
  let p := s.partOf x.core
  let slot := (s.freeSlots x.ctx).headD 0
  let base := ((s.ctx? x.ctx).map (·.desc.spill)).getD 0
  let x := { x with part := p, active := s.activeRoom x.core p, slot, slotBase := base + BitVec.ofNat 64 (524288 * slot) }
  let r := s.number x
  let t := { r.1 with groups := r.1.groups ++ [r.2] }
  t.syncAll r.2
/-- A core begins to run a context (R344). -/
def State.began (s : State) (k : Nat) : State :=
  if s.coreIdle k then { s with coreSince := smSet 0 s.coreSince k s.ns.toNat } else s

/-- The lanes of group gi of a workgroup of n lanes, and its helper lanes (R14). -/
def startMask (n gi : Nat) : Word := maskOf ((List.range 32).filter fun l => 32 * gi + l < n)
def helperMask (n gi : Nat) : Word :=
  maskOf ((List.range 32).filter fun l => n ≤ 32 * gi + l && 32 * gi + 4 * (l / 4) < n)

/-- A group of a grid. -/
def gridGroup (uid coh core w gi : Nat) (g : Grid) (index : Nat) : Group :=
  let k := g.pkt
  let x := Group.start uid g.ctx coh w gi core 0 k.win k.stk g.control k.entry (startMask k.wgl gi) (helperMask k.wgl gi)
  { x with grid := some g.uid, idCoh := BitVec.ofNat 32 index, idGrid := g.serial, s := smSet 0 [] 1 k.args }
/-- One workgroup of a grid's cohort on its core. -/
def State.placeWg (s : State) (g : Grid) (coh index : Nat) (w core : Nat) : State :=
  let k := g.pkt
  let wg : Workgroup :=
    { coh, idx := w, core, groups := k.groups, pages := k.cstore / 12288, pin := [], accSize := k.acc, acc := [], wph := 0
      arrived := [], producer := k.prod.getD w 0, retired := false, badPin := [], badAcc := [], image := none }
  let s := s.began core
  (List.range k.groups).foldl (fun (s : State) gi =>
    { s with fresh := s.fresh + 1 }.enter (gridGroup s.fresh coh core w gi g index)) { s with wgs := s.wgs ++ [wg] }
def State.placeGrid (s : State) (g : Grid) (region : Nat) (cores : List Nat) : State :=
  let coh := s.fresh
  let c : Cohort := ⟨coh, g.ctx, some g.uid, g.placed, region, g.pkt.coh, true, 0, 0⟩
  let s := { s with fresh := s.fresh + 1, cohorts := s.cohorts ++ [c] }
  let s := s.modGrid g.uid fun g => { g with placed := g.placed + 1 }
  (List.range cores.length).foldl (fun s w => s.placeWg g coh g.placed w (cores.getD w 0)) s

/-- The group of a bin: record i in lane i (R325, R334). -/
def binGroup (uid coh core : Nat) (b : Bin) : Group :=
  let e := ((b.recs.head?).map (·.entry)).getD 0
  let ctl := ((b.recs.head?).map (·.control)).getD false
  let geom := entryGeom e
  let n := b.recs.length
  let x := Group.start uid b.ctx coh 0 0 core 0 geom.1 geom.2 ctl (BitVec.ofNat 64 (e.toNat % 2 ^ 57)) (startMask n 0) 0
  let x := (List.range n).foldl (fun (x : Group) l =>
    (List.range 14).foldl (fun (x : Group) i => x.vSet i l (((b.recs[l]?).map fun r => r.payload.getD i 0).getD 0)) x) x
  { x with bin := true, s := smSet 0 [] 2 (BitVec.ofNat 64 n) }
def binWorkgroup (coh core : Nat) : Workgroup :=
  { coh, idx := 0, core, groups := 1, pages := 0, pin := [], accSize := 0, acc := [], wph := 0, arrived := [], producer := 0
    retired := false, badPin := [], badAcc := [], image := none }
def State.placeBin (s : State) (b : Bin) (core : Nat) : State :=
  let coh := s.fresh
  let c : Cohort := ⟨coh, b.ctx, none, 0, b.region, 1, true, 0, 0⟩
  let t := s.began core
  let t : State := { t with
    fresh := s.fresh + 2
    cohorts := t.cohorts ++ [c]
    wgs := t.wgs ++ [binWorkgroup coh core]
    bins := t.bins.filter fun x => !(x.region == b.region && x.idx == b.idx) }
  let t := t.enter (binGroup (coh + 1) coh core b)
  t.refillAll b.region

/-- Writes rows in order; false when one cannot be written. -/
def State.rowsOut (s : State) (x : Group) : List Nat → State × Bool
  | [] => (s, true)
  | r :: rest =>
    match s.rowOut x r with
    | (s, .error _) => (s, false)
    | (s, .ok _) => s.rowsOut x rest
/-- The resident rows of a group. -/
def Group.residentRows (x : Group) : List Nat := (List.range x.nres).map (x.rlo + ·)
/-- Reads rows back from the spill slot. A word that was struck before the save stays struck (R199), and so does all of a row
that cannot be read, poisoned or not (DESIGN CHOICE, log 17). -/
def State.rowsBack (s : State) (x : Group) : List Nat → State × Group
  | [] => (s, x)
  | r :: rest =>
    match s.ctxRead none x.ctx (x.slotBase + BitVec.ofNat 64 (128 * r)) 128 .r with
    | (s, .error _) =>
      s.rowsBack { x with badRows := (List.range 32).map (r * 32 + ·) ++ x.badRows.filter (· / 32 != r) } rest
    | (s, .ok bs) =>
      let y := x.rowPut r ((List.range 32).map fun l => BitVec.ofNat 32 (leNat ((bs.drop (4 * l)).take 4)))
      s.rowsBack { y with badRows := x.badRows } rest

/-- A restored group: its slots are fetched again and its clauses from where it stands (R268, R244). -/
def Group.restored (x : Group) (core part no : Nat) (active : Bool) : Group :=
  { x with
    core, part, startNo := no, active, resident := true, saved := false
    paths := x.paths.map fun (y : Path) => { y with fetched := false }
    subs := x.subs.map fun (u : Sub) => { u with slots := List.replicate u.live (.fetching [] []), bound := no } }
def State.restoreGroup (s : State) (g core : Nat) : State :=
  match s.group? g with
  | none => s
  | some x =>
    let p := s.partOf core
    let back := if x.saved then s.rowsBack x x.residentRows else (s, x)
    let s := back.1
    let x := back.2.restored core p s.fresh (s.activeRoom core p)
    let r := { s with fresh := s.fresh + 1 }.number x
    (r.1.setGroup r.2).syncAll r.2
/-- A cohort is restored. Its windows take their lines from the cores' L1 (R263), and its parked groups count there (R349). -/
def State.placeRestore (s : State) (coh : Nat) (cores : List Nat) : State :=
  let ws := s.liveWgs coh
  let ctx := ((s.cohort? coh).map (·.ctx)).getD 0
  let s := s.modCohort coh fun c => { c with resident := true }
  let s := (List.range cores.length).foldl (fun (s : State) i =>
    match ws[i]? with
    | none => s
    | some w =>
      let k := cores.getD i 0
      let s := (s.began k).modWg coh w.idx fun w => { w with core := k, image := none }
      (s.wgGroups w).foldl (fun s g => s.restoreGroup g.uid k) s) s
  cores.foldl (fun (s : State) k => (s.l1Fit k).parkedShare k ctx) s

/-- One cohort is placed, if it still fits beside the step's other placements. -/
def State.place (s : State) (p : Pick) : State :=
  match s.fit p.region p.cand with
  | none => s
  | some _ =>
    match p.cand with
    | .restore coh => s.placeRestore coh p.cores
    | .grid g _ => ((s.grid? g).map fun g => s.placeGrid g p.region p.cores).getD s
    | .bin r i => ((s.bin? r i).map fun b => s.placeBin b (p.cores.headD 0)).getD s

/-- The placements of a step, and the candidates that still fitted. -/
def State.places (s : State) : List Pick → State × List Cand
  | [] => (s, [])
  | p :: rest =>
    let r := (s.place p).places rest
    (r.1, if (s.fit p.region p.cand).isSome then p.cand :: r.2 else r.2)

/-- One tick of the 1 µs clock (R345, R347). (DEDUCED, log 76) -/
def State.oneTick (s : State) : State :=
  let busy := ((s.groups.filter fun g => g.resident && !g.retired).map fun g => (g.core, g.ctx)).eraseDups
  let t := { s with tickAt := s.tickAt + 1 }
  busy.foldl (fun (u : State) k =>
    let e := s.eff k.2
    let u := if e = 0 then u
      else u.modCtx k.2 fun c =>
        { c with sv := smSet 0 c.sv (k.1 / 8) ((smGet 0 c.sv (k.1 / 8) + 2 ^ 48 / e) % 2 ^ 64) }
    u.chargePJ k.2 (Config.coreEnergy k.1 t.tickAt)) t
/-- The ticks that are due: a dispatch step uses the counters after them (R345). -/
def State.tickUp (s : State) : State := (List.range (s.ns.toNat / 1000 - s.tickAt)).foldl (fun s _ => s.oneTick) s

/-- DISPATCH_STEP: the dispatchers of all regions take their steps together; what is placed is blocked no more. -/
def dispatchStep (s : State) : Res :=
  let s := s.tickUp.gainAll
  let s := (s.contexts.map (·.id)).foldl State.blockHead s
  let r := s.places (winners s.picks)
  .next (((r.1.contexts.map (·.id)).foldl (fun (t : State) c =>
    t.modCtx c fun x => { x with blocked := x.blocked.filter fun b => !r.2.contains b.cand }) r.1).gainAll)

/-! ### Ageing (R343, R344) -/

/-- Cores of the target region that other contexts have held for at least their SLICE, longest-held first. -/
def State.overstayed (s : State) (r ctx : Nat) : List (Nat × Nat) :=
  sortOn (fun k => smGet 0 s.coreSince k.1) ((regionCores r).filterMap fun k =>
    match s.coreCtx k with
    | none => none
    | some c =>
      let slice := ((s.ctx? c).map (·.slice)).getD 0
      if c != ctx && smGet 0 s.coreSince k + slice * 100000 ≤ s.ns.toNat then some (k, c) else none)
/-- Cores that a head lacks in its target region. -/
def State.lacks (s : State) (b : Blocked) : Nat :=
  match s.need b.cand with
  | none => 0
  | some n =>
    n.wgs.length -
      ((regionCores b.target).filter fun k => (n.wgs.head?.map (s.coreTakes k n.ctx)).getD false).length
/-- A context's entry for a blocked candidate changes. -/
def State.modBlocked (s : State) (ctx : Nat) (c : Cand) (f : Blocked → Blocked) : State :=
  s.modCtx ctx fun x => { x with blocked := x.blocked.map fun b => if b.cand == c then f b else b }
/-- AGE_STEP: a blocked head gains a step every 64 µs that it remains blocked, and at age 8 starts ladders. -/
def ageStep (ctx : Nat) (s : State) : Res :=
  match s.blockedHead ctx with
  | none => .next s
  | some b =>
    if !s.isBlocked ctx b.cand then .next (s.modBlocked ctx b.cand fun b => { b with ageAt := s.ns.toNat })
    else if s.ns.toNat < b.ageAt + 64000 then .next s
    else
      let s := s.modBlocked ctx b.cand fun b => { b with age := min 8 (b.age + 1), ageAt := b.ageAt + 64000 }
      if b.age = 8 && s.holder b.target == some b.cand then
        .next (((s.overstayed b.target ctx).take (s.lacks b)).foldl (fun s k => s.callLadder k.1 k.2 false) s)
      else .next s

/-! ### Ticks, windows, temperature (R345, R347, R350) -/

/-- SERVICE_TICK: one tick, once it is due. -/
def serviceTick (s : State) : Res := .next (if s.ns.toNat / 1000 ≤ s.tickAt then s else s.oneTick)

/-- ENERGY_WINDOW: a 10 ms window ends; an overrun is taken from the next, up to one budget. -/
def energyWindow (s : State) : Res :=
  if s.ns.toNat / 10 ^ 7 ≤ s.windowAt then .next s
  else
    .next { s with
      windowAt := s.windowAt + 1
      contexts := s.contexts.map fun (c : Context) =>
        let excess := c.overrun + c.charge / 10 ^ 9 - c.ebudget
        { c with charge := 0, overrun := if c.ebudget = 2 ^ 32 - 1 then 0 else min c.ebudget excess } }

/-- ACTMAX_UPDATE: the cap that a temperature gives (R350). -/
def actmaxUpdate (region : Nat) (temp : Int) (s : State) : Res :=
  let n := if temp < 95 then 8 else if temp < 100 then 6 else if temp < 105 then 4 else 2
  .next { s with actmax := smSet 8 s.actmax region n }

/-! ### Meanings -/

def execDispatchStep (s : State) := commit s (dispatchStep s)
def execAgeStep (ctx : Nat) (s : State) := commit s (ageStep ctx s)
def execServiceTick (s : State) := commit s (serviceTick s)
def execEnergyWindow (s : State) := commit s (energyWindow s)
def execActmaxUpdate (region : Nat) (temp : Int) (s : State) := commit s (actmaxUpdate region temp s)

end Sys2Proof.Machine
end

