-- ==== Sys2Proof/Machine/Copies.lean ====
section
/-! DEFINITION. Block transfers: cpy and cpyl (R354 to R362), the engine (R363, R364), batches and cwait (R366 to R368),
and completion rings (R369). -/

namespace Sys2Proof.Machine

/-! ### The producer group (R354) -/

/-- Whether a group is its workgroup's producer group. -/
def State.isProducer (s : State) (x : Group) : Bool :=
  x.bin || ((s.wg? x.coh x.wg).map fun w => w.producer == x.gi).getD false
/-- One of the four forms: run once, by the producer group alone. -/
def producing (s : State) (srcs : List (Src × Bool)) (more : Group → List Reg) (f : Group → Nat → Word → Res) : Res :=
  once s srcs more fun x p e =>
    if s.isProducer x then f x p e else .next (s.stopHere x.uid p (uniCause 0x1F e 0xD 0))

/-! ### Issue (R356 to R362) -/

/-- The address n bytes back from a place. -/
def Place.back : Place → Nat → Place
  | .phys a h k i, n => .phys (a - n) h k i
  | .pin c w o, n => .pin c w (o - n)

/-- The first element of each class, in order. -/
def firstOf {α β : Type} [DecidableEq β] (f : α → β) (xs : List α) : List α :=
  (xs.foldl (fun (t : List β × List α) x => if t.1.contains (f x) then t else (f x :: t.1, x :: t.2)) ([], [])).2.reverse

/-- Translates lines for a copy of a group of a context, those of HOME 2 locked (R193): each with its index at granule n, or
the first byte that fails. -/
def State.copyMaps (s : State) (core c coh wg : Nat) (acc : Acc) (n : Nat) : List DWord → State × Except (DWord × TErr) (List CopyMap)
  | [] => (s, .ok [])
  | a :: rest =>
    match s.placeFor (some core) c coh wg a.toNat acc true with
    | (s, .error e) => (s, .error (a, e))
    | (s, .ok p) =>
      let m : CopyMap := ⟨a.toNat / n, p.back (a.toNat % n), s.traceOf core c a.toNat⟩
      match s.copyMaps core c coh wg acc n rest with
      | (s, .error e) => (s, .error e)
      | (s, .ok ms) => (s, .ok (m :: ms))

/-- The lane code of a failed translation, as a copy reports it (DESIGN CHOICE, log 13). -/
def copyCode (e : TErr) : Nat := if e.code = 0xFF then 2 else e.code
/-- FAULT with nothing written. -/
def copyFault (a : DWord) (e : TErr) : CopyFail := ⟨1, copyCode e, 0, a, e.sdep, e.cow⟩

/-- Whether a core's copy queue has no free entry (R356). -/
def State.copyFull (s : State) (core : Nat) : Bool := decide (64 ≤ (s.copies.filter (·.core == core)).length)
/-- A copy is accepted, or finds the core's copy queue full. Its accesses come after an acquire before it (R212). -/
def copyAccept (s : State) (x : Group) (p : Nat) (e : Word) (d : Nat) (shape : CopyShape) (ctl : Nat) (ring : DWord) : Res :=
  if s.copyFull x.core then .next (s.finish x.uid p d 1)
  else if x.acqHeld p s.fresh then .next s
  else
    let lines := firstOf (fun (a : DWord) => a.toNat / 192) (shape.moves.map (·.1))
    let r := s.copyMaps x.core x.ctx x.coh x.wg .w 12288 lines
    let fail : Option CopyFail := match r.2 with
      | .ok _ => none
      | .error f => some (copyFault f.1 f.2)
    let pages := match r.2 with
      | .ok ps => firstOf (·.index) ps
      | .error _ => []
    let c : Copy :=
      { id := s.fresh, core := x.core, ctx := x.ctx, group := x.uid, pc := (x.path p).pc, pos := (x.path p).pos
        lane := lowLane e, who := x.who, shape, tag := BitVec.ofNat 16 (ctl / 2 ^ 40)
        ring := if bitAt ctl 63 then some ring else none
        pages, srcs := none, buf := [], cut := none, done := 0, failed := fail, moved := false, batch := 0, coh := x.coh
        wg := x.wg }
    let t := { r.1 with fresh := s.fresh + 1, copies := r.1.copies ++ [c] }
    .next ((t.modGroup x.uid fun x => { x with unb := x.unb ++ [c.id] }).finish x.uid p d 0)

/-- The operands of cpy and cpyl. -/
def copySrcs (a : Nat) : List (Src × Bool) := [(.s a, true), (.s (a + 1), true), (.s (a + 2), true), (.s (a + 3), true)]
/-- Whether the control word and the ring's address are admitted (R358). -/
def copyCtlOk (tap : Bool) (ctl : Nat) (ring : DWord) : Bool :=
  fld ctl 56 7 == 0 && (if tap then fld ctl 32 8 == 0 else fld ctl 24 16 == 0) && (!bitAt ctl 63 || ring.toNat % 32 == 0)

/-- The operand address of a control word that is not admitted: that of a ring that is not aligned, and else none (R358, R392; DESIGN
CHOICE, log 110). -/
def badOperand (ctl : Nat) (ring : DWord) : DWord := if bitAt ctl 63 && ring.toNat % 32 != 0 then ring else 0

def cpyIssue (d a : Nat) (s : State) : Res :=
  producing s (copySrcs a) (fun x => x.srcRegs (.s d) true) fun x p e =>
    let ctl := (x.sGet (a + 2)).toNat
    let ring := x.sGet (a + 3)
    if !copyCtlOk false ctl ring then .next (s.stopHere x.uid p (uniCause 0x1D e 0xD (badOperand ctl ring)))
    else copyAccept s x p e d (.bytes (x.sGet a) (x.sGet (a + 1)) (fld ctl 0 24)) ctl ring

/-- The layout that a record and the taps give; none when a field is not admitted (R360, R361). -/
def layoutOf (bs : List Byte) (dst : DWord) (ctl : Nat) : Option CopyShape :=
  let f := fun o n => sliceNat bs o n
  let esz := f 30 1
  let w := 2 ^ esz
  let ph := f 36 2
  let pw := f 38 2
  let ch := f 28 2
  let bad := f 24 2 = 0 || f 26 2 = 0 || ch = 0 || 3 < esz || f 31 1 != 0 || ph = 0 || pw = 0 || f 40 1 = 0 || f 41 1 = 0 ||
    leNat (bs.drop 42) != 0 || f 0 8 % w != 0 || f 8 4 % w != 0 || f 12 4 % w != 0 || f 16 4 % w != 0 || f 20 4 % w != 0 ||
    dst.toNat % w != 0 || decide (f 20 4 < ch * w) || decide (16777215 < (ph * pw - 1) * f 20 4 + ch * w)
  if bad then none
  else
    some (.layout dst (BitVec.ofNat 64 (f 0 8)) (f 8 4) (f 12 4) (f 16 4) (f 20 4) (f 24 2) (f 26 2) ch esz
      (sext (f 32 2) 16 + sext (fld ctl 16 16) 16) (sext (f 34 2) 16 + sext (fld ctl 0 16) 16) ph pw (f 40 1) (f 41 1))

def cpylIssue (d a : Nat) (s : State) : Res :=
  producing s (copySrcs a) (fun x => x.srcRegs (.s d) true) fun x p e =>
    let ctl := (x.sGet (a + 2)).toNat
    let ring := x.sGet (a + 3)
    let invalid := fun (t : State) (va : DWord) => Res.next (t.stopHere x.uid p (uniCause 0x1D e 0xD va))
    if !copyCtlOk true ctl ring then invalid s (badOperand ctl ring)
    else if s.copyFull x.core then .next (s.finish x.uid p d 1)
    else
      uniRead 64 ⟨a + 1, .imm 0, 0, 0⟩ s x p e fun t bs =>
        match layoutOf bs (x.sGet a) ctl with
        | none => invalid t (x.sGet (a + 1))
        | some sh => copyAccept t x p e d sh ctl ring

/-! ### The engine (R363, R364) -/

/-- What the engine's sector requests do to the caches of lines and the energy account. -/
def State.copyTouch (s : State) (ctx : Nat) (write : Bool) (ps : List Place) : State :=
  let spans := (firstOf Place.sector ps).map fun p => (p, (ps.filter fun q => q.sector == p.sector).length)
  spans.foldl (fun (s : State) p => match p.1 with
    | .pin .. => s
    | .phys a home key _ => s.memSide ctx a p.2 home key write) s

/-- What the engine has written stands at its bank, and has crossed its channel where it lies at the base die (R188, R221). -/
def State.copyWritten (s : State) (c : Copy) (ps : List Place) : State :=
  let spans := (firstOf Place.sector ps).map fun p => (p, (ps.filter fun q => q.sector == p.sector).length)
  let s := spans.foldl (fun (s : State) p => match p.1 with
    | .phys a 3 _ _ => s.diePut c.ctx a p.2
    | _ => s) s
  match ps with
  | .phys a _ _ _ :: _ => s.bankTake ⟨c.ctx, c.group, false, lineOf a⟩
  | _ => s

/-- The group's own earlier accesses that a copy comes after (R206, R218). -/
def State.copyHeld (s : State) (c : Copy) (places : List Place) : Bool :=
  match s.group? c.group with
  | none => false
  | some x =>
    let as := places.map fun p => (⟨0, 0, some p, 0, 0⟩ : LaneAcc)
    (x.sbuf.any fun e => !e.isClean && decide (e.id < c.id) && accsOverlap e.accs e.bytes as 1) ||
      x.outs.any fun o => o.undecided && decide (o.id < c.id) && accsOverlap o.accs o.bytes as 1
/-- An earlier copy that still owns a line of one of these places (R362). -/
def State.copyBehind (s : State) (c : Copy) (places : List Place) : Bool :=
  s.copies.any fun d => decide (d.id < c.id) && places.any fun p => d.lines.contains p.line
/-- What a copy waits for before it reads or writes places. -/
def State.copyWaits (s : State) (c : Copy) (places : List Place) : Bool := s.copyHeld c places || s.copyBehind c places

/-- Where a source byte lies, by the translations that the engine took before its first write (R363). -/
def Copy.srcPlace (c : Copy) (a : DWord) : Option Place :=
  ((c.srcs.getD []).find? fun m => m.index == a.toNat / 192).map fun m => m.place.add (a.toNat % 192)
/-- Why a place cannot be read or written now: its key is erased, or, for a read, it stands in poison (R364). -/
def State.copyCode? (s : State) (read : Bool) (p : Place) : Option Nat :=
  if !s.placeLive p || !s.pinLive p then some 5 else if read && s.placeBad p then some 7 else none
/-- Source bytes in destination order; a byte that an earlier one has read already is not read again (R218). -/
def State.copyRead (s : State) (c : Copy) : List (Option DWord) → Copy
  | [] => c
  | none :: rest => s.copyRead { c with buf := c.buf ++ [0] } rest
  | some a :: rest =>
    match (c.shape.moves.take c.buf.length).findIdx? fun m => m.2 == some a with
    | some j => s.copyRead { c with buf := c.buf ++ [c.buf.getD j 0] } rest
    | none =>
      match c.srcPlace a with
      | none => { c with cut := some (2, a) }
      | some p =>
        match s.copyCode? true p with
        | some k => { c with cut := some (k, a) }
        | none => s.copyRead { c with buf := c.buf ++ [s.placeByte p] } rest
/-- The engine reads the source bytes that come next and lie in one line, or padding. -/
def State.copyReadLine (s : State) (c : Copy) : State :=
  let rest := (c.shape.moves.drop c.buf.length).map (·.2)
  let line := fun (a : Option DWord) => a.map fun (a : DWord) => a.toNat / 192
  let run := rest.takeWhile fun a => line a == line (rest.headD none)
  let ps := run.filterMap fun a => a.bind c.srcPlace
  if s.copyWaits c ps then s
  else (s.copyTouch c.ctx false (firstOf id ps)).modCopy c.id fun c => s.copyRead c run

/-- The prefix of a line's bytes that can be written: none under an erased key, and none into a poisoned unit that they cover in
part (R200); with the code and address of the first byte that cannot. -/
def State.copyPrefix (s : State) : Nat → List (DWord × Place) → Option (Nat × DWord) → List (DWord × Place) × Option (Nat × DWord)
  | 0, _, f => ([], f)
  | n + 1, ms, f =>
    let ps := ms.map (·.2)
    match ms.findIdx? fun m => (s.copyCode? false m.2).isSome || (s.placeBad m.2 && !coversGrain ps m.2) with
    | none => (ms, f)
    | some i =>
      let m := ms.getD i (0, .pin 0 0 0)
      s.copyPrefix n (ms.take i) (some ((s.copyCode? false m.2).getD 7, m.1))
/-- The engine writes the bytes of the next destination line as one write and gives up the line (R218, R363); after the last, or
the last that could be read, the copy's bytes are moved. Lines are written in destination order (DEDUCED, log 32). -/
def State.copyWriteLine (s : State) (c : Copy) : State :=
  let rest := ((c.shape.moves.take c.buf.length).drop c.done).filterMap fun m => (c.placeOf m.1).map fun p => (m.1, p)
  match rest with
  | [] =>
    s.modCopy c.id fun c =>
      { c with moved := true, failed := c.cut.map fun k => ⟨1, k.1, c.done, k.2, 0xFF, false⟩ }
  | m :: _ =>
    let run := rest.takeWhile fun q => q.2.line == m.2.line
    if s.copyWaits c (run.map (·.2)) then s
    else
      let r := s.copyPrefix (run.length + 1) run none
      let ps := r.1.map (·.2)
      let s := ps.foldl (fun s p => s.placeClear p) (s.copyTouch c.ctx true ps)
      let s := ((ps.zip (c.buf.drop c.done)).foldl (fun s w => s.placePut w.1 w.2) s).copyWritten c ps
      let n := c.done + ps.length
      s.modCopy c.id fun c =>
        { c with done := n, moved := r.2.isNone && c.cut.isNone && decide (c.shape.moves.length ≤ n)
                 failed := r.2.map fun f => ⟨1, f.1, n, f.2, 0xFF, false⟩ }

/-- The address of a copy's byte that a key id reaches: of its destination, or of its source. -/
def Copy.underKey (c : Copy) (k : Nat) (m : DWord × Option DWord) : Option DWord :=
  let under := fun (p : Place) => match p with
    | .phys _ _ key _ => key == k
    | .pin .. => false
  if ((c.placeOf m.1).map under).getD false then some m.1
  else if ((m.2.bind c.srcPlace).map under).getD false then m.2 else none
/-- A key is erased while a copy runs: it ends before the first byte not yet written that lies under the key, or at once where all
of those are written (R197, R364; DEDUCED, log 32). -/
def Copy.keyErased (c : Copy) (k : Nat) : Copy :=
  if c.moved || c.failed.isSome then c
  else
    let hits := ((List.range c.shape.moves.length).zip c.shape.moves).filterMap fun m => (c.underKey k m.2).map fun a => (m.1, a)
    match hits.find? fun h => decide (c.done ≤ h.1), hits with
    | some h, _ => if h.1 < c.buf.length then { c with buf := c.buf.take h.1, cut := some (5, h.2) } else c
    | none, h :: _ => { c with failed := some ⟨1, 5, c.done, h.2, 0xFF, false⟩ }
    | none, [] => c

/-- The engine's next act on a copy: it translates the source pages, reads every source byte, and then writes, a line at a
time (R359, R363). -/
def State.copyStep (s : State) (c : Copy) : State :=
  match c.srcs with
  | none =>
    match s.copyMaps c.core c.ctx c.coh c.wg .r 192 (firstOf (fun (a : DWord) => a.toNat / 192) (c.shape.moves.filterMap (·.2))) with
    | (t, .error f) => t.modCopy c.id fun c => { c with failed := some (copyFault f.1 f.2) }
    | (t, .ok ls) => t.modCopy c.id fun c => { c with srcs := some ls }
  | some _ =>
    if c.cut.isNone && decide (c.buf.length < c.shape.moves.length) then s.copyReadLine c else s.copyWriteLine c

/-! ### Completion (R364, R366, R369) -/

/-- Destination bytes that a copy has written. -/
def Copy.count (c : Copy) : Nat :=
  match c.failed with
  | some f => f.count
  | none => c.shape.moves.length
/-- The completion record (R369). -/
def copyRecord (c : Copy) : List Byte :=
  let f := c.failed.getD ⟨0, 0, 0, 0, 0xFF, false⟩
  leField 1 f.status ++ leField 1 f.fcode ++ leField 2 c.tag.toNat ++ leField 4 c.batch.toNat ++ leField 8 c.count ++
  leField 8 f.faddr.toNat ++ leField 8 0
/-- The COPY_FAULT record of statuses 1 and 3 (R364, R392). (DESIGN CHOICE, log 33) -/
def State.copyFaultRecord (s : State) (c : Copy) (f : CopyFail) : State :=
  s.raise { TrapRec.empty with
    cause := 0x40, reason := f.status, ctx := c.ctx, depth := s.depth c.ctx, sdep := f.sdep, who := c.who, pc := c.pc
    pos := c.pos, cow := f.cow, addr := f.faddr
    aux := BitVec.ofNat 64 (c.tag.toNat * 2 ^ 48 + f.fcode % 16 * 2 ^ 32 + f.count % 2 ^ 24), aux2 := c.batch.setWidth 64
    lanes := laneVecOf (setBit 0 c.lane true) f.fcode }

/-- The batches that are complete leave the account, in number order (R366). -/
def Group.settleBatches (x : Group) : Nat → Group
  | 0 => x
  | n + 1 =>
    match x.batches with
    | [] => x
    | b :: rest =>
      if !b.copies.isEmpty then x
      else
        Group.settleBatches
          { x with batches := rest, doneBatch := b.n, report := x.report ++ b.fails.map fun f => (b.n, f) } n
/-- A batch that is not complete is covered by n (R367). -/
def Group.covered (x : Group) (n : Word) : Bool := x.batches.any fun b => decide ((n - b.n).toNat < 2 ^ 31)
/-- The failure that happened first. -/
def earliest : List (Word × CopyErr) → Option (Word × CopyErr)
  | [] => none
  | r :: rest =>
    match earliest rest with
    | none => some r
    | some q => if q.2.no < r.2.no then some q else some r
/-- The report: the earliest failure, the count of failures, and the batch (R367). -/
def Group.cwaitReport (x : Group) : DWord :=
  match earliest x.report with
  | none => 0
  | some (b, f) =>
    BitVec.ofNat 64 (2 ^ 63 + min x.report.length 32767 * 2 ^ 48 + f.status % 16 * 2 ^ 36 + f.fcode % 16 * 2 ^ 32 + b.toNat)
/-- A cwait ends: the report is written and its account cleared, even when it is discarded. -/
def State.cwaitEnd (s : State) (g p : Nat) (d : Dst) : State :=
  (s.modGroup g fun x =>
    let r := x.cwaitReport
    { (x.putDst d true false 1 fun _ => r.toNat) with report := [] }.modPath p fun y =>
      { y.advance with st := .ready, wake := .none }).haltStepped g
/-- Paths BLOCKED at a cwait whose covered batches are complete end it, saved groups' paths too (R367, R368). -/
def State.wakeCwaits (s : State) (g : Nat) : State :=
  (List.range 8).foldl (fun (s : State) p =>
    match s.group? g with
    | none => s
    | some x =>
      let y := x.path p
      match y.st, y.wake, decode y.word.toNat with
      | .blocked, .cwait n, some (.cwait d _) => if x.covered n then s else s.cwaitEnd g p d
      | _, _, _ => s) s

/-- A copy completes: its failure enters its group's account, its batch settles, and its workgroup may retire (R368). -/
def State.copyDone (s : State) (c : Copy) : State :=
  let err := (c.failed.map fun f => (⟨s.fresh, f.status, f.fcode⟩ : CopyErr)).toList
  let s := match c.failed with
    | some f => if f.status = 1 || f.status = 3 then s.copyFaultRecord c f else s
    | none => s
  let s := { s with fresh := s.fresh + 1, copies := s.copies.filter (·.id != c.id) }
  let s := s.modGroup c.group fun x =>
    let x :=
      if x.unb.contains c.id then { x with unb := x.unb.filter (· != c.id), unbFails := x.unbFails ++ err }
      else
        { x with batches := x.batches.map fun (b : Batch) =>
            if b.copies.contains c.id then { b with copies := b.copies.filter (· != c.id), fails := b.fails ++ err } else b }
    x.settleBatches x.batches.length
  (s.wakeCwaits c.group).settle.reap

/-- The completion record is written, or awaits a slot, or the copy ends in status 3 (R369, R364). -/
def copyFinish (s : State) (c : Copy) : State :=
  match c.ring with
  | none => s.copyDone c
  | some ring =>
    match s.ringAppend c.ctx ring 5 0 (copyRecord c) with
    | (t, .ok _) => t.copyDone c
    | (_, .full) => s
    | (t, .bad e) =>
      t.copyDone (if c.failed.isSome then c else { c with failed := some ⟨3, e.code, c.count, 0, e.sdep, e.cow⟩ })

/-- COPY_COMPLETE: the engine goes on with a copy, and completes it once it has moved or failed. -/
def copyComplete (k : Nat) (s : State) : Res :=
  match s.copy? k with
  | none => .next s
  | some c =>
    if c.moved || c.failed.isSome then .next (copyFinish s c)
    else
      let t := s.copyStep c
      match t.copy? k with
      | none => .next s
      | some c => .next (if c.moved || c.failed.isSome then copyFinish t c else t)

/-! ### cbatch and cwait (R366, R367) -/

def cbatchIssue (d : Nat) (s : State) : Res :=
  producing s [] (fun x => x.srcRegs (.s d) true) fun x p _ =>
    let n := x.nb + 1
    let s := { s with copies := s.copies.map fun (c : Copy) => if x.unb.contains c.id then { c with batch := n } else c }
    let s := s.modGroup x.uid fun x =>
      let x := { x with nb := n, unb := [], unbFails := [], batches := x.batches ++ [(⟨n, x.unb, x.unbFails⟩ : Batch)] }
      x.settleBatches x.batches.length
    .next (s.finish x.uid p d (n.setWidth 64))

def cwaitIssue (d : Dst) (n : Src) (s : State) : Res :=
  producing s [(n, false)] (fun x => x.dstRegs d true) fun x p _ =>
    let n := match (x.path p).wake with
      | .cwait n => n
      | _ => BitVec.ofNat 32 ((opI n false).val s x p 0)
    if x.covered n then
      .next ((s.modGroup x.uid fun x => x.modPath p fun y => { y with st := .blocked, wake := .cwait n, skip := false }).parkedShare x.core x.ctx)
    else .next (s.cwaitEnd x.uid p d)

/-! ### Meanings -/

def execCpy (d a : Nat) (s : State) := commit s (cpyIssue d a s)
def execCpyl (d a : Nat) (s : State) := commit s (cpylIssue d a s)
def execCopyComplete (k : Nat) (s : State) := commit s (copyComplete k s)
def execCbatch (d : Nat) (s : State) := commit s (cbatchIssue d s)
def execCwait (d : Dst) (n : Src) (s : State) := commit s (cwaitIssue d n s)

end Sys2Proof.Machine
end

