-- ==== Sys2Proof/Machine/Counters.lean ====
section
/-! DEFINITION. Barriers (R423 to R425), event counters and clocks (R426, R428), and the flush of trace
packets (R433). -/

namespace Sys2Proof.Machine

/-! ### Barriers -/

/-- A barrier form acts for its group, whatever the guard and the mask; a group with several paths stops (R423). -/
def barrier (s : State) (f : Group → Nat → Res) : Res :=
  withIssue s fun x p =>
    if 1 < x.usedPaths.length then .next (s.stopHere x.uid p (Cause.plain 0x23 (x.exec p))) else f x p
/-- What an arrival awaits: store-buffer entries, reads not yet determined, and accumulator updates and reads (R210, R271,
R424). -/
def Group.arrivable (x : Group) : Bool :=
  x.sbuf.isEmpty && x.mpend.isEmpty && !x.outs.any fun o => o.undecided || (match o.op with
    | .accr _ _ _ => o.poison == 0
    | _ => false)
/-- WPH of a group's workgroup, and CPH of its cohort. -/
def State.wphOf (s : State) (x : Group) : Word := ((s.wg? x.coh x.wg).map (·.wph)).getD 0
def State.cphOf (s : State) (x : Group) : Word := ((s.cohort? x.coh).map (·.cph)).getD 0
/-- A group arrives at its workgroup's current phase. -/
def State.arriveAt (s : State) (x : Group) : State :=
  s.modWg x.coh x.wg fun w => { w with arrived := if w.arrived.contains x.gi then w.arrived else w.arrived ++ [x.gi] }
/-- A barrier's path goes on at once. -/
def State.leaveBarrier (s : State) (g p : Nat) : State :=
  (s.modGroup g fun x => x.modPath p fun y => { y.advance with wake := .none }).haltStepped g
/-- A barrier's path becomes BLOCKED, its word issued (R442); a group whose last READY path it was may be parked (R349). -/
def State.blockAt (s : State) (x : Group) (p : Nat) (w : Wake) : State :=
  s.modGroup x.uid fun x => x.modPath p fun y => { y with st := .blocked, wake := w, skip := false }
/-- Parked groups are counted again on the group's core (R349). -/
def State.parkedAt (s : State) (x : Group) : State := s.parkedShare x.core x.ctx

/-- The wait of bar for the phase t. (DEDUCED, log 26) -/
def barWait (s : State) (x : Group) (p : Nat) (t : Word) : State :=
  if s.wphOf x != t then s.leaveBarrier x.uid p else ((s.blockAt x p (.bar t)).checkBar x.coh x.wg).parkedAt x
def barIssue (s : State) : Res :=
  barrier s fun x p =>
    drained s x p
      (match (x.path p).wake with
       | .bar t => .next (barWait s x p t)
       | _ =>
         if x.wv then .next (barWait (s.modGroup x.uid fun x => { x with wv := false }) x p x.wt)
         else if !x.arrivable then .next s
         else
           let t := s.wphOf x
           .next (barWait ((s.arriveAt x).modGroup x.uid fun x => { x with wt := t }) x p t))
def arriveIssue (s : State) : Res :=
  barrier s fun x p =>
    let t := s.wphOf x
    if (x.wv && x.wt == t) || !x.arrivable then .next s
    else
      let s := (s.arriveAt x).modGroup x.uid fun x => { x with wt := t, wv := true }
      .next ((s.pass x.uid p).checkBar x.coh x.wg)

def barcWait (s : State) (x : Group) (p : Nat) (t : Word) : State :=
  if s.cphOf x != t then s.leaveBarrier x.uid p else ((s.blockAt x p (.barc t)).checkBarc x.coh).parkedAt x
/-- The arrival of barc is a release at .co (R214, R425). -/
def barcIssue (s : State) : Res :=
  barrier s fun x p =>
    drained s x p
      (match (x.path p).wake with
       | .barc t => .next (barcWait s x p t)
       | _ =>
         if !x.arrivable then .next s
         else .next (barcWait ((s.l1Release x.uid).modGroup x.uid fun x => { x with barc := true }) x p (s.cphOf x)))

/-! ### Event counters (R426) -/

/-- A counter form: its range, and the release of evinc and evset, then its effect and old value at the hub. -/
def counterIssue (release : Bool) (d c : Nat) (srcs : List (Src × Bool)) (f : Group → DWord → Option DWord) (s : State) : Res :=
  once s ((.s c, true) :: srcs) (fun x => x.srcRegs (.s d) true) fun x p e =>
    let idx := (x.sGet c).toNat
    if ((s.ctx? x.ctx).map (·.counters)).getD 0 ≤ idx then .next (s.stopHere x.uid p (uniCause 0x1E e 0xE 0))
    else
      match (if release then s.orderHold x p .cx true true else (s, false)) with
      | (t, true) => .next t
      | (s, false) =>
        let old := s.counter x.ctx idx
        let t := match f x old with
          | some v => s.setCounter x.ctx idx v
          | none => s
        .next (t.finish x.uid p d old)
def evincIssue (d c v : Nat) (s : State) : Res :=
  counterIssue true d c [(.s v, true)] (fun x old => some (old + x.sGet v)) s
def evincIIssue (d c : Nat) (n : BitVec 24) (s : State) : Res :=
  counterIssue true d c [] (fun _ old => some (old + n.setWidth 64)) s
def evsetIssue (d c v : Nat) (s : State) : Res :=
  counterIssue true d c [(.s v, true)] (fun x _ => some (x.sGet v)) s
def evrdIssue (d c : Nat) (s : State) : Res := counterIssue false d c [] (fun _ _ => none) s

/-! ### Clocks (R428) -/

def clkIssue (d : Nat) (read : State → DWord) (s : State) : Res :=
  once s [] (fun x => x.srcRegs (.s d) true) fun x p _ => .next (s.finish x.uid p d (read s))

/-! ### Trace packets (R433) -/

/-- TRACE_FLUSH: the packets held for a grid's session are written. -/
def traceFlushEvent (g : Nat) (s : State) : Res := .next (s.flushTrace g)

/-! ### Meanings -/

def execBar (s : State) := commit s (barIssue s)
def execBarc (s : State) := commit s (barcIssue s)
def execArrive (s : State) := commit s (arriveIssue s)
def execEvinc (d c v : Nat) (s : State) := commit s (evincIssue d c v s)
def execEvincI (d c : Nat) (n : BitVec 24) (s : State) := commit s (evincIIssue d c n s)
def execEvset (d c v : Nat) (s : State) := commit s (evsetIssue d c v s)
def execEvrd (d c : Nat) (s : State) := commit s (evrdIssue d c s)
def execClk (d : Nat) (s : State) := commit s (clkIssue d (·.cycle) s)
def execClkNs (d : Nat) (s : State) := commit s (clkIssue d (·.ns) s)
def execTraceFlush (l : Nat) (s : State) := commit s (traceFlushEvent l s)

end Sys2Proof.Machine
end

