-- ==== Sys2Proof/Machine/Routing.lean ====
section
/-! DEFINITION. The way of a record: up the context tree to a handler queue or to the host (R393, R394), the completion rings
of the functions (R452, R455), and the event that writes one record. -/

namespace Sys2Proof.Machine

/-! ### The host's completion rings (R304, R455) -/

/-- The function that carries what a context's tree sends to the host: that of its depth-1 ancestor, or function 0 (R452). -/
def State.funcOf (s : State) (ctx : Nat) : Nat :=
  ((s.funcs.find? fun f => f.fn != 0 && s.isUnder f.ctx ctx).map (·.fn)).getD 0
def State.func? (s : State) (fn : Nat) : Option Func := s.funcs.find? (·.fn == fn)
def State.modFunc (s : State) (fn : Nat) (f : Func → Func) : State :=
  { s with funcs := s.funcs.map fun x => if x.fn == fn then f x else x }
/-- A host ring, by its descriptor in host memory, where it is usable (R307, R467). Host memory can always be read and written
(DESIGN CHOICE, log 69). -/
def State.hostRing (s : State) (desc : DWord) (rsize : Nat) : Option Ring :=
  let bs := s.hostBytes desc.toNat 32
  let r := ringOf bs
  if r.log2n < 4 || 20 < r.log2n || leNat ((bs.drop 17).take 1) != rsize || r.base % 64 != 0 then none else some r
/-- Writes a record's entries into a function's completion ring: none while it is unusable or lacks room for them. CTR is a
counter of the function's context (DEDUCED, log 69). -/
def State.hostAppend (s : State) (f : Func) (es : List (List Byte)) : Option State :=
  match s.hostRing f.comp 5 with
  | none => none
  | some r =>
    if 2 ^ r.log2n < r.used + es.length then none
    else
      some ((List.range es.length).foldl (fun s i =>
        let t := r.tail + BitVec.ofNat 32 i
        let s := s.hostPut (r.slot 5 t).toNat (es.getD i [])
        (s.hostPut (f.comp.toNat + 12) (leBytes 4 (t + 1).toNat)).bumpCounter f.ctx r.ctr) s)
/-- SEQ of a completion entry. -/
def entrySeq (e : List Byte) : Word := BitVec.ofNat 32 (leNat (e.take 4))
/-- A record as two completion entries, with SEQ 0 in the first (DESIGN CHOICE, log 27). -/
def hostEntries (bytes : List Byte) : List (List Byte) := [leField 4 0 ++ (bytes.take 32).drop 4, bytes.drop 32]
/-- Whether what a function holds is a trap record, and not a completion. -/
def isHostRecord (e : List Byte) : Bool := e.length == 64
/-- Writes the completions and records that a function holds, in the order in which they arose, while its ring takes them; CMP is
the SEQ of the last completion (R304, R456, R468). -/
def State.hostDrain (s : State) (fn : Nat) : List (List Byte) → State
  | [] => s
  | e :: rest =>
    match (s.func? fn).bind fun f => s.hostAppend f (if isHostRecord e then hostEntries e else [e]) with
    | none => s
    | some t =>
      (t.modFunc fn fun f => { f with held := rest, cmp := if isHostRecord e then f.cmp else entrySeq e }).hostDrain fn rest
/-- A completion or a record joins what a function holds, and what its ring takes is written. -/
def State.hostJoin (s : State) (f : Func) (e : List Byte) : State :=
  let h := f.held ++ [e]
  (s.modFunc f.fn fun f => { f with held := h }).hostDrain f.fn h

/-! ### The handler chain (R393) -/

/-- Whether a context's handler queue takes records now (R393, R467). -/
def State.handlerOpen (s : State) (t : Context) : State × Bool :=
  if !t.hctlEn || s.isFrozen t.id || t.desc.hq == 0 then (s, false) else s.ringUsable t.id t.desc.hq 6
def State.routeGo (s : State) : Nat → Nat → Nat → State × Route
  | 0, u, esc => (s, ⟨none, u, esc⟩)
  | n + 1, u, esc =>
    match (s.parent u).bind s.ctx? with
    | none => (s, ⟨none, u, esc⟩)
    | some t =>
      match s.handlerOpen t with
      | (s, true) => (s, ⟨some t.id, u, esc⟩)
      | (s, false) => s.routeGo n t.id (esc + 1)
/-- The number of no context: for what a context that drevoke has removed had raised. -/
def noCtx : Nat := 4096
/-- The route of a record: the one it has taken while its target still takes records, or a new one, which for a context that
is gone goes on from there (R394). (DEDUCED, log 58) -/
def State.route (s : State) (h : HubRec) : State × Route :=
  match h.way with
  | some r =>
    let again := fun (s : State) (t : Nat) =>
      if r.via = noCtx then
        let q := s.routeGo 6 t (r.esc + 1)
        (q.1, { q.2 with via := if q.2.via = t then noCtx else q.2.via })
      else s.routeGo 6 h.rec_.ctx 0
    match r.target with
    | none => (s, r)
    | some k =>
      match s.ctx? k with
      | none => again s k
      | some t =>
        match s.handlerOpen t with
        | (s, true) => (s, r)
        | (s, false) => again s k
  | none => s.routeGo 6 h.rec_.ctx 0
/-- Every record that has no route yet takes one, before handlers open (R393). -/
def State.fixRoutes (s : State) : State :=
  s.hub.foldl (fun s h =>
    let r := s.route h
    { r.1 with hub := r.1.hub.map fun (k : HubRec) => if k.id == h.id then { k with way := some r.2 } else k }) s

/-! ### Writing a record (R394) -/

/-- Records in t's queue that the work of u or of its descendants raised. -/
def State.standingOf (s : State) (t u : Nat) : Nat :=
  (s.standing.filter fun r => r.queue == t && s.isUnder u r.ctx).length
/-- Writes one record where it goes. One for a handler queue stays in the hub while it cannot be written; one for the host joins
what its function holds. -/
def State.deliver (s : State) (h : HubRec) : State :=
  let r := s.route h
  let s : State := { r.1 with hub := r.1.hub.map fun (k : HubRec) => if k.id == h.id then { k with way := some r.2 } else k }
  let bytes := h.rec_.bytes r.2.esc
  let gone := fun (t : State) => { t with hub := t.hub.filter (·.id != h.id) }
  match r.2.target with
  | none =>
    let fn := s.funcOf h.rec_.ctx
    match s.func? fn with
    | none => s
    | some f => (gone s).hostJoin f bytes
  | some t =>
    if r.2.via != noCtx && decide (((s.ctx? r.2.via).map (·.hqcap)).getD 0 ≤ s.standingOf t r.2.via) then s
    else
      match s.ringAppend t (((s.ctx? t).map (·.desc.hq)).getD 0) 6 0 bytes with
      | (u, .ok i) => gone { u with standing := u.standing ++ [⟨t, i, h.rec_.ctx, h.rec_.token⟩] }
      | (u, _) => u
/-- Whether an earlier record of the same context waits. -/
def State.behind (s : State) (h : HubRec) : Bool := s.hub.any fun k => decide (k.id < h.id) && k.rec_.ctx == h.rec_.ctx
/-- Every record that waits is routed again where its way has closed, and then tried, in order. -/
def State.deliverAll (s : State) : State :=
  let t := s.fixRoutes
  t.hub.foldl (fun s h => if s.behind h then s else s.deliver h) t

/-- Records that wait to enter a context's queue (R399). -/
def State.heldFor (s : State) (ctx : Nat) : Nat := (s.hub.filter fun h => (s.route h).2.target == some ctx).length

/-- HANDLER_RECORD: one record reaches its ring. -/
def handlerRecordEvent (k : Nat) (s : State) : Res :=
  match s.hub.find? (·.id == k) with
  | none => .next s
  | some h => .next (if s.behind h then s else s.deliver h)

/-! ### Meanings -/

def execHandlerRecord (k : Nat) (s : State) := commit s (handlerRecordEvent k s)

end Sys2Proof.Machine
end

