-- ==== Sys2Proof/Machine/Contexts.lean ====
section
/-! DEFINITION. Contexts: dcreate (R380, R381), dgrant and dtake (R382), xinv (R379), keygen and keykill (R383 to R385). -/

namespace Sys2Proof.Machine

/-! ### Privileged forms (R63, R37) -/

/-- A privileged form runs once, in a control group. -/
def privileged (s : State) (srcs : List (Src × Bool)) (d : Nat) (f : Group → Nat → Word → Res) : Res :=
  withIssue s fun x p =>
    if x.control then once s srcs (fun x => x.srcRegs (.s d) true) f
    else .next (s.stopHere x.uid p (Cause.plain 0x03 (x.exec p)))

/-! ### Reads at issue (R381, R382, R418) -/

/-- A range cut at the ends of lines. -/
def linePieces : Nat → Nat → Nat → List (Nat × Nat)
  | 0, _, _ => []
  | fuel + 1, a, n =>
    if n = 0 then []
    else
      let k := min n (192 - a % 192)
      (a, k) :: linePieces fuel (a + k) (n - k)
/-- The places of the pieces. -/
def State.uniPlaces (s : State) (x : Group) : List (Nat × Nat) → State × Except TErr (List Place)
  | [] => (s, .ok [])
  | (a, n) :: rest =>
    match s.placeFor (some x.core) x.ctx x.coh x.wg a .r true with
    | (s, .error e) => (s, .error e)
    | (s, .ok p) =>
      match s.uniPlaces x rest with
      | (s, .error e) => (s, .error e)
      | (s, .ok ps) => (s, .ok (p.bytes n ++ ps))
/-- What a read at issue found: it waits, fails, meets poison, or has the bytes. -/
inductive UniGot where
  | wait
  | fail (e : TErr)
  | poison
  | bytes (bs : List Byte)
/-- A read of n bytes for a group, after its own earlier accesses to them and the copies that own lines (R206). -/
def State.uniGet (s : State) (x : Group) (p : Nat) (a n : Nat) : State × UniGot :=
  if x.acqHeld p s.fresh then (s, .wait)
  else
    match s.uniPlaces x (linePieces (n / 192 + 2) a n) with
    | (s, .error e) => (s, .fail e)
    | (s, .ok ps) =>
      let all : List LaneAcc := ps.map fun q => ⟨0, 0, some q, 0, 0⟩
      if (x.sbuf.any fun en => !en.isClean && accsOverlap en.accs en.bytes all 1) ||
          (x.outs.any fun o => o.undecided && accsOverlap o.accs o.bytes all 1) || ps.any (s.owned x.uid s.fresh) then (s, .wait)
      else if ps.any s.placeBad then (s, .poison)
      else (s.touchAll x true false all, .bytes (ps.map s.placeByte))
/-- The same at a multiple of `align`, its causes precise. -/
def uniBytes (a : DWord) (n align : Nat) (s : State) (x : Group) (p : Nat) (e : Word) (k : State → List Byte → Res) : Res :=
  if a.toNat % align != 0 then .next (s.stopHere x.uid p (uniCause 0x11 e 1 a))
  else
    match s.uniGet x p a.toNat n with
    | (_, .wait) => .next s
    | (t, .fail f) => uniFault t x p e a f
    | (t, .poison) => .next (t.stopHere x.uid p { uniCause 0x17 e 7 a with aux2 := (x.path p).pc })
    | (t, .bytes bs) => k t bs

/-! ### dcreate (R380, R381) -/

def descOf (bs : List Byte) : Desc :=
  let f := fun o n => sliceNat bs o n
  let w := fun o => BitVec.ofNat 64 (f o 8)
  { troot := w 0, spill := w 8, spilln := f 16 4, bint := f 20 4, pool := w 24, pooln := f 32 4
    chip := BitVec.ofNat 16 (f 36 2), hq := w 40, mbox := w 48, ctlq := w 56 }
/-- A field out of range, or a reserved one that is not zero. -/
def descBad (bs : List Byte) : Bool :=
  let d := descOf bs
  d.troot.toNat % 512 != 0 || d.spill.toNat % 12288 != 0 || decide (65535 < d.spilln) || decide (d.bint < 250) ||
  decide (1048576 < d.bint) || d.pool.toNat % 64 != 0 || d.hq.toNat % 32 != 0 || sliceNat bs 38 2 != 0 ||
  leNat (bs.drop 64) != 0
/-- Whether a chip can be reached: this one, or the peer of a link in service (R22, R458; DESIGN CHOICE, log 12). -/
def State.chipReached (s : State) (chip : BitVec 16) : Bool :=
  chip == 0xFFFF || chip == Config.thisChip || s.links.any fun l => l.2.up && l.2.peer.toNat == chip.toNat
/-- The lowest context number that is free. -/
def State.freeCtx (s : State) : Option Nat :=
  let used := s.contexts.map (·.id)
  (List.range 4096).find? fun n => !used.contains n
/-- The status of dcreate for a descriptor. -/
def State.createStatus (s : State) (ctx : Nat) (bs : List Byte) : Nat :=
  if 4 ≤ s.depth ctx then 1
  else if 255 ≤ (s.children ctx).length then 2
  else if s.freeCtx.isNone then 3
  else if descBad bs then 4
  else if !s.chipReached (descOf bs).chip then 5
  else 0
/-- A new context, active and without grants. -/
def State.create (s : State) (ctx n : Nat) (d : Desc) : State :=
  let budget := ((s.ctx? ctx).map (·.ebudget)).getD 0
  { s with contexts := s.contexts ++ [Context.new n (some ctx) (s.depth ctx + 1) d budget] }

def dcreateIssue (d r : Nat) (s : State) : Res :=
  privileged s [(.s r, true)] d fun x p e =>
    uniBytes (x.sGet r) 128 64 s x p e fun t bs =>
      let st := t.createStatus x.ctx bs
      let n := t.freeCtx.getD 0
      if st = 0 then .next ((t.create x.ctx n (descOf bs)).finish x.uid p d (BitVec.ofNat 64 n))
      else .next (t.finish x.uid p d (BitVec.ofNat 64 (st * 2 ^ 56)))

/-! ### Invalidation (R379) -/

/-- The base pages of a range, cut at 2^57. -/
def rangePages (a n : Nat) : Nat × Nat :=
  let top := min (a + n) (2 ^ 57)
  if n = 0 || top ≤ a then (0, 0) else (a / 12288, (top - 1) / 12288 + 1)
/-- Whether a copy still uses a translation through those pages: of a destination page with bytes still to be written, or of a
source line while not every source byte has been read (R362). -/
def Copy.uses (c : Copy) (e lo hi : Nat) : Bool :=
  !c.moved && c.failed.isNone &&
    ((c.pages.any fun m => tracePass e lo hi m.trace && c.left.any fun b => b.1.toNat / 12288 == m.index) ||
     (c.cut.isNone && decide (c.buf.length < c.shape.moves.length) && (c.srcs.getD []).any fun m => tracePass e lo hi m.trace))
/-- Store-buffer entries, copies and fetches in flight that use a translation through those pages (R379). -/
def State.users (s : State) (e lo hi : Nat) : List Nat :=
  (s.groups.flatMap fun x => (x.sbuf.filter fun en => tracePass e lo hi en.via).map (·.id)) ++
  ((s.copies.filter fun c => c.uses e lo hi).map (·.id)) ++
  ((s.icache.filter fun l => l.bytes.isEmpty && tracePass e lo hi l.via).map (·.id))
/-- Whether one of those is still to be performed. -/
def State.pendingUse (s : State) (ids : List Nat) (e lo hi : Nat) : Bool :=
  (s.groups.any fun x => x.sbuf.any fun en => ids.contains en.id) || (s.copies.any fun c => ids.contains c.id && c.uses e lo hi) ||
  s.icache.any fun l => l.bytes.isEmpty && ids.contains l.id
/-- Locked lines whose translation passes through the pages are written back and unlocked (R193). -/
def State.unlockVia (s : State) (e lo hi : Nat) : State :=
  let hit := fun (m : MSLine) => m.locked && tracePass e lo hi m.via
  let s := (s.cache.filter hit).foldl State.writeLine s
  { s with cache := s.cache.map fun (m : MSLine) => if hit m then { m with locked := false, via := [] } else m }

/-- The command that a path holds in progress at its word. -/
def State.cmd? (s : State) (x : Group) (p : Nat) : Option Cmd :=
  s.cmds.find? fun c => c.g == x.uid && c.p == p && c.pc == (x.path p).pc
def State.cmdDone (s : State) (x : Group) (p : Nat) : State :=
  { s with cmds := s.cmds.filter fun c => !(c.g == x.uid && c.p == p) }
/-- A command begins, in the place of any that its path left. -/
def State.cmdStart (s : State) (kind : CmdKind) (x : Group) (p target : Nat) (waits : List Nat) (lo hi : Nat) : State :=
  let t := s.cmdDone x p
  let c : Cmd :=
    { kind, g := x.uid, p, pc := (x.path p).pc, target, no := s.fresh, stage := 0, overtaken := false, waits, lo, hi }
  { t with fresh := s.fresh + 1, cmds := t.cmds ++ [c] }

/-- xinv's steps over pages of context e, then `done`: entries are removed at once, and their users are waited for. (DEDUCED, log 54) -/
def invalidate (s : State) (x : Group) (p e lo hi : Nat) (done : State → Res) : Res :=
  match s.cmd? x p with
  | some c =>
    if s.pendingUse c.waits e c.lo c.hi then .next s
    else done (((s.dropTrace e c.lo c.hi).unlockVia e c.lo c.hi).cmdDone x p)
  | none =>
    let ids := s.users e lo hi
    let t := s.dropTrace e lo hi
    if s.pendingUse ids e lo hi then .next (t.cmdStart .range x p e ids lo hi) else done (t.unlockVia e lo hi)

def xinvIssue (srcs : List (Src × Bool)) (range : Group → Nat × Nat) (s : State) : Res :=
  privileged s srcs 0 fun x p _ =>
    let r := range x
    invalidate s x p x.ctx r.1 r.2 fun t => .next (t.pass x.uid p)

/-! ### dgrant and dtake (R382) -/

/-- A counted holding. -/
def Context.holding (c : Context) (kind : Nat) : Nat :=
  match kind with
  | 0 => c.share
  | 2 => c.queues
  | 3 => c.store
  | 4 => c.hqcap
  | 5 => c.counters
  | 6 => c.lines
  | _ => c.link
def Context.hold (c : Context) (kind n : Nat) : Context :=
  match kind with
  | 0 => { c with share := n }
  | 2 => { c with queues := n }
  | 3 => { c with store := n }
  | 4 => { c with hqcap := n }
  | 5 => { c with counters := n, ev := c.ev.filter (·.1 < n) }
  | 6 => { c with lines := n }
  | _ => { c with link := n }
/-- Bits of s(V) that a counted kind reads, and its greatest value. -/
def countedBits (kind : Nat) : Nat :=
  match kind with
  | 2 => 7
  | 3 => 13
  | 4 => 16
  | 5 => 17
  | _ => 32
def countedMax (kind : Nat) : Nat :=
  match kind with
  | 2 => 64
  | 3 => 4096
  | 4 => 65535
  | 5 => 65536
  | _ => 2 ^ 32 - 1
/-- Kinds whose difference moves between parent and child. -/
def moves (kind : Nat) : Bool := kind == 2 || kind == 3 || kind == 5 || kind == 6
/-- Launches in the store of a context. -/
def State.storeUsed (s : State) (ctx : Nat) : Nat := (s.launches.filter (·.ctx == ctx)).length
/-- What the context holds of a kind itself. -/
def State.unpledged (s : State) (c : Context) (kind : Nat) : Nat :=
  if kind = 3 then c.store - s.storeUsed c.id else c.holding kind
/-- Whether a queue numbered n or above holds a launch, or a counter so numbered a parked record. -/
def State.queueBusy (s : State) (ctx n : Nat) : Bool := s.launches.any fun l => l.ctx == ctx && decide (n ≤ l.queue)
def State.counterBusy (s : State) (ctx n : Nat) : Bool :=
  s.pool.any fun r => r.ctx == ctx && (match r.parked with
    | some (i, _) => decide (n ≤ i)
    | none => false)
/-- The status of a change of a counted kind to n. -/
def State.countedStatus (s : State) (take : Bool) (par child : Context) (kind n : Nat) : Nat :=
  let old := child.holding kind
  let others := ((s.children par.id).filter (·.id != child.id)).foldl (fun t c => t + c.holding kind) 0
  if countedMax kind < n || (if take then decide (old < n) else decide (n < old)) then 3
  else if take then
    if (kind == 2 && s.queueBusy child.id n) || (kind == 3 && decide (n < s.storeUsed child.id)) ||
        (kind == 5 && s.counterBusy child.id n) then 4
    else 0
  else if (kind == 0 || kind == 7) && decide (2 ^ 32 < others + n) then 2
  else if moves kind && decide (s.unpledged par kind < n - old) then 2
  else if (kind == 2 && n != old && s.queueBusy par.id (par.holding 2 - (n - old))) ||
      (kind == 5 && n != old && s.counterBusy par.id (par.holding 5 - (n - old))) then 4
  else 0
/-- The change itself. -/
def State.countedSet (s : State) (par child : Context) (kind n : Nat) : State :=
  let old := child.holding kind
  let s := s.modCtx child.id fun c => c.hold kind n
  if moves kind then s.modCtx par.id fun c => c.hold kind (c.holding kind + old - n) else s

/-- dgrant of kind SCHED, BINT and KEYS: the status and the child. (DEDUCED, logs 56, 108) -/
def grantOther (par child : Context) (kind : Nat) (v : DWord) : Nat × Context :=
  let w := v.toNat
  if kind = 8 then
    let slice := fld w 48 10
    let bad := fld w 32 16 != 0 || slice = 0 || decide (1000 < slice) || decide (par.ebudget < w % 2 ^ 32)
    if bad then (3, child) else (0, { child with parkth := fld w 58 6, slice, ebudget := w % 2 ^ 32 })
  else if kind = 9 then
    let n := w % 2 ^ 21
    if n < 250 || 1048576 < n then (3, child)
    else (0, { child with bint := n, desc := { child.desc with bint := n } })
  else
    let k := w % 256
    let chip : BitVec 16 := BitVec.ofNat 16 (fld w 8 16)
    match (if chip == 0xFFFF || chip == Config.thisChip then par.keys.find? (·.1 == k) else none) with
    | none => (2, child)
    | some e => (0, if child.keys.any (·.1 == k) then child else { child with keys := child.keys ++ [e] })
/-- A change of a child's PARKTH counts its parked groups again on every core that runs it (R348, R349). -/
def State.parkedAll (s : State) (ctx : Nat) : State :=
  (((s.groups.filter fun x => x.ctx == ctx && x.resident && !x.retired).map (·.core)).eraseDups).foldl
    (fun s k => s.parkedShare k ctx) s
/-- dtake of a key. (DEDUCED, log 56) -/
def State.takeKey (s : State) (child : Context) (v : DWord) : State × Nat :=
  let k := v.toNat % 256
  let chip : BitVec 16 := BitVec.ofNat 16 (fld v.toNat 8 16)
  if (chip == 0xFFFF || chip == Config.thisChip) && child.keys.any (·.1 == k) then
    ({ s.modCtx child.id fun c => { c with keys := c.keys.filter (·.1 != k) } with
       flat := s.flat.filter fun f => !(s.isUnder child.id f.ctx && f.keys.contains k) }, 0)
  else (s, 3)

/-- A memory range as s(V) names it; none where a value is out of range. -/
def rangeOf (bs : List Byte) : Option (Nat × Nat) :=
  let a := sliceNat bs 0 8
  let n := sliceNat bs 8 8
  if a % 12288 != 0 || n % 12288 != 0 || n < 12288 || 2 ^ 57 < a + n then none else some (a, n)

/-- A status goes to s(d) and the latch. -/
def answer (s : State) (x : Group) (p d st : Nat) : Res := .next (s.finish x.uid p d (BitVec.ofNat 64 st))

/-- dgrant and dtake of MEMORY. -/
def memoryIssue (take : Bool) (d : Nat) (v : DWord) (par child : Context) (s : State) (x : Group) (p : Nat) (e : Word) : Res :=
  match s.cmd? x p with
  | some _ => invalidate s x p par.id 0 0 fun t => answer t x p d 0
  | none =>
    uniBytes v 16 8 s x p e fun t bs =>
      match rangeOf bs with
      | none => answer t x p d 3
      | some r =>
        if take then
          if child.ranges.contains r then
            let u := t.modCtx child.id fun c => { c with ranges := c.ranges.erase r }
            let pages := rangePages r.1 r.2
            invalidate u x p par.id pages.1 pages.2 fun t => answer t x p d 0
          else answer t x p d 3
        else if 64 ≤ child.ranges.length then answer t x p d 5
        else answer (t.modCtx child.id fun c => { c with ranges := c.ranges ++ [r] }) x p d 0

/-- dgrant or dtake. -/
def grantIssue (take : Bool) (d c v kind : Nat) (s : State) : Res :=
  privileged s [(.s c, true), (.s v, true)] d fun x p e =>
    let who := (x.sGet c).toNat % 2 ^ 12
    let w := x.sGet v
    match s.ctx? x.ctx, s.ctx? who with
    | some par, some child =>
      if child.parent != some x.ctx then answer s x p d 1
      else if kind = 1 then memoryIssue take d w par child s x p e
      else if kind = 8 || kind = 9 || (kind = 10 && !take) then
        if take then answer s x p d 3
        else
          let r := grantOther par child kind w
          answer (if r.1 = 0 then (s.modCtx who fun _ => r.2).parkedAll who else s) x p d r.1
      else if kind = 10 then
        let r := s.takeKey child w
        answer r.1 x p d r.2
      else
        let n := w.toNat % 2 ^ countedBits kind
        let st := s.countedStatus take par child kind n
        answer (if st = 0 then s.countedSet par child kind n else s) x p d st
    | _, _ => answer s x p d 1

/-! ### Keys (R383 to R385, R197) -/

/-- The lowest key id that no context holds. -/
def State.freeKey (s : State) : Option Nat :=
  ((List.range 255).map (· + 1)).find? fun k => !s.contexts.any fun c => c.keys.any (·.1 == k)
def keygenIssue (d : Nat) (s : State) : Res :=
  privileged s [] d fun x p _ =>
    match s.freeKey with
    | none => answer s x p d 0
    | some k =>
      let t : State := { s with
        keyInst := smSet 0 s.keyInst k s.nextInst, keyMaker := smSet 0 s.keyMaker k x.ctx, nextInst := s.nextInst + 1 }
      answer (t.modCtx x.ctx fun c => { c with keys := c.keys ++ [(k, false)] }) x p d k

/-- A landing in flight that reads under a key. -/
def State.keyInFlight (s : State) (k : Nat) : Bool :=
  s.groups.any fun x => x.outs.any fun o => o.undecided && o.accs.any fun a => match a.place with
    | some (.phys _ _ key _) => key == k
    | _ => false
/-- A window slot filled under an erased key has to be fetched again (R197). -/
def Slot.loses (k : Nat) : Slot → Slot
  | .fetching got keys => if keys.contains k then .fetching [] [] else .fetching got keys
  | .landed bs keys => if keys.contains k then .fetching [] [] else .landed bs keys
  | t => t
/-- The dirty sectors of lines under a key are lost: main memory's earlier ciphertext stands (R197). -/
def State.loseDirty (s : State) (k : Nat) : State :=
  let lines := ((s.cache.filter (·.key == k)).map (·.line)) ++ (s.l1.filter (·.key == k)).map (·.line)
  (s.stale.filter fun t => lines.contains (t.sector / 4)).foldl State.revert s
/-- A store-buffer entry writes under a key. -/
def SEntry.underKey (e : SEntry) (k : Nat) : Bool :=
  !e.isClean && e.accs.any fun a => match a.place with
    | some (.phys _ _ key _) => key == k
    | _ => false
/-- The key is erased: every copy of what was filled under it and every store-buffer entry under it go unwritten, copies under it
fail, and it stays as erased in the sets that hold it (R197, R316, R384, R385). The writers of the lines that leave the
memory-side cache are unknown from then on (R434). -/
def State.eraseKey (s : State) (k : Nat) : State :=
  let s := s.loseDirty k
  let gone := (s.cache.filter (·.key == k)).map (·.line)
  { s with
    keyInst := smSet 0 s.keyInst k 0
    cache := s.cache.filter (·.key != k)
    leftLines := gone ++ s.leftLines.filter (!gone.contains ·)
    l1 := s.l1.filter (·.key != k)
    icache := s.icache.filter (·.key != k)
    groups := s.groups.map fun (x : Group) =>
      { x with sbuf := x.sbuf.filter (!·.underKey k)
               subs := x.subs.map fun (u : Sub) => { u with slots := u.slots.map (Slot.loses k) } }
    copies := s.copies.map (·.keyErased k)
    segs := s.segs.filter fun (g : Seg) => !g.keys.contains k
    fills := s.fills.map fun (f : SegFill) => if f.keys.contains k then { f with got := [], keys := [] } else f
    flat := s.flat.filter fun f => !(f.keys.contains k || f.leaves.any (·.key == k))
    contexts := s.contexts.map fun (c : Context) =>
      { c with keys := c.keys.map fun e => if e.1 == k then (k, true) else e } }
/-- Whether an id names a key that keygen made, erased or not. -/
def State.keyMade (s : State) (k : Nat) : Bool :=
  smGet 0 s.keyInst k != 0 || s.contexts.any fun c => c.keys.any (·.1 == k)
def keykillIssue (d r : Nat) (s : State) : Res :=
  privileged s [(.s r, true)] d fun x p _ =>
    let k := (x.sGet r).toNat % 256
    if k = 0 then answer s x p d 2
    else if !s.keyMade k || !s.isUnder x.ctx (smGet 0 s.keyMaker k) then answer s x p d 1
    else if s.keyInFlight k then .next s
    else answer (s.eraseKey k).reap x p d 0

/-! ### Meanings -/

def execDcreate (d p : Nat) (s : State) := commit s (dcreateIssue d p s)
def execDgrant (d c v kind : Nat) (s : State) := commit s (grantIssue false d c v kind s)
def execDtake (d c v kind : Nat) (s : State) := commit s (grantIssue true d c v kind s)
def execXinv (a l : Nat) (s : State) :=
  commit s (xinvIssue [(.s a, true), (.s l, true)] (fun x => rangePages (x.sGet a).toNat (x.sGet l).toNat) s)
def execXinvAll (s : State) := commit s (xinvIssue [] (fun _ => rangePages 0 (2 ^ 57)) s)
def execKeygen (d : Nat) (s : State) := commit s (keygenIssue d s)
def execKeykill (d x : Nat) (s : State) := commit s (keykillIssue d x s)

end Sys2Proof.Machine
end

