-- ==== Sys2Proof/Machine/System.lean ====
section
/-! DEFINITION. hqpop and hqdone (R395 to R397), and the system words: context words (R348, R399), observation words (R429),
debug words (R438), device words (R302, R454 to R463), with QRESET (R405) and RPLCTL (R434). -/

namespace Sys2Proof.Machine

/-! ### hqpop (R395) -/

/-- The stop of a hub access through the issuing context's translation (R395, R396). -/
def hubStop (s : State) (x : Group) (p : Nat) (e : Word) (a : DWord) (f : TErr) : Res :=
  if f.code = 7 then .next (s.stopHere x.uid p { uniCause 0x17 e 7 a with aux2 := (x.path p).pc }) else uniFault s x p e a f

/-- The issuing context's handler queue: its descriptor as read, or what stops or ends the form. -/
inductive HqRes where
  | stop (e : TErr)
  | unusable
  | ring (r : Ring)
def State.hqRing (s : State) (ctx : Nat) (hq : DWord) : State × HqRes :=
  if hq = 0 then (s, .unusable)
  else
    match s.ringRead ctx hq 6 with
    | (s, .error e) => (s, if e.code = 0 then .unusable else .stop e)
    | (s, .ok r) => (s, .ring r)
/-- HQ of a context. -/
def State.hqOf (s : State) (ctx : Nat) : DWord := ((s.ctx? ctx).map (·.desc.hq)).getD 0

def hqpopIssue (d : Nat) (s : State) : Res :=
  privileged s [] d fun x p e =>
    let hq := s.hqOf x.ctx
    match s.hqRing x.ctx hq with
    | (t, .stop f) => hubStop t x p e hq f
    | (t, .unusable) => answer t x p d 0
    | (t, .ring r) =>
      let q := t.ringUsable x.ctx hq 6
      let t := q.1
      let take := ((t.ctx? x.ctx).map (·.take)).getD 0
      if !q.2 || take = r.tail then answer t x p d 0
      else .next ((t.modCtx x.ctx fun c => { c with take := take + 1 }).finish x.uid p d (r.slot 6 take))

/-! ### hqdone (R396, R397) -/

/-- What happens to the stopped work. -/
inductive Act where
  | resume
  | kill
  | redirect (a : DWord)

/-- Whether a path still stands in the stop that a token names. -/
def Path.standsIn (y : Path) (tok : Nat) : Bool :=
  match y.stop with
  | some k => k.token == tok && (y.st == .parked || (y.st == .regang && k.cause == 0x24))
  | none => false
/-- The path that a token names. -/
def State.stopped (s : State) (tok : Nat) : Option (Group × Nat) :=
  s.groups.findSome? fun x =>
    if x.retired then none else ((List.range 8).find? fun p => (x.path p).standsIn tok).map fun p => (x, p)

/-- Lanes that have not exited. -/
def Group.aliveMask (x : Group) : Word := (List.range 8).foldl (fun m q => m ||| quadMask q (x.quad q).alive) 0
/-- A lane's access translated again; where that fails, the lane keeps the place it had (DESIGN CHOICE, log 28). -/
def State.again (s : State) (x : Group) (n : Nat) (acc : Acc) (a : LaneAcc) : State × LaneAcc :=
  match a.place with
  | none => (s, a)
  | some _ =>
    match s.checkLane x n acc a.va with
    | (t, .ok q) => (t, { a with place := some q })
    | (_, .error _) => (s, a)
def State.againAll (s : State) (x : Group) (n : Nat) (acc : Acc) : List LaneAcc → State × List LaneAcc
  | [] => (s, [])
  | a :: rest =>
    let r := s.again x n acc a
    let q := r.1.againAll x n acc rest
    (q.1, r.2 :: q.2)
/-- A poisoned load is performed again in all its lanes; an atomic, in the requests that met poison (R397). -/
def State.reperform (s : State) (x : Group) (load : Nat) : State × Group :=
  let mine := x.outs.filter fun o => o.inst == load && o.poison != 0
  match mine with
  | [] => (s, x)
  | o :: _ =>
    match o.op with
    | .load _ =>
      let r := s.againAll x o.bytes .r o.whole
      let rs := requests r.2
      let os := (List.range rs.length).map fun i =>
        let as := rs.getD i []
        { o with
          id := load + i, accs := as, poison := 0, poisonVa := 0
          lanes := if o.whole.length = 1 then o.lanes else maskOf (as.map (·.lane)) &&& x.aliveMask }
      (r.1, { x with outs := (x.outs.filter fun q => !(q.inst == load && q.poison != 0)) ++ os })
    | _ =>
      (s, { x with outs := x.outs.map fun (q : Out) =>
        if q.inst == load && q.poison != 0 then
          { q with accs := (s.againAll x q.bytes .rw q.accs).2, poison := 0, poisonVa := 0 } else q })

/-- An act takes effect on a stopped path, whether resident or saved. -/
def State.act (s : State) (x : Group) (p : Nat) (a : Act) : State :=
  match (x.path p).stop with
  | none => s
  | some k =>
    match a with
    | .kill => s.killGroup x.uid
    | .redirect t =>
      let s := s.emit x.uid p 3 (x.path p).pc (x.mask p) 0 t.toNat
      s.modGroup x.uid fun x => x.modPath p fun y => y.redirected t
    | .resume =>
      if k.cause = 0x24 then
        (s.modGroup x.uid fun x => x.modPath p fun y => { y with stop := none }).regangCheck x.uid
      else if k.cause = 0x17 && k.load != 0 then
        let r := s.reperform x k.load
        r.1.setGroup (r.2.modPath p Path.resumed)
      else s.modGroup x.uid fun x => x.modPath p Path.resumed

/-- The record at an address that hqpop took from a context's queue and no hqdone has closed. -/
def State.popped? (s : State) (ctx : Nat) (r : Ring) (a : DWord) : Option Standing :=
  let take := ((s.ctx? ctx).map (·.take)).getD 0
  s.standing.find? fun k =>
    k.queue == ctx && r.slot 6 k.index == a && decide (1 ≤ (take - k.index).toNat) && decide ((take - k.index).toNat ≤ 2 ^ 20)
/-- HEAD advances over the records done at its front. -/
def headOver : Nat → Word → List Nat → Word × List Nat
  | 0, h, ds => (h, ds)
  | n + 1, h, ds => if ds.contains h.toNat then headOver n (h + 1) (ds.filter (· != h.toNat)) else (h, ds)
/-- Marks a record done and writes HEAD. -/
def State.closeRecord (s : State) (ctx : Nat) (hq : DWord) (r : Ring) (k : Standing) : State :=
  let ds := (((s.ctx? ctx).map (·.done)).getD []) ++ [k.index.toNat]
  let h := headOver ds.length r.head ds
  let s := (s.ctxWrite none ctx (hq + 8) (leBytes 4 h.1.toNat)).1
  { s.modCtx ctx fun c => { c with done := h.2 } with
    standing := s.standing.filter fun j => !(j.queue == ctx && j.index == k.index) }

def hqdoneIssue (d r : Nat) (srcs : List (Src × Bool)) (act : Group → Act) (s : State) : Res :=
  privileged s ((.s r, true) :: srcs) d fun x p e =>
    let hq := s.hqOf x.ctx
    match s.hqRing x.ctx hq with
    | (t, .stop f) => hubStop t x p e hq f
    | (t, .unusable) => answer t x p d 1
    | (t, .ring q) =>
      match t.popped? x.ctx q (x.sGet r) with
      | none => answer t x p d 1
      | some k =>
        match t.canWrite none x.ctx (pieces (hq + 8).toNat 4) with
        | (u, .error f) => hubStop u x p e (hq + 8) f
        | (u, .ok _) =>
          match u.ringUsable x.ctx hq 6 with
          | (u, false) => answer u x p d 1
          | (u, true) =>
            let u := u.closeRecord x.ctx hq q k
            match u.stopped k.token with
            | none => answer u.deliverAll x p d (if k.token = 0 then 0 else 2)
            | some w =>
              if k.token = 0 then answer u.deliverAll x p d 0
              else answer (u.act w.1 w.2 (act x)).deliverAll x p d 0

/-! ### Reading words (R398, R399) -/

/-- A scrub word after reset. -/
def ScrubWord.zero : ScrubWord := ⟨0, 0, 0⟩
/-- The device's word as it reads (R302, R454, R456, R458, R461, R463). (DESIGN CHOICE, log 70) -/
def State.devWord (s : State) (w : DevWord) : DWord :=
  let n : Nat := match w with
    | .channel k c =>
      let h := smGet Chan.zero s.chans (k * 48 + c)
      h.code.toNat * 2 ^ 63 + h.switches.toNat * 2 ^ 48 + h.ue * 2 ^ 32 + h.ce
    | .toggle k c =>
      let h := smGet Chan.zero s.chans (k * 48 + c)
      h.togDbi.toNat * 2 ^ 32 + h.togTm.toNat
    | .scrub k =>
      let h := smGet ScrubWord.zero s.scrubs k
      h.passes.toNat * 2 ^ 48 + h.next
    | .gang _ i => ofBits ((List.range 64).map fun b => s.gang.contains (64 * i + b))
    | .core c =>
      let h := smGet ⟨false, 0, 0⟩ s.coreWords c
      h.wdrn.toNat * 2 ^ 63 + h.ue * 2 ^ 32 + h.ce
    | .ring fn => ((s.func? fn).map fun f => f.acc.toNat * 2 ^ 32 + f.cmp.toNat).getD 0
    | .link l =>
      let h := smGet ⟨false, 0x7F, 0, 0⟩ s.links l
      h.up.toNat * 2 ^ 63 + h.peer.toNat * 2 ^ 56 + h.retry * 2 ^ 32 + h.downs
    | .boot => s.boot.state * 2 ^ 60 + s.boot.fail * 2 ^ 56 + s.boot.imgver.toNat
    | .nonce => s.boot.nonce.toNat
    | .ageing r =>
      let h := smGet ⟨0, 0⟩ s.ageing r
      h.plans.toNat * 2 ^ 48 + h.margin.toNat * 2 ^ 40 + min (s.ns.toNat / (3600 * 10 ^ 9)) (2 ^ 32 - 1)
  BitVec.ofNat 64 n

def Context.sched (c : Context) : Nat := c.parkth * 2 ^ 58 + c.slice * 2 ^ 48 + c.ebudget
/-- RPLCTL as it reads. -/
def Context.rplctl (c : Context) : Nat :=
  (bitAt (smGet 0 c.obs 0x2028).toNat 63).toNat * 2 ^ 63 + c.rplFull.toNat * 2 ^ 62 + c.rplNext
def isDebugWord (a : Nat) : Bool := a == 0x1000 || (decide (0x1040 ≤ a) && decide (a < 0x10C0) && a % 8 == 0)
def isObsWord (a : Nat) : Bool := decide (0x2000 ≤ a) && decide (a ≤ 0x2030) && a % 8 == 0
/-- A word of a context; none where it has no word. -/
def State.ctxWord (s : State) (c : Context) (a : Nat) : Option Nat :=
  if a = 0 then some c.sched
  else if a = 8 then some (s.eff c.id * 2 ^ 32 + (if c.ebudget = 2 ^ 32 - 1 then 2 ^ 32 - 1 else c.remaining))
  else if a = 0x10 then some (min (s.heldFor c.id) 65535 * 2 ^ 16 + c.hctlEn.toNat)
  else if a = 0x18 then some (c.t2 * 2 ^ 32 + c.t1)
  else if a = 0x20 then some 0
  else if isDebugWord a then some (smGet 0 c.dbg a).toNat
  else if a = 0x2028 then some c.rplctl
  else if isObsWord a then some (smGet 0 c.obs a).toNat
  else none

/-- The capabilities of the list (R453), each with its first word. -/
def capWords : List (Nat × DevWord) :=
  [(1, .channel 0 0), (2, .core 0), (3, .ring 0), (4, .link 0), (5, .boot), (6, .ageing 0)]
/-- ADDR of a capability: its first word's device-word address, and that word's offset in the window (R453). -/
def capAddr (k : Nat) : Nat := 2 ^ 31 + 8 * (Config.capFirst k % 2 ^ 28)
/-- The device word at an address (R399, R453). -/
def devWordAt (a : Nat) : Option DevWord :=
  match capWords.find? fun w => capAddr w.1 == a with
  | some w => some w.2
  | none => Config.otherWordAt a
/-- What an address word names: a status, a device word, or a word's address in a context. -/
inductive SysAt where
  | bad (st : Nat)
  | dev (w : DevWord)
  | word (c : Context) (a : Nat)
/-- The statuses of R398 that come before the word itself. (DEDUCED, log 55) -/
def State.sysAt (s : State) (iss : Nat) (q : DWord) : SysAt :=
  let who := q.toNat / 2 ^ 32 % 2 ^ 12
  let a := q.toNat % 2 ^ 32
  if 2 ^ 44 ≤ q.toNat then .bad 4
  else
    match s.ctx? who with
    | none => .bad 1
    | some c =>
      if !s.isUnder iss who then .bad 1
      else if 2 ^ 31 ≤ a then
        if (s.parent iss).isSome then .bad 2
        else if a % 8 != 0 then .bad 4
        else
          match devWordAt a with
          | none => .bad 2
          | some w => .dev w
      else if a % 8 != 0 then .bad 4
      else .word c a
/-- sysr's status and value. -/
def State.sysRead (s : State) (iss : Nat) (q : DWord) : Nat × DWord :=
  match s.sysAt iss q with
  | .bad st => (st, 0)
  | .dev w => (0, s.devWord w)
  | .word c a =>
    match s.ctxWord c a with
    | some n => (0, BitVec.ofNat 64 n)
    | none => (2, 0)

def sysrIssue (d a : Nat) (s : State) : Res :=
  withIssue s fun x p =>
    if !x.control then .next (s.stopHere x.uid p (Cause.plain 0x03 (x.exec p)))
    else
      once s [(.s a, true)] (fun x => x.srcRegs (.s d) true ++ x.srcRegs (.s (d + 1)) true) fun x p _ =>
        let r := s.sysRead x.ctx (x.sGet a)
        .next ((s.modGroup x.uid fun x => x.sSet (d + 1) (BitVec.ofNat 64 r.1)).finish x.uid p d r.2)

/-! ### Writing words (R398, R399, R405, R429, R434, R438) -/

/-- A field of the debug words that a write refuses (R438). -/
def debugBad (a v : Nat) : Bool :=
  if a = 0x1000 then v % 2 ^ 62 != 0
  else if a < 0x1080 then fld v 57 6 != 0 || v % 8 != 0
  else if (a - 0x1080) % 16 = 0 then 2 ^ 57 ≤ v
  else fld v 40 21 != 0 || (bitAt v 63 && v % 2 ^ 40 == 0)
/-- A field of the observation words that a write refuses, or a change that an open EN refuses (R429). -/
def Context.obsBad (c : Context) (a v : Nat) : Bool :=
  let on := fun ctl => bitAt (smGet 0 c.obs ctl).toNat 63
  let old := (smGet 0 c.obs a).toNat
  let ring := fun ctl => decide (2 ^ 57 ≤ v) || v % 32 != 0 || (on ctl && v != old)
  if a = 0x2000 then
    v % 2 ^ 58 != 0 || decide (fld v 58 5 < 8) || decide (20 < fld v 58 5) || (on a && fld v 58 5 != fld old 58 5)
  else if a = 0x2008 then ring 0x2000
  else if a = 0x2010 then v % 2 ^ 62 != 0
  else if a = 0x2020 then ring 0x2010
  else if a = 0x2028 then fld v 12 50 != 0
  else if a = 0x2030 then ring 0x2028
  else false

/-- RPLCTL.EN opens or ends a recording session (R434). Records still held are kept: none is dropped (R436). (DEDUCED, log 38) -/
def State.setRecording (s : State) (c : Context) (en : Bool) : State :=
  let old := bitAt (smGet 0 c.obs 0x2028).toNat 63
  let s := s.modCtx c.id fun c => { c with obs := smSet 0 c.obs 0x2028 (BitVec.ofNat 64 (en.toNat * 2 ^ 63)) }
  if en && !old then s.modCtx c.id fun c => { c with rplNext := 1, rplFull := false }
  else if old && !en then
    { s with
      cache := s.cache.map fun (m : MSLine) => { m with clock := 0, writer := 0 }
      leftLines := []
      groups := s.groups.map fun (x : Group) => if x.ctx == c.id then { x with rnum := 0, gclk := 0, maxw := [] } else x }
  else s

/-- DONE of a launch that a reset discards; its packet is read if it has not been (DEDUCED, log 29). -/
def State.launchDone (s : State) (l : Launch) : Option Nat :=
  if l.read then l.pkt.done
  else
    match (s.ctxRead none l.via l.addr 128 .r).2 with
    | .ok bs => (parsePacket bs).done
    | .error _ => none
/-- A launch's grids offer no more. Those with a cohort placed, and every grid that a walk has started, remain until they
complete; a launch with neither is discarded. -/
def State.endGrids (s : State) (l cause : Nat) : State :=
  let graph := ((s.launch? l).map (·.walk.isSome)).getD false
  let s := (s.gridsOf l).foldl (fun s g => s.closeSession g.uid (some cause)) s
  { s with
    grids := (s.grids.filter fun g => g.launch != l || graph || g.placed != 0).map fun (g : Grid) =>
      if g.launch == l then { g with pkt := { g.pkt with grid := g.placed } } else g }
/-- QRESET of a queue (R405): pending launches go, started grids are killed; the launches whose grids remain. -/
def State.queueReset (s : State) (ctx q cause : Nat) : State × List Nat :=
  let ls := s.launches.filter fun l => l.ctx == ctx && l.queue == q
  let grids := fun (s : State) => (ls.flatMap fun l => s.gridsOf l.uid).map (·.uid)
  let victims := (s.groups.filter fun x => (x.grid.map (grids s).contains).getD false && !x.retired).map (·.uid)
  let cohs := (s.cohorts.filter fun k => (k.grid.map (grids s).contains).getD false).map (·.uid)
  let s := (s.killGroups victims).killCopies fun c => cohs.contains c.coh
  let s := ls.foldl (fun s l => s.endGrids l.uid cause) s
  let s := ls.foldl (fun (s : State) l =>
    if (s.gridsOf l.uid).isEmpty then (s.freeLaunch l.uid).doneUp ctx (s.launchDone l)
    else s.modLaunch l.uid fun l =>
      { l with read := true, pkt := { l.pkt with done := s.launchDone l }, walk := l.walk.map fun w => { w with ended := true } }) s
  (s, (s.launches.filter fun l => l.ctx == ctx && l.queue == q).map (·.uid))

/-- A sysw of a context word: its status, and the launches whose completion it waits for. -/
def State.writeWord (s : State) (iss : Nat) (c : Context) (a v : Nat) : State × Nat × List Nat :=
  let ok := fun (t : State) => (t, 0, ([] : List Nat))
  let no := fun st => (s, st, ([] : List Nat))
  if (s.ctxWord c a).isNone then no 2
  else if a = 0 || a = 8 then no 3
  else if a = 0x10 then
    if 2 ^ 32 ≤ v || fld v 1 15 != 0 || (bitAt v 0 && c.desc.hq == 0) then no 4
    else ok ((s.fixRoutes.modCtx c.id fun c => { c with hctlEn := bitAt v 0 }).deliverAll)
  else if a = 0x18 then
    let t1 := v % 2 ^ 32
    let t2 := v / 2 ^ 32
    if iss = c.id then no 3
    else if t1 = 0 || 999999 < t1 || t2 ≤ t1 || 1000000 < t2 then no 4
    else ok (s.modCtx c.id fun c => { c with t1, t2 })
  else if a = 0x20 then
    let cause := fld v 8 8
    if 2 ^ 16 ≤ v || fld v 6 2 != 0 || cause = 0 || 0x7F < cause || c.queues ≤ v % 64 then no 4
    else
      let r := s.queueReset c.id (v % 64) cause
      (r.1, 0, r.2)
  else if isDebugWord a then
    if debugBad a v then no 4 else ok (s.modCtx c.id fun c => { c with dbg := smSet 0 c.dbg a (BitVec.ofNat 64 v) })
  else if c.obsBad a v then no 4
  else if a = 0x2028 then ok (s.setRecording c (bitAt v 63))
  else
    let t := s.modCtx c.id fun c => { c with obs := smSet 0 c.obs a (BitVec.ofNat 64 v) }
    ok (if a = 0x2000 && !bitAt (smGet 0 c.obs a).toNat 63 then
      { t with samp := t.samp.filter fun e => t.coreCtx (e.1 / 4) != some c.id } else t)
/-- A sysw for an issuing context. -/
def State.sysWrite (s : State) (iss : Nat) (q v : DWord) : State × Nat × List Nat :=
  match s.sysAt iss q with
  | .bad st => (s, st, [])
  | .dev _ => (s, 3, [])
  | .word c a => s.writeWord iss c a v.toNat

/-- Launches that a QRESET waits for (R405). -/
def State.launchesLeft (s : State) (ls : List Nat) : Bool := s.launches.any fun l => ls.contains l.uid
/-- A sysw to a word that satisfies `fits`. -/
def syswIssue (fits : Nat → Bool) (d a v : Nat) (s : State) : Res :=
  privileged s [(.s a, true), (.s v, true)] d fun x p _ =>
    if !fits ((x.sGet a).toNat % 2 ^ 32) then .fault .formMismatch
    else
      match s.cmd? x p with
      | some c => if s.launchesLeft c.waits then .next s else answer (s.cmdDone x p) x p d 0
      | none =>
        let r := s.sysWrite x.ctx (x.sGet a) (x.sGet v)
        if r.2.2.isEmpty then answer r.1 x p d r.2.1
        else
          match r.1.group? x.uid with
          | none => .next r.1
          | some y => if y.retired then .next r.1 else .next (r.1.cmdStart .reset x p x.ctx r.2.2 0 0)

/-- Words that the table gives a row of their own. -/
def ownRow (a : Nat) : Bool := a == 0x10 || a == 0x20 || a == 0x2028 || (decide (0x1000 ≤ a) && decide (a ≤ 0x1FFF))

/-! ### Meanings -/

def execHqpop (d : Nat) (s : State) := commit s (hqpopIssue d s)
def execHqdoneResume (d r : Nat) (s : State) := commit s (hqdoneIssue d r [] (fun _ => .resume) s)
def execHqdoneKill (d r : Nat) (s : State) := commit s (hqdoneIssue d r [] (fun _ => .kill) s)
def execHqdoneRedirect (d r m : Nat) (s : State) :=
  commit s (hqdoneIssue d r [(.s m, true)] (fun x => .redirect (x.sGet m)) s)
def execSysr (d a : Nat) (s : State) := commit s (sysrIssue d a s)
def execSysw (d a v : Nat) (s : State) := commit s (syswIssue (fun w => !ownRow w) d a v s)
def execHctl (d a v : Nat) (s : State) := commit s (syswIssue (· == 0x10) d a v s)
def execQreset (d a v : Nat) (s : State) := commit s (syswIssue (· == 0x20) d a v s)
def execDebugWordWrite (d a v : Nat) (s : State) :=
  commit s (syswIssue (fun w => decide (0x1000 ≤ w) && decide (w ≤ 0x1FFF)) d a v s)
def execRplctl (d a v : Nat) (s : State) := commit s (syswIssue (· == 0x2028) d a v s)

end Sys2Proof.Machine
end

