-- ==== Sys2Proof/Machine/Debug.lean ====
section
/-! DEFINITION. mbox and its commands: RESUME, STEP, HALT, RDREG, WRREG and DUMP (R446 to R449), the debugger's writes (R89), and
the bytes of status words, path tables, join stacks and closure records (R90, R165, R169, R320). -/

namespace Sys2Proof.Machine

/-! ### What is saved of a group, as bytes -/

/-- The status word (R90). -/
def Group.statusWord (x : Group) : Nat :=
  x.wb % 2 ^ 12 * 2 ^ 52 + x.rlo % 2 ^ 12 * 2 ^ 40 + x.win / 64 * 2 ^ 35 + x.nres / 8 * 2 ^ 25 + x.defer.toNat * 2 ^ 24 +
  x.fl.iv.toNat * 2 ^ 23 + x.fl.dz.toNat * 2 ^ 22 + x.fl.of.toNat * 2 ^ 21 + x.fl.uf.toNat * 2 ^ 20 +
  x.fl.nx.toNat * 2 ^ 19 + x.rcq.length * 2 ^ 13
/-- The code of a path's STATE (R165). -/
def PState.code : PState → Nat
  | .free => 0
  | .ready => 1
  | .blocked => 2
  | .regang => 3
  | .halted => 4
  | .parked => 5
/-- A path-table entry (R165). -/
def Group.pathEntry (x : Group) (p : Nat) : List Byte :=
  let y := x.path p
  leField 16 (if y.st == .free then 0
    else (x.mask p).toNat * 2 ^ 96 + PState.code y.st * 2 ^ 93 + (if y.hdr then 0 else y.pos % 16 * 2 ^ 89) +
      y.hdr.toNat * 2 ^ 88 + y.pc.toNat % 2 ^ 57)
/-- A join-stack entry (R169). -/
def JEntry.bytes (e : JEntry) : List Byte :=
  leField 16 (e.full.toNat * 2 ^ 124 + e.pend.toNat * 2 ^ 120 + e.sw.toNat * 2 ^ 119 + e.ppc.toNat % 2 ^ 57 * 2 ^ 57 +
    e.rj.toNat % 2 ^ 57)
/-- The eight entries of a quad's join stack, from the bottom. -/
def Quad.stackBytes (q : Quad) : List Byte :=
  let es := q.stack.reverse
  (List.range 8).flatMap fun i => match es[i]? with
    | some e => e.bytes
    | none => leField 16 0

/-- A closure that still writes a register: no debugger's write stands in its place (R89). -/
def Closure.gives (c : Closure) (r : Reg) : Bool := c.regs.contains r && !c.discard.contains r
/-- The queue entry that will write a register before a closure runs. -/
def Group.boundEntry (x : Group) (id : Nat) (reg : Reg) (wide : Bool) : Option Nat :=
  let hits := (List.range x.rcq.length).filter fun i => match x.rcq[i]? with
    | some c => decide (c.id < id) && (c.gives reg || (wide && c.gives reg.succ))
    | none => false
  hits.getLast?
/-- The 4-bit state and the slot of a closure's operand (R320). -/
def Group.slotBytes (x : Group) (id : Nat) (c : CSlot) : Nat × Nat :=
  let rows := fun (r r2 : Nat) (wide : Bool) => r % 2 ^ 12 + (if wide then r2 % 2 ^ 12 * 2 ^ 12 + 2 ^ 24 else 0)
  match c with
  | .none => (0, 0)
  | .val v => (1, v.toNat)
  | .row r r2 wide => (2, rows r r2 wide)
  | .bound reg r r2 wide has _ _ =>
    let slot := if has then rows r r2 wide else 0
    match x.boundEntry id reg wide with
    | some e => (4, slot + e * 2 ^ 32)
    | none => if (x.poisonOf reg).isSome || (wide && (x.poisonOf reg.succ).isSome) then (5, slot) else (3, slot)
  | .latchOf k r _ =>
    match (List.range x.rcq.length).find? fun i => (x.rcq[i]?.map (·.id)) == some k with
    | some e => (4, rows r 0 false + e * 2 ^ 32)
    | none => (2, rows r 0 false)
  | .laneId quad => (6, 0x660 + quad.toNat)
/-- A closure record (R320). -/
def Group.closureBytes (x : Group) (c : Closure) : List Byte :=
  let a := x.slotBytes c.id c.a
  let b := x.slotBytes c.id c.b
  let k := x.slotBytes c.id c.c
  let d := x.slotBytes c.id c.d
  leField 8 c.word.toNat ++ leField 8 (c.pc.toNat % 2 ^ 57) ++ leField 4 c.lanes.toNat ++ leField 4 c.avail.toNat ++
  leField 2 (a.1 + b.1 * 2 ^ 4 + k.1 * 2 ^ 8 + d.1 * 2 ^ 12) ++ leField 1 (c.path % 8) ++ leField 1 (c.pos % 16) ++
  leField 4 0 ++ leField 8 a.2 ++ leField 8 b.2 ++ leField 8 k.2 ++ leField 8 d.2

/-- A group dump (R449). -/
def Group.dump (x : Group) : List Byte :=
  leField 8 x.statusWord ++ leField 8 x.kent.toNat ++ leField 8 x.slotBase.toNat ++ leField 4 x.who.toNat ++
  leField 4 x.rcq.length ++ (List.range 8).flatMap x.pathEntry ++
  (List.range 8).flatMap (fun q => leField 1 (x.quad q).stack.length) ++ leField 24 0 ++
  (List.range 8).flatMap (fun q => (x.quad q).stackBytes) ++ x.rcq.flatMap x.closureBytes

/-! ### Replies (R444, R447) -/

/-- Whether the STOP record under a path's token is still held for the mailbox (R304). -/
def State.stopHeld (s : State) (ctx : Nat) (y : Path) : Bool :=
  s.mboxHeld.any fun r => r.ctx == ctx && leNat (r.bytes.take 1) == 1 && leNat ((r.bytes.drop 28).take 4) == y.dtoken
/-- A released path is READY at its PC, for one instruction or for good (R442, R447, R448). -/
def Path.released (y : Path) (step : Bool) : Path :=
  { y.resumed with dtoken := 0, stepping := step, stepped := false, release := none }
/-- Paths whose release waited for their STOP record go on once it is written (R304, R468). -/
def State.releaseDue (s : State) (ctx : Nat) : State :=
  { s with groups := s.groups.map fun (x : Group) =>
      if x.ctx == ctx && !x.retired then
        { x with paths := x.paths.map fun (y : Path) => match y.release with
            | some b => if y.st == .halted && !s.stopHeld ctx y then y.released b else y
            | none => y }
      else x }
/-- Writes the mailbox records that a context's ring held, in order, while it takes them (R468). -/
def State.mboxFlush (s : State) (ctx : Nat) : State :=
  (((s.mboxHeld.filter (·.ctx == ctx)).foldl (fun (t : State × Bool) r =>
    if t.2 then t
    else
      match t.1.ringAppend ctx (t.1.mboxOf ctx) 6 0 r.bytes with
      | (u, .ok _) => ({ u with mboxHeld := u.mboxHeld.erase r }, false)
      | (_, _) => (t.1, true)) (s, false)).1).releaseDue ctx

/-- A command: its operation, target and operands. -/
structure MCmd where
  op : Nat
  reg : Nat
  lane : Nat
  path : Nat
  tok : Nat
  b : DWord
  c : DWord
  tag : Nat
/-- A REPLY about a path, or about none. (DESIGN CHOICE, log 60) -/
def State.reply (s : State) (ctx : Nat) (w : Option (Group × Nat)) (m : MCmd) (st : Nat) (value : DWord) (pending : Bool) :
    State :=
  match w with
  | some (x, p) =>
    let y := x.path p
    s.mboxPut ctx x.uid (mboxBytes x (s.depth ctx) p y.pc y.hdr (if y.hdr then 0 else y.pos)
      ⟨2, m.op, x.mask p, 0, pending, false, 0, st, m.tok, value, BitVec.ofNat 64 m.tag⟩)
  | none =>
    s.mboxPut ctx 0 (leField 1 2 ++ leField 1 m.op ++ leField 2 (ctxField ctx (s.depth ctx)) ++ leField 4 0 ++ leField 8 0 ++
      leField 4 0 ++ leField 4 0 ++ leField 2 0 ++ leField 1 st ++ leField 1 0 ++ leField 4 m.tok ++ leField 8 value.toNat ++
      leField 8 m.tag ++ leField 16 0)

/-! ### The commands -/

/-- RESUME and STEP: the path goes on, but stays HALTED until its STOP record is written (R304, R447). -/
def State.release (s : State) (x : Group) (p : Nat) (step : Bool) : State :=
  (s.modGroup x.uid fun x => x.modPath p fun y => { y with release := some step }).releaseDue x.ctx

/-- HALT: a path of the group that WHO names (R447); a REPLY about one that is FREE or PARKED has its entry's fields (R444). -/
def State.haltCmd (s : State) (ctx : Nat) (m : MCmd) : State :=
  match s.groups.find? fun x => x.ctx == ctx && !x.retired && x.who.toNat == m.tok with
  | none => s.reply ctx none m 3 0 false
  | some x =>
    match (x.path m.path).st with
    | .free | .parked => s.reply ctx (some (x, m.path)) m 3 0 false
    | .halted => s
    | _ => s.debugStop x.uid m.path ⟨5, 0, 0, 0, 0, false⟩ (Cause.plain 0x31 0)

/-- RDREG: the value of a register or latch and its pending mark; none for a selector that it does not read. -/
def State.rdreg (s : State) (x : Group) (p : Nat) (m : MCmd) : Option (DWord × Bool) :=
  let y := x.path p
  match Src.ofCode m.reg with
  | some (.v n) => if n < x.win then some ((s.laneReg x n m.lane).setWidth 64, x.pending (.v (x.wb + n))) else none
  | some (.s n) => some (x.sGet n, x.pending (.s n))
  | some (.m n) => some ((x.mRead p n).setWidth 64, x.pending (.m n))
  | some (.b n) =>
    if y.hdr || !latchWritten y.words y.pos n then none
    else if y.dlatch.any fun d => d.latch == n && laneOn d.lanes m.lane then some (0, true)
    else some ((smGet 0 y.latch (n * 32 + m.lane)).setWidth 64, false)
  | _ => none

/-- Landings and closures write a register no more (R89). -/
def Group.discardReg (x : Group) (r : Reg) : Group :=
  { x with outs := x.outs.map fun (o : Out) => if o.regs.contains r then { o with discard := o.discard ++ [r] } else o
           rcq := x.rcq.map fun (c : Closure) => if c.regs.contains r then { c with discard := c.discard ++ [r] } else c }
/-- WRREG (R85, R89); none for a selector that it refuses. Closures that wait on the register take the new value. -/
def Group.wrreg (x : Group) (m : MCmd) : Option Group :=
  let lanes : Word := m.c.setWidth 32
  match Src.ofCode m.reg with
  | some (.v n) =>
    if n < x.win then
      some (((lanesOf lanes).foldl (fun (x : Group) l => x.vSet n l (m.b.setWidth 32)) (x.discardReg (.v (x.wb + n)))).captureBound)
    else none
  | some (.s n) => some (((x.discardReg (.s n)).sSet n m.b).captureBound)
  | some (.m n) =>
    if n = 0 then none
    else
      let old := x.mGet n
      some (((x.discardReg (.m n)).mSet n ((old &&& ~~~lanes) ||| (m.b.setWidth 32 &&& lanes))).captureBound)
  | _ => none

/-- The context's own address at which a write of n bytes fails. -/
def State.failVa (s : State) (ctx : Nat) (a : DWord) (n : Nat) (e : TErr) : DWord :=
  let fails := fun (q : Nat × Nat) => match (s.canWrite none ctx [q]).2 with
    | .error _ => true
    | .ok _ => false
  if e.code = 7 then BitVec.ofNat 64 e.addr
  else match (pieces a.toNat n).find? fails with
    | some q => BitVec.ofNat 64 q.1
    | none => a
/-- RDREG, WRREG and DUMP on a halted path, with their replies. -/
def State.rdregCmd (s : State) (x : Group) (p : Nat) (m : MCmd) : State :=
  match s.rdreg x p m with
  | some v => s.reply x.ctx (some (x, p)) m 0 v.1 v.2
  | none => s.reply x.ctx (some (x, p)) m 2 0 false
def State.wrregCmd (s : State) (x : Group) (p : Nat) (m : MCmd) : State :=
  match x.wrreg m with
  | some y =>
    let rows := match Src.ofCode m.reg with
      | some (.v n) => [n]
      | _ => []
    ((s.setGroup y).saveRows x.uid rows).reply x.ctx (some (x, p)) m 0 0 false
  | none => s.reply x.ctx (some (x, p)) m 2 0 false
def State.dumpCmd (s : State) (x : Group) (p : Nat) (m : MCmd) : State :=
  if m.b.toNat % 64 != 0 then s.reply x.ctx (some (x, p)) m 4 m.b false
  else
    match s.ctxWrite none x.ctx m.b x.dump with
    | (t, .ok _) => t.reply x.ctx (some (x, p)) m 0 0 false
    | (t, .error e) => t.reply x.ctx (some (x, p)) m 4 (t.failVa x.ctx m.b x.dump.length e) false

/-- A debugger writes the sticky flags of a stopped path's group: R90 allows it, and no command of the mailbox does it (DESIGN
CHOICE, log 60). -/
def State.debugFlags (s : State) (g : Nat) (fl : FFlags) : State :=
  s.modGroup g fun x => if x.paths.any fun y => y.st == .halted then { x with fl } else x

/-- The halted path of a context that a current token names (R445). -/
def State.tokenPath (s : State) (ctx tok : Nat) : Option (Group × Nat) :=
  s.groups.findSome? fun x =>
    if x.ctx != ctx || x.retired || tok = 0 then none
    else ((List.range 8).find? fun p => (x.path p).st == .halted && (x.path p).dtoken == tok && (x.path p).release.isNone).map fun p => (x, p)

/-! ### mbox (R446) -/

def mcmdOf (a b c : DWord) (tag : BitVec 24) : MCmd :=
  let w := a.toNat
  { op := fld w 60 4, reg := fld w 48 12, lane := fld w 43 5, path := fld w 40 3, tok := w % 2 ^ 32, b, c, tag := tag.toNat }
/-- Whether a selector names a v register or a latch. -/
def laneSel (reg : Nat) : Bool :=
  match Src.ofCode reg with
  | some (.v _) | some (.b _) => true
  | _ => false
/-- An unassigned OP, a non-zero reserved bit, or a field out of range. -/
def MCmd.bad (m : MCmd) (a : DWord) : Bool :=
  m.op = 0 || decide (6 < m.op) || fld a.toNat 32 8 != 0 || (m.reg != 0 && m.op != 4 && m.op != 5) ||
  (m.lane != 0 && !(m.op == 4 && laneSel m.reg)) || (m.path != 0 && m.op != 3)
/-- What mbox waits for: the group's sysws in progress, its writes and its reads that write. -/
def State.mboxHolds (s : State) (x : Group) (p : Nat) : Bool :=
  (x.sbuf.any fun e => !e.isClean) || (s.cmds.any fun c => c.kind == .reset && c.g == x.uid && c.p != p) ||
  x.outs.any fun o => o.undecided && (match o.op with
    | .atom _ _ => true
    | _ => false)
/-- mbox with the command that acts on the path of a current token, or, for HALT, on the group that it names. -/
def mboxIssue (fits : Nat → Bool) (d a b c : Nat) (tag : BitVec 24) (act : State → Group → Nat → MCmd → State)
    (s : State) : Res :=
  privileged s [(.s a, true), (.s b, true), (.s c, true)] d fun x p _ =>
    let m := mcmdOf (x.sGet a) (x.sGet b) (x.sGet c) tag
    if !fits m.op then .fault .formMismatch
    else if s.mboxHolds x p then .next s
    else
      let r := (s.mboxFlush x.ctx).mboxUsable x.ctx
      if !r.2 then answer r.1 x p d 1
      else if m.bad (x.sGet a) then answer r.1 x p d 2
      else
        let t := r.1.finish x.uid p d 0
        if m.op = 3 then .next (t.haltCmd x.ctx m)
        else
          match t.tokenPath x.ctx m.tok with
          | some w => .next (act t w.1 w.2 m)
          | none => .next (t.reply x.ctx none m 1 0 false)

/-! ### Meanings -/

/-- RESUME; the unassigned operations also stand here, and are refused (R446). -/
def execResume (d a b c : Nat) (tag : BitVec 24) (s : State) :=
  commit s (mboxIssue (fun op => op ≤ 1 || 6 < op) d a b c tag (fun t x p _ => t.release x p false) s)
def execStep (d a b c : Nat) (tag : BitVec 24) (s : State) :=
  commit s (mboxIssue (· == 2) d a b c tag (fun t x p _ => t.release x p true) s)
def execHalt (d a b c : Nat) (tag : BitVec 24) (s : State) :=
  commit s (mboxIssue (· == 3) d a b c tag (fun t _ _ _ => t) s)
def execRdreg (d a b c : Nat) (tag : BitVec 24) (s : State) :=
  commit s (mboxIssue (· == 4) d a b c tag State.rdregCmd s)
def execWrreg (d a b c : Nat) (tag : BitVec 24) (s : State) :=
  commit s (mboxIssue (· == 5) d a b c tag State.wrregCmd s)
def execDump (d a b c : Nat) (tag : BitVec 24) (s : State) :=
  commit s (mboxIssue (· == 6) d a b c tag State.dumpCmd s)

end Sys2Proof.Machine
end

