-- ==== Sys2Proof/Machine/Ladder.lean ====
section
/-! DEFINITION. The escalation ladder: Dusk, Grace, Midnight and the eviction of cohorts (R400 to R405), and the advance of a
ring's HEAD that lets held records go (R468). -/

namespace Sys2Proof.Machine

/-! ### HEAD_ADVANCE_SEEN (R468) -/

/-- Writes the replay records held for a context, in order, while the log takes them (R436). -/
def State.replayFlush (s : State) (ctx : Nat) : State :=
  ((s.replayHeld.filter (·.ctx == ctx)).foldl (fun (t : State × Bool) r =>
    if t.2 then t
    else
      match t.1.ringAppend ctx (t.1.rplRing ctx) 5 0 r.bytes with
      | (u, .ok _) => ({ u with replayHeld := u.replayHeld.erase r }, false)
      | (_, _) => (t.1, true)) (s, false)).1
/-- The records that wait for a context's handler queue are tried, in order. -/
def State.deliverTo (s : State) (ctx : Nat) : State :=
  (s.hub.filter fun h => (s.route h).2.target == some ctx).foldl (fun s h => if s.behind h then s else s.deliver h) s
def headAdvance (r : RingRef) (s : State) : Res :=
  match r with
  | .handler ctx => .next (s.deliverTo ctx)
  | .mailbox ctx => .next (s.mboxFlush ctx)
  | .replay ctx => .next (s.replayFlush ctx)
  | .copies k =>
    match s.copy? k with
    | none => .next s
    | some c => .next (if c.moved || c.failed.isSome then copyFinish s c else s)
  | .host fn => .next ((s.hostDrain fn (((s.func? fn).map (·.held)).getD [])).deliverAll)

/-! ### Eviction (R400, R401) -/

/-- At rest: no path is READY and no clause is in progress (R400). -/
def Group.atRest (x : Group) : Bool := !x.paths.any fun y => y.st == .ready
/-- What a save waits for: landings, lput writes in the workgroup, closures that store, matrix updates, adapter work, the spill
handler and the store buffer (R119, R279, R319, R401). (DEDUCED, log 66) -/
def State.saveReady (s : State) (x : Group) : Bool :=
  (x.outs.all fun o => o.poison != 0) && x.sbuf.isEmpty && x.mpend.isEmpty && !adBusy s x && x.handler.isNone &&
  !s.lputs.any fun l => l.coh == x.coh && l.wg == x.wg
/-- The groups of a cohort that have not retired. -/
def State.cohGroups (s : State) (coh : Nat) : List Group := s.groups.filter fun g => g.coh == coh && !g.retired
/-- Whether a ladder at Dusk or later wants a cohort saved. -/
def State.duskWants (s : State) (c : Cohort) : Bool :=
  s.ladders.any fun l => l.ctx == c.ctx && decide (1 ≤ l.stage) && (s.cohGroups c.uid).any fun g => g.core == l.core
/-- The resident rows of groups go to their spill slots; of a group whose slot cannot be written, the hub keeps them (R73;
DESIGN CHOICE, log 17). -/
def State.saveStacks (s : State) (gs : List Nat) : State :=
  gs.foldl (fun s g =>
    match s.group? g with
    | none => s
    | some x =>
      let r := s.rowsOut x x.residentRows
      r.1.modGroup g fun x => { x with saved := r.2 }) s
/-- The key under which a context's save images stand: that of its spill area's pages, of the first where they name different keys
(R190; DESIGN CHOICE, log 106). -/
def State.imageKey (s : State) (ctx : Nat) : Option (Nat × Nat) :=
  match (s.hubTranslate none ctx (((s.ctx? ctx).map (·.desc.spill.toNat)).getD 0) .w).2 with
  | .ok (_, f, inst) => some (f.key, inst)
  | .error _ => none
/-- A cohort is saved: the lines that its groups dirtied are written back, its rows go to their slots, and the rest of its state
stays in its groups and workgroups, off the cores (R189, R214, R401). -/
def State.evict (s : State) (coh : Nat) : State :=
  let gs := (s.cohGroups coh).map (·.uid)
  let cores := ((s.cohGroups coh).map fun x => (x.core, x.ctx)).eraseDups
  let s := (s.cohGroups coh).foldl State.flushOf s
  let s := (s.l1Back fun l => l.writers.any fun w => gs.contains w.1).saveStacks gs
  let image := ((s.cohort? coh).map (·.ctx)).bind s.imageKey
  let t : State := { s with
    fresh := s.fresh + 1
    groups := s.groups.map fun (x : Group) =>
      if gs.contains x.uid then
        { x with resident := false, active := false, applies := [], waitSince := 0
                 paths := x.paths.map fun (y : Path) => { y with fetched := false } }
      else x
    wgs := s.wgs.map fun (w : Workgroup) => if w.coh == coh then { w with image } else w }
  let t := (t.modCohort coh fun c => { c with resident := false, evictNo := s.fresh }).endLadders
  cores.foldl (fun t k => t.parkedShare k.1 k.2) t

/-- COHORT_EVICT: a cohort whose groups are all at rest, or halted by Grace, is saved. -/
def cohortEvictEvent (coh : Nat) (s : State) : Res :=
  match s.cohort? coh with
  | none => .next s
  | some c =>
    let gs := s.cohGroups coh
    if c.resident && s.duskWants c && gs.all fun x => (x.atRest || s.graced x) && s.saveReady x then .next (s.evict coh)
    else .next s

/-! ### Dusk, Grace, Midnight (R402, R403) -/

def State.ladder? (s : State) (core ctx : Nat) : Option Ladder := s.ladders.find? fun l => l.core == core && l.ctx == ctx
/-- The ladder's stage becomes at least n. -/
def State.stageUp (s : State) (core ctx n : Nat) : State :=
  { s with ladders := s.ladders.map fun (l : Ladder) =>
      if l.core == core && l.ctx == ctx then { l with stage := max l.stage n } else l }
/-- T1 and T2 of a context in ns. -/
def State.t1Of (s : State) (ctx : Nat) : Nat := (((s.ctx? ctx).map (·.t1)).getD 200) * 1000
def State.t2Of (s : State) (ctx : Nat) : Nat := (((s.ctx? ctx).map (·.t2)).getD 2000) * 1000

def duskEvent (core ctx : Nat) (s : State) : Res := .next (s.stageUp core ctx 1).endLadders
/-- Grace halts every remaining group at its next instruction boundary, where it stands. -/
def graceEvent (core ctx : Nat) (s : State) : Res :=
  match s.ladder? core ctx with
  | none => .next s
  | some l => .next (if l.stage = 1 && l.start + s.t1Of ctx ≤ s.ns.toNat then s.stageUp core ctx 2 else s)

/-- A KILLED record for one core (R392, R403). (DESIGN CHOICE, log 59) -/
def State.killedRecord (s : State) (ctx core reason n : Nat) : State :=
  s.raise { TrapRec.empty with
    cause := 0x43, reason, ctx, depth := s.depth ctx, who := BitVec.ofNat 32 core, aux := BitVec.ofNat 64 (n % 2 ^ 16) }
/-- Trace sessions of grids that have groups among those killed close with a cause (R405). -/
def State.closeSessions (s : State) (gs : List Group) (cause : Nat) : State :=
  ((gs.filterMap (·.grid)).eraseDups).foldl (fun s g => s.closeSession g (some cause)) s
/-- MIDNIGHT: cohorts that are still not saved are killed on every core. (DEDUCED, log 67) -/
def midnightEvent (core ctx : Nat) (s : State) : Res :=
  match s.ladder? core ctx with
  | none => .next s
  | some l =>
    if l.stage < 2 || s.ns.toNat < l.start + s.t2Of ctx then .next s
    else
      let cs := s.cohorts.filter fun c =>
        c.ctx == ctx && c.resident && (s.cohGroups c.uid).any fun g => g.core == core
      let gs := cs.flatMap fun c => s.cohGroups c.uid
      let cause := if l.withdraw then 0x83 else 0x80
      let cores := (gs.map (·.core)).eraseDups
      let s := (s.killGroups (gs.map (·.uid))).closeSessions gs cause
      let s := cores.foldl (fun s k => s.killedRecord ctx k cause (gs.filter (·.core == k)).length) s
      .next s.endLadders

/-! ### Meanings -/

def execHeadAdvanceSeen (r : RingRef) (s : State) := commit s (headAdvance r s)
def execCohortEvict (coh : Nat) (s : State) := commit s (cohortEvictEvent coh s)
def execDusk (core ctx : Nat) (s : State) := commit s (duskEvent core ctx s)
def execGrace (core ctx : Nat) (s : State) := commit s (graceEvent core ctx s)
def execMidnight (core ctx : Nat) (s : State) := commit s (midnightEvent core ctx s)

end Sys2Proof.Machine
end

