-- ==== Sys2Proof/Machine/Image.lean ====
section
/-! DEFINITION. The checkpoint image (R413 to R415): its sections as bytes, and the subtree that an image builds. -/

namespace Sys2Proof.Machine

/-! ### Sections (R414) -/

/-- A section: its type, the image index of its context, and its bytes. -/
structure Sec where
  type : Nat
  ctxi : Nat
  bytes : List Byte

def up64 (n : Nat) : Nat := (n + 63) / 64 * 64
def padTo (n : Nat) (bs : List Byte) : List Byte := bs ++ List.replicate (n - bs.length) 0

/-- The descriptor in force (R380). -/
def Desc.bytes (d : Desc) : List Byte :=
  leField 8 d.troot.toNat ++ leField 8 d.spill.toNat ++ leField 4 d.spilln ++ leField 4 d.bint ++ leField 8 d.pool.toNat ++
  leField 4 d.pooln ++ leField 2 d.chip.toNat ++ leField 2 0 ++ leField 8 d.hq.toNat ++ leField 8 d.mbox.toNat ++
  leField 8 d.ctlq.toNat ++ leField 64 0
/-- A snapshot descriptor (R418). -/
def Snap.bytes (n : Snap) : List Byte :=
  leField 8 n.area.toNat ++ leField 4 n.npages ++ leField 4 0 ++ leField 8 n.log.toNat ++ leField 40 0

/-- The contexts of a subtree in the order of the image: parents first, index 0 the root. -/
def State.subtree (s : State) (t : Nat) : List Context := s.contexts.filter fun c => s.isUnder t c.id
def indexOf (cs : List Context) (id : Nat) : Nat := (cs.findIdx? (·.id == id)).getD 0

def State.contextSec (s : State) (cs : List Context) (t : Nat) (c : Context) : List Byte :=
  let par := if c.id = t then 0xFFFFFFFF else indexOf cs (c.parent.getD 0)
  leField 4 par ++ leField 1 (c.depth - s.depth t) ++ leField 1 (c.frozen.toNat + 2 * c.snap.isSome.toNat) ++ leField 2 0 ++
  c.desc.bytes ++ leField 8 c.sched ++ leField 8 (min (s.heldFor c.id) 65535 * 2 ^ 16 + c.hctlEn.toNat) ++
  leField 8 (c.t2 * 2 ^ 32 + c.t1) ++ leField 4 c.share ++ leField 4 c.lines ++ leField 4 c.link ++ leField 2 c.store ++
  leField 1 c.queues ++ leField 1 0 ++ leField 4 c.hqcap ++ leField 4 c.counters ++ leField 4 c.bint ++ leField 4 c.adCount ++
  leField 8 c.adBase.toNat ++ leField 8 0 ++
  padTo 1024 (c.ranges.flatMap fun r => leField 8 r.1 ++ leField 8 r.2) ++ leField 48 0
/-- Addresses of BP0 to BP7, then of the watch words in order. -/
def bpAddrs : List Nat := (List.range 8).map fun n => 0x1040 + 8 * n
def watchAddrs : List Nat := (List.range 8).map fun n => 0x1080 + 8 * n
def Context.observeSec (c : Context) : List Byte :=
  let w := fun (m : SMap DWord) a => leField 8 (smGet 0 m a).toNat
  leField 4 c.lserial.toNat ++ leField 4 c.sserial.toNat ++ w c.dbg 0x1000 ++ bpAddrs.flatMap (w c.dbg) ++
  watchAddrs.flatMap (w c.dbg) ++ w c.obs 0x2000 ++ w c.obs 0x2008 ++ w c.obs 0x2010 ++ w c.obs 0x2018 ++ w c.obs 0x2020 ++
  leField 8 c.rplctl ++ w c.obs 0x2030 ++ leField 56 0
/-- The key-set pairs, all of this chip. -/
def Context.keysSec (c : Context) : List Byte :=
  c.keys.flatMap fun k => leField 2 k.1 ++ leField 2 Config.thisChip.toNat
def Context.countersSec (c : Context) : List Byte := (List.range c.counters).flatMap fun i => leField 8 (smGet 0 c.ev i).toNat
/-- A pending launch. R414 names no values for its state byte: it is free (DESIGN CHOICE, log 22). -/
def Launch.sec (l : Launch) (state : Nat) : List Byte :=
  let node := (l.walk.map (·.node)).getD 0
  let counts := (l.walk.map (·.counts)).getD (List.replicate 8 0)
  padTo 128 (l.raw.take 128) ++ leField 1 l.queue ++ leField 1 state ++ leField 2 0 ++ leField 4 l.serial.toNat ++
  leField 8 node.toNat ++ padTo 32 (counts.flatMap (leField 4)) ++ leField 16 0
/-- A record's entry: its kind with the control mark (R450), region, counter and target. -/
def recSec (kind region : Nat) (r : Rec) (parked : Option (Nat × DWord)) : List Byte :=
  padTo 64 r.bytes ++ leField 2 (kind + r.control.toNat * 2 ^ 15) ++ leField 2 region ++
  leField 4 ((parked.map (·.1)).getD 0) ++ leField 8 ((parked.map fun (q : Nat × DWord) => q.2.toNat).getD 0)
def State.recordsSec (s : State) (ctx : Nat) : List Byte :=
  ((s.bins.filter (·.ctx == ctx)).flatMap fun b => b.recs.flatMap fun r => recSec 0 b.region r none) ++
  ((s.pool.filter (·.ctx == ctx)).flatMap fun r => recSec (if r.parked.isSome then 2 else 1) r.region r.rec_ r.parked)
/-- Saved cohorts of a context, and where each is saved: at its lowest spill slot. -/
def State.savedCohs (s : State) (ctx : Nat) : List Cohort := s.cohorts.filter fun c => c.ctx == ctx && !c.resident
/-- The physical address of a save image. -/
def State.savePlace (s : State) (ctx a : Nat) : Option Nat :=
  match (s.hubTranslate none ctx a .r).2 with
  | .ok (pa, _, _) => some pa
  | .error _ => none
def State.saveOf (s : State) (c : Cohort) : SaveCoh :=
  let gs := s.cohGroups c.uid
  let addr := ((gs.map (·.slotBase.toNat)).foldl (fun (m : Option Nat) a => some (match m with
      | none => a
      | some b => min a b)) none).getD 0
  { addr := BitVec.ofNat 64 addr, pa := s.savePlace c.ctx addr, coh := c, wgs := s.liveWgs c.uid, groups := gs }
/-- A saved cohort's entry. The length of a save image is not stated: it is free (DESIGN CHOICE, log 22). -/
def SaveCoh.sec (v : SaveCoh) (len : Nat) : List Byte :=
  leField 8 v.addr.toNat ++ leField 8 len ++ leField 1 v.wgs.length ++ leField 47 0

/-- Free values, one for each element of a list. -/
def freeList (s : State) (n : Nat) : State × List Nat :=
  ({ s with free := s.free + n }, (List.range n).map fun i => (Config.freeWord (s.free + i)).toNat)

/-- The sections of one context. -/
def State.secsOf (s : State) (cs : List Context) (t : Nat) (c : Context) : State × List Sec :=
  let i := indexOf cs c.id
  let ls := s.launches.filter (·.ctx == c.id)
  let vs := (s.savedCohs c.id).map s.saveOf
  let f := freeList s (ls.length + vs.length)
  let opt := fun (ty : Nat) (bs : List Byte) => if bs.isEmpty then [] else [(⟨ty, i, bs⟩ : Sec)]
  let launches := ((List.range ls.length).zip ls).flatMap fun k => k.2.sec (f.2.getD k.1 0)
  let cohorts := ((List.range vs.length).zip vs).flatMap fun k => k.2.sec (f.2.getD (ls.length + k.1) 0)
  (f.1, (⟨1, i, s.contextSec cs t c⟩ : Sec) :: opt 2 c.keysSec ++ opt 3 c.countersSec ++ opt 4 launches ++
    opt 5 (s.recordsSec c.id) ++ opt 6 cohorts ++
    opt 7 ((c.snap.map fun n => n.bytes ++ leField 8 n.next).getD []) ++ [(⟨8, i, c.observeSec⟩ : Sec)])
def State.secsAll (s : State) (cs : List Context) (t : Nat) : List Context → State × List Sec
  | [] => (s, [])
  | c :: rest =>
    let r := s.secsOf cs t c
    let q := r.1.secsAll cs t rest
    (q.1, r.2 ++ q.2)

/-- Directory entries and section bytes, from an offset on. -/
def layDown : Nat → List Sec → List Byte × List Byte
  | _, [] => ([], [])
  | off, k :: rest =>
    let r := layDown (off + up64 k.bytes.length) rest
    (leField 4 k.type ++ leField 4 k.ctxi ++ leField 4 off ++ leField 4 k.bytes.length ++ r.1,
     padTo (up64 k.bytes.length) k.bytes ++ r.2)
/-- The whole image of a subtree, and what the hub keeps of it. -/
def State.image (s : State) (t : Nat) : State × List Byte :=
  let cs := s.subtree t
  let r := s.secsAll cs t cs
  let start := up64 (128 + 16 * r.2.length)
  let d := layDown start r.2
  let len := start + d.2.length
  let header := leField 4 1 ++ leField 4 cs.length ++ leField 8 len ++ leField 4 r.2.length ++
    leField 2 Config.thisChip.toNat ++ leField 106 0
  ({ r.1 with
     saves := r.1.saves ++ cs.flatMap fun c => (s.savedCohs c.id).map s.saveOf
     launchSaves := r.1.launchSaves ++ (s.launches.filter fun l => cs.any (·.id == l.ctx)).map fun l => ⟨l, s.gridsOf l.uid⟩ },
   padTo start (header ++ d.1) ++ d.2)

/-! ### Reading an image (R415) -/

def secAt (img : List Byte) (k : Nat) : Sec :=
  let e := img.drop (128 + 16 * k)
  let f := fun o => sliceNat e o 4
  ⟨f 0, f 4, (img.drop (f 8)).take (f 12)⟩
/-- The unit of a section's size, and whether its size is that of one unit. -/
def secUnit (ty : Nat) : Nat × Bool :=
  match ty with
  | 1 => (1280, true)
  | 2 => (4, false)
  | 3 => (8, false)
  | 4 => (192, false)
  | 5 => (80, false)
  | 6 => (64, false)
  | 7 => (72, true)
  | _ => (256, true)
/-- Whether the directory is well formed. -/
def imageOk (img : List Byte) : Bool :=
  let n := sliceNat img 4 4
  let nd := sliceNat img 16 4
  let off := fun k => sliceNat img (128 + 16 * k + 8) 4
  let size := fun k => sliceNat img (128 + 16 * k + 12) 4
  let secs := (List.range nd).map (secAt img)
  sliceNat img 0 4 == 1 && n != 0 && decide (n ≤ 4096) && decide (128 + 16 * nd ≤ img.length) &&
  ((List.range nd).all fun k => off k % 64 == 0 && decide (128 + 16 * nd ≤ off k) && decide (off k + size k ≤ img.length)) &&
  (secs.all fun k =>
    let u := secUnit k.type
    decide (1 ≤ k.type) && decide (k.type ≤ 8) && decide (k.ctxi < n) && k.bytes.length % u.1 == 0 &&
      (!u.2 || k.bytes.length == u.1)) &&
  ((List.range n).all fun i => ((secs.filter fun k => k.type == 1 && k.ctxi == i).length == 1) &&
    ((secs.filter fun k => k.type == 8 && k.ctxi == i).length == 1))
def imageSec (img : List Byte) (ty i : Nat) : List Byte :=
  (((List.range (sliceNat img 16 4)).map (secAt img)).filter fun k => k.type == ty && k.ctxi == i).flatMap (·.bytes)

/-- What an image says of one context. -/
def imageParent (img : List Byte) (i : Nat) : Nat := sliceNat (imageSec img 1 i) 0 4
/-- The depth of a context below index 0 by its chain of parents; none where the chain does not end there within four steps. -/
def imageDepth (img : List Byte) : Nat → Nat → Option Nat
  | _, 0 => some 0
  | 0, _ => none
  | fuel + 1, i => (imageDepth img fuel (imageParent img i)).map (· + 1)
/-- The contexts of an image, parents before their children. -/
def imageOrder (img : List Byte) (n : Nat) : List Nat :=
  (List.range 5).flatMap fun d => (List.range n).filter fun i => imageDepth img 4 i == some d
/-- What a context itself holds of a counted kind in an image. -/
def imageHolding (img : List Byte) (i kind : Nat) : Nat :=
  let b := imageSec img 1 i
  match kind with
  | 0 => sliceNat b 160 4
  | 2 => sliceNat b 174 1
  | 3 => sliceNat b 172 2
  | 4 => sliceNat b 176 4
  | 5 => sliceNat b 180 4
  | 6 => sliceNat b 164 4
  | _ => sliceNat b 168 4
/-- With what its image descendants hold, for the kinds that move: what its parent grants it. -/
def imageTotal (img : List Byte) (n kind : Nat) : Nat → Nat → Nat
  | 0, _ => 0
  | fuel + 1, i =>
    imageHolding img i kind +
      (if moves kind then
        ((List.range n).filter fun j => j != 0 && imageParent img j == i).foldl (fun t j => t + imageTotal img n kind fuel j) 0
       else 0)

/-- A grant of a counted kind that must succeed. -/
def State.mustGrant (s : State) (par child kind n : Nat) : Option State :=
  match s.ctx? par, s.ctx? child with
  | some p, some c => if s.countedStatus false p c kind n = 0 then some (s.countedSet p c kind n) else none
  | _, _ => none
def State.mustGrants (s : State) (img : List Byte) (n i par child : Nat) : List Nat → Option State
  | [] => some s
  | k :: rest =>
    match s.mustGrant par child k (imageTotal img n k 6 i) with
    | some t => t.mustGrants img n i par child rest
    | none => none
/-- SCHED, BINT and KEYS, each of which must succeed. -/
def State.mustOther (s : State) (par child : Nat) : List (Nat × DWord) → Option State
  | [] => some s
  | (kind, v) :: rest =>
    match s.ctx? par, s.ctx? child with
    | some p, some c =>
      let r := grantOther p c kind v
      if r.1 = 0 then (s.modCtx child fun _ => r.2).mustOther par child rest else none
    | _, _ => none

/-- Ranges of a CONTEXT section. -/
def imageRanges (b : List Byte) : Option (List (Nat × Nat)) :=
  ((List.range 64).filter fun k => sliceNat b (208 + 16 * k + 8) 8 != 0).foldl (fun (acc : Option (List (Nat × Nat))) k =>
    match acc, rangeOf ((b.drop (208 + 16 * k)).take 16) with
    | some rs, some r => some (rs ++ [r])
    | _, _ => none) (some [])
/-- Fields of the OBSERVE section; sessions do not carry across an image. -/
def Context.observe (c : Context) (o : List Byte) : Context :=
  let w := fun off => BitVec.ofNat 64 (sliceNat o off 8)
  let dbg := (((0x1000, 8) :: (bpAddrs.map fun a => (a, 16 + (a - 0x1040))) ++ watchAddrs.map fun a => (a, 80 + (a - 0x1080)))).foldl
    (fun (m : SMap DWord) (e : Nat × Nat) => smSet 0 m e.1 (w e.2)) []
  let obs := [(0x2000, 144), (0x2008, 152), (0x2010, 160), (0x2018, 168), (0x2020, 176), (0x2030, 192)].foldl
    (fun (m : SMap DWord) (e : Nat × Nat) => smSet 0 m e.1 (w e.2)) []
  { c with
    lserial := BitVec.ofNat 32 (sliceNat o 0 4), sserial := BitVec.ofNat 32 (sliceNat o 4 4), dbg, obs
    rplNext := 1, rplFull := false }

/-- One context of an image is made and granted; `made` numbers those before it, by their index. -/
def State.loadCtx (s : State) (img : List Byte) (n iss i : Nat) (made : SMap Nat) : Option (State × Nat) :=
  let b := imageSec img 1 i
  let par := if i = 0 then iss else smGet 0 made (imageParent img i)
  let desc := (b.drop 8).take 128
  if imageParent img 0 != 0xFFFFFFFF || imageDepth img 4 i != some (sliceNat b 4 1) then none
  else if s.createStatus par desc != 0 then none
  else
    match s.freeCtx, imageRanges b with
    | some id, some ranges =>
      let t := s.create par id (descOf desc)
      match t.mustGrants img n i par id [0, 2, 3, 4, 5, 6, 7] with
      | none => none
      | some t =>
        let keys := (List.range ((imageSec img 2 i).length / 4)).map fun k =>
          (10, BitVec.ofNat 64 (sliceNat (imageSec img 2 i) (4 * k) 2 + sliceNat (imageSec img 2 i) (4 * k + 2) 2 * 2 ^ 8))
        match t.mustOther par id ((8, BitVec.ofNat 64 (sliceNat b 136 8)) :: (9, BitVec.ofNat 64 (sliceNat b 184 4)) :: keys) with
        | none => none
        | some t =>
          let flags := sliceNat b 5 1
          let sn := imageSec img 7 i
          let snap : Option Snap := if bitAt flags 1 then
              some ⟨BitVec.ofNat 64 (sliceNat sn 0 8), sliceNat sn 8 4, BitVec.ofNat 64 (sliceNat sn 16 8), sliceNat sn 64 8⟩
            else none
          let ev := (List.range (min (imageHolding img i 5) ((imageSec img 3 i).length / 8))).foldl
            (fun (m : SMap DWord) k => smSet 0 m k (BitVec.ofNat 64 (sliceNat (imageSec img 3 i) (8 * k) 8))) []
          some (t.modCtx id fun c =>
            { (c.observe (imageSec img 8 i)) with
              ranges, snap, ev, frozen := i == 0 || bitAt flags 0, hctlEn := bitAt (sliceNat b 144 8) 0
              t1 := sliceNat b 152 4, t2 := sliceNat b 156 4, adCount := sliceNat b 188 4
              adBase := BitVec.ofNat 64 (sliceNat b 192 8) }, id)
    | _, _ => none
def State.loadCtxs (s : State) (img : List Byte) (n iss : Nat) : List Nat → SMap Nat → Option (State × SMap Nat)
  | [], made => some (s, made)
  | i :: rest, made =>
    match s.loadCtx img n iss i made with
    | none => none
    | some (t, id) => t.loadCtxs img n iss rest (smSet 0 made i id)

/-- The walk that an image gives a launch: the node that it stands at, and its loop counts (R414). A node that the hub has read
already is not read again. -/
def imageWalk (b : List Byte) (old : Option Walk) : Walk :=
  let node := BitVec.ofNat 64 (sliceNat b 136 8)
  let counts := (List.range 8).map fun i => sliceNat b (144 + 4 * i) 4
  match old with
  | some w => { w with node, counts, cur := if w.node = node then w.cur else none }
  | none => ⟨node, none, counts, none, 0, false⟩
/-- A launch of an image; the grids that the hub keeps of it go on from where they were (DESIGN CHOICE, log 17). -/
def State.loadLaunch (s : State) (ctx : Nat) (b : List Byte) : State × List (Nat × Nat) :=
  let raw := b.take 128
  let queue := sliceNat b 128 1
  let serial := BitVec.ofNat 32 (sliceNat b 132 4)
  let uid := s.fresh
  let s := { s with fresh := s.fresh + 1 }
  let ctl := ((s.ctx? ctx).map fun c => bitAt c.desc.ctlq.toNat queue).getD false
  match s.launchSaves.reverse.find? fun v => v.launch.serial == serial && padTo 128 v.launch.raw == raw with
  | some v =>
    let gs := (List.range v.grids.length).zip v.grids
    let l := { v.launch with uid, ctx, queue, via := ctx, from_ := 0, traced := false }
    let pairs := gs.map fun k => (k.2.uid, s.fresh + k.1)
    let walk := l.walk.map fun w =>
      let w := imageWalk b (some w)
      { w with waits := w.waits.bind fun g => (pairs.find? (·.1 == g)).map (·.2) }
    ({ s with
       fresh := s.fresh + gs.length
       launches := s.launches ++ [{ l with walk }]
       grids := s.grids ++ gs.map fun k => { k.2 with uid := s.fresh + k.1, launch := uid, ctx, traced := false } }, pairs)
  | none =>
    let pkt := parsePacket raw
    let walk := if pkt.graph then some (imageWalk b none) else none
    let l : Launch :=
      { uid, ctx, queue, serial, addr := 0, via := ctx, from_ := 0, bound := 0, control := ctl, read := true
        pkt, raw, walk, traced := false }
    let s := { s with launches := s.launches ++ [l] }
    (if pkt.graph then s else (s.addGrid l serial pkt).1, [])
def State.loadLaunches (s : State) (ctx : Nat) : List (List Byte) → State × List (Nat × Nat)
  | [] => (s, [])
  | b :: rest =>
    let r := s.loadLaunch ctx b
    let q := r.1.loadLaunches ctx rest
    (q.1, r.2 ++ q.2)
/-- A saved cohort of an image, found where its save image lies; none where no save image does. (DEDUCED, log 63) -/
def State.loadCoh (s : State) (ctx : Nat) (pairs : List (Nat × Nat)) (b : List Byte) : Option State :=
  match (s.savePlace ctx (sliceNat b 0 8)).bind fun a => s.saves.reverse.find? fun v => v.pa == some a with
  | none => none
  | some v => some <|
    let coh := s.fresh
    let grid := fun (g : Option Nat) => g.bind fun k => (pairs.find? (·.1 == k)).map (·.2)
    let gs := (List.range v.groups.length).zip v.groups
    { s with
      fresh := s.fresh + 1 + gs.length
      cohorts := s.cohorts ++ [{ v.coh with uid := coh, ctx, grid := grid v.coh.grid, resident := false, evictNo := coh }]
      wgs := s.wgs ++ v.wgs.map fun (w : Workgroup) => { w with coh }
      groups := s.groups ++ gs.map fun k =>
        { k.2 with uid := s.fresh + 1 + k.1, ctx, coh, grid := grid k.2.grid, resident := false, active := false, rnum := 0 } }
/-- A record of an image enters a bin or the pool again, its bytes in a slot of the pool; none where the pool cannot take it. A parked
one whose target its counter has reached is due (R327). -/
def State.loadRec (s : State) (ctx : Nat) (b : List Byte) : Option State :=
  let r : Rec := { entry := 0, payload := [], control := bitAt (sliceNat b 64 2) 15, from_ := 0, bound := 0 : Rec }.ofBytes (b.take 64)
  let kind := sliceNat b 64 2 % 2 ^ 15
  let region := sliceNat b 66 2
  let pooled := fun (parked : Option (Nat × DWord)) => match s.poolPut ctx region r parked with
    | .ok t => some t
    | _ => none
  let idx := sliceNat b 68 4
  let target : DWord := BitVec.ofNat 64 (sliceNat b 72 8)
  if kind = 2 then
    (pooled (some (idx, target))).map fun t =>
      { t with pool := t.pool.map fun (q : PoolRec) =>
          if q.ctx == ctx && q.parked == some (idx, target) && decide (target.toNat ≤ (t.counter ctx idx).toNat) then
            { q with due := true } else q }
  else if kind = 1 then pooled none
  else
    match s.binRec ctx region r with
    | some t => some t
    | none => pooled none
/-- Pieces of n bytes. -/
def cut (n : Nat) (bs : List Byte) : List (List Byte) :=
  (List.range (bs.length / max n 1)).map fun i => (bs.drop (n * i)).take n
/-- Launches, records and cohorts of one context; records that are due take what room there is. -/
def State.loadWork (s : State) (img : List Byte) (i ctx : Nat) : Option State :=
  let r := s.loadLaunches ctx (cut 192 (imageSec img 4 i))
  let t := (cut 64 (imageSec img 6 i)).foldl (fun (s : Option State) b => s.bind fun t => t.loadCoh ctx r.2 b) (some r.1)
  ((cut 80 (imageSec img 5 i)).foldl (fun (s : Option State) b => s.bind fun t => t.loadRec ctx b) t).map fun t =>
    t.releaseDues (t.pool.filter (·.due)).length
/-- The whole subtree of an image as a child of a context; none where the image cannot be built. -/
def State.loadImage (s : State) (img : List Byte) (iss : Nat) : Option (State × Nat) :=
  let n := sliceNat img 4 4
  if !imageOk img then none
  else
    let order := imageOrder img n
    if order.length != n then none
    else
      match s.loadCtxs img n iss order [] with
      | none => none
      | some (t, made) =>
        ((List.range n).foldl (fun (s : Option State) i => s.bind fun t => t.loadWork img i (smGet 0 made i)) (some t)).map fun t =>
          (t, smGet 0 made 0)

end Sys2Proof.Machine
end

