-- ==== Sys2Proof/Machine/Subtree.lean ====
section
/-! DEFINITION. The subtree commands: dfreeze and dthaw (R411, R412), dckpt (R413, R415), drevoke (R416, R417) and dsnap (R418),
with their order (R410). -/

namespace Sys2Proof.Machine

/-! ### Order of commands (R409, R410) -/

/-- The target of a command: a proper descendant of the issuing context. -/
def State.targetOk (s : State) (iss t : Nat) : Bool := t != iss && (s.ctx? t).isSome && s.isUnder iss t
def CmdKind.orders : CmdKind → Bool
  | .range | .reset => false
  | _ => true
/-- Whether a command's path still stands at its word. (DEDUCED, log 79) -/
def State.cmdLive (s : State) (c : Cmd) : Bool :=
  match s.group? c.g with
  | none => false
  | some x => !x.retired && (x.path c.p).pc == c.pc && (x.path c.p).st != .free
/-- Whether the subtrees of two commands overlap; that of a dckpt.load is a new one below its target. -/
def State.cmdOverlaps (s : State) (c d : Cmd) : Bool :=
  if c.kind == .load then d.kind != .load && s.isUnder d.target c.target
  else if d.kind == .load then s.isUnder c.target d.target
  else s.isUnder c.target d.target || s.isUnder d.target c.target
/-- A dthaw does not wait for the dfreeze of its target, which it overtakes (R411), nor for a drevoke in its first step (R420). -/
def Cmd.passes (c d : Cmd) : Bool :=
  c.kind == .thaw && ((d.kind == .freeze && d.target == c.target && d.stage != 0) || (d.kind == .revoke && d.stage == 1))
/-- An earlier command on an overlapping subtree that has not completed. -/
def State.cmdBlocked (s : State) (c : Cmd) : Bool :=
  s.cmds.any fun d => decide (d.no < c.no) && d.kind.orders && s.cmdLive d && s.cmdOverlaps c d && !c.passes d
def State.modCmd (s : State) (no : Nat) (f : Cmd → Cmd) : State :=
  { s with cmds := s.cmds.map fun c => if c.no == no then f c else c }

/-- A command takes its place in the order, waits for its turn, and runs on the target that it was issued with; one that has gone
gives TARGET, whatever context has its number since. -/
def ordered (kind : CmdKind) (d t : Nat) (s : State) (x : Group) (p : Nat) (ok : State → Nat → Bool)
    (run : State → Cmd → Res) : Res :=
  match s.cmd? x p with
  | some c =>
    if !ok s c.target then answer (s.cmdDone x p) x p d 1
    else if c.stage = 0 && s.cmdBlocked c then .next s
    else run s c
  | none =>
    if !ok s t then answer s x p d 1
    else
      let u := s.cmdStart kind x p t [] 0 0
      match u.cmd? x p with
      | none => .next s
      | some c => if u.cmdBlocked c then .next u else run u c
/-- A command ends with a status. -/
def cmdEnd (s : State) (x : Group) (p d st : Nat) : Res := answer (s.cmdDone x p) x p d st

/-! ### dfreeze and dthaw (R411, R412) -/

/-- A mark is set: walks stop before their next node, records that wait for the subtree's queues are routed again, and the
ladders of its contexts start. (DEDUCED, log 65) -/
def State.freeze (s : State) (t : Nat) : State :=
  let s := s.modCtx t fun c => { c with frozen := true }
  let hold := fun (l : Launch) =>
    if s.isUnder t l.ctx then
      { l with walk := l.walk.map fun w => if w.cur.isSome then { w with cur := none, steps := w.steps - 1 } else w }
    else l
  let s : State := { s with launches := s.launches.map hold }
  let held := ((s.groups.filter fun g => g.resident && !g.retired && s.isUnder t g.ctx).map fun g => (g.core, g.ctx)).eraseDups
  (held.foldl (fun (s : State) k => s.callLadder k.1 k.2 false) s).deliverAll
/-- Whether a core holds a group of a subtree. -/
def State.treeResident (s : State) (t : Nat) : Bool :=
  s.groups.any fun g => g.resident && !g.retired && s.isUnder t g.ctx

def dfreezeIssue (d c : Nat) (s : State) : Res :=
  privileged s [(.s c, true)] d fun x p _ =>
    let t := (x.sGet c).toNat % 2 ^ 12
    ordered .freeze d t s x p (fun s t => s.targetOk x.ctx t) fun s k =>
      let t := k.target
      let s := if k.stage = 0 then (s.freeze t).modCmd k.no (fun c => { c with stage := 1 }) else s
      if k.overtaken then cmdEnd s x p d 5
      else if s.treeResident t then .next s
      else cmdEnd s x p d 0

/-- The blocked entries of a subtree go on ageing from now: the time it was frozen is none of their age. (DEDUCED, log 87) -/
def State.thawAges (s : State) (t : Nat) : State :=
  let later := fun (b : Blocked) => { b with ageAt := max b.ageAt s.ns.toNat }
  let thawed := fun (c : Context) => if s.isUnder t c.id then { c with blocked := c.blocked.map later } else c
  { s with contexts := s.contexts.map thawed }

/-- dthaw overtakes a dfreeze of its target, and has no effect on a drevoke in its first step (R420). (DEDUCED, log 64) -/
def dthawIssue (d c : Nat) (s : State) : Res :=
  privileged s [(.s c, true)] d fun x p _ =>
    let t := (x.sGet c).toNat % 2 ^ 12
    ordered .thaw d t s x p (fun s t => s.targetOk x.ctx t) fun s k =>
      let t := k.target
      let own := ((s.ctx? t).map (·.frozen)).getD false
      match s.cmds.find? fun k => k.kind == .revoke && k.target == t && k.stage == 1 && s.cmdLive k with
      | some k => if k.overtaken then cmdEnd (s.modCmd k.no (fun c => { c with overtaken := false })) x p d 0 else cmdEnd s x p d 3
      | none =>
        if !own then cmdEnd s x p d 3
        else
          let u := (s.fixRoutes.modCtx t fun c => { c with frozen := false }).thawAges t
          let passed := fun (k : Cmd) =>
            if k.kind == .freeze && k.target == t && k.stage != 0 then { k with overtaken := true } else k
          let u : State := { u with cmds := u.cmds.map passed }
          cmdEnd u x p d 0

/-! ### dckpt (R413, R415) -/

/-- Dirty lines that contexts of a subtree allocated are written back. -/
def State.cleanTree (s : State) (t : Nat) (which : MSLine → Bool) : State :=
  (s.cache.filter fun m => s.isUnder t m.ctx && which m).foldl State.writeLine s
/-- MEMORY with its lane code in bits [11:8]. (DEDUCED, log 61) -/
def memStatus (code : Nat) : Nat := 6 + code % 16 * 2 ^ 8
/-- Earlier accesses of the group that an image's accesses come after. -/
def Group.imageHolds (x : Group) : Bool := (x.sbuf.any fun e => !e.isClean) || x.outs.any Out.undecided

/-- The image holds each pending launch's packet: one that the launch unit has still to read is read first. (DEDUCED, log 61) -/
def dckptSaveIssue (d c a l : Nat) (s : State) : Res :=
  privileged s [(.s c, true), (.s a, true), (.s l, true)] d fun x p _ =>
    let t := (x.sGet c).toNat % 2 ^ 12
    let adr := x.sGet a
    ordered .save d t s x p (fun s t => s.targetOk x.ctx t) fun s k =>
      let t := k.target
      let s := s.modCmd k.no fun c => { c with stage := 1 }
      if !s.isFrozen t then cmdEnd s x p d 2
      else if (s.copies.any fun c => s.isUnder t c.ctx) || (s.launches.any fun l => s.isUnder t l.ctx && !l.read) || x.imageHolds then
        .next s
      else if adr.toNat % 64 != 0 then cmdEnd s x p d (memStatus 1)
      else
        let r := (s.cleanTree t fun _ => true).image t
        let fits := decide (r.2.length ≤ (x.sGet l).toNat)
        match r.1.ctxWrite none x.ctx adr (if fits then r.2 else r.2.take 128) with
        | (_, .error e) => cmdEnd s x p d (memStatus e.code)
        | (u, .ok _) => cmdEnd (if fits then u else { u with saves := s.saves, launchSaves := s.launchSaves }) x p d
            (if fits then 0 else 4)

/-- dckpt.load's result: its status and the new root's number, or MEMORY's code. -/
def loadEnd (s : State) (x : Group) (p d st low : Nat) : Res :=
  .next ((s.cmdDone x p).finish x.uid p d (BitVec.ofNat 64 (st * 2 ^ 56 + low)))
def dckptLoadIssue (d a l : Nat) (s : State) : Res :=
  privileged s [(.s a, true), (.s l, true)] d fun x p _ =>
    let adr := x.sGet a
    let room := (x.sGet l).toNat
    ordered .load d x.ctx s x p (fun _ _ => true) fun s _ =>
    if x.imageHolds then .next s
    else if adr.toNat % 64 != 0 then loadEnd s x p d 6 (1 * 2 ^ 8)
    else if room < 128 then loadEnd s x p d 7 0
    else
      match s.ctxRead none x.ctx adr 128 .r with
      | (t, .error e) => loadEnd t x p d 6 (e.code % 16 * 2 ^ 8)
      | (t, .ok h) =>
        let len := sliceNat h 8 8
        if room < len || len < 128 then loadEnd t x p d 7 0
        else
          match t.ctxRead none x.ctx adr len .r with
          | (t, .error e) => loadEnd t x p d 6 (e.code % 16 * 2 ^ 8)
          | (t, .ok img) =>
            match t.loadImage img x.ctx with
            | none => loadEnd t x p d 7 0
            | some r => loadEnd r.1 x p d 0 r.2

/-! ### drevoke (R416, R417) -/

/-- Step 2 and 3: every group is killed, sessions and snapshots close, and work that waits is discarded. -/
def State.revokeWork (s : State) (t : Nat) : State :=
  let mine := fun (c : Nat) => s.isUnder t c
  let gs := s.groups.filter fun g => mine g.ctx && !g.retired
  let s := (s.killGroups (gs.map (·.uid))).killCopies fun c => mine c.ctx
  let s := (s.sessions.filter fun z => mine z.ctx).foldl (fun (s : State) z => s.closeSession z.grid (some 0x81)) s
  let gone := fun (h : HubRec) => match (s.route h).2.target with
    | some q => mine q
    | none => false
  let regions := ((s.bins.filter fun b => mine b.ctx).map (·.region)).eraseDups
  regions.foldl State.refillAll { s with
    contexts := s.contexts.map (fun (c : Context) => if mine c.id then { c with snap := none } else c)
    launches := s.launches.filter fun l => !mine l.ctx
    grids := s.grids.filter fun g => !mine g.ctx
    bins := s.bins.filter fun b => !mine b.ctx
    pool := s.pool.filter fun r => !mine r.ctx
    hub := s.hub.filter fun h => !gone h }
/-- Whether an access of the subtree is still to come: of its groups, its copies or its fetches (R417). -/
def State.treeBusy (s : State) (t : Nat) : Bool :=
  (s.groups.any fun g => s.isUnder t g.ctx) || (s.copies.any fun c => s.isUnder t c.ctx) ||
  s.icache.any fun l => l.bytes.isEmpty && l.via.any (·.ctx == t)

/-- The records that a subtree raised outlive it: those in the hub keep their way, those in queues their place, and no
capacity of a context that is gone holds them (R394, R416; DEDUCED, log 58). -/
def State.orphan (s : State) (t : Nat) : State :=
  let mine := fun (c : Nat) => s.isUnder t c
  let s := s.fixRoutes
  { s with
    hub := s.hub.map fun (h : HubRec) =>
      if mine h.rec_.ctx then { h with way := h.way.map fun (r : Route) => if mine r.via then { r with via := noCtx } else r } else h
    standing := s.standing.map fun (r : Standing) => if mine r.ctx then { r with ctx := noCtx } else r }
/-- Keys that keygen made inside a subtree. -/
def State.keysOf (s : State) (t : Nat) : List Nat :=
  ((List.range 255).map (· + 1)).filter fun k => s.keyMade k && s.isUnder t (smGet 0 s.keyMaker k)
/-- What T's parent gets back of a kind. -/
def State.treeTotal (s : State) (t kind : Nat) : Nat := (s.subtree t).foldl (fun n c => n + c.holding kind) 0
/-- Steps 4 to 6: lines, keys, translations and segments go, holdings return, and the contexts leave the tree, with any launch that
has entered it since step 3. Commands that wait for a context of the subtree keep no target (R410). -/
def State.revokeTree (s : State) (t : Nat) : State :=
  let ids := (s.subtree t).map (·.id)
  let outside := fun (k : Nat) => k == 0 || s.contexts.any fun c => !ids.contains c.id && c.keys.any (·.1 == k)
  let s := s.cleanTree t fun m => outside m.key
  let unlock := fun (m : MSLine) => if ids.contains m.ctx then { m with locked := false, via := [] } else m
  let s : State := { s with cache := s.cache.map unlock }
  let s := ((s.keysOf t).foldl State.eraseKey s).orphan t
  let par := (s.parent t).getD 0
  let back := [2, 3, 5, 6].map fun k => (k, s.treeTotal t k)
  let s := back.foldl (fun (s : State) k => s.modCtx par fun c => c.hold k.1 (c.holding k.1 + k.2)) s
  { s with
    flat := s.flat.filter fun f => !ids.contains f.ctx
    segs := s.segs.filter fun (g : Seg) => !ids.contains g.ctx
    fills := s.fills.filter fun (f : SegFill) => !ids.contains f.ctx
    bprefs := s.bprefs.filter fun b => !ids.contains b.ctx
    standing := s.standing.filter fun r => !ids.contains r.queue
    mboxHeld := s.mboxHeld.filter fun r => !ids.contains r.ctx
    funcs := s.funcs.map fun (f : Func) => if ids.contains f.ctx then { f with ctx := noCtx } else f
    traceHeld := s.traceHeld.filter fun r => !ids.contains r.ctx
    replayHeld := s.replayHeld.filter fun r => !ids.contains r.ctx
    launches := s.launches.filter fun l => !ids.contains l.ctx
    grids := s.grids.filter fun g => !ids.contains g.ctx
    cmds := s.cmds.map fun (k : Cmd) => if ids.contains k.target then { k with target := noCtx } else k
    cohorts := s.cohorts.filter fun c => !ids.contains c.ctx
    contexts := s.contexts.filter fun c => !ids.contains c.id }.endLadders

def drevokeIssue (d c : Nat) (s : State) : Res :=
  privileged s [(.s c, true)] d fun x p _ =>
    let t := (x.sGet c).toNat % 2 ^ 12
    ordered .revoke d t s x p (fun s t => s.targetOk x.ctx t) fun s k =>
      let t := k.target
      if k.stage ≤ 1 then
        let s := if k.stage = 0 then
            (s.freeze t).modCmd k.no (fun c => { c with stage := 1, overtaken := ((s.ctx? t).map (·.frozen)).getD false })
          else s
        if s.treeResident t then .next s
        else
          let s := (s.revokeWork t).modCmd k.no fun c => { c with stage := 2 }
          if s.treeBusy t then .next s else cmdEnd (s.revokeTree t) x p d 0
      else if s.treeBusy t then .next s
      else cmdEnd (s.revokeTree t) x p d 0

/-! ### dsnap (R418) -/

/-- A child of the issuing context. -/
def State.childOk (s : State) (iss t : Nat) : Bool := (s.ctx? t).isSome && s.isChild iss t
/-- The fields of a snapshot descriptor; none where one is out of range. -/
def snapOf (bs : List Byte) : Option Snap :=
  let area := sliceNat bs 0 8
  let n := sliceNat bs 8 4
  let log := sliceNat bs 16 8
  if area % 12288 != 0 || n = 0 || sliceNat bs 12 4 != 0 || log % 32 != 0 || leNat (bs.drop 24) != 0 then none
  else some ⟨BitVec.ofNat 64 area, n, BitVec.ofNat 64 log, 0⟩

def dsnapOpenIssue (d c a : Nat) (s : State) : Res :=
  privileged s [(.s c, true), (.s a, true)] d fun x p _ =>
    let t := (x.sGet c).toNat % 2 ^ 12
    let adr := x.sGet a
    ordered .snap d t s x p (fun s t => s.childOk x.ctx t) fun s k =>
      let t := k.target
      if !s.isFrozen t then cmdEnd s x p d 2
      else if adr.toNat % 64 != 0 then cmdEnd s x p d (memStatus 1)
      else
        match s.uniGet x p adr.toNat 64 with
        | (_, .wait) => .next s
        | (u, .fail e) => if e.code = 0xFF then .fault .noSuchMemory else cmdEnd u x p d (memStatus e.code)
        | (u, .poison) => cmdEnd u x p d (memStatus 7)
        | (u, .bytes bs) =>
          match snapOf bs with
          | none => cmdEnd u x p d 7
          | some n =>
            if ((u.ctx? t).bind (·.snap)).isSome then cmdEnd u x p d 8
            else cmdEnd (u.modCtx t fun c => { c with snap := some n }) x p d 0
def dsnapCloseIssue (d c : Nat) (s : State) : Res :=
  privileged s [(.s c, true)] d fun x p _ =>
    let t := (x.sGet c).toNat % 2 ^ 12
    ordered .snap d t s x p (fun s t => s.childOk x.ctx t) fun s k =>
      let t := k.target
      if ((s.ctx? t).bind (·.snap)).isNone then cmdEnd s x p d 8
      else cmdEnd (s.modCtx t fun c => { c with snap := none }) x p d 0

/-! ### Meanings -/

def execDfreeze (d c : Nat) (s : State) := commit s (dfreezeIssue d c s)
def execDthaw (d c : Nat) (s : State) := commit s (dthawIssue d c s)
def execDckptSave (d c a l : Nat) (s : State) := commit s (dckptSaveIssue d c a l s)
def execDckptLoad (d a l : Nat) (s : State) := commit s (dckptLoadIssue d a l s)
def execDrevoke (d c : Nat) (s : State) := commit s (drevokeIssue d c s)
def execDsnapOpen (d c a : Nat) (s : State) := commit s (dsnapOpenIssue d c a s)
def execDsnapClose (d c : Nat) (s : State) := commit s (dsnapCloseIssue d c s)

end Sys2Proof.Machine
end

