-- ==== Sys2Proof/Machine/Stacks.lean ====
section
/-! DEFINITION. The memory stacks: errors and poison notices (R198 to R202), scrubbing (R301), refresh and line codes (R296 to
R298), ganging (R293), and the Lornor links (R458, R459). -/

namespace Sys2Proof.Machine

/-! ### Error counts (R302, R454) -/

/-- A counter that stops at its maximum. -/
def satUp (max n : Nat) : Nat := if n < max then n + 1 else n
/-- An uncorrectable sector, or a corrected one, counts on its channel. -/
def State.chanUe (s : State) (line : Nat) : State := s.modChan (chanOf line) fun h => { h with ue := satUp (2 ^ 16 - 1) h.ue }
def State.chanCe (s : State) (line : Nat) : State := s.modChan (chanOf line) fun h => { h with ce := satUp (2 ^ 32 - 1) h.ce }
def CoreWord.zero : CoreWord := ⟨false, 0, 0⟩
def State.modCore (s : State) (k : Nat) (f : CoreWord → CoreWord) : State :=
  { s with coreWords := smSet CoreWord.zero s.coreWords k (f (smGet CoreWord.zero s.coreWords k)) }
/-- An uncorrectable SRAM word, or a corrected one, counts on its core. -/
def State.coreUe (s : State) (k : Nat) : State := s.modCore k fun w => { w with ue := satUp (2 ^ 16 - 1) w.ue }
def State.coreCe (s : State) (k : Nat) : State := s.modCore k fun w => { w with ce := satUp (2 ^ 32 - 1) w.ce }

/-! ### UNCORRECTABLE_ERROR (R199) -/

/-- An error in a sector of a core's L1: a dirty one is poisoned in the memory-side cache, a clean one is dropped. -/
def State.l1Error (s : State) (core line sector : Nat) : State :=
  match s.l1.find? fun l => l.core == core && l.line == line && bitAt l.present sector with
  | none => s
  | some l =>
    let bit := 2 ^ sector
    let s := if bitAt l.dirty sector then
        { s.poisonSector (4 * line + sector) with cache := s.cache.map fun (m : MSLine) =>
            if m.line == line then { m with present := m.present ||| bit, dirty := m.dirty ||| bit } else m }
      else s
    let s := { s with l1 := s.l1.map fun (m : L1Line) =>
      if m.core == core && m.line == line then
        { m with present := lessSecs m.present bit, dirty := lessSecs m.dirty bit } else m }
    s.coreUe core
/-- An error in the memory-side cache: a dirty or locked sector is poisoned, a clean one is dropped and fetched again. -/
def State.cacheError (s : State) (line sector : Nat) : State :=
  match s.cache.find? fun m => m.line == line && bitAt m.present sector with
  | none => s
  | some m =>
    let s := if m.locked || bitAt m.dirty sector then s.poisonSector (4 * line + sector)
      else { s with cache := s.cache.map fun (m : MSLine) =>
        if m.line == line then { m with present := lessSecs m.present (2 ^ sector) } else m }
    s.chanUe line
/-- Whether a sector is dirty in its own slice. -/
def State.sliceDirty (s : State) (sec : Nat) : Bool := s.cache.any fun m => m.line == sec / 4 && bitAt m.dirty (sec % 4)
/-- An uncorrectable error is found in a sector of main memory, which is poisoned there; a sector whose newer bytes stand
dirty in a cache keeps them, and only main memory's own bytes are poisoned. One that is poisoned already has no second notice.
(DEDUCED, log 68) -/
def State.mainError (s : State) (sec : Nat) : State :=
  let s := match s.stale.find? (·.sector == sec) with
    | some t =>
      if t.bad then s
      else
        { s with notices := if s.notices.contains sec then s.notices else s.notices ++ [sec]
                 stale := s.stale.map fun (t : Stale) => if t.sector == sec then { t with bad := true } else t }
    | none => s.poisonSector sec
  s.chanUe (sec / 4)
def uncorrectable (at_ : ErrSite) (s : State) : Res :=
  match at_ with
  | .l1 core line sector => .next (if sector < 4 then s.l1Error core line sector else s)
  | .cache line sector => .next (if sector < 4 then s.cacheError line sector else s)
  | .main sec => .next (if memBytes ≤ sec * 48 then s else s.mainError sec)
  | .pinned coh w off =>
    match s.wg? coh w with
    | none => .next s
    | some k =>
      if k.retired || k.pages * 12288 ≤ off then .next s
      else .next (((if k.badPin.contains (off / 8) then s else s.unheal (1, coh, w, off / 8)).modWg coh w fun k => { k with badPin := (off / 8) :: k.badPin.filter (· != off / 8) }).coreUe k.core)
  | .acc coh w off =>
    match s.wg? coh w with
    | none => .next s
    | some k =>
      if k.retired || k.accSize ≤ off then .next s
      else
        let a := off / 8 * 2
        .next ((s.modWg coh w fun k =>
          { k with badAcc := a :: (a + 1) :: k.badAcc.filter fun i => i != a && i != a + 1 }).coreUe k.core)
  | .row g row lane =>
    match s.group? g with
    | none => .next s
    | some x =>
      if x.retired || row < x.rlo || x.rlo + x.nres ≤ row || 32 ≤ lane then .next s
      else
        let a := row * 32 + lane / 2 * 2
        .next ((s.modGroup g fun x =>
          { x with badRows := a :: (a + 1) :: x.badRows.filter fun i => i != a && i != a + 1 }).coreUe x.core)
  | .adapter k =>
    match s.segs[k]? with
    | none => .next s
    | some g => .next (({ s with segs := s.segs.eraseIdx k } : State).coreUe g.core)

/-! ### POISON_NOTICE (R202) -/

/-- The leaves below a node, as R373 takes them: base page of the input, size in base pages, page number. `rd` reads an
entry; one that a stage fails at maps nothing. -/
def leavesGo (rd : Nat → Option Nat) : Nat → Nat → Nat → Nat → List (Nat × Nat × Nat)
  | 0, _, _, _ => []
  | fuel + 1, k, n, b =>
    (List.range 64).flatMap fun i =>
      match rd (n + 8 * i) with
      | none => []
      | some e =>
        let size := 64 ^ (7 - k)
        let page := b + i * size
        if !bitAt e 63 then []
        else if e / 2 ^ 60 % 8 == 0 then
          if k == 7 || e / 2 ^ 48 % 2 ^ 12 != 0 then [] else leavesGo rd fuel (k + 1) (e % 2 ^ 48 * 512) page
        else if k < 5 || e / 2 ^ 44 % 8 != 0 || (bitAt e 61 && !bitAt e 62) || e / 2 ^ 58 % 4 == 1 ||
            e % 2 ^ 44 % size != 0 then []
        else [(page, size, e % 2 ^ 44)]
/-- The addresses of a table's nodes, each of 512 bytes. -/
def nodesGo (rd : Nat → Option Nat) : Nat → Nat → Nat → List Nat
  | 0, _, _ => []
  | fuel + 1, k, n =>
    n :: (List.range 64).flatMap fun i =>
      match rd (n + 8 * i) with
      | none => []
      | some e =>
        if bitAt e 63 && e / 2 ^ 60 % 8 == 0 && k != 7 && e / 2 ^ 48 % 2 ^ 12 == 0 then
          nodesGo rd fuel (k + 1) (e % 2 ^ 48 * 512)
        else []
/-- A word of a context's own tables, read through its ancestors as a walk reads it (R373). -/
def State.treeWord (s : State) (c : Context) (na : Nat) : Option Nat :=
  let fail : TErr := ⟨2, c.depth, na, false⟩
  match c.parent with
  | none => if memBytes ≤ na then none else (s.nodeWord fail ⟨na, 0, 0, []⟩).toOption
  | some p =>
    if !c.reaches na 8 then none
    else
      match s.walk p na with
      | .error _ => none
      | .ok (ls, pa, _) =>
        if ls.any (·.home == 1) || (s.accFail ls .r).isSome then none
        else (s.nodeWord fail ⟨pa, keyOf ls, composeHome ls, []⟩).toOption
/-- The leaves of a context's tables. -/
def State.leavesOf (s : State) (c : Context) : List (Nat × Nat × Nat) :=
  leavesGo (s.treeWord c) 8 0 c.desc.troot.toNat 0
/-- The base pages of a context's space that its own leaves map to one of a list of pages, ascending. -/
def State.mapping (s : State) (c : Context) (pages : List Nat) : List Nat :=
  sortBy (fun a b => decide (a < b)) ((s.leavesOf c).flatMap fun l =>
    pages.filterMap fun q =>
      if decide (l.2.2 ≤ q) && decide (q < l.2.2 + l.2.1) && (c.parent.isNone || c.reaches (q * 12288) 12288) then
        some (l.1 + (q - l.2.2))
      else none)
/-- The pages of a context's own space, within `n` levels, that reach a physical page. -/
def State.pagesTo (s : State) : Nat → Nat → Nat → List Nat
  | 0, _, _ => []
  | n + 1, c, phys =>
    match s.ctx? c with
    | none => []
    | some x =>
      match x.parent with
      | none => s.mapping x [phys]
      | some p => s.mapping x (s.pagesTo n p phys)
/-- Whether a context's granted memory contains a physical page. (DEDUCED, log 68) -/
def State.grantHas (s : State) (c : Context) (phys : Nat) : Bool :=
  match c.parent with
  | none => true
  | some p => (s.pagesTo 6 p phys).any fun q => c.reaches (q * 12288) 12288
/-- The notice to one context (R392). -/
def State.noticeTo (s : State) (c : Context) (sec : Nat) : State :=
  let vas := (s.pagesTo 6 c.id (sec / 256)).map fun q => q * 12288 + sec % 256 * 48
  let va := fun i => vas.getD i 0
  s.raise { TrapRec.empty with
    cause := 0x42, reason := min vas.length 255, ctx := c.id, depth := c.depth, addr := BitVec.ofNat 64 (sec * 48)
    aux := BitVec.ofNat 64 (va 0), aux2 := BitVec.ofNat 64 (va 1), lanes := BitVec.ofNat 128 (va 2 + va 3 * 2 ^ 64) }
def noticeEvent (sec : Nat) (s : State) : Res :=
  if !s.notices.contains sec then .next s
  else
    let told := s.contexts.filter fun c => s.grantHas c (sec / 256)
    .next (told.foldl (fun s c => s.noticeTo c sec) { s with notices := s.notices.filter (· != sec) })

/-! ### Symbols (R299) -/

/-- The wire of a pseudo-channel on which symbol i of a codeword travels, and the first of its eight beats: data byte j on
a data wire, 0 to 23, check byte 48 + i on a check wire, 24 to 27. -/
def symbolWire (i : Nat) : Nat × Nat :=
  if i < 48 then (i % 24, 8 * (i / 24)) else (24 + (i - 48) % 4, 8 * ((i - 48) / 4))
/-- The symbols that a set of failed wires corrupts. -/
def wireSymbols (ws : List Nat) : List Nat := (List.range 56).filter fun i => ws.contains (symbolWire i).1
/-- The erroneous symbols of a codeword: 48 data bytes and 8 check bytes. -/
def badSymbols (errs : List (Nat × Byte)) : List Nat :=
  ((errs.filter fun e => decide (e.1 < 56) && e.2 != 0).map (·.1)).eraseDups
/-- Whether the base die corrects a pattern of errors: any of up to four symbols. -/
def corrects (errs : List (Nat × Byte)) : Bool := decide ((badSymbols errs).length ≤ 4)
/-- Main memory's 48 bytes of a sector come back as free values: an undetected pattern. -/
def State.freeSector (s : State) (sec : Nat) : State :=
  let r := (List.range 6).foldl (fun (r : State × List Byte) _ =>
    let v := r.1.freeValue
    (v.1, r.2 ++ leBytes 8 v.2.toNat)) (s, [])
  if s.stale.any (·.sector == sec) then
    { r.1 with stale := r.1.stale.map fun (t : Stale) => if t.sector == sec then { t with bytes := r.2 } else t }
  else r.1.put (48 * sec) r.2
/-- A read of a sector of main memory meets symbols in error. Up to four are corrected; more are found uncorrectable where
the decoder detects them, and otherwise leave data that the manual does not give (DESIGN CHOICE, log 81). -/
def State.symbolErrors (s : State) (sec : Nat) (errs : List (Nat × Byte)) : State :=
  if memBytes ≤ sec * 48 || (badSymbols errs).isEmpty then s
  else if corrects errs then s.chanCe (sec / 4)
  else if Config.rsDetects sec errs then s.mainError sec
  else s.freeSector sec

/-! ### SCRUB (R301) -/

/-- The region of R293 that a physical address lies in. -/
def gangRegion (a : Nat) : Nat := a / 805306368
/-- Sectors of one stack. -/
def stackSectors : Nat := 2 ^ 31
/-- Whether a physical sector lies in a stack (R187). -/
def inStack (stack sec : Nat) : Bool := chanOf (sec / 4) / 48 == stack
/-- What a scrub finds in one sector; one that is dirty in its own slice is skipped. -/
def State.scrubSector (s : State) (sec : Nat) (f : ScrubFind) : State :=
  if s.sliceDirty sec then s
  else
    match f with
    | .clean => s
    | .corrected => s.chanCe (sec / 4)
    | .uncorrectable => s.mainError sec
/-- An atom that is not skipped is read, and written where a symbol of it has been corrected (R298, R300, R301). -/
def State.scrubMove (s : State) (sec : Nat) (two : Bool) (atom : ScrubAtom) : State :=
  let finds := (if s.sliceDirty sec then [] else [atom.lo]) ++ (if !two || s.sliceDirty (sec + 1) then [] else [atom.hi])
  let s := if finds.isEmpty then s else s.sendAtom sec false
  if finds.any fun f => f == .corrected then s.sendAtom sec true else s
/-- A stack scrubs its next atom in ascending order: the sector named is its first one that the pass has not reached; of a
ganged atom, it reads both sectors. -/
def scrubEvent (stack : Nat) (atom : ScrubAtom) (s : State) : Res :=
  let sec := atom.sector
  let w := smGet ScrubWord.zero s.scrubs stack
  if decide (12 ≤ stack) || decide (memBytes ≤ sec * 48) || !inStack stack sec || decide (sec < w.at_) ||
      (List.range (sec - w.at_)).any fun i => inStack stack (w.at_ + i) then .next s
  else
    let two := s.ganged (sec / 4) && sec % 2 == 0
    let k := if two then 2 else 1
    let s := s.scrubMove sec two atom
    let s := s.scrubSector sec atom.lo
    let s := if two then s.scrubSector (sec + 1) atom.hi else s
    let w : ScrubWord := if w.next + k < stackSectors then ⟨w.passes, w.next + k, sec + k⟩ else ⟨w.passes + 1, 0, 0⟩
    .next { s with scrubs := smSet ScrubWord.zero s.scrubs stack w }

/-! ### Windows and refresh (R296, R298) -/

/-- TOGGLE_WINDOW_END: where the channel has carried a full window, its totals latch. -/
def windowEnd (stack chan : Nat) (s : State) : Res :=
  .next (if 12 ≤ stack || 48 ≤ chan then s else s.modChan (stack * 48 + chan) Chan.endWindow)
/-- The code after a refresh boundary that follows a window. -/
def Chan.refreshed (h : Chan) : Chan :=
  let h := h.endWindow
  let cur := if h.code then h.togTm.toNat else h.togDbi.toNat
  let other := if h.code then h.togDbi.toNat else h.togTm.toNat
  if !h.ended then h
  else if other < cur - cur / 16 then { h with code := !h.code, switches := h.switches + 1, ended := false }
  else { h with ended := false }
/-- REFRESH: both pseudo-channels refresh; the code may switch, and no data changes. -/
def refreshEvent (stack chan : Nat) (s : State) : Res :=
  .next (if 12 ≤ stack || 48 ≤ chan then s else s.modChan (stack * 48 + chan) Chan.refreshed)

/-! ### GANGING_CHANGE (R293) -/

/-- Whether a context holds memory of a region: the root's tables map some of it or stand in it, and every other context's
memory comes through them. (DEDUCED, log 73) -/
def State.regionHeld (s : State) (r : Nat) : Bool :=
  let lo := r * 65536
  match s.ctx? 0 with
  | none => false
  | some root =>
    ((s.leavesOf root).any fun l => decide (max l.2.2 lo < min (l.2.2 + l.2.1) (lo + 65536))) ||
    (nodesGo (s.treeWord root) 8 0 root.desc.troot.toNat).any fun n =>
      decide (n < memBytes) && (gangRegion n == r || gangRegion (n + 511) == r)
/-- The region's lines leave every cache, written back, and its sectors are zero under the device key. -/
def State.clearRegion (s : State) (r : Nat) : State :=
  let here := fun (a : Nat) => gangRegion a == r
  let s := (s.cache.filter fun m => here (m.line * 192)).foldl State.evictLine s
  let cells := (s.mem.filter fun c => here c.1).map fun c => (c.1, (0 : Byte))
  { s with
    l1 := s.l1.filter fun l => !here (l.line * 192)
    icache := s.icache.filter fun l => !here (l.line * 192)
    wq := s.wq ++ cells
    blkKey := s.blkKey.filter fun e => !here (e.1 * 16)
    stale := s.stale.filter fun t => !here (t.sector * 48)
    poison := s.poison.filter fun sec => !here (sec * 48) }
/-- Dawn's writes of zero cross the channels, line by line (R293, R298). -/
def State.zeroLines (s : State) (line : Nat) : Nat → State
  | 0 => s
  | n + 1 => ((maskSectors line 15).foldl (fun s k => if s.ganged line && k % 2 == 1 then s else s.sendAtom k true) s).zeroLines (line + 1) n
def gangingEvent (r : Nat) (on : Bool) (s : State) : Res :=
  if 1536 ≤ r || s.regionHeld r || s.gang.contains r == on then .next s
  else
    let t : State :=
      { s.clearRegion r with gang := if on then sortBy (fun a b => decide (a < b)) (r :: s.gang) else s.gang.filter (· != r) }
    .next { t with chans := (t.zeroLines (r * 4194304) 4194304).chans }

/-! ### Lornor links (R458, R459) -/

def LinkWord.zero : LinkWord := ⟨false, 0x7F, 0, 0⟩
/-- The device has 16 links. -/
def State.modLink (s : State) (l : Nat) (f : LinkWord → LinkWord) : State :=
  if 16 ≤ l then s else { s with links := smSet LinkWord.zero s.links l (f (smGet LinkWord.zero s.links l)) }
/-- LINK_REPLAY: a flit is replayed. -/
def replayFlit (l : Nat) (s : State) : Res :=
  .next (s.modLink l fun w => if w.up then { w with retry := satUp (2 ^ 24 - 1) w.retry } else w)
/-- LINK_TRAINED: a link enters service. -/
def linkUp (l peer : Nat) (s : State) : Res :=
  .next (s.modLink l fun w => if w.up then w else { w with up := true, peer := BitVec.ofNat 7 peer })
/-- LINK_DOWN: a link leaves service, and the root's host has a notice. -/
def linkLost (l : Nat) (s : State) : Res :=
  if l < 16 && (smGet LinkWord.zero s.links l).up then
    .next ((s.modLink l fun w => { w with up := false, peer := 0x7F, downs := satUp (2 ^ 32 - 1) w.downs }).raise
      { TrapRec.empty with cause := 0x42 })
  else .next s

/-! ### Meanings -/

def execUncorrectableError (at_ : ErrSite) (s : State) := commit s (uncorrectable at_ s)
def execPoisonNotice (sector : Nat) (s : State) := commit s (noticeEvent sector s)
def execScrub (stack : Nat) (atom : ScrubAtom) (s : State) := commit s (scrubEvent stack atom s)
def execRefresh (stack chan : Nat) (s : State) := commit s (refreshEvent stack chan s)
def execToggleWindowEnd (stack chan : Nat) (s : State) := commit s (windowEnd stack chan s)
def execGangingChange (region : Nat) (ganged : Bool) (s : State) := commit s (gangingEvent region ganged s)
def execLinkReplay (l : Nat) (s : State) := commit s (replayFlit l s)
def execLinkDown (l : Nat) (s : State) := commit s (linkLost l s)
def execLinkTrained (l peer : Nat) (s : State) := commit s (linkUp l peer s)

end Sys2Proof.Machine
end

