-- ==== Sys2Proof/Machine/Host.lean ====
section
/-! DEFINITION. The device in its system: the host rings (R455 to R457), function-level reset, boot, recovery and attestation
(R460, R461), re-planning and withdrawal (R462 to R464), and the clock (R465). -/

namespace Sys2Proof.Machine

/-! ### Host submissions (R455, R456) -/

/-- A completion entry. -/
def completionBytes (seq : Word) (status : Nat) (value : DWord) : List Byte :=
  leField 4 seq.toNat ++ leField 2 status ++ leField 2 0 ++ leField 8 value.toNat ++ leField 16 0
/-- A completion is written, or held behind what waits for the ring. -/
def State.hostComplete (s : State) (f : Func) (seq : Word) (status : Nat) (value : DWord) : State :=
  s.hostJoin ((s.func? f.fn).getD f) (completionBytes seq status value)
/-- The SEQ that follows an accepted one: modulo 2^32, skipping 0. -/
def nextSeq (acc : Word) : Word := if acc + 1 = 0 then 1 else acc + 1
/-- Which event takes a submission; a refused OP goes with LAUNCH. -/
def subKind (op : Nat) : Nat := if op = 2 || op = 3 then op else 1
/-- A submission entry's fields. -/
def submissionOf (bs : List Byte) : Submission :=
  let f := fun o n => leNat ((bs.drop o).take n)
  { seq := BitVec.ofNat 32 (f 0 4), op := f 4 2, queue := f 6 2, arg0 := BitVec.ofNat 64 (f 8 8), arg1 := BitVec.ofNat 64 (f 16 8) }
/-- The oldest submission in a function's ring; none is read from an unusable one (R467). -/
def State.hostNext (s : State) (f : Func) : Option Submission :=
  (s.hostRing f.sub 6).bind fun r =>
    if r.head = r.tail then none else some (submissionOf (s.hostBytes (r.slot 6 r.head).toNat 64))
/-- A submission leaves its ring, accepted or not: the device advances HEAD. -/
def State.hostTake (s : State) (f : Func) (accepted : Option Word) : State :=
  match s.hostRing f.sub 6 with
  | none => s
  | some r =>
    (s.hostPut (f.sub.toNat + 8) (leBytes 4 (r.head + 1).toNat)).modFunc f.fn fun f => { f with acc := accepted.getD f.acc }

/-- The host's LAUNCH (R330): what would stop a program's launch is refused. (DESIGN CHOICE, log 69) -/
def hostLaunchRun (s : State) (f : Func) (e : Submission) : State × Nat × DWord :=
  let queues := ((s.ctx? f.ctx).map (·.queues)).getD 0
  let ctl := ((s.ctx? f.ctx).map fun c => bitAt c.desc.ctlq.toNat e.queue).getD false
  if e.op != 1 || queues ≤ e.queue || e.arg0.toNat % 64 != 0 then (s, 0xFFFF, 0)
  else
    match s.ctxRead none f.ctx e.arg0 128 .r with
    | (t, .error _) => (t, 0xFFFF, 0)
    | (t, .ok _) =>
      let r := t.submit f.ctx e.queue e.arg0 f.ctx 0 ctl
      (r.1, if r.2 then 0 else 1, 0)

/-- The command of the host that waits for a queue reset. -/
def State.hostCmd (s : State) (fn : Nat) : Option Cmd := s.cmds.find? fun c => c.g == 0 && c.p == fn && c.kind == .reset
/-- The oldest submission of a function, if it is one of a kind and the device takes it now: the OS runs, and no earlier
one waits. -/
def State.hostHead (s : State) (fn kind : Nat) : Option (Func × Submission) :=
  if s.boot.state != 1 || (s.hostCmd fn).isSome then none
  else
    match s.func? fn with
    | none => none
    | some f =>
      match s.hostNext f with
      | none => none
      | some e => if subKind e.op = kind then some (f, e) else none
/-- A submission whose SEQ does not follow is consumed and refused; ACC stays. -/
def State.hostRefuse (s : State) (f : Func) (e : Submission) : State := (s.hostTake f none).hostComplete f e.seq 0xFFFF 0
/-- An accepted submission completes. -/
def State.hostDone (s : State) (f : Func) (e : Submission) (status : Nat) (value : DWord) : State :=
  (s.hostTake f (some e.seq)).hostComplete f e.seq status value

def hostLaunchEvent (fn : Nat) (s : State) : Res :=
  match s.hostHead fn 1 with
  | none => .next s
  | some (f, e) =>
    if e.seq != nextSeq f.acc then .next (s.hostRefuse f e)
    else
      let r := hostLaunchRun s f e
      .next (r.1.hostDone f e r.2.1 r.2.2)
def hostSysrEvent (fn : Nat) (s : State) : Res :=
  match s.hostHead fn 2 with
  | none => .next s
  | some (f, e) =>
    if e.seq != nextSeq f.acc then .next (s.hostRefuse f e)
    else
      let r := s.sysRead f.ctx e.arg0
      .next (s.hostDone f e r.1 r.2)
/-- A SYSW; one that resets a queue completes when the kills and releases that it causes are done (R405). -/
def hostSyswEvent (fn : Nat) (s : State) : Res :=
  match s.hostCmd fn with
  | some c =>
    if s.launchesLeft c.waits then .next s
    else
      let t : State := { s with cmds := s.cmds.filter (·.no != c.no) }
      .next (((t.func? fn).map fun f => t.hostComplete f (BitVec.ofNat 32 c.lo) 0 0).getD t)
  | none =>
    match s.hostHead fn 3 with
    | none => .next s
    | some (f, e) =>
      if e.seq != nextSeq f.acc then .next (s.hostRefuse f e)
      else
        let r := s.sysWrite f.ctx e.arg0 e.arg1
        if r.2.2.isEmpty then .next (r.1.hostDone f e r.2.1 0)
        else
          let c : Cmd := ⟨.reset, 0, fn, 0, f.ctx, r.1.fresh, 0, false, r.2.2, e.seq.toNat, 0⟩
          let t : State := { r.1 with fresh := r.1.fresh + 1, cmds := r.1.cmds ++ [c] }
          .next (t.hostTake f (some e.seq))

/-- FUNCTION_LEVEL_RESET: ACC and CMP become 0, what the function had accepted and not completed is forgotten, and the trace
sessions of its contexts close with cause 0x82 (R405, R456). (DESIGN CHOICE, log 69) -/
def functionReset (fn : Nat) (s : State) : Res :=
  match s.func? fn with
  | none => .next s
  | some f =>
    let t : State := { s with cmds := s.cmds.filter fun c => !(c.g == 0 && c.p == fn && c.kind == .reset) }
    let t := t.modFunc fn fun f => { f with acc := 0, cmp := 0, held := f.held.filter isHostRecord }
    .next ((t.sessions.filter fun z => t.isUnder f.ctx z.ctx).foldl (fun t z => t.closeSession z.grid (some 0x82)) t)

/-! ### What the host does (R452, R455, R402) -/

/-- The host writes bytes of its memory, the descriptors and entries of its rings among them, and what waits for a completion
ring sees it. -/
def State.hostWrite (s : State) (a : Nat) (bs : List Byte) : State :=
  let t := s.hostPut a bs
  (t.funcs.foldl (fun (t : State) f => t.hostDrain f.fn f.held) t).deliverAll
/-- The host writes the addresses of a function's ring descriptors into its host-ring words (R455). -/
def State.hostRings (s : State) (fn : Nat) (sub comp : DWord) : State :=
  let t := s.modFunc fn fun f => { f with sub := sub, comp := comp }
  (((t.func? fn).map fun f => t.hostDrain fn f.held).getD t).deliverAll
/-- The host of a function restarts: it takes back the submissions that its device has not accepted, which stand in the ring above
HEAD, and the device's values and work go on (R456, R457; DEDUCED, log 69). -/
def State.hostRestart (s : State) (fn : Nat) : State :=
  match s.func? fn with
  | none => s
  | some f =>
    match s.hostRing f.sub 6 with
    | none => s
    | some r => s.hostPut (f.sub.toNat + 12) (leBytes 4 r.head.toNat)
/-- The host driver designates the control queues of the root (R21). -/
def State.hostCtlq (s : State) (queues : DWord) : State :=
  s.modCtx 0 fun c => { c with desc := { c.desc with ctlq := queues } }
/-- A virtual function that carries no context is bound to a depth-1 child that no function carries (R452). A function whose
context is gone keeps its rings and counts. (DESIGN CHOICE, log 69) -/
def State.hostBind (s : State) (fn ctx : Nat) : State :=
  if fn = 0 || 63 < fn || s.depth ctx != 1 || s.funcs.any (·.ctx == ctx) then s
  else
    match s.func? fn with
    | none => { s with funcs := s.funcs ++ [⟨fn, ctx, 0, 0, [], 0, 0⟩] }
    | some f => if f.ctx = noCtx then s.modFunc fn fun f => { f with ctx := ctx } else s

/-! ### The register window (R452, R453) -/

/-- The capabilities that a function's window shows: those marked VF for a virtual function, and for function 0 all of them,
or in the recovery state boot's alone (R453, R460). -/
def State.capabilities (s : State) (fn : Nat) : List Nat :=
  if fn != 0 then [3, 5] else if s.boot.state = 2 || s.boot.state = 3 then [5] else [1, 2, 3, 4, 5, 6]
/-- The entries of a list of capabilities from a window offset on: ID, VER 1, NEXT, ADDR. (DESIGN CHOICE, log 23) -/
def capEntries : Nat → List Nat → List Byte
  | _, [] => []
  | off, k :: rest =>
    leBytes 2 k ++ leBytes 2 1 ++ leBytes 4 (if rest.isEmpty then 0 else off + 16) ++ leBytes 8 (capAddr k) ++
      capEntries (off + 16) rest
/-- The capability list that the host reads from offset 0 of a function's window. Reading it changes nothing. -/
def State.capList (s : State) (fn : Nat) : List Byte := capEntries 0 (s.capabilities fn)

/-- The word that the host reads at an offset of a function's window: that of a capability which the window shows, at its ADDR. A
virtual function's host-ring word is its own (R452, R453). -/
def State.windowWord (s : State) (fn off : Nat) : Option DWord :=
  (capWords.find? fun w => (s.capabilities fn).contains w.1 && capAddr w.1 == off).map fun w =>
    s.devWord (if w.1 = 3 then .ring fn else w.2)

/-! ### Boot and attestation (R460, R461) -/

/-- FAIL for an image: digest, then signature. -/
def imageFail (image : List Byte) : Nat :=
  if !Config.digestOk image then 1 else if !Config.signatureOk image then 2 else 0
/-- BOOT: the flash image is verified, and the device runs, its regions still to be planned (R462), or comes up in recovery.
(DEDUCED, log 75) -/
def bootEvent (s : State) : Res :=
  if s.boot.state != 0 then .next s
  else
    let fail := if Config.flashReadable s.steps then imageFail s.boot.flash else 3
    .next { s with
      planAt := []
      boot :=
        if fail = 0 then { s.boot with state := 1, fail := 0, imgver := Config.imageVersion s.boot.flash }
        else { s.boot with state := 2, fail := fail } }
/-- The host writes an image into the recovery buffer. -/
def State.hostImage (s : State) (image : List Byte) : State :=
  if s.boot.state = 2 then { s with boot := { s.boot with state := 3, recovery := image } } else s
/-- RECOVERY_IMAGE: a written image that verifies goes to flash, and Dawn restarts; one that fails changes nothing there. -/
def recoveryEvent (s : State) : Res :=
  if s.boot.state != 3 then .next s
  else
    let fail := imageFail s.boot.recovery
    .next { s with boot :=
      if fail = 0 then { s.boot with state := 0, fail := 0, flash := s.boot.recovery, recovery := [] }
      else { s.boot with state := 2, fail := fail, recovery := [] } }
/-- NONCE: a report over it is asked for, in the place of one still being produced; until it is complete the buffer is not valid. -/
def nonceEvent (n : DWord) (s : State) : Res := .next { s with boot := { s.boot with nonce := n, asked := true, valid := false } }
/-- Dawn completes the report that is asked for, and then sets the valid bit. -/
def State.attest (s : State) : State :=
  if s.boot.asked then
    { s with boot := { s.boot with asked := false, report := Config.attestation s.boot.nonce s.boot.flash, valid := true } }
  else s

/-! ### Ageing, withdrawal and the clock (R462 to R465) -/

/-- A core passes through one slice boundary: a ladder for every context on it; one to be withdrawn that holds nothing is
withdrawn at once (R464). -/
def State.sliceBoundary (s : State) (k : Nat) (withdraw : Bool) : State :=
  let ctxs := ((s.coreGroups k).map (·.ctx)).eraseDups
  if ctxs.isEmpty then (if withdraw then s.modCore k fun w => { w with wdrn := true } else s)
  else ctxs.foldl (fun s c => s.callLadder k c withdraw) s
/-- Whether Dawn reads a region's monitors now: at boot, and every 24 hours of operation (R462). -/
def State.planDue (s : State) (region : Nat) : Bool :=
  let t := smGet 0 s.planAt region
  s.boot.state == 1 && decide (region < 96) && (t == 0 || decide (t - 1 + 24 * 3600 * 10 ^ 9 ≤ s.ns.toNat))
/-- REPLAN: a region's table is planned again when that is due; cores without a safe point are withdrawn. -/
def replanEvent (region margin : Nat) (unsafeCores : List Nat) (s : State) : Res :=
  if !s.planDue region then .next s
  else
    let w := smGet ⟨0, 0⟩ s.ageing region
    let t : State := { s with
      planAt := smSet 0 s.planAt region (s.ns.toNat + 1)
      ageing := smSet ⟨0, 0⟩ s.ageing region ⟨w.plans + 1, BitVec.ofNat 8 margin⟩ }
    .next ((regionCores region).foldl (fun s k => s.sliceBoundary k (unsafeCores.contains k)) t)
/-- The clock takes a new frequency; the part of a nanosecond that is left is kept in its unit. -/
def State.setClock (s : State) (mhz : Nat) : State :=
  { s with clockMhz := mhz, clockAt := some s.ns.toNat, nsRem := s.nsRem * mhz / s.clockMhz }
/-- CLOCK_THROTTLE: the core clock moves by 100 MHz, no sooner than 1 ms after it last moved. (DESIGN CHOICE, log 74) -/
def throttleEvent (down : Bool) (s : State) : Res :=
  let due := (s.clockAt.map fun t => decide (t + 10 ^ 6 ≤ s.ns.toNat)).getD true
  if !due then .next s
  else if down then .next (if 200 ≤ s.clockMhz then s.setClock (s.clockMhz - 100) else s)
  else .next (if s.clockMhz + 100 ≤ 3300 then s.setClock (s.clockMhz + 100) else s)

/-! ### Meanings -/

def execHostLaunch (fn : Nat) (s : State) := commit s (hostLaunchEvent fn s)
def execHostSysr (fn : Nat) (s : State) := commit s (hostSysrEvent fn s)
def execHostSysw (fn : Nat) (s : State) := commit s (hostSyswEvent fn s)
def execFunctionLevelReset (fn : Nat) (s : State) := commit s (functionReset fn s)
def execBoot (s : State) := commit s (bootEvent s)
def execRecoveryImage (s : State) := commit s (recoveryEvent s)
def execNonce (n : DWord) (s : State) := commit s (nonceEvent n s)
def execReplan (region margin : Nat) (unsafeCores : List Nat) (s : State) := commit s (replanEvent region margin unsafeCores s)
def execClockThrottle (down : Bool) (s : State) := commit s (throttleEvent down s)

end Sys2Proof.Machine
end

