-- ==== Sys2Proof/Machine/Ready.lean ====
section
/-! DEFINITION. The choice of what issues: when a path is held and a group ready (R47, R87, R351), the active set (R352), the
path and the group that issue next (R45, R50, R180), and stall reasons and samples (R431). -/

namespace Sys2Proof.Machine

/-! ### What would issue -/

/-- What a word would do at issue. -/
def Instr.attempt (i : Instr) (s : State) : Host.Outcome State Fault Refusal :=
  match aluOf i with
  | some a => commit s (aluIssue a s)
  | none =>
    match i with
    | .lget wide d a b => execLget wide d a b s
    | .lput wide a b c => execLput wide a b c s
    | .quant f d sp a => execQuant f d sp a s
    | .dequant f d a sp => execDequant f d a sp s
    | .fpackFlags d a => execFpackFlags d a s
    | .ld ty sc acq d mem => execLd ty sc acq d mem s
    | .st ty sc rel x mem => execSt ty sc rel x mem s
    | .atom op wide sc o d mem => execAtom op wide sc o d mem s
    | .red op wide sc rel x mem => execRed op wide sc rel x mem s
    | .fence sc o => execFence sc o s
    | .bpref x mem => execBpref x mem s
    | .cflush sc mem => execCflush sc mem s
    | .cinv sc mem => execCinv sc mem s
    | .ipref n mem => execIpref n mem s
    | .accw o a n c => execAccw o a n c s
    | .accr o a n c => execAccr o a n c s
    | .accz o n c => execAccz o n c s
    | .mfmt d b k => execMfmt d b k s
    | .mma reuse z o a d h j => execMma reuse z o a d h j s
    | .mmaAd reuse z o a d h j i1 => execMmaAd reuse z o a d h j i1 s
    | .sopen d r w h => execSopen d r w h s
    | .sadv h n => execSadv h n s
    | .sclose h => execSclose h s
    | .sstat d h => execSstat d h s
    | .adbind b n => execAdbind b n s
    | .adfetchP x => execAdfetchP x s
    | .adfetchQ x => execAdfetchQ x s
    | .adapply o i1 n => execAdapply o i1 n s
    | .adstat sel clr d => execAdstat sel clr d s
    | .adinvId x => execAdinvId x s
    | .adinvGen x => execAdinvGen x s
    | .adinvAll => execAdinvAll s
    | .bra c off => execBra c off s
    | .brp np x off => execBrp np x off s
    | .mjoin off => execMjoin off s
    | .join => execJoin s
    | .regang => execRegang s
    | .call l f8 off => execCall l f8 off s
    | .calli l t f8 => execCalli l t f8 s
    | .ret t f8 => execRet t f8 s
    | .exit => execExit s
    | .suspend c v e p => execSuspend c v e p s
    | .yield => execYield s
    | .trap code => execTrap code s
    | .brk code => execBrk code s
    | .nop => execNop s
    | .rgn i1 => execRgn i1 s
    | .dmodeOn => execDmodeOn s
    | .dmodeOff => execDmodeOff s
    | .drain => execDrain s
    | .defer w => execDefer w s
    | .spawn e p => execSpawn e p s
    | .launch d p q => execLaunch d p q s
    | .launchChild d p q => execLaunchChild d p q s
    | .cpy d a => execCpy d a s
    | .cpyl d a => execCpyl d a s
    | .cbatch d => execCbatch d s
    | .cwait d n => execCwait d n s
    | .bar => execBar s
    | .barc => execBarc s
    | .arrive => execArrive s
    | .evinc d c v => execEvinc d c v s
    | .evincI d c n => execEvincI d c n s
    | .evset d c v => execEvset d c v s
    | .evrd d c => execEvrd d c s
    | .clk d => execClk d s
    | .clkNs d => execClkNs d s
    | .dcreate d p => execDcreate d p s
    | .dgrant d c v kind => execDgrant d c v kind s
    | .dtake d c v kind => execDtake d c v kind s
    | .dfreeze d c => execDfreeze d c s
    | .dthaw d c => execDthaw d c s
    | .dckptSave d c a l => execDckptSave d c a l s
    | .dckptLoad d a l => execDckptLoad d a l s
    | .drevoke d c => execDrevoke d c s
    | .dsnapOpen d c a => execDsnapOpen d c a s
    | .dsnapClose d c => execDsnapClose d c s
    | .xinv a l => execXinv a l s
    | .xinvAll => execXinvAll s
    | .keygen d => execKeygen d s
    | .keykill d x => execKeykill d x s
    | .hqpop d => execHqpop d s
    | .hqdoneResume d r => execHqdoneResume d r s
    | .hqdoneKill d r => execHqdoneKill d r s
    | .hqdoneRedirect d r m => execHqdoneRedirect d r m s
    | .sysr d a => execSysr d a s
    | .sysw d a v => execSysw d a v s
    | .hctl d a v => execHctl d a v s
    | .qreset d a v => execQreset d a v s
    | .debugWordWrite d a v => execDebugWordWrite d a v s
    | .resume d a b c tag => execResume d a b c tag s
    | .step d a b c tag => execStep d a b c tag s
    | .halt d a b c tag => execHalt d a b c tag s
    | .rdreg d a b c tag => execRdreg d a b c tag s
    | .wrreg d a b c tag => execWrreg d a b c tag s
    | .dump d a b c tag => execDump d a b c tag s
    | .rplctl d a v => execRplctl d a v s
    -- No other row stands at a path.
    | _ => .next s

/-- Whether an outcome leaves a path where it stands: the word is held. A fence's number may have been taken, or a header at a rejoin
address fetched, and no spill has begun. -/
def held (x : Group) (p : Nat) : Host.Outcome State Fault Refusal → Bool
  | .next t =>
    match t.group? x.uid with
    | none => false
    | some y => y.handler.isNone && { y.path p with fence := none, rjs := [] } == { x.path p with fence := none, rjs := [] }
  | _ => false
/-- Whether the word at a path is held. -/
def State.wordHeld (s : State) (x : Group) (p : Nat) : Bool :=
  match s.chooseWord x p with
  | .idle => true
  | .set _ => false
  | .run i t => held x p (Instr.attempt i t)

/-- A path that stands at its header enters its clause. -/
def Group.entered (x : Group) (p : Nat) : Group := if (x.path p).hdr then x.modPath p Path.enter else x
/-- Whether a path that the clause buffer holds is held: by the clause wait, unless a poisoned load ends it, or by its
word. -/
def State.pathHeld (s : State) (x : Group) (p : Nat) : Bool :=
  if !(x.path p).hdr then s.wordHeld x p
  else if (x.waitPoison p (hdrWait (x.path p).head.toNat)).isSome then false
  else if !s.waitOver x p then true
  else s.wordHeld (x.entered p) p
/-- Whether a path of a group outside the active set could issue: that group has no clause buffer, so the clause is looked at as its
fetch would give it, and one that cannot be seen so counts as ready (DESIGN CHOICE, log 71). -/
def State.peekReady (s : State) (x : Group) (p : Nat) : Bool :=
  let y := x.path p
  if s.fetchHolds x p then false
  else if y.formAfter then true
  else if !y.hdr then !s.wordHeld x p
  else
    match fetchClause s x p with
    | .next t =>
      match t.group? x.uid with
      | none => true
      | some z => !(z.path p).fetched || (z.path p).st != .ready || !t.pathHeld z p
    | _ => true
/-- Whether a path can issue its next word. -/
def State.pathReady (s : State) (x : Group) (p : Nat) : Bool :=
  let y := x.path p
  y.st == .ready && if x.active then !y.formAfter && y.fetched && !s.pathHeld x p else s.peekReady x p
/-- A group is ready when its closure head can run or some path can issue (R351). -/
def State.groupReady (s : State) (x : Group) : Bool :=
  x.handler.isNone && !s.graced x && (s.closureReady x || (List.range 8).any (s.pathReady x))
/-- Whether a group is inside a clause: the path whose words the clause buffer holds has begun (R45). -/
def Group.inClause (x : Group) : Bool := x.paths.any Path.inClause

/-! ### The active set (R352) -/

/-- A group that leaves the active set gives up its clause buffer (R242). -/
def Group.unbuffer (x : Group) : Group :=
  { x with paths := x.paths.map fun (y : Path) =>
      if y.hdr then { y with head := 0, words := [], fetched := false } else { y with fetched := false } }
/-- A group waits from now while it is neither ready nor inside a clause; one that waits already goes on. -/
def State.marked (s : State) (g : Group) : Group :=
  if s.groupReady g || g.inClause then { g with waitSince := 0 }
  else if g.waitSince = 0 then { g with waitSince := s.cycle.toNat + 1 } else g
/-- Marks since when each group of a partition waits. -/
def State.markWaits (s : State) (core part : Nat) : State :=
  { s with groups := s.groups.map fun (g : Group) =>
      if g.core == core && g.part == part && g.resident && !g.retired then s.marked g else g }
/-- A group enters the active set: of its rows in Twilight, those of the working set are reloaded (R79, R84). -/
def Group.activate (x : Group) : Group :=
  { x with active := true, waitSince := 0, yielded := false, awake := x.awake.map fun _ => x.ws.map (x.wb + ·) }
/-- ACTIVE_SET_SWAP: the active group that has waited longest, 16 cc at least, and the oldest ready group outside change
places, the rows of the first going into Twilight (R84); a set with room takes the latter. -/
def activeSetSwap (core part : Nat) (s : State) : Res :=
  let s := s.markWaits core part
  let gs := (s.coreGroups core).filter (·.part == part)
  match sortOn (·.startNo) (gs.filter fun g => !g.active && s.groupReady g) with
  | [] => .next s
  | y :: _ =>
    let enter := fun (s : State) => s.modGroup y.uid Group.activate
    if (gs.filter (·.active)).length < 4 then .next (enter s)
    else
      match sortOn (·.waitSince)
          (gs.filter fun g => g.active && g.waitSince != 0 && decide (g.waitSince + 16 ≤ s.cycle.toNat + 1)) with
      | [] => .next s
      | x :: _ => .next (enter (s.modGroup x.uid fun g => { g.unbuffer with active := false, awake := some [] }))

/-! ### The choice of a path and of a group (R180, R351) -/

/-- The path that the clause buffer holds. -/
def Group.buffered (x : Group) : Option Nat :=
  (List.range 8).find? fun p => (x.path p).st == .ready && !(x.path p).formAfter && (x.path p).fetched
/-- The path whose clause is fetched next: none while a clause is under way or the path that is buffered can issue; after
a path that is held before its clause, the next READY one. -/
def State.fetchPath (s : State) (x : Group) : Option Nat :=
  match x.buffered with
  | none => (x.readyFrom x.last).head?
  | some b =>
    if (x.path b).hdr && s.pathHeld x b then (x.readyFrom b).find? (· != b) else none

/-- The groups of a partition's active set, oldest first; one that has yielded is the youngest (R50, R351). -/
def State.activeSet (s : State) (core part : Nat) : List Group :=
  let gs := sortOn (·.startNo) ((s.coreGroups core).filter fun g => g.part == part && g.active)
  gs.filter (!·.yielded) ++ gs.filter (·.yielded)
/-- The next choice has been made: no group of the partition is the youngest any more. -/
def State.clearYields (s : State) (core part : Nat) : State :=
  { s with groups := s.groups.map fun (g : Group) => if g.core == core && g.part == part then { g with yielded := false } else g }

/-- The word at a path is tried; at a header, the poison of the clause wait first, and the wait itself. Within a step,
`issued` tells that the clause begins here. -/
def State.tryPath (s : State) (x : Group) (p : Nat) : Choice :=
  let y := x.path p
  if !y.hdr then { s with issued := none }.chooseWord x p
  else
    match x.waitPoison p (hdrWait y.head.toNat) with
    | some o => .set (s.poisonStop x p o)
    | none =>
      if !s.waitOver x p then .idle
      else
        let z := x.entered p
        { s.setGroup z with issued := some ⟨x.uid, p⟩ }.chooseWord z p
/-- A group that has been chosen issues: its closure head first, then its buffered path. -/
def State.tryGroup (s : State) (x : Group) : Choice :=
  if s.closureReady x then .run (.closureRun x.uid) s
  else
    match x.buffered with
    | some p => s.tryPath x p
    | none => .idle
/-- An issue slot that path p of group g would take. A clause is fetched, or a held word is tried again; when the path can
issue, the slot goes to the oldest ready group of the active set. -/
def State.chooseIssue (s : State) (g p : Nat) : Choice :=
  match s.group? g with
  | none => .idle
  | some x =>
    let y := x.path p
    if !x.active || !x.resident || x.retired || x.handler.isSome || s.graced x || y.st != .ready then .idle
    else if y.formAfter || !y.fetched then (if s.fetchPath x = some p then .run (.clauseFetch g p) s else .idle)
    else
      let u := s.clearYields x.core x.part
      match s.activeSet x.core x.part with
      | [_] => u.tryGroup { x with yielded := false }
      | gs =>
        if !s.pathReady x p then s.tryPath x p
        else
          match gs.find? s.groupReady with
          | none => .idle
          | some z => u.tryGroup { z with yielded := false }

/-- A closure takes the slot that its group is given: that of the oldest ready group of the active set (R351). -/
def State.chooseClosure (s : State) (g : Nat) : Choice :=
  match s.group? g with
  | none => .idle
  | some x =>
    match (s.activeSet x.core x.part).find? s.groupReady with
    | none => .idle
    | some z => if z.uid == g && s.closureReady z then .run (.closureRun g) (s.clearYields x.core x.part) else .idle

/-! ### Stall reasons (R431) -/

/-- The registers that an mma captures, where no A latch stands (R259). -/
def grabRegs (x : Group) (a n : Nat) : List Reg :=
  if x.alatch.isNone && descOk (x.dGet n) a x.win none then
    let r := captured (x.dGet n) a
    (r.1 ++ r.2).flatMap fun k => x.rows k 1
  else []
/-- The sources of an instruction beside its guard, as R87 holds it on them. -/
def wordSrcs (x : Group) (i : Instr) : List Reg :=
  let mem := fun (m : MemOp) => x.srcRegs (.s m.base) true ++ x.srcRegs m.index false
  let v := fun k n => x.rows k n
  let sr := fun k => x.srcRegs (.s k) true
  match aluOf i with
  | some a => a.reads.flatMap fun o => x.srcRegs o.1 o.2
  | none =>
    match i with
    | .lget _ _ _ b => x.srcRegs b false
    | .lput w _ b c => x.srcRegs b false ++ x.srcRegs c w
    | .quant _ _ sp a => v sp 1 ++ v a 32
    | .dequant f _ a sp => v a f.regs ++ v sp 1
    | .fpackFlags _ a => x.srcRegs a false
    | .atom op w _ _ d m => mem m ++ atomRegs op w d x
    | .bpref r m => mem m ++ sr r
    | .ld _ _ _ _ m | .ipref _ m | .cflush _ m | .cinv _ m => mem m
    | .st ty _ _ a m => mem m ++ (stSrcs (stSize ty) a).flatMap fun o => x.srcRegs o.1 o.2
    | .red _ w _ _ a m => mem m ++ x.srcRegs a w
    | .accw o a n _ => sr o ++ v a n
    | .accr o _ _ _ | .accz o _ _ => sr o
    | .mfmt _ b _ => sr b
    | .mma _ _ o a n _ _ => sr o ++ grabRegs x a n
    | .mmaAd _ _ o a n _ _ k => sr o ++ v k 1 ++ grabRegs x a n
    | .sopen _ r _ _ => sr r
    | .adbind b n => sr b ++ sr n
    | .adfetchP r | .adfetchQ r | .adinvId r | .adinvGen r => sr r
    | .adapply o k n => sr o ++ v k 1 ++ sr n
    | .bra c _ => (braSrcs c).flatMap fun o => x.srcRegs o.1 o.2
    | .calli _ t _ | .ret t _ => sr t
    | .suspend c t e q => sr c ++ sr t ++ sr e ++ v q 14
    | .spawn e q => sr e ++ v q 14
    | .launch d r _ => sr r ++ sr d
    | .launchChild d r _ => sr r ++ sr d
    | .cpy _ a | .cpyl _ a => (copySrcs a).flatMap fun o => x.srcRegs o.1 o.2
    | .cwait _ n => x.srcRegs n false
    | .evinc _ c t | .evset _ c t => sr c ++ sr t
    | .evincI _ c _ | .evrd _ c => sr c
    | .dcreate _ r => sr r
    | .dgrant _ c t _ | .dtake _ c t _ => sr c ++ sr t
    | .dfreeze _ c | .dthaw _ c | .drevoke _ c | .dsnapClose _ c => sr c
    | .dckptSave _ c a l => sr c ++ sr a ++ sr l
    | .dckptLoad _ a l => sr a ++ sr l
    | .dsnapOpen _ c a => sr c ++ sr a
    | .xinv a l => sr a ++ sr l
    | .keykill _ k => sr k
    | .hqdoneResume _ r | .hqdoneKill _ r => sr r
    | .hqdoneRedirect _ r m => sr r ++ sr m
    | .sysr _ a => sr a
    | .sysw _ a t => sr a ++ sr t
    | .resume _ a b c _ => sr a ++ sr b ++ sr c
    | _ => []
/-- Its destinations. -/
def wordDsts (x : Group) (i : Instr) : List Reg :=
  let sr := fun k => x.srcRegs (.s k) true
  match aluOf i with
  | some a => x.dstRegs a.d a.dwide
  | none =>
    match i with
    | .lget w d _ _ => x.srcRegs (.v d) w
    | .quant f d _ _ => x.rows d f.regs
    | .dequant _ d _ _ => x.rows d 32
    | .fpackFlags d _ => x.dstRegs d false
    | .ld ty _ _ d _ => ldRegs ty d x
    | .atom op w _ _ d _ => atomRegs op w d x
    | .accr _ a n _ => x.rows a n
    | .call l _ _ | .calli l _ _ => sr l
    | .sopen d _ _ _ | .sstat d _ | .launch d _ _ | .launchChild d _ _ | .cpy d _ | .cpyl d _ | .cbatch d | .evinc d _ _
    | .evincI d _ _ | .evset d _ _ | .evrd d _ | .clk d | .clkNs d | .dcreate d _ | .dgrant d _ _ _ | .dtake d _ _ _
    | .dfreeze d _ | .dthaw d _ | .dckptSave d _ _ _ | .dckptLoad d _ _ | .drevoke d _ | .dsnapOpen d _ _
    | .dsnapClose d _ | .keygen d | .keykill d _ | .hqpop d | .hqdoneResume d _ | .hqdoneKill d _
    | .hqdoneRedirect d _ _ | .sysw d _ _ | .resume d _ _ _ _ => sr d
    | .sysr d _ => sr d ++ sr (d + 1)
    | .adstat _ _ d => sr d
    | .cwait d _ => x.dstRegs d true
    | _ => []
/-- Whether an instruction writes its destination by a later landing (R86). -/
def Instr.lands (i : Instr) : Bool :=
  match aluOf i with
  | some a => a.trans
  | none =>
    match i with
    | .lget .. | .ld .. | .atom .. | .accr .. => true
    | _ => false
/-- The logical row of a v register. -/
def Reg.row? : Reg → Option Nat
  | .v n => some n
  | _ => none
/-- The register rows that a word reads or writes at issue (R84). -/
def wordRows (x : Group) (p : Nat) (i : Instr) : List Nat :=
  (wordSrcs x i ++ if x.defers p i || Instr.lands i then [] else wordDsts x i).filterMap Reg.row?
/-- Whether a word would wake a row from Twilight (R84). -/
def Group.wakes (x : Group) (p : Nat) (i : Instr) : Bool :=
  match x.awake with
  | none => false
  | some rows => (wordRows x p i).any (!rows.contains ·)
/-- Whether another group of the partition has issued (R351). -/
def State.otherIssued (s : State) (x : Group) : Bool :=
  (s.issued.bind fun k => s.group? k.g).any fun z => z.uid != x.uid && z.core == x.core && z.part == x.part
/-- Whether an instruction drains the residual closure queue (R312). -/
def drains : Instr → Bool
  | .call .. | .calli .. | .ret .. | .exit | .join | .regang | .fence .. | .bar | .barc | .dmodeOff | .suspend .. | .drain =>
    true
  | _ => false
def Slot.isFetching : Slot → Bool
  | .fetching .. => true
  | _ => false
/-- The reason of a hold beyond the registers, by the kind of instruction. -/
def holdReason (s : State) (x : Group) (p : Nat) (i : Instr) : Nat :=
  let mma := fun h j => if 4 ≤ x.mmas then 15 else if (((x.sub h).slots[j]?).map Slot.isFetching).getD false then 16 else 15
  match i with
  | .bar | .barc | .arrive => 10
  | .fence .. => 13
  | .mma _ _ _ _ _ h j => mma h j
  | .mmaAd _ _ _ _ _ h j _ => if mma h j = 16 || 4 ≤ x.mmas then mma h j else 17
  | .adapply .. => if x.mpend.any MPend.isReplay then 17 else 18
  | .spawn .. | .suspend .. => 19
  | .lget .. | .lput .. => 20
  | .evinc .. | .evincI .. | .evset .. => 29
  | .launch .. | .launchChild .. => 30
  | _ =>
    if x.acqHeld p s.fresh then 14
    else if decide (0x380 ≤ opOf (x.path p).word.toNat) && decide (opOf (x.path p).word.toNat ≤ 0x38F) then 29
    else 31
/-- The reasons of the registers and of the closure queue. -/
def regReasons (x : Group) (p : Nat) (i : Instr) : List Nat :=
  if x.defers p i then
    (if 32 ≤ x.rcq.length then [5] else []) ++ (if x.freeRows.length < (rowKeys x (deferSrcs i)).length then [6] else [])
  else
    (if (x.guardRegs p ++ wordSrcs x i).any x.pending || (latchSrcs i).any (x.path p).awaitsLatch then [1] else []) ++
    (if (wordDsts x i).any x.pending then [2] else []) ++ if drains i && !x.rcq.isEmpty then [4] else []
/-- The reason of a path that stands at a word: the lowest that applies. A word that is not held waits for a row in Twilight, for
another group of the partition, or for none of the reasons named. -/
def wordReason (s : State) (x : Group) (p : Nat) : Nat :=
  let free := !s.wordHeld x p
  match decode (x.path p).word.toNat with
  | none => if free && s.otherIssued x then 22 else 31
  | some i =>
    match (if free then [] else regReasons x p i) with
    | r :: _ => r
    | [] =>
      if x.wakes p i && !s.graced x then 7
      else if !free then (if s.replayHolds x then 31 else holdReason s x p i)
      else if s.otherIssued x && !s.graced x then 22
      else 31
/-- The reason that a group's next path does not issue (R431); a hold by Grace has none of its own. (DEDUCED, log 34) -/
def stallReason (s : State) (x : Group) (p : Nat) : Nat :=
  let y := x.path p
  match x.handler with
  | some (_, 0x2A, _) => 6
  | some _ => 24
  | none =>
    match y.st with
    | .ready =>
      if !x.active then 27
      else if y.formAfter || !y.fetched then (if s.graced x then 31 else 9)
      else if !y.hdr then wordReason s x p
      else if (x.waitPoison p (hdrWait y.head.toNat)).isNone && !s.waitOver x p then 3
      else wordReason s (x.entered p) p
    | .blocked => (match y.wake with
      | .cwait _ => 12
      | _ => 10)
    | .regang => 11
    | .parked => 25
    | .halted => 26
    | .free => 31

/-! ### Samples (R431) -/

/-- The path that a partition would issue next, or the lowest-numbered one in use. -/
def Group.samplePath (x : Group) : Nat := (x.nextPath <|> x.usedPaths.head?).getD 0
/-- The next of a partition's groups in the rotation, in ascending start number. -/
def State.sampleGroup (s : State) (core part ctx : Nat) : Option Group :=
  let gs := sortOn (·.startNo) ((s.coreGroups core).filter fun g => g.part == part && g.ctx == ctx)
  let last := smGet 0 s.sampRot (core * 4 + part)
  (gs.find? fun g => last < g.startNo) <|> gs.head?
/-- A sample of a group. R430 gives a sample no TYPE: that byte is free (DESIGN CHOICE, log 22). -/
def sampleBytes (s : State) (x : Group) (p : Nat) : List Byte :=
  let issued := s.issued.map (·.g) == some x.uid
  pktBytes (Config.freeWord s.free).toNat (p % 8 + issued.toNat * 8) x (s.depth x.ctx) (x.path p).pc (x.mask p)
    (if issued then 0 else stallReason s x p) s.ns.toNat
/-- A sampling word of a context. -/
def State.obsWord (s : State) (ctx a : Nat) : DWord := ((s.ctx? ctx).map fun c => smGet 0 c.obs a).getD 0

/-- SAMPLE: a partition's interval ends, while sampling is on for the context that its core runs. (DEDUCED, log 34) -/
def sampleEvent (core part : Nat) (s : State) : Res :=
  let k := core * 4 + part
  match s.coreCtx core with
  | none => .next s
  | some ctx =>
    let ctl := (s.obsWord ctx 0x2000).toNat
    let start := smGet 0 s.samp k
    if !bitAt ctl 63 then .next { s with samp := smSet 0 s.samp k 0 }
    else if start = 0 then .next { s with samp := smSet 0 s.samp k (s.cycle.toNat + 1) }
    else if s.cycle.toNat + 1 < start + 2 ^ fld ctl 58 5 then .next s
    else
      let s := { s with samp := smSet 0 s.samp k (start + 2 ^ fld ctl 58 5) }
      match s.sampleGroup core part ctx with
      | none => .next s
      | some x =>
        let t := { s with sampRot := smSet 0 s.sampRot k x.startNo, free := s.free + 1 }
        let ring := t.obsWord ctx 0x2008
        match t.ringAppend ctx ring 5 0 (sampleBytes s x x.samplePath) with
        | (u, .ok _) => .next u
        | (u, _) => .next (u.ringLost ctx ring)

/-! ### Meanings -/

def execActiveSetSwap (core part : Nat) (s : State) := commit s (activeSetSwap core part s)
def execSample (core part : Nat) (s : State) := commit s (sampleEvent core part s)

end Sys2Proof.Machine
end

