-- ==== Sys2Proof/Machine/Dispatch.lean ====
section
/-! DEFINITION. The dispatch: one arm for each constructor of `Instr`. -/

namespace Sys2Proof.Machine

def exec (i : Instr) (s : State) : Host.Outcome State Fault Refusal :=
  match i with
  | .iadd mo d a b => Sys2Proof.Machine.execIadd mo d a b s
  | .isub mo d a b => Sys2Proof.Machine.execIsub mo d a b s
  | .imul mo d a b => Sys2Proof.Machine.execImul mo d a b s
  | .imulh wide signed d a b => Sys2Proof.Machine.execImulh wide signed d a b s
  | .imad mo d a b c => Sys2Proof.Machine.execImad mo d a b c s
  | .iabs mo d a => Sys2Proof.Machine.execIabs mo d a s
  | .ineg mo d a => Sys2Proof.Machine.execIneg mo d a s
  | .imin wide signed d a b => Sys2Proof.Machine.execImin wide signed d a b s
  | .imax wide signed d a b => Sys2Proof.Machine.execImax wide signed d a b s
  | .idp4 signed sat d a b c => Sys2Proof.Machine.execIdp4 signed sat d a b c s
  | .and wide d a b => Sys2Proof.Machine.execAnd wide d a b s
  | .or wide d a b => Sys2Proof.Machine.execOr wide d a b s
  | .xor wide d a b => Sys2Proof.Machine.execXor wide d a b s
  | .andn wide d a b => Sys2Proof.Machine.execAndn wide d a b s
  | .orn wide d a b => Sys2Proof.Machine.execOrn wide d a b s
  | .shl wide d a b => Sys2Proof.Machine.execShl wide d a b s
  | .shr wide d a b => Sys2Proof.Machine.execShr wide d a b s
  | .sar wide d a b => Sys2Proof.Machine.execSar wide d a b s
  | .rot wide d a b => Sys2Proof.Machine.execRot wide d a b s
  | .shf left wide d a b c => Sys2Proof.Machine.execShf left wide d a b c s
  | .bfx wide signed d a b c => Sys2Proof.Machine.execBfx wide signed d a b c s
  | .bfi wide d a b c => Sys2Proof.Machine.execBfi wide d a b c s
  | .popc wide d a => Sys2Proof.Machine.execPopc wide d a s
  | .clz wide d a => Sys2Proof.Machine.execClz wide d a s
  | .ctz wide d a => Sys2Proof.Machine.execCtz wide d a s
  | .brev wide d a => Sys2Proof.Machine.execBrev wide d a s
  | .perm d a b c => Sys2Proof.Machine.execPerm d a b c s
  | .icmp cc wide signed d a b => Sys2Proof.Machine.execIcmp cc wide signed d a b s
  | .sel wide d a b c => Sys2Proof.Machine.execSel wide d a b c s
  | .mov wide signed d a => Sys2Proof.Machine.execMov wide signed d a s
  | .movGetv d i1 => Sys2Proof.Machine.execMovGetv d i1 s
  | .movi wide signed d i1 => Sys2Proof.Machine.execMovi wide signed d i1 s
  | .moviH1 wide signed d i1 => Sys2Proof.Machine.execMoviH1 wide signed d i1 s
  | .moviH2 signed d i1 => Sys2Proof.Machine.execMoviH2 signed d i1 s
  | .lea wide d mem => Sys2Proof.Machine.execLea wide d mem s
  | .qxch pat wide d a => Sys2Proof.Machine.execQxch pat wide d a s
  | .qbc wide d a b => Sys2Proof.Machine.execQbc wide d a b s
  | .shfl w wide d a b => Sys2Proof.Machine.execShfl w wide d a b s
  | .shflx w wide d a b => Sys2Proof.Machine.execShflx w wide d a b s
  | .shflup w wide d a b => Sys2Proof.Machine.execShflup w wide d a b s
  | .shfldn w wide d a b => Sys2Proof.Machine.execShfldn w wide d a b s
  | .vote op d a => Sys2Proof.Machine.execVote op d a s
  | .gred op wide signed d a => Sys2Proof.Machine.execGred op wide signed d a s
  | .gscan op ex wide signed d a => Sys2Proof.Machine.execGscan op ex wide signed d a s
  | .lget wide d a b => Sys2Proof.Machine.execLget wide d a b s
  | .lgetLanding g k => Sys2Proof.Machine.execLgetLanding g k s
  | .lput wide a b c => Sys2Proof.Machine.execLput wide a b c s
  | .fadd rm fm d a b => Sys2Proof.Machine.execFadd rm fm d a b s
  | .fmul rm fm d a b => Sys2Proof.Machine.execFmul rm fm d a b s
  | .fma rm fm d a b c => Sys2Proof.Machine.execFma rm fm d a b c s
  | .fdp2 rm fm d a b c => Sys2Proof.Machine.execFdp2 rm fm d a b c s
  | .frnd rm fm d a => Sys2Proof.Machine.execFrnd rm fm d a s
  | .fcmp cc fm d a b => Sys2Proof.Machine.execFcmp cc fm d a b s
  | .fmin fm d a b => Sys2Proof.Machine.execFmin fm d a b s
  | .fmax fm d a b => Sys2Proof.Machine.execFmax fm d a b s
  | .cvt rm sat dt sf d a => Sys2Proof.Machine.execCvt rm sat dt sf d a s
  | .quant f d sp a => Sys2Proof.Machine.execQuant f d sp a s
  | .dequant f d a sp => Sys2Proof.Machine.execDequant f d a sp s
  | .fpack f rm d a b c => Sys2Proof.Machine.execFpack f rm d a b c s
  | .fpackFlags d a => Sys2Proof.Machine.execFpackFlags d a s
  | .fsqrt rm fm d a => Sys2Proof.Machine.execFsqrt rm fm d a s
  | .frcp fm d a => Sys2Proof.Machine.execFrcp fm d a s
  | .frsq fm d a => Sys2Proof.Machine.execFrsq fm d a s
  | .fex2 fm d a => Sys2Proof.Machine.execFex2 fm d a s
  | .flg2 fm d a => Sys2Proof.Machine.execFlg2 fm d a s
  | .fsin fm d a => Sys2Proof.Machine.execFsin fm d a s
  | .fcos fm d a => Sys2Proof.Machine.execFcos fm d a s
  | .ftanh fm d a => Sys2Proof.Machine.execFtanh fm d a s
  | .transcendentalLanding g k => Sys2Proof.Machine.execTranscendentalLanding g k s
  | .ld ty sc acq d mem => Sys2Proof.Machine.execLd ty sc acq d mem s
  | .loadLanding g k => Sys2Proof.Machine.execLoadLanding g k s
  | .st ty sc rel x mem => Sys2Proof.Machine.execSt ty sc rel x mem s
  | .atom op wide sc o d mem => Sys2Proof.Machine.execAtom op wide sc o d mem s
  | .red op wide sc rel x mem => Sys2Proof.Machine.execRed op wide sc rel x mem s
  | .fence sc o => Sys2Proof.Machine.execFence sc o s
  | .bpref x mem => Sys2Proof.Machine.execBpref x mem s
  | .bprefDone k => Sys2Proof.Machine.execBprefDone k s
  | .cflush sc mem => Sys2Proof.Machine.execCflush sc mem s
  | .cinv sc mem => Sys2Proof.Machine.execCinv sc mem s
  | .ipref n mem => Sys2Proof.Machine.execIpref n mem s
  | .clauseFetch g p => Sys2Proof.Machine.execClauseFetch g p s
  | .instructionFill core line => Sys2Proof.Machine.execInstructionFill core line s
  | .accw o a n c => Sys2Proof.Machine.execAccw o a n c s
  | .accr o a n c => Sys2Proof.Machine.execAccr o a n c s
  | .accrLanding g k => Sys2Proof.Machine.execAccrLanding g k s
  | .accz o n c => Sys2Proof.Machine.execAccz o n c s
  | .mfmt d b k => Sys2Proof.Machine.execMfmt d b k s
  | .mma reuse z o a d h j => Sys2Proof.Machine.execMma reuse z o a d h j s
  | .mmaAd reuse z o a d h j i1 => Sys2Proof.Machine.execMmaAd reuse z o a d h j i1 s
  | .mmaUpdate g k => Sys2Proof.Machine.execMmaUpdate g k s
  | .sopen d r w h => Sys2Proof.Machine.execSopen d r w h s
  | .sadv h n => Sys2Proof.Machine.execSadv h n s
  | .sclose h => Sys2Proof.Machine.execSclose h s
  | .sstat d h => Sys2Proof.Machine.execSstat d h s
  | .slotFetch g h j => Sys2Proof.Machine.execSlotFetch g h j s
  | .adbind b n => Sys2Proof.Machine.execAdbind b n s
  | .adfetchP x => Sys2Proof.Machine.execAdfetchP x s
  | .adfetchQ x => Sys2Proof.Machine.execAdfetchQ x s
  | .adapply o i1 n => Sys2Proof.Machine.execAdapply o i1 n s
  | .adstat sel clr d => Sys2Proof.Machine.execAdstat sel clr d s
  | .adstatLanding g k => Sys2Proof.Machine.execAdstatLanding g k s
  | .adinvId x => Sys2Proof.Machine.execAdinvId x s
  | .adinvGen x => Sys2Proof.Machine.execAdinvGen x s
  | .adinvAll => Sys2Proof.Machine.execAdinvAll s
  | .adapterFill k => Sys2Proof.Machine.execAdapterFill k s
  | .bra c off => Sys2Proof.Machine.execBra c off s
  | .brp np x off => Sys2Proof.Machine.execBrp np x off s
  | .mjoin off => Sys2Proof.Machine.execMjoin off s
  | .join => Sys2Proof.Machine.execJoin s
  | .regang => Sys2Proof.Machine.execRegang s
  | .call l f8 off => Sys2Proof.Machine.execCall l f8 off s
  | .calli l t f8 => Sys2Proof.Machine.execCalli l t f8 s
  | .ret t f8 => Sys2Proof.Machine.execRet t f8 s
  | .exit => Sys2Proof.Machine.execExit s
  | .suspend c v e p => Sys2Proof.Machine.execSuspend c v e p s
  | .yield => Sys2Proof.Machine.execYield s
  | .trap code => Sys2Proof.Machine.execTrap code s
  | .brk code => Sys2Proof.Machine.execBrk code s
  | .nop => Sys2Proof.Machine.execNop s
  | .rgn i1 => Sys2Proof.Machine.execRgn i1 s
  | .spill g => Sys2Proof.Machine.execSpill g s
  | .fill g => Sys2Proof.Machine.execFill g s
  | .deferCapacity g => Sys2Proof.Machine.execDeferCapacity g s
  | .dmodeOn => Sys2Proof.Machine.execDmodeOn s
  | .dmodeOff => Sys2Proof.Machine.execDmodeOff s
  | .drain => Sys2Proof.Machine.execDrain s
  | .defer w => Sys2Proof.Machine.execDefer w s
  | .closureRun g => Sys2Proof.Machine.execClosureRun g s
  | .spawn e p => Sys2Proof.Machine.execSpawn e p s
  | .binTimer region bin => Sys2Proof.Machine.execBinTimer region bin s
  | .launch d p q => Sys2Proof.Machine.execLaunch d p q s
  | .launchChild d p q => Sys2Proof.Machine.execLaunchChild d p q s
  | .launchPacketRead l => Sys2Proof.Machine.execLaunchPacketRead l s
  | .graphNode l => Sys2Proof.Machine.execGraphNode l s
  | .gridComplete l => Sys2Proof.Machine.execGridComplete l s
  | .dispatchStep => Sys2Proof.Machine.execDispatchStep s
  | .ageStep ctx => Sys2Proof.Machine.execAgeStep ctx s
  | .serviceTick => Sys2Proof.Machine.execServiceTick s
  | .energyWindow => Sys2Proof.Machine.execEnergyWindow s
  | .actmaxUpdate region temp => Sys2Proof.Machine.execActmaxUpdate region temp s
  | .activeSetSwap core part => Sys2Proof.Machine.execActiveSetSwap core part s
  | .cpy d a => Sys2Proof.Machine.execCpy d a s
  | .cpyl d a => Sys2Proof.Machine.execCpyl d a s
  | .copyComplete k => Sys2Proof.Machine.execCopyComplete k s
  | .cbatch d => Sys2Proof.Machine.execCbatch d s
  | .cwait d n => Sys2Proof.Machine.execCwait d n s
  | .bar => Sys2Proof.Machine.execBar s
  | .barc => Sys2Proof.Machine.execBarc s
  | .arrive => Sys2Proof.Machine.execArrive s
  | .evinc d c v => Sys2Proof.Machine.execEvinc d c v s
  | .evincI d c n => Sys2Proof.Machine.execEvincI d c n s
  | .evset d c v => Sys2Proof.Machine.execEvset d c v s
  | .evrd d c => Sys2Proof.Machine.execEvrd d c s
  | .clk d => Sys2Proof.Machine.execClk d s
  | .clkNs d => Sys2Proof.Machine.execClkNs d s
  | .dcreate d p => Sys2Proof.Machine.execDcreate d p s
  | .dgrant d c v kind => Sys2Proof.Machine.execDgrant d c v kind s
  | .dtake d c v kind => Sys2Proof.Machine.execDtake d c v kind s
  | .dfreeze d c => Sys2Proof.Machine.execDfreeze d c s
  | .dthaw d c => Sys2Proof.Machine.execDthaw d c s
  | .dckptSave d c a l => Sys2Proof.Machine.execDckptSave d c a l s
  | .dckptLoad d a l => Sys2Proof.Machine.execDckptLoad d a l s
  | .drevoke d c => Sys2Proof.Machine.execDrevoke d c s
  | .dsnapOpen d c a => Sys2Proof.Machine.execDsnapOpen d c a s
  | .dsnapClose d c => Sys2Proof.Machine.execDsnapClose d c s
  | .xinv a l => Sys2Proof.Machine.execXinv a l s
  | .xinvAll => Sys2Proof.Machine.execXinvAll s
  | .keygen d => Sys2Proof.Machine.execKeygen d s
  | .keykill d x => Sys2Proof.Machine.execKeykill d x s
  | .hqpop d => Sys2Proof.Machine.execHqpop d s
  | .hqdoneResume d r => Sys2Proof.Machine.execHqdoneResume d r s
  | .hqdoneKill d r => Sys2Proof.Machine.execHqdoneKill d r s
  | .hqdoneRedirect d r m => Sys2Proof.Machine.execHqdoneRedirect d r m s
  | .sysr d a => Sys2Proof.Machine.execSysr d a s
  | .sysw d a v => Sys2Proof.Machine.execSysw d a v s
  | .hctl d a v => Sys2Proof.Machine.execHctl d a v s
  | .qreset d a v => Sys2Proof.Machine.execQreset d a v s
  | .debugWordWrite d a v => Sys2Proof.Machine.execDebugWordWrite d a v s
  | .resume d a b c tag => Sys2Proof.Machine.execResume d a b c tag s
  | .step d a b c tag => Sys2Proof.Machine.execStep d a b c tag s
  | .halt d a b c tag => Sys2Proof.Machine.execHalt d a b c tag s
  | .rdreg d a b c tag => Sys2Proof.Machine.execRdreg d a b c tag s
  | .wrreg d a b c tag => Sys2Proof.Machine.execWrreg d a b c tag s
  | .dump d a b c tag => Sys2Proof.Machine.execDump d a b c tag s
  | .handlerRecord k => Sys2Proof.Machine.execHandlerRecord k s
  | .headAdvanceSeen r => Sys2Proof.Machine.execHeadAdvanceSeen r s
  | .dusk core ctx => Sys2Proof.Machine.execDusk core ctx s
  | .cohortEvict coh => Sys2Proof.Machine.execCohortEvict coh s
  | .grace core ctx => Sys2Proof.Machine.execGrace core ctx s
  | .midnight core ctx => Sys2Proof.Machine.execMidnight core ctx s
  | .uncorrectableError at_ => Sys2Proof.Machine.execUncorrectableError at_ s
  | .poisonNotice sector => Sys2Proof.Machine.execPoisonNotice sector s
  | .scrub stack atom => Sys2Proof.Machine.execScrub stack atom s
  | .refresh stack chan => Sys2Proof.Machine.execRefresh stack chan s
  | .toggleWindowEnd stack chan => Sys2Proof.Machine.execToggleWindowEnd stack chan s
  | .gangingChange region ganged => Sys2Proof.Machine.execGangingChange region ganged s
  | .linkReplay l => Sys2Proof.Machine.execLinkReplay l s
  | .linkDown l => Sys2Proof.Machine.execLinkDown l s
  | .hostLaunch fn => Sys2Proof.Machine.execHostLaunch fn s
  | .hostSysr fn => Sys2Proof.Machine.execHostSysr fn s
  | .hostSysw fn => Sys2Proof.Machine.execHostSysw fn s
  | .functionLevelReset fn => Sys2Proof.Machine.execFunctionLevelReset fn s
  | .boot => Sys2Proof.Machine.execBoot s
  | .recoveryImage => Sys2Proof.Machine.execRecoveryImage s
  | .nonce n => Sys2Proof.Machine.execNonce n s
  | .replan region margin unsafeCores => Sys2Proof.Machine.execReplan region margin unsafeCores s
  | .clockThrottle down => Sys2Proof.Machine.execClockThrottle down s
  | .sample core part => Sys2Proof.Machine.execSample core part s
  | .traceFlush l => Sys2Proof.Machine.execTraceFlush l s
  | .rplctl d a v => Sys2Proof.Machine.execRplctl d a v s
  | .writePerformed g k => Sys2Proof.Machine.execWritePerformed g k s
  | .linkTrained l peer => Sys2Proof.Machine.execLinkTrained l peer s

end Sys2Proof.Machine
end

