-- ==== Sys2Proof/Machine/Turns.lean ====
section
/-! DEFINITION. The order of turns (DESIGN CHOICE, log 1): the turns that a state offers, the one that goes next, and what a turn does. -/

namespace Sys2Proof.Machine

/-! ### The turns that a state offers -/

/-- The event by which an outstanding producer lands. -/
def Out.landing (g : Nat) (o : Out) : Instr :=
  match o.op with
  | .load _ | .atom _ _ => .loadLanding g o.id
  | .lget _ => .lgetLanding g o.id
  | .trans => .transcendentalLanding g o.id
  | .accr _ _ _ => .accrLanding g o.id
  | .adstat _ _ => .adstatLanding g o.id
def Group.slotTurns (x : Group) : List Instr :=
  (List.range x.subs.length).flatMap fun h =>
    ((List.range (x.sub h).slots.length).filter fun j => (((x.sub h).slots[j]?).map Slot.isFetching).getD false).map fun j =>
      .slotFetch x.uid h j
def Group.handlerTurns (x : Group) : List Instr :=
  match x.handler with
  | none => []
  | some k => [if k.2.1 = 0x28 then .spill x.uid else if k.2.1 = 0x29 then .fill x.uid else .deferCapacity x.uid]
/-- The events of a group. -/
def Group.turns (x : Group) : List Instr :=
  x.outs.map (Out.landing x.uid) ++ x.sbuf.map (fun e => .writePerformed x.uid e.id) ++
  x.mpend.map (fun m => .mmaUpdate x.uid m.id) ++ (if x.rcq.isEmpty then [] else [.closureRun x.uid]) ++ x.slotTurns ++
  x.handlerTurns
/-- The events of the work and of the hub. -/
def State.workTurns (s : State) : List Instr :=
  s.fills.map (fun f => .adapterFill f.id) ++ s.bprefs.map (fun b => .bprefDone b.id) ++
  s.copies.map (fun c => .copyComplete c.id) ++
  s.launches.flatMap (fun l =>
    if !l.read then [.launchPacketRead l.uid] else if l.walk.isSome then [.graphNode l.uid, .gridComplete l.uid]
    else [.gridComplete l.uid]) ++
  s.grids.map (fun g => .gridComplete g.uid) ++
  (s.bins.filter (!·.closed)).map (fun b => .binTimer b.region b.idx) ++
  s.hub.map (fun h => .handlerRecord h.id) ++ s.notices.map .poisonNotice ++
  ((s.traceHeld.map (·.grid)).eraseDups).map .traceFlush ++
  ((s.mboxHeld.map (·.ctx)).eraseDups).map (fun c => .headAdvanceSeen (.mailbox c)) ++
  ((s.replayHeld.map (·.ctx)).eraseDups).map (fun c => .headAdvanceSeen (.replay c)) ++
  (s.icache.filter (·.bytes.isEmpty)).map (fun l => .instructionFill l.core l.line)
/-- The events of ladders, dispatchers and clocks. -/
def State.clockTurns (s : State) : List Instr :=
  s.ladders.flatMap (fun l => [.dusk l.core l.ctx, .grace l.core l.ctx, .midnight l.core l.ctx]) ++
  (if s.ladders.isEmpty then [] else s.cohorts.map fun c => .cohortEvict c.uid) ++
  [.dispatchStep, .serviceTick, .energyWindow] ++
  (s.contexts.filter (!·.blocked.isEmpty)).map (fun c => .ageStep c.id) ++
  ((s.groups.filter fun x => x.resident && !x.retired).map fun x => (x.core, x.part)).eraseDups.flatMap fun k =>
    [.activeSetSwap k.1 k.2, .sample k.1 k.2]
/-- The events of boot, of the regions' re-planning and of the host rings. -/
def State.hostTurns (s : State) : List Instr :=
  (if s.boot.state = 0 then [.boot] else if s.boot.state = 3 then [.recoveryImage] else []) ++
  ((List.range 96).filter s.planDue).map (fun r => .replan r (Config.pathMargin r s.ns.toNat) (Config.unsafeCores r s.ns.toNat)) ++
  s.funcs.flatMap fun f =>
    (match s.hostNext f with
     | none => []
     | some e => [if e.op = 2 then .hostSysr f.fn else if e.op = 3 then .hostSysw f.fn else .hostLaunch f.fn]) ++
    if (s.hostCmd f.fn).isSome then [.hostSysw f.fn] else []
/-- The banks that have writes to complete, the lputs that may take effect, and a report that Dawn is to produce. -/
def State.memTurns (s : State) : List Turn :=
  ((s.bankQ.map fun w => chanOf w.line).eraseDups.filterMap fun c => s.bankQ.find? fun w => chanOf w.line == c).map
    (fun w => .bankNext w.line) ++
  (s.lputs.map fun k => .lputLand k.id) ++ if s.boot.asked then [.attest] else []
/-- Every turn of a state: the paths that are READY, then the accesses that go on, then the events. -/
def State.turns (s : State) : List Turn :=
  ((s.groups.filter fun x => x.active && x.resident && !x.retired).flatMap fun x =>
    (x.readyFrom x.last).map fun p => .issue x.uid p) ++
  s.memTurns ++ ((s.groups.flatMap Group.turns) ++ s.workTurns ++ s.clockTurns ++ s.hostTurns).map .event

/-- The turn that goes next: the head of the schedule, else one of those offered, by the step's number. (DESIGN CHOICE, log 18) -/
def State.nextTurn (s : State) : Option Turn × State :=
  match s.sched with
  | t :: rest => (some t, { s with sched := rest })
  | [] =>
    let ts := s.turns
    (ts[s.steps % ts.length]?, s)

/-! ### What a turn does -/

/-- A line of a core's L1 is replaced: its dirty sectors go to the memory-side cache (R184, R214). -/
def State.replaceL1 (s : State) (k : Nat) : State :=
  match s.l1[k]? with
  | none => s
  | some l =>
    let s := s.l1Back fun m => m.core == l.core && m.line == l.line
    { s with l1 := s.l1.eraseIdx k }
/-- An lput takes effect, and the barriers of its workgroup and cohort are looked at again (R424, R425). -/
def State.lputTurn (s : State) (k : Nat) : State :=
  match s.lputs.find? (·.id == k) with
  | none => s
  | some q => ((s.lputLand k).checkBar q.coh q.wg).checkBarc q.coh
/-- What a turn beside the events does. -/
def State.other (s : State) : Turn → State
  | .issue _ _ | .event _ => s
  | .bankNext line => s.bankServe line
  | .lputLand k => s.lputTurn k
  | .dropFlat k => { s with flat := s.flat.eraseIdx k }
  | .dropL1 k => s.replaceL1 k
  | .dropCache k => ((s.cache[k]?).map fun m => if m.locked then s else s.evictLine m).getD s
  | .hostWrite a bytes => s.hostWrite a bytes
  | .hostRings fn sub comp => s.hostRings fn sub comp
  | .hostCtlq queues => s.hostCtlq queues
  | .hostBind fn ctx => s.hostBind fn ctx
  | .hostRestart fn => s.hostRestart fn
  | .attest => s.attest
  | .hostImage bs => s.hostImage bs
  | .hostLadder core ctx => s.callLadder core ctx false
  | .debugFlags g fl => s.debugFlags g fl
  | .correctedCore core => if core < 768 then s.coreCe core else s
  | .symbolErrors sec errs => s.symbolErrors sec errs

/-- An event of the table happens. One that a partition's scheduler decides about, a closure's run or a clause's fetch, does so only
where it is that group's or path's turn (R180, R242, R351). -/
def State.chooseEvent (s : State) (i : Instr) : Choice :=
  match i with
  | .closureRun g => s.chooseClosure g
  | .clauseFetch g p =>
    match s.group? g with
    | none => .idle
    | some x => if (x.path p).formAfter || !(x.path p).fetched then s.chooseIssue g p else .idle
  | i => if Instr.isEvent i then .run i s else .idle
/-- What a turn does in a state. -/
def State.choose (s : State) (t : Turn) : Choice :=
  match t with
  | .issue g p => s.chooseIssue g p
  | .event i => s.chooseEvent i
  | t => .set (s.other t)
/-- The choice of a step. -/
def State.choice (s : State) : State × Choice :=
  match s.nextTurn with
  | (none, t) => (t, .idle)
  | (some k, t) => (t, t.choose k)

/-- The clause of a path has ended: at its last word, at a control transfer or at a precise stop (R45). -/
def Path.over (y : Path) : Bool := y.hdr || y.st == .free || y.st == .parked || y.st == .halted
/-- The group after its path's word has issued: the path is the last that issued (R180), the group is the youngest where its
clause ended with YIELD (R50), and it waits from now on where no path of it is READY (R352). -/
def State.hasIssued (s : State) (x : Group) (p : Nat) (yields : Bool) : Group :=
  let idle := !(x.paths.any fun y => y.st == .ready) && !s.closureReady x
  { x with last := p, yielded := x.yielded || (yields && (x.path p).over)
           waitSince := if idle then s.cycle.toNat + 1 else 0 }
/-- Whether a command that a path's word has begun is in progress: the word has issued (R45). -/
def State.begun (s : State) (g p : Nat) (pc : DWord) : Bool := s.cmds.any fun c => c.g == g && c.p == p && c.pc == pc
/-- The group after its path's word was held: a clause that begins with it has not begun (R45, R47), and the group waits
where no other path of it is READY (R352). -/
def State.hasHeld (s : State) (x : Group) (p : Nat) (begins : Bool) : Group :=
  let x := if begins && !s.begun x.uid p (x.path p).pc then x.modPath p fun y => { y with hdr := true, pc := y.pc - 8 } else x
  if x.waitSince = 0 && !x.inClause && (x.readyFrom 0 == [p]) then { x with waitSince := s.cycle.toNat + 1 } else x
/-- Register rows are no longer in Twilight (R84). -/
def Group.woke (x : Group) (rows : List Nat) : Group :=
  { x with awake := x.awake.map fun rs => rs ++ (rows.filter (!rs.contains ·)).eraseDups }
/-- The rows that a word, once it has issued, has read or written. -/
def issuedRows (x : Group) (p : Nat) : List Nat := ((decode (x.path p).word.toNat).map (wordRows x p)).getD []
/-- The rows that a closure has read or written. -/
def Closure.rows (c : Closure) : List Nat :=
  ([c.a, c.b, c.c, c.d].flatMap fun o => match o with
    | .row r r2 wide => if wide then [r, r2] else [r]
    | _ => []) ++ c.regs.filterMap Reg.row?
/-- The rows that the landings and closures of a group in the active set have written in a step. -/
def State.landRows (before : State) (y : Group) : List Nat :=
  match before.group? y.uid with
  | none => []
  | some x =>
    if !x.active || y.awake.isNone then []
    else
      ((x.outs.filter fun o => !y.outs.any (·.id == o.id)).flatMap fun o => o.regs.filterMap Reg.row?) ++
      (x.rcq.filter fun c => !y.rcq.any (·.id == c.id)).flatMap Closure.rows
/-- The rows that landings and closures have written in a step are no longer in Twilight. -/
def State.landWakes (before after : State) : State :=
  { after with groups := after.groups.map fun y => y.woke (before.landRows y) }
/-- Ends a step that began at `before`: no path stands at issue, and the path whose word went is known. -/
def State.settled (before after : State) : State :=
  let t := { before.landWakes after with cur := none, issued := none }
  match before.cur with
  | none => t
  | some c =>
    match before.group? c.g, after.group? c.g with
    | some x, some y =>
      if held x c.p (.next after) then t.modGroup c.g fun y => t.hasHeld y c.p (before.issued == before.cur)
      else { t.modGroup c.g fun y => (t.hasIssued y c.p (hdrYield (x.path c.p).head.toNat)).woke (issuedRows x c.p) with
             issued := if y.handler.isSome && (y.path c.p).pc == (x.path c.p).pc then none else some c }
    | _, _ => { t with issued := some c }
/-- The outcome of a step that began at `before`. -/
def settle (before : State) : Host.Outcome State Fault Refusal → Host.Outcome State Fault Refusal
  | .next t => .next (before.settled t)
  | o => o

end Sys2Proof.Machine
end

