-- ==== Sys2Proof/Machine/Step.lean ====
section
/-! DEFINITION. One step of the machine: time passes, and one turn is taken (DESIGN CHOICE, log 1, DESIGN CHOICE, log 6). -/

namespace Sys2Proof.Machine

/-- One step. -/
def step (s : State) : Host.Outcome State Fault Refusal :=
  match s.tick.choice with
  | (t, .idle) => settle t (.next t)
  | (t, .set u) => settle t (commit t (.next u))
  | (_, .run i u) => settle u (exec i u)

/-- The instruction whose bits are w stands at the path that issues next (DESIGN CHOICE, log 7). -/
def State.withFetchWord (s : State) (nbits w : Nat) : State := s.placeWord (BitVec.ofNat 64 (w % 2 ^ nbits))

end Sys2Proof.Machine
end

