-- ==== Sys2Proof/Safety.lean ====
section
/-! DEFINITION. What the statements take as a sound state and a safe run, when an instruction stands at issue with nothing
to hold it, and what it is to write a result and go on. -/

namespace Sys2Proof.Machine

/-- Between steps: memory is in its canonical form, no write waits, and no path stands at issue. -/
structure State.Inv (s : State) : Prop where
  memory : Memory.wf s.mem = true
  writes : s.wq = []
  host : Memory.wf s.hostMem = true
  hostWrites : s.hostWq = []
  issue : s.cur = none

/-- The machine takes n steps from a state without a fault or a refusal. -/
def safeFor : Nat → State → Prop
  | 0, _ => True
  | n + 1, s =>
    match step s with
    | .next t => safeFor n t
    | .fault _ => False
    | .refused _ => False

/-- Path p of group x stands at issue, and no STEP of a debugger is in force in the group (R448). -/
structure AtIssue (s : State) (x : Group) (p : Nat) : Prop where
  cur : s.cur = some ⟨x.uid, p⟩
  group : s.group? x.uid = some x
  path : p < x.paths.length
  stepping : (x.path p).stepping = false
  stepped : ∀ q, (x.path q).stepped = false
  writes : s.wq = []
  host : s.hostWq = []

/-- Nothing holds or stops an instruction with these sources and destinations at its registers: no register of its guard,
its sources or its destinations is pending, no source word that the path reads was struck by an error, and no source latch
awaits its closure (R55, R87, R199). -/
structure Unheld (x : Group) (p : Nat) (srcs : List (Src × Bool)) (dsts : List Reg) : Prop where
  ready : ∀ r ∈ x.guardRegs p ++ srcs.flatMap (fun a => x.srcRegs a.1 a.2) ++ dsts, x.pending r = false
  sound : x.badLanes p (srcs.flatMap fun a => x.srcRegs a.1 a.2) = 0
  latches : ∀ a ∈ srcs, (x.path p).awaitsLatch a.1 = false

/-- Whether a result to d in the lanes e writes lane l of a row (R36, R68). -/
def hitsRow (x : Group) (e : Word) (d : Dst) (wide : Bool) (row l : Nat) : Prop :=
  ∃ n, d = .v n ∧ laneOn e l = true ∧ (row = x.wb + n ∨ (wide = true ∧ row = x.wb + n + 1))

/-- The registers after a result r: the destination holds it in the executing lanes (a uniform one once, if a lane
executes), and every other register and lane is as before (R36, R68, R69). -/
structure Wrote (x y : Group) (e : Word) (d : Dst) (wide sign : Bool) (r : Nat → Nat) : Prop where
  low : ∀ n l, d = .v n → l < 32 → laneOn e l = true → y.rowGet (x.wb + n) l = BitVec.ofNat 32 (r l)
  high : ∀ n l, d = .v n → l < 32 → laneOn e l = true → wide = true →
    y.rowGet (x.wb + n + 1) l = BitVec.ofNat 32 (r l / 2 ^ 32)
  rows : ∀ row l, l < 32 → ¬ hitsRow x e d wide row l → y.rowGet row l = x.rowGet row l
  struck : ∀ row l, l < 32 → (row * 32 + l ∈ y.badRows ↔ row * 32 + l ∈ x.badRows ∧ ¬ hitsRow x e d wide row l)
  scalar : ∀ k, y.sGet k = if d = .s k ∧ k ≠ 0 ∧ e ≠ 0 then sExtend wide sign (r 0) else x.sGet k
  mask : ∀ k l, l < 32 →
    (y.mGet k).getLsbD l = if d = .m k ∧ k ≠ 0 ∧ laneOn e l = true then decide (r l % 2 = 1) else (x.mGet k).getLsbD l

/-- The path after a word that writes the latch b(pos mod 8): it holds the result in the executing lanes, a uniform one in
every lane, until the clause ends; the path moves past the word and no other path changes (R38, R43). -/
structure Latched (x y : Group) (p : Nat) (e : Word) (uniform : Bool) (r : Nat → Nat) : Prop where
  path : y.path p = { (x.path p).advance with latch := (y.path p).latch, dlatch := (y.path p).dlatch }
  latch : ∀ k l, l < 32 → smGet 0 (y.path p).latch (k * 32 + l) =
    if hdrCount (x.path p).head.toNat ≤ (x.path p).pos then 0
    else if k = (x.path p).pos % 8 ∧ e ≠ 0 ∧ (uniform = true ∨ laneOn e l = true) then
      BitVec.ofNat 32 (r (if uniform then 0 else l))
    else smGet 0 (x.path p).latch (k * 32 + l)
  deferred : (y.path p).dlatch =
    if hdrCount (x.path p).head.toNat ≤ (x.path p).pos then []
    else if e = 0 then (x.path p).dlatch
    else (x.path p).keepDeferred ((x.path p).pos % 8) (if uniform then 0xFFFFFFFF else e)
  others : ∀ q, q ≠ p → y.path q = x.path q
  count : y.paths.length = x.paths.length

/-- An outcome that completes an instruction with a result in its lanes: the registers, the latch and the path change as
said, the flags are raised, and nothing else in the machine changes, memory included. -/
def Computes (o : Host.Outcome State Fault Refusal) (s : State) (x : Group) (p : Nat) (d : Dst) (wide sign : Bool)
    (r : Nat → Nat) (fl : FFlags) : Prop :=
  ∃ y, o = .next (s.setGroup y) ∧
    y = { x with v := y.v, s := y.s, m := y.m, badRows := y.badRows, paths := y.paths, fl := x.fl.or fl } ∧
    Wrote x y (x.exec p) d wide sign r ∧ Latched x y p (x.exec p) d.isS r ∧
    ∀ a, Memory.read (s.setGroup y).mem a = Memory.read s.mem a

end Sys2Proof.Machine
end

