-- ==== Sys2Proof/Certificates/Slice0/Obligations.lean ====
section
/-! DEFINITION. The statements for the provers. `Sys2Proof.Claim` holds what they say each result is, in the terms of the
manual's rules; every statement's docstring names its rules. -/

namespace Sys2Proof.Claim

open Sys2Proof.Machine

/-! ### When an instruction runs, and its operands -/

/-- Path p of group x issues an instruction that computes at issue, and nothing holds it. -/
structure Runs (s : State) (x : Group) (p : Nat) (srcs : List (Src × Bool)) (d : Dst) (wide : Bool) : Prop where
  issue : AtIssue s x p
  free : Unheld x p srcs (x.dstRegs d wide)

/-- The width N of R93. -/
abbrev width (wide : Bool) : Nat := if wide then 64 else 32

/-- The value of a source in a lane. -/
def arg (s : State) (x : Group) (p : Nat) (a : Src) (wide : Bool) (l : Nat) : Nat := (opI a wide).val s x p l

/-- A source in a lane as N bits. -/
def word (s : State) (x : Group) (p : Nat) (a : Src) (wide : Bool) (l : Nat) : BitVec (width wide) :=
  BitVec.ofNat (width wide) (arg s x p a wide l)

/-- N bits as a number, signed or not. -/
def num (signed : Bool) {n : Nat} (v : BitVec n) : Int := if signed then v.toInt else (v.toNat : Int)

/-- An exact result on N bits, wrapped, or saturated with `.sat` (R97). -/
def fitted (wide signed sat : Bool) (t : Int) : Nat :=
  let n := width wide
  (BitVec.ofInt n
    (if !sat then t
     else if signed then max (-2 ^ (n - 1)) (min (2 ^ (n - 1) - 1) t)
     else max 0 (min (2 ^ n - 1) t))).toNat

/-! ### Integer and bit forms -/

/-- The four products of idp4 and its addend (R98). -/
def dot4 (signed : Bool) (a b c : BitVec 32) : Int :=
  num signed c + num signed (a.extractLsb' 0 8) * num signed (b.extractLsb' 0 8) +
    num signed (a.extractLsb' 8 8) * num signed (b.extractLsb' 8 8) +
    num signed (a.extractLsb' 16 8) * num signed (b.extractLsb' 16 8) +
    num signed (a.extractLsb' 24 8) * num signed (b.extractLsb' 24 8)

/-- The extracted field of R102, extended. -/
def field (signed : Bool) {n : Nat} (a : BitVec n) (pos len : Nat) : BitVec n :=
  if signed then ((a.sshiftRight pos).setWidth (min len n)).signExtend n else ((a >>> pos).setWidth (min len n)).setWidth n

/-- The inserted field of R103. -/
def inserted {n : Nat} (a b : BitVec n) (c : Nat) : BitVec n :=
  let pos := c % 256
  let mask := (BitVec.allOnes (c / 256 % 256)).setWidth n <<< pos
  (b &&& ~~~mask) ||| ((a <<< pos) &&& mask)

/-- A result byte of perm (R105). -/
def selByte (a b : BitVec 32) (c i : Nat) : BitVec 8 :=
  let n := c / 2 ^ (4 * i) % 16
  let j := (b ++ a).extractLsb' (8 * (n % 8)) 8
  if n < 8 then j else if j.msb then 0xFF else 0

/-- The condition of an icmp (R95, R106). -/
def holds (cc : ICond) (x y : Int) : Bool :=
  match cc with
  | .eq => decide (x = y)
  | .ne => decide (x ≠ y)
  | .lt => decide (x < y)
  | .le => decide (x ≤ y)
  | .gt => decide (x > y)
  | .ge => decide (x ≥ y)

/-- What mov writes, by the kinds of its source and destination (R108). -/
def moved (d : Dst) (a : Src) (l v : Nat) : Nat :=
  match d with
  | .m _ =>
    match a with
    | .v _ | .b _ => if v = 0 then 0 else 1
    | _ => (v.testBit l).toNat
  | _ => v

end Sys2Proof.Claim

open Sys2Proof Sys2Proof.Machine Sys2Proof.Claim

/-- R97: each arithmetic form completes with the exact result on its operands as its signedness reads them, wrapped or
saturated once, in its executing lanes; it raises no flag and changes nothing else (R38, R96). -/
def Sys2Proof.Part.IntegerArithmetic : Prop :=
  ∀ (s : State) (x : Group) (p : Nat) (mo : IMod) (d : Dst) (a b c : Src),
    let n := fun (r : Src) (l : Nat) => num mo.signed (word s x p r mo.wide l)
    let done := fun (i : Instr) (t : Nat → Int) => i.wf = true →
      Computes (exec i s) s x p d mo.wide mo.signed (fun l => fitted mo.wide mo.signed mo.sat (t l)) .none
    let cut := fun (i : Instr) (t : Nat → Int) => i.wf = true →
      Computes (exec i s) s x p d mo.wide mo.signed (fun l => fitted mo.wide mo.signed false (t l)) .none
    (Runs s x p [(a, mo.wide)] d mo.wide →
      done (.iabs mo d a) (fun l => (n a l).natAbs) ∧ done (.ineg mo d a) (fun l => -n a l)) ∧
    (Runs s x p [(a, mo.wide), (b, mo.wide)] d mo.wide →
      done (.iadd mo d a b) (fun l => n a l + n b l) ∧
      done (.isub mo d a b) (fun l => n a l - n b l) ∧
      done (.imul mo d a b) (fun l => n a l * n b l) ∧
      cut (.imulh mo.wide mo.signed d a b) (fun l => n a l * n b l / 2 ^ width mo.wide) ∧
      cut (.imin mo.wide mo.signed d a b) (fun l => min (n a l) (n b l)) ∧
      cut (.imax mo.wide mo.signed d a b) (fun l => max (n a l) (n b l))) ∧
    (Runs s x p [(a, mo.wide), (b, mo.wide), (c, mo.wide)] d mo.wide →
      done (.imad mo d a b c) (fun l => n a l * n b l + n c l))

/-- R98: idp4 completes with the exact sum of its addend and its four byte products, wrapped or saturated once. -/
def Sys2Proof.Part.ByteDotProduct : Prop :=
  ∀ (s : State) (x : Group) (p : Nat) (signed sat : Bool) (d : Dst) (a b c : Src),
    Runs s x p [(a, false), (b, false), (c, false)] d false → (Instr.idp4 signed sat d a b c).wf = true →
      Computes (exec (.idp4 signed sat d a b c) s) s x p d false signed
        (fun l => fitted false signed sat
          (dot4 signed (word s x p a false l) (word s x p b false l) (word s x p c false l))) .none

/-- R99 to R101: the logic forms, the shifts by an unsigned 32-bit amount and the funnel shift complete with their
results on N bits; each raises no flag and changes nothing else. -/
def Sys2Proof.Part.LogicAndShifts : Prop :=
  ∀ (s : State) (x : Group) (p : Nat) (wide : Bool) (d : Dst) (a b c : Src),
    let n := width wide
    let u := fun (r : Src) (l : Nat) => word s x p r wide l
    let k := fun (r : Src) (l : Nat) => arg s x p r false l % 2 ^ 32
    let done := fun (i : Instr) (t : Nat → BitVec n) => i.wf = true →
      Computes (exec i s) s x p d wide false (fun l => (t l).toNat) .none
    (Runs s x p [(a, wide), (b, wide)] d wide →
      done (.and wide d a b) (fun l => u a l &&& u b l) ∧
      done (.or wide d a b) (fun l => u a l ||| u b l) ∧
      done (.xor wide d a b) (fun l => u a l ^^^ u b l) ∧
      done (.andn wide d a b) (fun l => u a l &&& ~~~u b l) ∧
      done (.orn wide d a b) (fun l => u a l ||| ~~~u b l)) ∧
    (Runs s x p [(a, wide), (b, false)] d wide →
      done (.shl wide d a b) (fun l => u a l <<< k b l) ∧
      done (.shr wide d a b) (fun l => u a l >>> k b l) ∧
      done (.sar wide d a b) (fun l => (u a l).sshiftRight (k b l)) ∧
      done (.rot wide d a b) (fun l => (u a l).rotateLeft (k b l))) ∧
    (Runs s x p [(a, wide), (b, wide), (c, false)] d wide →
      done (.shf false wide d a b c) (fun l => ((u b l ++ u a l) >>> min (k c l) n).setWidth n) ∧
      done (.shf true wide d a b c) (fun l => (((u b l ++ u a l) <<< min (k c l) n) >>> n).setWidth n))

/-- R102 to R105: bfx, bfi, the counts, brev and perm complete with their results; each raises no flag and changes
nothing else. -/
def Sys2Proof.Part.BitFields : Prop :=
  ∀ (s : State) (x : Group) (p : Nat) (wide signed : Bool) (d : Dst) (a b c : Src),
    let n := width wide
    let u := fun (r : Src) (l : Nat) => word s x p r wide l
    let k := fun (r : Src) (l : Nat) => arg s x p r false l % 2 ^ 32
    let done := fun (i : Instr) (sg : Bool) (t : Nat → Nat) => i.wf = true → Computes (exec i s) s x p d wide sg t .none
    (Runs s x p [(a, wide), (b, false), (c, false)] d wide →
      done (.bfx wide signed d a b c) signed (fun l => (field signed (u a l) (k b l) (k c l)).toNat)) ∧
    (Runs s x p [(a, wide), (b, wide), (c, false)] d wide →
      done (.bfi wide d a b c) false (fun l => (inserted (u a l) (u b l) (k c l)).toNat)) ∧
    (Runs s x p [(a, wide)] d wide →
      done (.popc wide d a) false (fun l => (List.range n).countP (u a l).getLsbD) ∧
      done (.clz wide d a) false (fun l => ((List.range n).find? (u a l).getMsbD).getD n) ∧
      done (.ctz wide d a) false (fun l => ((List.range n).find? (u a l).getLsbD).getD n) ∧
      done (.brev wide d a) false (fun l => (u a l).reverse.toNat)) ∧
    (Runs s x p [(a, false), (b, false), (c, false)] d false → (Instr.perm d a b c).wf = true →
      Computes (exec (.perm d a b c) s) s x p d false false
        (fun l =>
          let y := fun i => selByte (word s x p a false l) (word s x p b false l) (k c l) i
          (y 3 ++ y 2 ++ y 1 ++ y 0).toNat) .none)

/-- R106 and R107: icmp completes with 1 where the condition holds and 0 elsewhere (in all 64 bits of an s register), and
sel with its a or its b, by a mask bit of the lane or by a whole uniform value, tested at the form's width (log 14). -/
def Sys2Proof.Part.CompareAndSelect : Prop :=
  ∀ (s : State) (x : Group) (p : Nat) (cc : ICond) (wide signed : Bool) (d : Dst) (a b c : Src) (m : Nat),
    (Runs s x p [(a, wide), (b, wide)] d d.isS → (Instr.icmp cc wide signed d a b).wf = true →
      Computes (exec (.icmp cc wide signed d a b) s) s x p d d.isS false
        (fun l => if holds cc (num signed (word s x p a wide l)) (num signed (word s x p b wide l)) then 1 else 0)
        .none) ∧
    (d.isS = false → Runs s x p [(a, wide), (b, wide), (.m m, wide)] d wide → (Instr.sel wide d a b (.m m)).wf = true →
      Computes (exec (.sel wide d a b (.m m)) s) s x p d wide false
        (fun l => arg s x p (if (x.mRead p m).toNat.testBit l then a else b) wide l) .none) ∧
    (d.isS = true → Runs s x p [(a, wide), (b, wide), (c, wide)] d wide → (Instr.sel wide d a b c).wf = true →
      Computes (exec (.sel wide d a b c) s) s x p d wide false
        (fun l => arg s x p (if arg s x p c wide l = 0 then b else a) wide l) .none)

/-- R108 to R111: the moves, the identity reads, movi and lea complete with their results. A movi that keeps bits of its
destination reads it, and keeps the bits of a value left open where the destination is suppressed (log 22). -/
def Sys2Proof.Part.MovesAndAddresses : Prop :=
  ∀ (s : State) (x : Group) (p : Nat) (wide signed : Bool) (d : Dst) (a : Src) (i : IdName) (k : BitVec 24) (m : MemOp),
    let done := fun (i : Instr) (t : State) (w sg : Bool) (r : Nat → Nat) => i.wf = true →
      Computes (exec i s) t x p d w sg r .none
    let u := if d = .off then { s with free := s.free + 64 } else s
    let self := fun (wide : Bool) => match d with
      | .v n => [(Src.v n, wide)]
      | .s n => [(Src.s n, wide)]
      | .m n => [(Src.m n, wide)]
      | .off => []
    let old := fun (l : Nat) => match d with
      | .v n => arg s x p (.v n) wide l
      | .s n => arg s x p (.s n) wide l
      | .m n => (x.mGet n).toNat
      | .off => (Config.freeWord (s.free + 2 * l)).toNat + 2 ^ 32 * (Config.freeWord (s.free + 2 * l + 1)).toNat
    (Runs s x p [(a, wide)] d wide →
      done (.mov wide signed d a) s wide (signed && !a.isM) (fun l => moved d a l (arg s x p a wide l))) ∧
    (Runs s x p [(.idn i, false)] d false → done (.movGetv d i) s false false (fun l => idVal s x i l)) ∧
    (Runs s x p [] d wide →
      done (.movi wide signed d k) s wide signed
        (fun _ => (if signed then k.signExtend (width wide) else k.setWidth (width wide)).toNat)) ∧
    (Runs s x p (self wide) d wide →
      done (.moviH1 wide signed d k) u wide signed
        (fun l => old l % 2 ^ 24 + k.toNat * 2 ^ 24 + if wide then old l / 2 ^ 48 * 2 ^ 48 else 0)) ∧
    (wide = true → Runs s x p (self true) d true →
      done (.moviH2 signed d k) u true signed (fun l => old l % 2 ^ 48 + k.toNat * 2 ^ 48)) ∧
    (Runs s x p [(.s m.base, true), (m.index, false)] d wide →
      done (.lea wide d m) s wide false
        (fun l => (BitVec.setWidth (width wide) (BitVec.ofNat 64 (arg s x p (.s m.base) true l) +
          ((BitVec.ofNat 32 (arg s x p m.index false l)).signExtend 64 <<< m.scale) + m.off.signExtend 64)).toNat))


namespace Sys2Proof.Claim

open Sys2Proof.Machine

/-! ### Lane exchange -/

/-- The value that a lane takes from lane j: a's value there, or its own where j is outside the path (R112). -/
def taken (s : State) (x : Group) (p : Nat) (a : Src) (wide : Bool) (l j : Nat) : Nat :=
  arg s x p a wide (if j < 32 ∧ laneOn (x.mask p) j = true then j else l)

/-- The predicate of a vote in a lane (R116). -/
def votes (s : State) (x : Group) (p : Nat) (a : Src) (l : Nat) : Bool :=
  match a with
  | .m n => (x.mRead p n).getLsbD l
  | _ => decide (arg s x p a false l ≠ 0)

/-- What vote.eq compares in a lane: the bit of an m register, or the lane's 32 bits. -/
def ballotValue (s : State) (x : Group) (p : Nat) (a : Src) (l : Nat) : Nat :=
  match a with
  | .m _ => (votes s x p a l).toNat
  | _ => arg s x p a false l

/-- The word whose bit L is set where P holds, in the lanes of a list. -/
def ballot (ls : List Nat) (P : Nat → Bool) : BitVec 32 :=
  ls.foldl (fun w l => if P l then w ||| 1#32 <<< l else w) 0

/-- What vote gives over the executing lanes (R116). -/
def voted (s : State) (x : Group) (p : Nat) (op : VoteOp) (d : Dst) (a : Src) (l : Nat) : Nat :=
  let ls := lanesOf (x.exec p)
  let all := ballot ls (votes s x p a)
  match op with
  | .any => if ∃ k ∈ ls, votes s x p a k = true then 1 else 0
  | .all => if ∀ k ∈ ls, votes s x p a k = true then 1 else 0
  | .eq =>
    if ∀ k ∈ ls, ∀ k' ∈ ls, ballotValue s x p a k = ballotValue s x p a k' then 1 else 0
  | .ballot =>
    match d with
    | .m _ => (all.getLsbD l).toNat
    | _ => all.toNat

/-- One step of a fold, and the value that starts it (R117). -/
def foldStep (op : RedOp) (signed : Bool) {n : Nat} (x y : BitVec n) : BitVec n :=
  match op with
  | .add => x + y
  | .min => if num signed x ≤ num signed y then x else y
  | .max => if num signed x ≥ num signed y then x else y
  | .and => x &&& y
  | .or => x ||| y
  | .xor => x ^^^ y
def foldUnit (op : RedOp) (signed : Bool) (n : Nat) : BitVec n :=
  match op with
  | .add | .or | .xor => 0
  | .and => BitVec.allOnes n
  | .min => if signed then BitVec.intMax n else BitVec.allOnes n
  | .max => if signed then BitVec.intMin n else 0
/-- The fold of a source over lanes. -/
def folded (s : State) (x : Group) (p : Nat) (op : RedOp) (wide signed : Bool) (a : Src) (ls : List Nat) : Nat :=
  ((ls.map (word s x p a wide)).foldl (foldStep op signed) (foldUnit op signed (width wide))).toNat

/-- The group that an address word names in a workgroup, if it stands and the register is below its W (R118). -/
def target (s : State) (coh wg w a : Nat) (wide : Bool) : Option Group :=
  (s.groups.find? fun t => t.coh == coh && t.wg == wg && t.gi == w / 32 % 32 && !t.retired).filter
    fun t => decide (a + (if wide then 2 else 1) ≤ t.win)
/-- What an lget receives in a lane: 0 where there is no such register, and an evicted group's as its saved state holds it. -/
def received (s : State) (x : Group) (w a : Nat) (wide : Bool) : Nat :=
  match target s x.coh x.wg w a wide with
  | none => 0
  | some t => (s.laneReg t a (w % 32)).toNat + if wide then 2 ^ 32 * (s.laneReg t (a + 1) (w % 32)).toNat else 0

/-- An outstanding lget as it issued. -/
def lgetOut (s : State) (x : Group) (p : Nat) (wide : Bool) (d a : Nat) (b : Src) : Out :=
  { id := s.fresh, inst := s.fresh, path := p, pc := (x.path p).pc, op := .lget wide, regs := x.dstRegs (.v d) wide
    lanes := x.exec p, accs := (lanesOf (x.exec p)).map fun l => ⟨l, 0, none, arg s x p b false l, a⟩
    agent := 0, hist := [], acq := false, rel := false, scope := .qd, alone := false, bytes := 0, fl := .none, discard := []
    whole := (lanesOf (x.exec p)).map fun l => ⟨l, 0, none, 0, 0⟩, poison := 0, poisonVa := 0, rpl := none }
/-- Whether what an lget receives in a lane holds a word struck by an uncorrectable error (R199). -/
def struckAt (s : State) (x : Group) (w a : Nat) (wide : Bool) : Bool :=
  match target s x.coh x.wg w a wide with
  | none => false
  | some t => decide ((t.wb + a) * 32 + w % 32 ∈ t.badRows) || (wide && decide ((t.wb + a + 1) * 32 + w % 32 ∈ t.badRows))

/-- An lput as it issued: its lanes' address words and values. -/
def lputOf (s : State) (x : Group) (p : Nat) (wide : Bool) (a : Nat) (b c : Src) : LPut :=
  { id := s.fresh, coh := x.coh, wg := x.wg, wide, reg := a
    lanes := (lanesOf (x.exec p)).map fun l => (arg s x p b false l, arg s x p c wide l) }

/-- A lane of an lput writes lane j of a row of group y. -/
def puts (s : State) (q : LPut) (y : Group) (lane : Nat × Nat) (row j : Nat) : Bool :=
  match target s q.coh q.wg lane.1 q.reg q.wide with
  | none => false
  | some t => t.uid == y.uid && lane.1 % 32 == j && (row == y.wb + q.reg || (q.wide && row == y.wb + q.reg + 1))

end Sys2Proof.Claim

/-- R112, R114 and R115: the exchanges complete with a's value in the source lane of their pattern, or with the lane's own
where that lane is outside the path; each raises no flag and changes nothing else. -/
def Sys2Proof.Part.LaneExchanges : Prop :=
  ∀ (s : State) (x : Group) (p : Nat) (pat : QPat) (w : ShW) (wide : Bool) (d : Dst) (a b : Src),
    let done := fun (i : Instr) (j : Nat → Nat) => i.wf = true →
      Computes (exec i s) s x p d wide false (fun l => taken s x p a wide l (j l)) .none
    let k := fun (l : Nat) => arg s x p b false l
    let wd := match w with
      | .w32 => 32 | .w16 => 16 | .w8 => 8 | .w4 => 4 | .w2 => 2
    let base := fun (l : Nat) => l - l % wd
    (Runs s x p [(a, wide)] d wide →
      done (.qxch pat wide d a) (fun l => 4 * (l / 4) + match pat with
        | .x1 => l % 4 ^^^ 1
        | .x2 => l % 4 ^^^ 2
        | .x3 => l % 4 ^^^ 3
        | .r1 => (l % 4 + 1) % 4)) ∧
    (Runs s x p [(a, wide), (b, false)] d wide →
      done (.qbc wide d a b) (fun l => 4 * (l / 4) + k l % 4) ∧
      done (.shfl w wide d a b) (fun l => base l + k l % wd) ∧
      done (.shflx w wide d a b) (fun l => l ^^^ (k l % wd)) ∧
      done (.shflup w wide d a b) (fun l => if k l < wd ∧ base l + k l ≤ l then l - k l else l) ∧
      done (.shfldn w wide d a b) (fun l => if k l < wd ∧ l + k l < base l + wd then l + k l else l))

/-- R116 and R117: vote completes with its result over the executing lanes (vote.eq of an m register compares the lanes' bits,
log 77), gred with the fold over them in every lane or
in its s register, gscan with the fold over those at or below the lane, or strictly below it. -/
def Sys2Proof.Part.VotesAndFolds : Prop :=
  ∀ (s : State) (x : Group) (p : Nat) (v : VoteOp) (op : RedOp) (ex wide signed : Bool) (d : Dst) (a : Src),
    let ls := lanesOf (x.exec p)
    (Runs s x p [(a, false)] d false → (Instr.vote v d a).wf = true →
      Computes (exec (.vote v d a) s) s x p d false false (voted s x p v d a) .none) ∧
    (Runs s x p [(a, wide)] d wide → (Instr.gred op wide signed d a).wf = true →
      Computes (exec (.gred op wide signed d a) s) s x p d wide signed (fun _ => folded s x p op wide signed a ls) .none) ∧
    (Runs s x p [(a, wide)] d wide → (Instr.gscan op ex wide signed d a).wf = true →
      Computes (exec (.gscan op ex wide signed d a) s) s x p d wide signed
        (fun l => folded s x p op wide signed a (ls.filter fun k => if ex then k < l else k ≤ l)) .none)

/-- R118, R175 and R199: lget marks its destination pending and goes on; when no register that its address words name is pending,
it lands with what those registers hold at that instant, or 0, in those of its lanes that have not exited, and its destination
is pending no more. While lanes other than helper lanes read a word struck by an uncorrectable error, the others land, and the
destination stays pending, those lanes poisoned (log 47). -/
def Sys2Proof.Part.LaneReads : Prop :=
  (∀ (s : State) (x : Group) (p : Nat) (wide : Bool) (d a : Nat) (b : Src),
    AtIssue s x p → Unheld x p [(b, false)] (x.dstRegs (.v d) wide) →
      exec (.lget wide d a b) s =
        if x.exec p = 0 then .next (s.setGroup (x.modPath p Path.advance))
        else .next (State.setGroup { s with fresh := s.fresh + 1 }
          (Group.modPath { x with outs := x.outs ++ [lgetOut s x p wide d a b] } p Path.advance))) ∧
  ∀ (s : State) (g k : Nat) (x : Group) (o : Out) (wide : Bool) (d : Nat),
    let as := o.accs.filter fun c => laneOn o.lanes c.lane
    let m := maskOf ((as.filter fun c => !laneOn x.helpers c.lane && struckAt s x c.x c.y wide).map (·.lane))
    s.wq = [] → s.hostWq = [] → s.group? g = some x → x.outs.find? (·.id == k) = some o → o.op = .lget wide →
    o.regs = x.dstRegs (.v d) wide → o.discard = [] → o.poison = 0 → as.map (·.lane) = lanesOf o.lanes →
    ((∀ c ∈ as, s.targetPending x.coh x.wg c.x c.y wide (some (g, k)) = false) →
      ∃ y, exec (.lgetLanding g k) s = .next (s.setGroup (Group.captureBound y)) ∧
        y = { x with
          v := y.v, badRows := y.badRows
          outs := if m = 0 then x.outs.filter (·.id != k) else x.outs.map fun q => if q.id == k then { q with poison := m } else q } ∧
        ∀ r, (∀ c ∈ as, r c.lane = received s x c.x c.y wide) → Wrote x y (o.lanes &&& ~~~m) (.v d) wide false r) ∧
    ((∃ c ∈ as, s.targetPending x.coh x.wg c.x c.y wide (some (g, k)) = true) → exec (.lgetLanding g k) s = .next s)

/-- R118 and R119: lput goes on at once, and stands as issued. It takes effect at one later instant, when no register that it
names is pending: in every group of the workgroup, each register lane that its lanes name holds the value of the highest of
them, and every other register lane, and everything else in that group, is as before; where no evicted group is named, the rest
of the machine is as before too. -/
def Sys2Proof.Part.LaneWrites : Prop :=
  (∀ (s : State) (x : Group) (p : Nat) (wide : Bool) (a : Nat) (b c : Src),
    AtIssue s x p → Unheld x p [(b, false), (c, wide)] [] →
      exec (.lput wide a b c) s =
        if x.exec p = 0 then .next (s.setGroup (x.modPath p Path.advance))
        else .next (State.setGroup { s with fresh := s.fresh + 1, lputs := s.lputs ++ [lputOf s x p wide a b c] }
          (x.modPath p Path.advance))) ∧
  ∀ (s : State) (k : Nat) (q : LPut), s.lputs.find? (·.id == k) = some q →
    ((∃ l ∈ q.lanes, s.targetPending q.coh q.wg l.1 q.reg q.wide none = true) → s.lputLand k = s) ∧
    ((∀ l ∈ q.lanes, s.targetPending q.coh q.wg l.1 q.reg q.wide none = false) →
      let t := s.lputLand k
      t.lputs = s.lputs.filter (·.id != k) ∧
      ((∀ y ∈ s.groups, y.saved = true → y.resident = true) → t = { s with groups := t.groups, lputs := t.lputs }) ∧
      ∀ h y, s.group? h = some y → ∃ z, t.group? h = some z ∧ z = { y with v := z.v, badRows := z.badRows } ∧
        ∀ row j, j < 32 →
          let by_ := q.lanes.reverse.find? fun l => puts s q y l row j
          z.rowGet row j = (match by_ with
            | none => y.rowGet row j
            | some l => BitVec.ofNat 32 (if row = y.wb + q.reg then l.2 else l.2 / 2 ^ 32)) ∧
          (row * 32 + j ∈ z.badRows ↔ row * 32 + j ∈ y.badRows ∧ by_ = none))

namespace Sys2Proof.Claim

open Sys2Proof.Machine

/-! ### Floating point -/

/-- The exact value of a finite one. -/
def rat : FV → Option ℚ
  | .fin neg m e => some ((if neg then -1 else 1) * (m : ℚ) * 2 ^ e)
  | _ => none

/-- How many steps of the grid the magnitude `r` steps rounds to (R124). -/
def chosen (rm : Rm) (neg : Bool) (r : ℚ) : Int :=
  let n := ⌊r⌋
  let t := r - n
  if t = 0 then n
  else
    match rm with
    | .rne => if t < 1 / 2 ∨ (t = 1 / 2 ∧ n % 2 = 0) then n else n + 1
    | .rna => if t < 1 / 2 then n else n + 1
    | .rz => n
    | .rup => if neg then n else n + 1
    | .rdn => if neg then n + 1 else n

/-- The exponent of the spacing of a format's grid at `m · 2^e`, and of its smallest normal value (R121, R124). -/
def spacing (f : FFmt) (m : Nat) (e : Int) : Int := max ((Nat.log2 m : Int) + e - f.fbits) (1 - f.bias - f.fbits)

/-- What replaces an overflow (R125, R126). -/
def replaced (f : FFmt) (rm : Rm) (neg : Bool) : Nat :=
  if f.hasInf ∧ (rm = .rne ∨ rm = .rna ∨ (rm = .rup ∧ neg = false) ∨ (rm = .rdn ∧ neg = true)) then f.infEnc
  else f.maxEnc

/-- A float operand in a lane, its immediate converted, and its sign bit as the modifiers leave it (R32, R34). -/
def farg (s : State) (x : Group) (p : Nat) (a : Src) (f : FFmt) (l : Nat) : Nat := (opF a f).val s x p l
def modified (f : FFmt) (neg abs : Bool) (v : Nat) : Nat :=
  v % 2 ^ (f.width - 1) + ((v.testBit (f.width - 1) && !abs) ^^ neg).toNat * 2 ^ (f.width - 1)

/-- An exact result with its IV, rounded once; a signalling operand sets IV too (R123, R145). -/
def rounded (t : FFmt) (rm : Rm) (v : FV) (iv : Bool) (ops : List FV) : Nat × FFlags :=
  ((roundF t rm v).1, { (roundF t rm v).2 with iv := iv || ops.any FV.isSig })

/-- The flags that an instruction raises: each where an executing lane that is no helper raises it; a uniform
instruction's whenever it executes (R144). -/
def raised (uniform : Bool) (e helpers : Word) (f : Nat → FFlags) : FFlags :=
  let some_ := fun (g : FFlags → Bool) =>
    if uniform then e != 0 && g (f 0) else (lanesOf (e &&& ~~~helpers)).any fun l => g (f l)
  ⟨some_ FFlags.iv, some_ FFlags.dz, some_ FFlags.of, some_ FFlags.uf, some_ FFlags.nx⟩

/-- Completing with a result and its flags in each lane. -/
def ComputesF (i : Instr) (s : State) (x : Group) (p : Nat) (d : Dst) (wide sign : Bool) (r : Nat → Nat × FFlags) : Prop :=
  Computes (exec i s) s x p d wide sign (fun l => (r l).1) (raised d.isS (x.exec p) x.helpers fun l => (r l).2)

/-- A condition of fcmp (R147). -/
def fholds (cc : FCond) (x y : FV) : Bool :=
  let num := !x.isNan && !y.isNan
  match cc with
  | .eq => num && !fltX x y && !fltX y x
  | .ne => !(num && !fltX x y && !fltX y x)
  | .lt => num && fltX x y
  | .le => num && !fltX y x
  | .gt => num && fltX y x
  | .ge => num && !fltX x y
  | .num => num
  | .nan => !num

/-- Whether x comes before y, with -0 below +0 (R146). -/
def below (x y : FV) : Bool := fltX x y || (!fltX y x && x.neg && !y.neg)

/-- The smaller or the larger of two encodings (R146). -/
def extreme (t : FFmt) (big : Bool) (a b : Nat) : Nat × FFlags :=
  let x := fval t a
  let y := fval t b
  (if x.isNan && y.isNan then t.nanEnc else if x.isNan then b else if y.isNan then a
   else if below x y then (if big then b else a) else if below y x then (if big then a else b) else b,
   { FFlags.none with iv := x.isSig || y.isSig })

/-- An outstanding transcendental result (R86). -/
def transcendental (s : State) (x : Group) (p : Nat) (d : Dst) (r : Nat → Nat × FFlags) : Out :=
  { id := s.fresh, inst := s.fresh, path := p, pc := (x.path p).pc, op := .trans, regs := x.dstRegs d false
    lanes := x.exec p, accs := (lanesOf (x.exec p)).map fun l => ⟨l, 0, none, (r l).1, 0⟩
    agent := 0, hist := [], acq := false, rel := false, scope := .qd, alone := false, bytes := 0
    fl := raised false (x.exec p) x.helpers fun l => (r l).2
    discard := [], whole := [], poison := 0, poisonVa := 0, rpl := none }

/-- The integer that the elements of a block form, of b bits each, element 0 lowest (R132). -/
def blockInt (b : Nat) (els : List Nat) : Nat := els.foldr (fun x t => x % 2 ^ b + 2 ^ b * t) 0

end Sys2Proof.Claim

/-- R124 to R127: rounding an exact non-zero value gives the neighbour on the format's grid that the mode chooses, with
the value's sign; a neighbour beyond the largest finite value is replaced and sets OF and NX; NX is set when the result
differs, and UF when it differs and lies below the smallest normal value. -/
def Obligations.RoundingToAFormat : Prop :=
  ∀ (f : FFmt) (rm : Rm) (neg : Bool) (m : Nat) (e : Int), f ∈ [fp32, fp16, bfp16, fpE4m3, fpE5m2] → m ≠ 0 →
    let u : ℚ := 2 ^ spacing f m e
    let v : ℚ := m * 2 ^ e
    let n := chosen rm neg (v / u)
    let top : ℚ := (rat (fval f f.maxEnc)).getD 0
    let sgn := neg.toNat * 2 ^ (f.width - 1)
    if top < n * u then roundF f rm (.fin neg m e) = (sgn + replaced f rm neg, ⟨false, false, true, false, true⟩)
    else
      ∃ enc k q, roundF f rm (.fin neg m e) =
          (sgn + enc, ⟨false, false, false, decide (n * u ≠ v ∧ n * u < 2 ^ (1 - f.bias)), decide (n * u ≠ v)⟩) ∧
        enc ≤ f.maxEnc ∧ fval f (sgn + enc) = .fin neg k q ∧ (k : ℚ) * 2 ^ q = n * u

/-- R145 and R128: the exact sum and product of two finite values, the sign of a zero sum, the results of infinities and
NaNs with their IV, and the order of finite values, which fadd, fmul, fma, fdp2, fcmp, fmin and fmax use before rounding. A
NaN beside any value, an infinity or a NaN included, gives a quiet NaN, raises no IV of its own, and is in no order. -/
def Sys2Proof.Part.ExactFloatOperations : Prop :=
  ∀ (rm : Rm) (a b : Bool) (m k : Nat) (e q : Int) (v w : FV),
    let x := FV.fin a m e
    let y := FV.fin b k q
    (rat (faddX rm x y).1 = (do pure ((← rat x) + (← rat y))) ∧ (faddX rm x y).2 = false) ∧
    (rat (fmulX x y).1 = (do pure ((← rat x) * (← rat y))) ∧ (fmulX x y).1.neg = (a != b) ∧ (fmulX x y).2 = false) ∧
    (rat (faddX rm x y).1 = some 0 → (faddX rm x y).1.neg = if a = b then a else decide (rm = .rdn)) ∧
    (fltX x y = true ↔ ∃ r t, rat x = some r ∧ rat y = some t ∧ r < t) ∧
    faddX rm (.inf a) x = (.inf a, false) ∧ faddX rm x (.inf a) = (.inf a, false) ∧
    faddX rm (.inf a) (.inf a) = (.inf a, false) ∧ faddX rm (.inf a) (.inf !a) = (.nan false, true) ∧
    fmulX (.inf a) x = (if m = 0 then (.nan false, true) else (.inf (a != a), false)) ∧
    fmulX y (.inf a) = (if k = 0 then (.nan false, true) else (.inf (b != a), false)) ∧
    fmulX (.inf a) (.inf b) = (.inf (a != b), false) ∧
    (fltX (.inf a) x = a ∧ fltX x (.inf a) = !a ∧ fltX (.inf a) (.inf b) = (a && !b)) ∧
    (v.isNan = true →
      (∀ r ∈ [faddX rm v w, faddX rm w v, fmulX v w, fmulX w v], r = (.nan false, false)) ∧
      fltX v w = false ∧ fltX w v = false)

/-- R142 to R149: fadd, fmul, fma, fdp2 and frnd complete with their exact results rounded once, and raise the flags of
R144, IV for a signalling operand among them; nothing else changes. That fdp2 adds its two products first, and so sets IV for
infinities of opposite sign beside a quiet NaN only where both are products, is the model's choice (log 88). -/
def Sys2Proof.Part.FloatArithmetic : Prop :=
  ∀ (s : State) (x : Group) (p : Nat) (rm : Rm) (fm : FMod) (d : Dst) (a b c : Src),
    let t := ftyFmt fm.ty
    let va := fun l => fval t (modified t fm.negA fm.absA (farg s x p a t l))
    let vb := fun l => fval t (modified t fm.negB fm.absB (farg s x p b t l))
    let vc := fun l => fval t (farg s x p c t l % 2 ^ t.width)
    let ea := fun h l => fval t (modified t fm.negA fm.absA (arg s x p a false l / 2 ^ (16 * h)))
    let eb := fun h l => fval t (modified t fm.negB fm.absB (arg s x p b false l / 2 ^ (16 * h)))
    let ec := fun l => fval fp32 (farg s x p c fp32 l)
    let done := fun (i : Instr) (r : Nat → Nat × FFlags) => i.wf = true → ComputesF i s x p d false false r
    (Runs s x p [(a, false)] d false →
      done (.frnd rm fm d a) (fun l =>
        (match va l with
         | .fin neg m e => (roundF t rm (.fin neg (chosen rm neg (m * 2 ^ e)).toNat 0)).1
         | v => (roundF t rm v).1, { FFlags.none with iv := (va l).isSig }))) ∧
    (Runs s x p [(a, false), (b, false)] d false →
      done (.fadd rm fm d a b) (fun l =>
        let v := faddX rm (va l) (vb l)
        rounded t rm v.1 v.2 [va l, vb l]) ∧
      done (.fmul rm fm d a b) (fun l =>
        let v := fmulX (va l) (vb l)
        rounded t rm v.1 v.2 [va l, vb l])) ∧
    (Runs s x p [(a, false), (b, false), (c, false)] d false →
      done (.fma rm fm d a b c) (fun l =>
        let m := fmulX (va l) (vb l)
        let v := faddX rm m.1 (vc l)
        rounded t rm v.1 (m.2 || v.2) [va l, vb l, vc l]) ∧
      done (.fdp2 rm fm d a b c) (fun l =>
        let m := fmulX (ea 0 l) (eb 0 l)
        let n := fmulX (ea 1 l) (eb 1 l)
        let u := faddX rm m.1 n.1
        let v := faddX rm u.1 (ec l)
        rounded fp32 rm v.1 (m.2 || n.2 || u.2 || v.2) [ea 0 l, eb 0 l, ea 1 l, eb 1 l, ec l]))

/-- R146 and R147: fcmp completes with 1 where its condition holds (in all 64 bits of an s register), fmin and fmax with
the smaller or larger operand; a signalling operand sets IV, and nothing else changes. -/
def Sys2Proof.Part.FloatComparison : Prop :=
  ∀ (s : State) (x : Group) (p : Nat) (cc : FCond) (fm : FMod) (d : Dst) (a b : Src),
    let t := ftyFmt fm.ty
    let ma := fun l => modified t fm.negA fm.absA (farg s x p a t l)
    let mb := fun l => modified t fm.negB fm.absB (farg s x p b t l)
    (Runs s x p [(a, false), (b, false)] d d.isS → (Instr.fcmp cc fm d a b).wf = true →
      ComputesF (.fcmp cc fm d a b) s x p d d.isS false (fun l =>
        ((fholds cc (fval t (ma l)) (fval t (mb l))).toNat,
         { FFlags.none with iv := (fval t (ma l)).isSig || (fval t (mb l)).isSig }))) ∧
    (Runs s x p [(a, false), (b, false)] d false → (Instr.fmin fm d a b).wf = true →
      ComputesF (.fmin fm d a b) s x p d false false (fun l => extreme t false (ma l) (mb l)) ∧
      ComputesF (.fmax fm d a b) s x p d false false (fun l => extreme t true (ma l) (mb l)))

namespace Sys2Proof.Claim

open Sys2Proof.Machine

/-! ### Conversion, packing, quantising and the transcendental forms -/

/-- The least and greatest values of an integer type. -/
def least (signed : Bool) (n : Nat) : Int := if signed then -2 ^ (n - 1) else 0
def greatest (signed : Bool) (n : Nat) : Int := if signed then 2 ^ (n - 1) - 1 else 2 ^ n - 1

/-- An integer result of n bits, extended to 32 bits where it is narrower (R154). -/
def extended (signed : Bool) (n : Nat) (t : Int) : Nat :=
  let r := BitVec.ofInt n t
  if n < 32 then (if signed then r.signExtend 32 else r.setWidth 32).toNat else r.toNat

/-- A value rounded to an integer of a type, saturated (R155). -/
def integral (rm : Rm) (signed : Bool) (n : Nat) (v : FV) : Int × FFlags :=
  match v with
  | .nan _ => (0, ⟨true, false, false, false, false⟩)
  | .inf neg => (if neg then least signed n else greatest signed n, ⟨true, false, false, false, false⟩)
  | .fin neg m e =>
    let k := chosen rm neg ((m : ℚ) * 2 ^ e)
    let i := if neg then -k else k
    if i < least signed n then (least signed n, ⟨true, false, false, false, false⟩)
    else if greatest signed n < i then (greatest signed n, ⟨true, false, false, false, false⟩)
    else (i, ⟨false, false, false, false, decide ((k : ℚ) ≠ m * 2 ^ e)⟩)

/-- What cvt gives (R154, R155). -/
def converted (rm : Rm) (sat : Bool) (dt st : CTy) (x : Nat) : Nat × FFlags :=
  match ctyInt dt, ctyInt st with
  | some (n, sg), some (k, ks) =>
    let v := num ks (BitVec.ofNat k x)
    (extended sg n (if sat then max (least sg n) (min (greatest sg n) v) else v), .none)
  | none, some (k, ks) =>
    let v := num ks (BitVec.ofNat k x)
    roundF (ctyFlt dt) rm (.fin (decide (v < 0)) v.natAbs 0)
  | some (n, sg), none =>
    let r := integral rm sg n (fval (ctyFlt st) x)
    (extended sg n r.1, r.2)
  | none, none =>
    let t := ctyFlt dt
    let v := fval (ctyFlt st) x
    let r := roundF t rm v
    let fl := { r.2 with iv := v.isSig }
    if sat && t.hasInf && r.1 == t.infEnc then (t.maxEnc, { fl with of := true, nx := true })
    else if sat && t.hasInf && r.1 == 2 ^ (t.width - 1) + t.infEnc then
      (2 ^ (t.width - 1) + t.maxEnc, { fl with of := true, nx := true })
    else (r.1, fl)

/-- The format that an immediate source of cvt converts to (R32). -/
def cvtArg (s : State) (x : Group) (p : Nat) (a : Src) (st : CTy) (l : Nat) : Nat :=
  if st.isInt then arg s x p a st.wide l else farg s x p a (ctyFlt st) l

/-- n registers as sources, from va. -/
def block (a n : Nat) : List (Src × Bool) := (List.range n).map fun i => (Src.v (a + i), false)
/-- Their values in a lane. -/
def blockOf (x : Group) (a n l : Nat) : List Nat := (List.range n).map fun i => (x.vGet (a + i) l).toNat

/-- The value of a scale below 0xFF (R129). -/
def scaleQ (c : Nat) : ℚ := 
  if c / 8 = 0 then (c % 8 : Nat) * 2 ^ (-17 : Int) else (1 + (c % 8 : Nat) / 8) * 2 ^ ((c / 8 : Nat) - (15 : Int))
/-- The value of a magnitude field, the largest one's field and value, and k (R130, R157). -/
def gridQ (f : TsFmt) (c : Nat) : ℚ :=
  let small := fun (n : Nat) (bias : Int) =>
    if c / 2 ^ n = 0 then (2 : ℚ) ^ (1 - bias) * (c / 2 ^ n) else 2 ^ ((c / 2 ^ n : Nat) - bias) * (1 + (c % 2 ^ n : Nat) / 2 ^ n)
  match f with
  | .ts4 => c
  | .ts8 => small 3 3
  | .ts12 => small 6 7
def topMag : TsFmt → Nat
  | .ts4 => 3 | .ts8 => 0x3F | .ts12 => 0x3FF
def topQ : TsFmt → ℚ
  | .ts4 => 3 | .ts8 => 30 | .ts12 => 508
def kOf : TsFmt → Nat
  | .ts4 => 2 | .ts8 => 4 | .ts12 => 6
/-- The width of an element (R132). -/
def widthOf : TsFmt → Nat
  | .ts4 => 4 | .ts8 => 8 | .ts12 => 12
/-- c is the smallest scale that reaches every magnitude of P divided by M, or 0xFE where none does (R157). -/
def Scale (f : TsFmt) (P : ℚ → Prop) (c : Nat) : Prop :=
  let reaches := fun c => ∀ v, P v → v ≤ topQ f * scaleQ c
  (c ≤ 254 ∧ reaches c ∧ ∀ k < c, ¬ reaches k) ∨ (c = 0xFE ∧ ∀ k ≤ 254, ¬ reaches k)
/-- mag is q rounded to the grid, to nearest and even, and no more than the largest (R157). -/
def Nearest (f : TsFmt) (q : ℚ) (mag : Nat) : Prop :=
  mag ≤ topMag f ∧ ∀ c ≤ topMag f, c ≠ mag →
    |gridQ f mag - q| < |gridQ f c - q| ∨ (|gridQ f mag - q| = |gridQ f c - q| ∧ mag % 2 = 0)

/-- The result of a transcendental form in FP32, within `n` spacings of the exact value `y`, or within the bound `e`, its NX
and UF as R150 has them. -/
def Close (r : Nat × FFlags) (ok : ℝ → Prop) (y : ℝ) : Prop :=
  ∃ q : ℚ, rat (fval fp32 r.1) = some q ∧ ok q ∧ ((q : ℝ) ≠ y → r.2.nx = true) ∧
    r.2 = { FFlags.none with nx := r.2.nx, uf := r.2.nx && decide (|q| < 2 ^ (-126 : Int)) }
/-- The distance to `y` is less than n times the FP32 spacing at |y| (R150). -/
def Ulps (n : Nat) (y q : ℝ) : Prop :=
  ∀ t : Int, (2 : ℝ) ^ t ≤ |y| → |y| < 2 ^ (t + 1) → |q - y| < n * 2 ^ max (t - 23) (-149)

/-- A state in which a path of a group has left its word, and a producer is outstanding, named by the next number. -/
def Produces (o : Host.Outcome State Fault Refusal) (s : State) (x : Group) (p : Nat) (q : Out) : Prop :=
  o = .next (State.setGroup { s with fresh := s.fresh + 1 } (Group.modPath { x with outs := x.outs ++ [q] } p Path.advance))

end Sys2Proof.Claim

/-- R153 to R155 and R160: cvt completes with the converted value and its flags, fpack with its two rounded values side by
side, in the 8-bit formats below the low half of c. -/
def Sys2Proof.Part.ConversionAndPacking : Prop :=
  ∀ (s : State) (x : Group) (p : Nat) (rm : Rm) (sat : Bool) (dt st : CTy) (f : PkFmt) (d : Dst) (a b c : Src),
    let signed := (ctyInt dt).any fun t => t.2
    let e := fun (r : Src) (l : Nat) =>
      let v := fval fp32 (farg s x p r fp32 l)
      let q := roundF (pkFmt f) rm v
      (q.1, { q.2 with iv := v.isSig })
    (Runs s x p [(a, st.wide)] d dt.wide → (Instr.cvt rm sat dt st d a).wf = true →
      ComputesF (.cvt rm sat dt st d a) s x p d dt.wide signed
        (fun l => converted rm sat dt st (cvtArg s x p a st l))) ∧
    (Runs s x p ([(a, false), (b, false)] ++ if f.narrow then [(c, false)] else []) d false →
      (Instr.fpack f rm d a b c).wf = true →
      ComputesF (.fpack f rm d a b c) s x p d false false (fun l =>
        (if f.narrow then (e a l).1 + (e b l).1 * 2 ^ 8 + arg s x p c false l % 2 ^ 16 * 2 ^ 16
         else (e a l).1 + (e b l).1 * 2 ^ 16, (e a l).2.or (e b l).2)))

/-- R157 and R129 to R131: the block that quant forms of 32 values. A NaN gives the pair 0xFFFF, zeros the pair 0, each with
elements of zero; otherwise s0 is the smallest scale that reaches the largest magnitude divided by M, s1 that of the small
set, and each element the magnitude nearest to its value divided by the scale that its selector names, with the flags of
R157. An infinity makes s0 0xFE and every finite value small. Where no scale reaches the small set, s1 is 0xFE too (the
model's choice, log 89). An element's value is its magnitude times its scale with its sign, and NaN under the scale 0xFF. -/
def Sys2Proof.Part.QuantisedBlocks : Prop :=
  ∀ (f : TsFmt) (xs : List Nat), xs.length = 32 →
    let v := fun i => fval fp32 (xs.getD i 0)
    let abs := fun i => (rat (v i)).map fun q : ℚ => |q|
    let hasInf := xs.any fun w => (fval fp32 w).isInf
    let finite := fun q => ∃ i < 32, abs i = some q
    let small := fun i => ∃ q, abs i = some q ∧ (hasInf = true ∨ ∃ j < 32, ∃ t, abs j = some t ∧ q < t / 2 ^ kOf f)
    let smallSet := fun q => ∃ i < 32, small i ∧ abs i = some q
    ((∃ i < 32, (v i).isNan = true) →
      quantLane f xs = (List.replicate 32 0, 0xFFFF, ⟨true, false, false, false, false⟩)) ∧
    ((∀ i < 32, (v i).isZero = true) → quantLane f xs = (List.replicate 32 0, 0, .none)) ∧
    ((∀ i < 32, (v i).isNan = false) → (∃ i < 32, (v i).isZero = false) →
      ∃ (els : List Nat) (s0 s1 : Nat) (sel : Nat → Bool) (mag : Nat → Nat) (of uf nx : Bool),
        quantLane f xs = (els, s1 * 256 + s0, ⟨false, false, of, uf, nx⟩) ∧ els.length = 32 ∧
        (if hasInf = true then s0 = 0xFE else Scale f finite s0) ∧
        (∀ i < 32, sel i = true ↔ small i) ∧
        (of = true ↔ hasInf = true ∨ ∃ q, finite q ∧ topQ f * scaleQ 254 < q) ∧
        ((¬ ∃ q, smallSet q) → s1 = 0) ∧ ((∃ q, smallSet q) → Scale f smallSet s1) ∧
        (∀ i < 32,
          let c := if sel i then s1 else s0
          els.getD i 0 = (sel i).toNat * 2 ^ (widthOf f - 1) + (v i).neg.toNat * 2 ^ (widthOf f - 2) + mag i ∧
          (∀ q, abs i = some q → if q = 0 then mag i = 0 else Nearest f (q / scaleQ c) (mag i)) ∧
          ((v i).isInf = true → mag i = topMag f)) ∧
        (uf = true ↔ ∃ i < 32, mag i = 0 ∧ (v i).isZero = false) ∧
        (nx = true ↔ of = true ∨ ∃ i < 32, abs i ≠ some (gridQ f (mag i) * scaleQ (if sel i then s1 else s0)))) ∧
    (∀ pair < 2 ^ 16, ∀ x < 2 ^ widthOf f,
      let c := if x.testBit (widthOf f - 1) then pair / 256 else pair % 256
      let neg := x.testBit (widthOf f - 2)
      if c = 0xFF then tsVal f pair x = .nan false
      else (tsVal f pair x).neg = neg ∧
        rat (tsVal f pair x) = some ((if neg then -1 else 1) * (gridQ f (x % 2 ^ (widthOf f - 2)) * scaleQ c)))

/-- R156 to R158: quant completes with the block that `quantLane` gives for a lane's 32 values, its element words from d
and its scale pair in sp, and its flags; dequant with the FP32 encodings of a block's 32 elements. The latch receives the
word of the register d. Every source is read before any register is written, and nothing else changes. -/
def Sys2Proof.Part.Quantising : Prop :=
  ∀ (s : State) (x : Group) (p : Nat) (f : TsFmt) (d sp a : Nat),
    let e := x.exec p
    let q := fun l => quantLane f (blockOf x a 32 l)
    let w := fun i l => BitVec.ofNat 32 (blockInt (tsWidth f) (q l).1 / 2 ^ (32 * i))
    let v := fun i l => BitVec.ofNat 32
      (toF32 (tsVal f ((x.vGet sp l).toNat % 2 ^ 16) (blockInt 32 (blockOf x a f.regs l) / 2 ^ (tsWidth f * i) % 2 ^ tsWidth f)))
    AtIssue s x p →
    (Unheld x p (block a 32) (x.rows d f.regs ++ x.rows sp 1) → (Instr.quant f d sp a).wf = true →
      ∃ y, exec (.quant f d sp a) s = .next (s.setGroup y) ∧
        y = { x with v := y.v, badRows := y.badRows, paths := y.paths
                     fl := x.fl.or (raised false e x.helpers fun l => (q l).2.2) } ∧
        (∀ row l, l < 32 → y.rowGet row l =
          if laneOn e l = true ∧ row = x.wb + sp then BitVec.ofNat 32 (q l).2.1
          else if laneOn e l = true ∧ x.wb + d ≤ row ∧ row < x.wb + d + f.regs then w (row - x.wb - d) l
          else x.rowGet row l) ∧
        (∀ row l, l < 32 → (row * 32 + l ∈ y.badRows ↔ row * 32 + l ∈ x.badRows ∧
          ¬ (laneOn e l = true ∧ (row = x.wb + sp ∨ (x.wb + d ≤ row ∧ row < x.wb + d + f.regs))))) ∧
        Latched x y p e false fun l => (w 0 l).toNat) ∧
    (Unheld x p (block a f.regs ++ block sp 1) (x.rows d 32) → (Instr.dequant f d a sp).wf = true →
      ∃ y, exec (.dequant f d a sp) s = .next (s.setGroup y) ∧
        y = { x with v := y.v, badRows := y.badRows, paths := y.paths } ∧
        (∀ row l, l < 32 → y.rowGet row l =
          if laneOn e l = true ∧ x.wb + d ≤ row ∧ row < x.wb + d + 32 then v (row - x.wb - d) l else x.rowGet row l) ∧
        (∀ row l, l < 32 → (row * 32 + l ∈ y.badRows ↔ row * 32 + l ∈ x.badRows ∧
          ¬ (laneOn e l = true ∧ x.wb + d ≤ row ∧ row < x.wb + d + 32))) ∧
        Latched x y p e false fun l => (v 0 l).toNat)

/-- R161 and R162: once every instruction that sets flags has set them, fpack.flags completes: it returns the five sticky
flags, IV highest, and clears those whose bits are set in a; where no lane executes it changes nothing but the position. -/
def Obligations.StickyFlags : Prop :=
  ∀ (s : State) (x : Group) (p : Nat) (d : Dst) (a : Src),
    let old := x.fl.iv.toNat * 16 + x.fl.dz.toNat * 8 + x.fl.of.toNat * 4 + x.fl.uf.toNat * 2 + x.fl.nx.toNat
    let w : BitVec 64 := BitVec.ofNat 64 (arg s x p a true 0)
    AtIssue s x p → Unheld x p [(a, true)] (x.dstRegs d false) → (Instr.fpackFlags d a).wf = true →
    (x.exec p = 0 → exec (.fpackFlags d a) s = .next (s.setGroup (x.modPath p Path.advance))) ∧
    (x.exec p ≠ 0 → x.rcq = [] → x.mpend = [] → (∀ o ∈ x.outs, o.op ≠ .trans) →
      ∃ y, exec (.fpackFlags d a) s = .next (s.setGroup y) ∧
        y = { x with v := y.v, s := y.s, m := y.m, badRows := y.badRows, paths := y.paths
                     fl := ⟨x.fl.iv && !w.getLsbD 4, x.fl.dz && !w.getLsbD 3, x.fl.of && !w.getLsbD 2,
                            x.fl.uf && !w.getLsbD 1, x.fl.nx && !w.getLsbD 0⟩ } ∧
        Wrote x y (x.exec p) d false false (fun _ => old) ∧
        Latched x y p (x.exec p) (match d with
          | .v _ => false
          | _ => true) fun _ => old)

/-- R86 and R150: a transcendental form goes on at once with its destination pending, its results and flags held by the
producer; where no lane executes it changes nothing but the position. -/
def Sys2Proof.Part.TranscendentalIssue : Prop :=
  ∀ (s : State) (x : Group) (p : Nat) (rm : Rm) (fm : FMod) (d : Dst) (a : Src),
    let t := ftyFmt fm.ty
    let v := fun l => modified t fm.negA fm.absA (farg s x p a t l)
    let done := fun (i : Instr) (r : Nat → Nat × FFlags) => i.wf = true →
      if x.exec p = 0 then exec i s = .next (s.setGroup (x.modPath p Path.advance))
      else Produces (exec i s) s x p (transcendental s x p d r)
    AtIssue s x p → Unheld x p [(a, false)] (x.dstRegs d false) →
      done (.fsqrt rm fm d a) (fun l => fsqrtF t rm (fval t (v l))) ∧
      done (.frcp fm d a) (fun l => frcpF (v l)) ∧ done (.frsq fm d a) (fun l => frsqF (v l)) ∧
      done (.fex2 fm d a) (fun l => fex2F (v l)) ∧ done (.flg2 fm d a) (fun l => flg2F (v l)) ∧
      done (.fsin fm d a) (fun l => fsinF (v l)) ∧ done (.fcos fm d a) (fun l => fcosF (v l)) ∧
      done (.ftanh fm d a) (fun l => ftanhF (v l))

/-- R86, R144 and R175: a transcendental result lands: those of its lanes that have not exited receive the results, the group its flags, and the destination
is pending no more; a bound operand that awaited it is captured, and nothing else changes. -/
def Sys2Proof.Part.TranscendentalLandings : Prop :=
  ∀ (s : State) (g k : Nat) (x : Group) (o : Out) (d : Dst),
    let as := o.accs.filter fun c => laneOn o.lanes c.lane
    s.wq = [] → s.hostWq = [] → s.group? g = some x → x.outs.find? (·.id == k) = some o → o.op = .trans →
    d.vOnly false = true → o.regs = x.dstRegs d false → o.discard = [] → as.map (·.lane) = lanesOf o.lanes →
      ∃ y, exec (.transcendentalLanding g k) s = .next (s.setGroup (Group.captureBound y)) ∧
        y = { x with v := y.v, badRows := y.badRows, outs := x.outs.filter (·.id != k), fl := x.fl.or o.fl } ∧
        ∀ r, (∀ c ∈ as, r c.lane = c.x) → Wrote x y o.lanes d false false r

/-- R150 and R151: fsqrt of a positive value is its root rounded once; frcp and frsq lie within one spacing of the exact
value; NX is set whenever the result differs from it, and UF when it then lies below the smallest normal value. -/
def Sys2Proof.Part.RootsAndReciprocals : Prop :=
  (∀ (rm : Rm) (t : FFmt) (x m : Nat) (e : Int), t ∈ [fp32, fp16, bfp16] → fval t x = .fin false m e → m ≠ 0 →
    ∃ (enc n k : Nat) (q i : Int),
      let u : ℚ := 2 ^ i
      let r : ℚ := m * 2 ^ e / u ^ 2
      fsqrtF t rm (fval t x) = (enc, ⟨false, false, false, false, decide ((n : ℚ) ^ 2 ≠ r)⟩) ∧
      fval t enc = .fin false k q ∧ (k : ℚ) * 2 ^ q = n * u ∧ 2 ^ t.fbits ≤ n ∧ n ≤ 2 ^ (t.fbits + 1) ∧
      match rm with
      | .rz | .rdn => (n : ℚ) ^ 2 ≤ r ∧ r < (n + 1) ^ 2
      | .rup => r ≤ n ^ 2 ∧ ((n : ℚ) - 1) ^ 2 < r
      | .rne | .rna => ((n : ℚ) - 1 / 2) ^ 2 < r ∧ r < (n + 1 / 2) ^ 2) ∧
  ∀ (x m : Nat) (b : Bool) (e : Int), x < 2 ^ 32 → fval fp32 x = .fin b m e → m ≠ 0 →
    let r : ℝ := m * 2 ^ e
    let y : ℝ := (if b then -1 else 1) / r
    (1 / 2 ^ 128 < r → Close (frcpF x) (Ulps 1 y) y) ∧ (b = false → Close (frsqF x) (Ulps 1 (1 / √r)) (1 / √r))

/-- R150 to R152: fex2, flg2 and ftanh lie within two spacings of the exact value, fsin and fcos within their absolute
bound; NX is set whenever the result differs from the exact value, and UF when it then lies below the smallest normal value.
Within its bound the value is a free one (the model's choice, log 5). -/
def Obligations.TranscendentalBounds : Prop :=
  ∀ (x m : Nat) (b : Bool) (e : Int), x < 2 ^ 32 → fval fp32 x = .fin b m e → m ≠ 0 →
    let r : ℝ := (if b then -1 else 1) * (m * 2 ^ e)
    let off : ℝ := if |r| ≤ Real.pi then 1 / 2 ^ 21 else 1 / 2 ^ 21 + |r| / 2 ^ 24
    let two := fun (g : Nat → Nat × FFlags) (y : ℝ) => Close (g x) (Ulps 2 y) y
    let within := fun (g : Nat → Nat × FFlags) (y : ℝ) => Close (g x) (fun q => |q - y| ≤ off ∧ |q| ≤ 1) y
    (-150 ≤ r → r < 128 → two fex2F (2 ^ r)) ∧ (0 < r → two flg2F (Real.logb 2 r)) ∧ two ftanhF (Real.tanh r) ∧
    within fsinF (Real.sin r) ∧ within fcosF (Real.cos r)

/-- R150 to R152: the special results of the transcendental forms, the exact ones, and the range of fsin and fcos. -/
def Sys2Proof.Part.TranscendentalSpecials : Prop :=
  ∀ (rm : Rm) (t : FFmt) (x : Nat), t ∈ [fp32, fp16, bfp16] → x < 2 ^ 32 →
    let v := fval fp32 x
    let fl := fun (iv dz of uf nx : Bool) => FFlags.mk iv dz of uf nx
    let quiet := fl false false false false false
    let invalid := fl true false false false false
    let all : List (Nat → Nat × FFlags) := [fun x => fsqrtF fp32 rm (fval fp32 x), frcpF, frsqF, fex2F, flg2F, fsinF, fcosF, ftanhF]
    (∀ b, v = .nan b → ∀ f ∈ all, f x = (0x7FC00000, fl b false false false false)) ∧
    (∀ (w : FV) (b : Bool), w = .fin b 0 0 → fsqrtF t rm w = (b.toNat * 2 ^ (t.width - 1), quiet)) ∧
    (∀ (w : FV) (m : Nat) (e : Int), w = .fin true m e → m ≠ 0 → fsqrtF t rm w = (t.nanEnc, invalid)) ∧
    fsqrtF t rm (.inf false) = (t.infEnc, quiet) ∧ fsqrtF t rm (.inf true) = (t.nanEnc, invalid) ∧
    (∀ b m e, v = .fin b m e →
      let sgn := b.toNat * 2 ^ 31
      let r : ℚ := m * 2 ^ e
      (m = 0 → frcpF x = (sgn + 0x7F800000, fl false true false false false) ∧
        frsqF x = (sgn + 0x7F800000, fl false true false false false) ∧
        flg2F x = (0xFF800000, fl false true false false false) ∧
        fsinF x = (sgn, quiet) ∧ fcosF x = (0x3F800000, quiet) ∧ ftanhF x = (sgn, quiet)) ∧
      (m ≠ 0 → b = true → frsqF x = (0x7FC00000, invalid) ∧ flg2F x = (0x7FC00000, invalid)) ∧
      (m ≠ 0 → r ≤ 1 / 2 ^ 128 → frcpF x = (sgn + 0x7F800000, fl false false true false true)) ∧
      (∀ n : Int, -127 ≤ n → n ≤ 127 → r = 2 ^ n → (frcpF x).2 = quiet ∧
        rat (fval fp32 (frcpF x).1) = some ((if b then -1 else 1) * 2 ^ (-n))) ∧
      (∀ n : Int, b = false → r = 2 ^ n → (flg2F x).2 = quiet ∧ rat (fval fp32 (flg2F x).1) = some (n : ℚ)) ∧
      (∀ n : Int, b = false → r = 2 ^ (2 * n) → (frsqF x).2 = quiet ∧ rat (fval fp32 (frsqF x).1) = some (2 ^ (-n))) ∧
      (b = false → 128 ≤ r → fex2F x = (0x7F800000, fl false false true false true)) ∧
      (b = true → 150 < r → fex2F x = (0, fl false false false true true)) ∧
      (∀ n : Nat, r = n → (if b then n ≤ 149 else n ≤ 127) → (fex2F x).2 = quiet ∧
        rat (fval fp32 (fex2F x).1) = some (2 ^ (if b then -(n : Int) else n))) ∧
      (19 / 2 ≤ r → (ftanhF x).1 = sgn + 0x3F800000) ∧
      (∃ q, rat (fval fp32 (fsinF x).1) = some q ∧ -1 ≤ q ∧ q ≤ 1) ∧
      (∃ q, rat (fval fp32 (fcosF x).1) = some q ∧ -1 ≤ q ∧ q ≤ 1)) ∧
    (∀ b, v = .inf b →
      frcpF x = (b.toNat * 2 ^ 31, quiet) ∧ frsqF x = (if b then (0x7FC00000, invalid) else (0, quiet)) ∧
      fex2F x = (if b then 0 else 0x7F800000, quiet) ∧ flg2F x = (if b then (0x7FC00000, invalid) else (0x7F800000, quiet)) ∧
      fsinF x = (0x7FC00000, invalid) ∧ fcosF x = (0x7FC00000, invalid) ∧
      ftanhF x = (b.toNat * 2 ^ 31 + 0x3F800000, quiet))

namespace Sys2Proof.Claim

open Sys2Proof.Machine

/-! ### Memory forms -/

/-- The machine after a step that leaves t: its gathered bytes are written to the memory before the step. -/
def committed (s t : State) : State :=
  { t with mem := Memory.writeAll s.mem t.wq, wq := [], hostMem := Memory.writeAll s.hostMem t.hostWq, hostWq := [] }

/-- ea(base, index, scale, offset) in a lane (R33, R224). -/
def ea (s : State) (x : Group) (p : Nat) (m : MemOp) (l : Nat) : DWord :=
  BitVec.ofNat 64 (arg s x p (.s m.base) true l) +
    ((BitVec.ofNat 32 (arg s x p m.index false l)).signExtend 64 <<< m.scale) + m.off.signExtend 64

/-- The lanes whose accesses are checked: those that execute and are no helpers, ascending; the lowest one for a uniform
form (R15, R225, R227). -/
def checked (uniform : Bool) (x : Group) (p : Nat) : List Nat :=
  if uniform then (lanesOf (x.exec p)).take 1 else lanesOf (x.exec p &&& ~~~x.helpers)

/-- The checks of a memory form's lanes (R225, R226, R229): the machine after them, and each lane's verdict. -/
def checks (f : MemForm) (s : State) (x : Group) (p : Nat) : State × List LaneChk :=
  let r := s.checkLanes x f.n f.acc ((checked f.uniform x p).map fun l => (l, ea s x p f.mem l))
  (r.1, if f.wr then r.1.checkPoison f.n f.rmw r.2 else r.2)

/-- Every lane checked passes, no watch range matches, and the replay log, where the group is recorded, holds nothing up: the
machine t after the checks, and the lanes' accesses. -/
structure Passes (f : MemForm) (s : State) (x : Group) (p : Nat) (t : State) (as : List LaneAcc) : Prop where
  after : t = (checks f s x p).1
  lanes : x.exec p ≠ 0
  order : x.acqHeld p s.fresh = false
  ok : ∀ c ∈ (checks f s x p).2, ∃ q, c.res = .ok q
  accs : as = (checks f s x p).2.map fun c =>
    { lane := c.lane, va := c.va, place := c.res.toOption, x := 0, y := 0 : LaneAcc }
  watch : (x.path p).skip = true ∨ t.watchMatch x.ctx f.n f.rd f.wr (checks f s x p).2 = none
  replay : f.rd = true ∨ f.wr = true → t.rplWaits x p as = false

/-- The sources of a memory form. -/
def memSrcs (f : MemForm) : List (Src × Bool) := (.s f.mem.base, true) :: (f.mem.index, false) :: f.srcs

/-- The outstanding requests of a read: one producer for each sector, numbered on from the next number (R195). -/
def reads (t : State) (x : Group) (p : Nat) (op : OutOp) (regs : List Reg) (acq rel : Bool) (sc : Scope) (lone : Bool) (n : Nat)
    (uniform : Bool) (rs : List (List LaneAcc)) : List Out :=
  (rs.zipIdx t.fresh).map fun q =>
    { id := q.2, inst := t.fresh, path := p, pc := (x.path p).pc, op, regs
      lanes := if uniform then x.exec p else maskOf (q.1.map (·.lane)), accs := q.1
      agent := (x.path p).agent, hist := (x.path p).hist, acq, rel, scope := sc, alone := lone, bytes := n
      fl := .none, discard := [], whole := rs.flatten, poison := 0, poisonVa := 0, rpl := rplAcc x p t.fresh rs.flatten }

/-- The store-buffer entries of a write: one for each sector, in lane order, which heals the poison that it covers whole and
keeps the trace of its translations, and whether its scope holds no other agent (R195, R200, R208, R215, R379). -/
def writes (t : State) (x : Group) (p : Nat) (op : SOp) (rel : Bool) (sc : Scope) (n : Nat) (as : List LaneAcc)
    (rs : List (List LaneAcc)) : List SEntry :=
  (rs.zipIdx t.fresh).map fun q =>
    let ps := q.1.flatMap fun (a : LaneAcc) => match a.place with
      | some k => k.bytes n
      | none => []
    { id := q.2, op, accs := q.1, bytes := n, agent := (x.path p).agent, hist := (x.path p).hist
      rel, scope := sc, alone := t.alone x p sc, waits := none, deferred := false
      heals := ((ps.filter t.placeBad).map Place.grain).eraseDups
      via := (q.1.flatMap fun (a : LaneAcc) => t.traceOf x.core x.ctx a.va.toNat).eraseDups
      rpl := rplAcc x p t.fresh as }

/-- An access of n bytes that reaches a byte's place, and how far into it the byte stands. -/
def Covers (n : Nat) (a : LaneAcc) (b : Place) : Prop := ∃ q, a.place = some q ∧ q.overlaps n b 1 = true
def offset (q b : Place) : Nat :=
  match q, b with
  | .phys x _ _ _, .phys y _ _ _ => y - x
  | .pin _ _ x, .pin _ _ y => y - x
  | _, _ => 0
/-- The byte v that a read of a group sees at a place: that of the latest entry of its store buffer that stands before the read and
reaches the byte, in the highest lane of that entry, or, where there is none, memory's (R195, R206, R316). -/
def Sees (s : State) (x : Group) (o : Out) (b : Place) (v : Byte) : Prop :=
  let mine := fun (e : SEntry) => e.isClean = false ∧ e.id < o.id ∧ (e.agent = o.agent ∨ e.deferred = true)
  let none_ := fun (es : List SEntry) => ∀ e ∈ es, mine e → ∀ c ∈ e.accs, ¬ Covers e.bytes c b
  (none_ x.sbuf ∧ v = s.placeByte b) ∨
  ∃ (before after : List SEntry) (e : SEntry) (l r : List LaneAcc) (c : LaneAcc) (q : Place),
    x.sbuf = before ++ e :: after ∧ mine e ∧ none_ after ∧ e.accs = l ++ c :: r ∧ (∀ d ∈ r, ¬ Covers e.bytes d b) ∧
    c.place = some q ∧ q.overlaps e.bytes b 1 = true ∧ v = BitVec.ofNat 8 (c.x / 2 ^ (8 * offset q b))

/-- A path moves past its word, its group otherwise as given. -/
def past (y : Group) (p : Nat) : Group := y.modPath p Path.advance

/-- The lanes' little-endian number of n bytes of memory at a place, as its key reads them. -/
def numberAt (s : State) (q : Place) (n : Nat) : Nat :=
  ((List.range n).map fun i => (s.placeByte (q.add i)).toNat * 2 ^ (8 * i)).sum

/-- The new value of an atomic operation on N bits (R234). -/
def atomic (op : AtOp) {n : Nat} (o x y : BitVec n) : BitVec n :=
  match op with
  | .add => o + x
  | .and => o &&& x
  | .or => o ||| x
  | .xor => o ^^^ x
  | .exch => x
  | .cas => if o = x then y else o
  | .mins => if x.toInt < o.toInt then x else o
  | .maxs => if o.toInt < x.toInt then x else o
  | .minu => if x.toNat < o.toNat then x else o
  | .maxu => if o.toNat < x.toNat then x else o
/-- Memory after one lane's step of an atomic operation of n bytes (R195, R234). -/
def afterStep (op : AtOp) (n : Nat) (m : Nat → Byte) (a : LaneAcc) : Nat → Byte :=
  match a.place with
  | some (.phys pa _ _ _) =>
    let o := ((List.range n).map fun i => (m (pa + i)).toNat * 2 ^ (8 * i)).sum
    let v := atomic op (BitVec.ofNat (8 * n) o) (BitVec.ofNat (8 * n) a.x) (BitVec.ofNat (8 * n) a.y)
    fun b => if pa ≤ b ∧ b < pa + n then BitVec.ofNat 8 (v.toNat / 2 ^ (8 * (b - pa))) else m b
  | _ => m

/-! ### Translation (R371 to R376) -/

/-- Eight bytes as an access under a key instance reads them. -/
def entryAt (s : State) (inst n : Nat) : Nat := ((List.range 8).map fun i => (s.readUnder inst (n + i)).toNat * 2 ^ (8 * i)).sum
/-- What a leaf says (R372), at level k of a walk of context x on address a. -/
def level (x : Context) (a w k : Nat) : Lvl :=
  { ctx := x.id, depth := x.depth, input := a, r := w.testBit 62, w := w.testBit 61 && !w.testBit 49, x := w.testBit 60
    cow := w.testBit 49, home := w / 2 ^ 58 % 4, key := w / 2 ^ 50 % 256, pn := w % 2 ^ 44, size := 64 ^ (7 - k)
    leaf := ⟨0, 0, 0, []⟩, node := 0 }
/-- The address that a leaf maps its stage's input to (R373). -/
def output (l : Lvl) : Nat := l.pn * 12288 + l.input % (l.size * 12288)
/-- A key that a level names is not held there, or is erased (R374, R385). -/
def heldKey (s : State) (l : Lvl) : Option Bool := ((s.ctx? l.ctx).bind fun x => x.keys.find? (·.1 == l.key)).map (·.2)
def unheld (s : State) (l : Lvl) : Prop := l.key ≠ 0 ∧ heldKey s l = none
def erased (s : State) (l : Lvl) : Prop := l.key ≠ 0 ∧ heldKey s l = some true
/-- A level lacks a permission that an access needs. -/
def lacks (l : Lvl) : Acc → Bool
  | .r => !l.r
  | .w => !l.w
  | .x => !l.x
  | .rw => !(l.r && l.w)
/-- The cause that a composition of levels, innermost first, gives an access: PERMISSION of the first level that lacks what it needs
or names a key not held there, and else KEY_ABSENT of the first whose key is erased, which a HOME 1 leaf leaves to the access
(R226, R374). -/
def Refused (s : State) (ls : List Lvl) (acc : Acc) (e : TErr) : Prop :=
  let denied := fun l => lacks l acc = true ∨ unheld s l
  (∃ pre l post, ls = pre ++ l :: post ∧ (∀ k ∈ pre, ¬ denied k) ∧ denied l ∧
    e = ⟨3, l.depth, l.input, lacks l acc && l.cow⟩) ∨
  ((∀ l ∈ ls, ¬ denied l ∧ l.home ≠ 1) ∧
    ∃ pre l post, ls = pre ++ l :: post ∧ (∀ k ∈ pre, ¬ erased s k) ∧ erased s l ∧ e = ⟨5, l.depth, l.input, false⟩)
def innerKey (ls : List Lvl) : Nat := ((ls.map (·.key)).find? (· ≠ 0)).getD 0
/-- The largest home in the order 0, 2, 3. -/
def outerHome (ls : List Lvl) : Nat := if ∃ l ∈ ls, l.home = 3 then 3 else if ∃ l ∈ ls, l.home = 2 then 2 else 0
def granted (x : Context) (a n : Nat) : Prop := ∃ r ∈ x.ranges, r.1 ≤ a ∧ a + n ≤ r.1 + r.2

mutual
/-- A stage of context x on address a reads the entry at an address of the next space. -/
inductive Entry (s : State) : Context → Nat → Nat → Except TErr Nat → Prop
  | beyond (x a n) : x.parent = none → 2 ^ 52 ≤ n → Entry s x a n (.error ⟨2, x.depth, a, false⟩)
  | absent (x a n) : x.parent = none → n < 2 ^ 52 → memBytes ≤ n → Entry s x a n (.error ⟨0xFF, x.depth, a, false⟩)
  | physical (x a n) : x.parent = none → n < 2 ^ 52 → n < memBytes → Entry s x a n (.ok (entryAt s 0 n))
  | ungranted (x a n p) : x.parent = some p → ¬ granted x n 8 → Entry s x a n (.error ⟨2, x.depth, a, false⟩)
  | failed (x a n p e) : x.parent = some p → granted x n 8 → Composes s p n (.error e) → Entry s x a n (.error e)
  | pinned (x a n p ls pa l) : x.parent = some p → granted x n 8 → Composes s p n (.ok (ls, pa)) →
    ls.find? (·.home == 1) = some l → Entry s x a n (.error ⟨2, l.depth, l.input, false⟩)
  | refused (x a n p ls pa e) : x.parent = some p → granted x n 8 → Composes s p n (.ok (ls, pa)) →
    (∀ l ∈ ls, l.home ≠ 1) → Refused s ls .r e → Entry s x a n (.error e)
  | gone (x a n p ls pa) : x.parent = some p → granted x n 8 → Composes s p n (.ok (ls, pa)) → (∀ l ∈ ls, l.home ≠ 1) →
    (∀ e, ¬ Refused s ls .r e) → s.instOf (innerKey ls) = none → Entry s x a n (.error ⟨5, x.depth, a, false⟩)
  | through (x a n p ls pa i) : x.parent = some p → granted x n 8 → Composes s p n (.ok (ls, pa)) → (∀ l ∈ ls, l.home ≠ 1) →
    (∀ e, ¬ Refused s ls .r e) → s.instOf (innerKey ls) = some i → Entry s x a n (.ok (entryAt s i pa))
/-- A stage of context x on address a from the node at n of level k: the leaf, and its level (R373). -/
inductive Stage (s : State) : Context → Nat → Nat → Nat → Except TErr (Nat × Nat) → Prop
  | failed (x a k n e) : Entry s x a (n + 8 * (a / 12288 / 2 ^ (42 - 6 * k) % 64)) (.error e) → Stage s x a k n (.error e)
  | invalid (x a k n w) : Entry s x a (n + 8 * (a / 12288 / 2 ^ (42 - 6 * k) % 64)) (.ok w) →
    (w.testBit 63 = false ∨ (w / 2 ^ 60 % 8 = 0 ∧ (k = 7 ∨ w / 2 ^ 48 % 2 ^ 12 ≠ 0)) ∨
      (w / 2 ^ 60 % 8 ≠ 0 ∧ (k < 5 ∨ w / 2 ^ 44 % 8 ≠ 0 ∨ (w.testBit 61 = true ∧ w.testBit 62 = false) ∨
        w % 2 ^ 44 % 64 ^ (7 - k) ≠ 0))) → Stage s x a k n (.error ⟨2, x.depth, a, false⟩)
  | pointer (x a k n w v) : Entry s x a (n + 8 * (a / 12288 / 2 ^ (42 - 6 * k) % 64)) (.ok w) → w.testBit 63 = true →
    w / 2 ^ 60 % 8 = 0 → k < 7 → w / 2 ^ 48 % 2 ^ 12 = 0 → Stage s x a (k + 1) (w % 2 ^ 48 * 512) v → Stage s x a k n v
  | leaf (x a k n w) : Entry s x a (n + 8 * (a / 12288 / 2 ^ (42 - 6 * k) % 64)) (.ok w) → w.testBit 63 = true →
    w / 2 ^ 60 % 8 ≠ 0 → 5 ≤ k → k ≤ 7 → w / 2 ^ 44 % 8 = 0 → (w.testBit 61 = true → w.testBit 62 = true) →
    w % 2 ^ 44 % 64 ^ (7 - k) = 0 → Stage s x a k n (.ok (w, k))
/-- The stages from context c on address a up to the root: the levels, innermost first, and the physical address, or, of a HOME 1
leaf, the pinned index and offset; or the failing stage (R374). -/
inductive Composes (s : State) : Nat → Nat → Except TErr (List Lvl × Nat) → Prop
  | unknown (c a) : s.ctx? c = none → Composes s c a (.error ⟨2, 0xFF, a, false⟩)
  | high (c a x) : s.ctx? c = some x → 2 ^ 57 ≤ a → Composes s c a (.error ⟨2, x.depth, a, false⟩)
  | failed (c a x e) : s.ctx? c = some x → a < 2 ^ 57 → Stage s x a 0 x.desc.troot.toNat (.error e) → Composes s c a (.error e)
  | pinned (c a x w k) : s.ctx? c = some x → a < 2 ^ 57 → Stage s x a 0 x.desc.troot.toNat (.ok (w, k)) →
    w / 2 ^ 58 % 4 = 1 → Composes s c a (.ok ([level x a w k], output (level x a w k)))
  | root (c a x w k) : s.ctx? c = some x → a < 2 ^ 57 → Stage s x a 0 x.desc.troot.toNat (.ok (w, k)) →
    w / 2 ^ 58 % 4 ≠ 1 → x.parent = none →
    Composes s c a (if 2 ^ 52 ≤ output (level x a w k) then .error ⟨2, x.depth, a, false⟩
      else if memBytes ≤ output (level x a w k) then .error ⟨0xFF, x.depth, a, false⟩
      else .ok ([level x a w k], output (level x a w k)))
  | ungranted (c a x w k p) : s.ctx? c = some x → a < 2 ^ 57 → Stage s x a 0 x.desc.troot.toNat (.ok (w, k)) →
    w / 2 ^ 58 % 4 ≠ 1 → x.parent = some p → ¬ granted x (output (level x a w k)) 1 →
    Composes s c a (.error ⟨2, x.depth, a, false⟩)
  | outer (c a x w k p e) : s.ctx? c = some x → a < 2 ^ 57 → Stage s x a 0 x.desc.troot.toNat (.ok (w, k)) →
    w / 2 ^ 58 % 4 ≠ 1 → x.parent = some p → granted x (output (level x a w k)) 1 →
    Composes s p (output (level x a w k)) (.error e) → Composes s c a (.error e)
  | composed (c a x w k p ls pa) : s.ctx? c = some x → a < 2 ^ 57 → Stage s x a 0 x.desc.troot.toNat (.ok (w, k)) →
    w / 2 ^ 58 % 4 ≠ 1 → x.parent = some p → granted x (output (level x a w k)) 1 →
    Composes s p (output (level x a w k)) (.ok (ls, pa)) → Composes s c a (.ok (level x a w k :: ls, pa))
end

/-- The chain of ancestors of a context ends at the root within the depths that the hub holds (R381). -/
def Rooted (s : State) (c : Nat) : Prop := ((fun o : Option Nat => o.bind fun c => (s.ctx? c).bind (·.parent))^[6]) (some c) = none

end Sys2Proof.Claim

/-- R224 to R232, R86 and R195: when every lane checked passes, a ld goes on with its destination pending and one
outstanding request for each sector; a helper lane's access is added unchecked. Where no lane executes, only the
position changes. -/
def Sys2Proof.Part.LoadsIssue : Prop :=
  ∀ (s : State) (x : Group) (p : Nat) (ty : LdTy) (sc : Scope) (acq : Bool) (d : Dst) (m : MemOp),
    let f := ldForm ty d m
    AtIssue s x p → Unheld x p (memSrcs f) (ldRegs ty d x) → (Instr.ld ty sc acq d m).wf = true →
    (x.exec p = 0 → exec (.ld ty sc acq d m) s = .next (s.setGroup (past x p))) ∧
    ∀ t as, Passes f s x p t as →
      let r := if d.isS then (t, as) else t.loadAccs x p f as (lanesOf (x.exec p))
      let rs := requests r.2
      r.2.map (·.lane) = (if d.isS then as.map (·.lane) else lanesOf (x.exec p)) ∧ (∀ a ∈ as, d.isS = false → a ∈ r.2) ∧
      exec (.ld ty sc acq d m) s = .next (committed s (State.setGroup
        { r.1.touchAll x true false as with fresh := r.1.fresh + rs.flatten.length }
        (past { x with outs := x.outs ++ reads r.1 x p (.load ty) (ldRegs ty d x) acq false .qd false f.n d.isS rs } p)))

/-- R234, R235, R86 and R195: when every lane checked passes, an atom goes on with its destination pending, its operands
read and one outstanding request for each sector; where no lane executes, only the position changes. -/
def Sys2Proof.Part.AtomicsIssue : Prop :=
  ∀ (s : State) (x : Group) (p : Nat) (op : AtOp) (wide : Bool) (sc : Scope) (o : Order) (d : Dst) (m : MemOp),
    let f := atomForm op wide d m
    AtIssue s x p → Unheld x p (memSrcs f) (atomRegs op wide d x) → (Instr.atom op wide sc o d m).wf = true →
    (x.exec p = 0 → exec (.atom op wide sc o d m) s = .next (s.setGroup (past x p))) ∧
    ∀ t as, Passes f s x p t as →
      let second := match d with
        | .v n => Src.v (n + if wide then 2 else 1)
        | .s n => Src.s (n + 1)
        | _ => Src.imm 0
      let first := match d with
        | .v n => Src.v n
        | .s n => Src.s n
        | _ => Src.imm 0
      let bs := as.map fun (a : LaneAcc) => { a with x := arg t x p first wide a.lane, y := arg t x p second wide a.lane }
      let rs := requests bs
      let acq := decide (o = .acq ∨ o = .ar)
      let rel := decide (o = .rel ∨ o = .ar)
      let os := reads t x p (.atom op wide) (x.dstRegs d wide) acq rel sc (t.alone x p sc) f.n d.isS rs
      exec (.atom op wide sc o d m) s = .next (committed s (State.setGroup { t with fresh := t.fresh + rs.length }
        (past { x with outs := x.outs ++ os } p)))

/-- R233, R236, R239 and R215: when every lane checked passes, st and red enter the store buffer, one entry for each sector
with the lanes' data, cflush and cinv one entry for each line, and go on; where no lane executes, only the position
changes. -/
def Sys2Proof.Part.WritesIssue : Prop :=
  ∀ (s : State) (x : Group) (p : Nat) (ty : StTy) (op : AtOp) (wide rel : Bool) (sc : Scope) (a : Src) (m : MemOp),
    let done := fun (i : Instr) (f : MemForm) (k : SOp) (r : Bool) (data : State → Group → Nat → Nat)
        (reqs : List LaneAcc → List (List LaneAcc)) =>
      i.wf = true → Unheld x p (memSrcs f) [] →
        (x.exec p = 0 → exec i s = .next (s.setGroup (past x p))) ∧
        ∀ t as, Passes f s x p t as →
          let bs := as.map fun (b : LaneAcc) => { b with x := data t x b.lane }
          let rs := reqs bs
          exec i s = .next (committed s (State.setGroup { t with fresh := t.fresh + rs.length }
            (past { x with sbuf := x.sbuf ++ writes t x p k r sc f.n bs rs } p)))
    let n := match ty with
      | .b8 => 1 | .b16 => 2 | .b32 => 4 | .b64 => 8 | .b128 => 16
    let k := if wide then 8 else 4
    let wideScope := decide (sc = .cx ∨ sc = .sy)
    AtIssue s x p →
      done (.st ty sc rel a m) (stForm n a m) .st rel
        (fun t y l => match ty, a with
          | .b128, .v r => arg t y p (.v r) true l + 2 ^ 64 * arg t y p (.v (r + 2)) true l
          | _, _ => arg t y p a (decide (8 ≤ n)) l % 2 ^ (8 * n)) requests ∧
      done (.red op wide sc rel a m) (redForm k a m) (.red op wide) rel (fun t y l => arg t y p a wide l) requests ∧
      done (.cflush sc m) (cleanForm m) (.clean false wideScope) false (fun _ _ _ => 0) lineRequests ∧
      done (.cinv sc m) (cleanForm m) (.clean true wideScope) false (fun _ _ _ => 0) lineRequests

/-- R225 to R227, R391 and R392: when a lane checked has a cause, the instruction has none of its effect: its path stops
precisely with the cause of highest priority among its lanes. Where none has one and a lane's address is beyond the device's
memory, the instruction faults.
The premise that no lane falls outside the device's memory is the model's (log 13). -/
def Obligations.FailedAccessesStop : Prop :=
  ∀ (s : State) (x : Group) (p : Nat) (i : Instr) (f : MemForm) (c : Cause),
    let r := checks f s x p
    let cs := r.2
    AtIssue s x p → x.exec p ≠ 0 → x.acqHeld p s.fresh = false → i.wf = true →
    ((∃ ty sc acq d m, i = .ld ty sc acq d m ∧ f = ldForm ty d m) ∨
     (∃ ty sc rel a m, i = .st ty sc rel a m ∧ f = stForm (stSize ty) a m) ∨
     (∃ op wide sc o d m, i = .atom op wide sc o d m ∧ f = atomForm op wide d m) ∨
     (∃ op wide sc rel a m, i = .red op wide sc rel a m ∧ f = redForm (if wide then 8 else 4) a m) ∨
     (∃ sc m, (i = .cflush sc m ∨ i = .cinv sc m) ∧ f = cleanForm m)) →
    Unheld x p (memSrcs f) (f.regs x) →
    (checkCause cs = some c →
      exec i s = .next (committed s (State.stopHere
        { r.1 with cache := s.cache, l1 := s.l1, stale := s.stale, leftLines := s.leftLines } x.uid p c)) ∧
      (∃ k ∈ cs, k.code ≠ 0 ∧ k.code ≠ 0xFF ∧ c.code = 0x10 + k.code ∧ c.addr = k.va) ∧
      ∀ k ∈ cs, k.code ≠ 0 → k.code ≠ 0xFF → c.code ≤ 0x10 + k.code) ∧
    (checkCause cs = none → (∃ k ∈ cs, k.code = 0xFF) → exec i s = .fault .noSuchMemory)

/-- R206, R212 and R232: a request of a ld that may land now, none of whose lanes meets poison, lands: each lane's registers
receive its bytes, little-endian, and a uniform destination the whole, sign-extended where the type says so; its producer
is gone. Each byte that a lane reads is that of the group's own latest earlier store to it, whatever the store buffer holds, or
memory's; with an empty store buffer, or one with no entry that stands before the read at its bytes, the lane's number is memory's.
The landing event always goes on: of a request that may not land yet, or that is gone, nothing changes. -/
def Sys2Proof.Part.LoadsLand : Prop :=
  (∀ (s : State) (g k : Nat), ∃ t, exec (.loadLanding g k) s = .next t) ∧
  ∀ (s : State) (g k : Nat) (x : Group) (o : Out) (ty : LdTy),
    s.wq = [] → s.hostWq = [] → s.group? g = some x → x.outs.find? (·.id == k) = some o → o.op = .load ty →
    (s.readReady x o = false → exec (.loadLanding g k) s = .next s) ∧
    (s.readReady x o = true → (∀ a ∈ o.accs, (s.readLane x o a).2 = false ∧ a.lane < 32) → (o.accs.map (·.lane)).Nodup →
    let val := fun (a : LaneAcc) => match ty with
      | .s8 => (BitVec.signExtend 64 (BitVec.ofNat 8 (s.readLane x o a).1)).toNat
      | .s16 => (BitVec.signExtend 64 (BitVec.ofNat 16 (s.readLane x o a).1)).toNat
      | _ => (s.readLane x o a).1
    let hit := fun (row l : Nat) => Reg.v row ∈ o.regs ∧ Reg.v row ∉ o.discard ∧ laneOn o.lanes l = true ∧
      l ∈ o.accs.map (·.lane)
    (∀ a ∈ o.accs, ∀ q, a.place = some q →
      (∃ b : Nat → Byte, (∀ i < o.bytes, Sees s x o (q.add i) (b i)) ∧
        (s.readLane x o a).1 = ((List.range o.bytes).map fun i => (b i).toNat * 2 ^ (8 * i)).sum) ∧
      ((∀ e ∈ x.sbuf, ∀ c ∈ e.accs, ∀ i < o.bytes, ¬ Covers e.bytes c (q.add i)) →
        (s.readLane x o a).1 = numberAt s q o.bytes)) ∧
    ((∃ d n, o.regs = x.rows d n) ∨ (∃ n, o.regs = [.s n] ∧ n ≠ 0 ∧ o.accs.length = 1) →
      let t := s.clock g o.rpl o.accs false
      let z := t.groupOr x
      ∃ y, exec (.loadLanding g k) s = .next (committed s ((t.setGroup (Group.captureBound y)).reap)) ∧
        (s.recording = false → t = s) ∧
        y = { z with v := y.v, s := y.s, badRows := y.badRows, outs := z.outs.filter (·.id != k) } ∧
        (∀ row l, l < 32 → ¬ hit row l → y.rowGet row l = x.rowGet row l) ∧
        (∀ i row, ∀ a ∈ o.accs, o.regs[i]? = some (.v row) → hit row a.lane →
          y.rowGet row a.lane = BitVec.ofNat 32 (val a / 2 ^ (32 * i))) ∧
        (∀ row l, l < 32 → (row * 32 + l ∈ y.badRows ↔ row * 32 + l ∈ x.badRows ∧ ¬ hit row l)) ∧
        ∀ n, y.sGet n = (match o.regs, o.accs with
          | [.s r], [a] => if n = r ∧ Reg.s r ∉ o.discard then BitVec.ofNat 64 (val a) else x.sGet n
          | _, _ => x.sGet n)))

/-- R234, R195 and R229: one lane's atomic step reads the little-endian number at its place and leaves the new value there;
every byte outside the place is as before. The place stands under its own key (R196). A request of an atom that may land now, none
of its places poisoned since its check, takes its lanes' steps in ascending order, and each lane receives what its own step read;
it stands at its bank from then on (R207, R221), and a release at .co or wider marks the lines that its group has dirtied (R214). -/
def Sys2Proof.Part.AtomicSteps : Prop :=
  (∀ (s : State) (op : AtOp) (wide : Bool) (c : LaneAcc) (pa h key inst : Nat),
    let n := if wide then 8 else 4
    c.place = some (.phys pa h key inst) → (∀ i, i < n → smGet 0 s.blkKey ((pa + i) / 16) = inst) →
    let r := s.atomStep op n c
    let o := ((List.range n).map fun i => (s.byte (pa + i)).toNat * 2 ^ (8 * i)).sum
    let v := atomic op (BitVec.ofNat (8 * n) o) (BitVec.ofNat (8 * n) c.x) (BitVec.ofNat (8 * n) c.y)
    r.2 = o ∧ r.1 = { s with wq := r.1.wq } ∧
      ∀ a, r.1.byte a = if pa ≤ a ∧ a < pa + n then BitVec.ofNat 8 (v.toNat / 2 ^ (8 * (a - pa))) else s.byte a) ∧
  ∀ (s : State) (g k : Nat) (x : Group) (o : Out) (op : AtOp) (wide : Bool),
    s.group? g = some x → x.outs.find? (·.id == k) = some o → o.op = .atom op wide → s.readReady x o = true →
    (o.accs.map (·.lane)).Nodup → (∀ a ∈ o.accs, ∀ q, a.place = some q → ∀ i, i < o.bytes → s.placeBad (q.add i) = false) →
      let u := if o.rel = true ∧ (o.scope = .co ∨ o.scope = .cx ∨ o.scope = .sy) then s.l1Release x.uid else s
      let go := fun (r : State × List (LaneAcc × Nat)) (a : LaneAcc) =>
        let q := r.1.atomStep op o.bytes a
        (q.1, r.2 ++ [(a, q.2)])
      let r := o.accs.foldl go (u.touchAll x false true o.accs, [])
      let t := ((r.1.dieDone x true o.bytes o.accs).clock x.uid o.rpl o.accs true).bankWrite x false o.accs
      exec (.loadLanding g k) s = .next (committed s (t.landed (t.groupOr x) o (r.2.map fun v => (v.1, v.2, false))))

/-- R206, R211, R214, R221, R229 and R239: an entry of the store buffer that may be performed now is performed and leaves it. A store
whose places stand under their own key, none of them poisoned, leaves in memory the bytes of its lanes, the highest lane's where
lanes meet, and every other byte as before; a red its lanes' steps in ascending order; of a group under recording the log's records come beside them. A cflush or cinv changes no byte of memory: it
leaves no dirty copy of its line where R239 says that it writes back, and, as a cinv, no copy where it drops them, nor the line in
the instruction caches that it reaches; a line that a HOME 2 access has locked stays (the model's choice, log 100). An entry under
an erased key is lost (R197). -/
def Sys2Proof.Part.WritesArePerformed : Prop :=
  ∀ (s : State) (g k : Nat) (x : Group) (e : SEntry),
    s.wq = [] → s.hostWq = [] → s.group? g = some x → x.sbuf.find? (·.id == k) = some e → s.writeReady x e = true →
    let own := ∀ a ∈ e.accs, ∃ pa h key inst, a.place = some (.phys pa h key inst) ∧ s.placeLive (.phys pa h key inst) = true ∧
      ∀ i, i < e.bytes → smGet 0 s.blkKey ((pa + i) / 16) = inst ∧ s.poisoned (pa + i) = false
    ((∃ a ∈ e.accs, ∃ q, a.place = some q ∧ s.placeLive q = false) → s.perform x e = s) ∧
    exec (.writePerformed g k) s = .next (committed s
      (((s.perform x e).afterWrite x e).modGroup g fun x => { x with sbuf := x.sbuf.filter (·.id != k) }).reap) ∧
    ((e.op = .st ∨ ∃ op wide, e.op = .red op wide) → own → e.rpl = none →
      ∃ t, exec (.writePerformed g k) s = .next t ∧
        t.bankQ = s.bankQ ++ (match e.accs.head? with
          | some a => match a.place with
            | some (.phys pa _ _ _) =>
              [⟨x.ctx, x.uid, decide (e.op = .st ∧ (e.scope = .cx ∨ e.scope = .sy)), pa / 192⟩]
            | _ => []
          | none => []) ∧
        (e.op = .st → ∀ b, Memory.read t.mem b =
          (match e.accs.reverse.find? (fun a => a.place.any fun q => q.overlaps e.bytes (.phys b 0 0 0) 1) with
            | some a => (match a.place with
              | some (.phys pa _ _ _) => BitVec.ofNat 8 (a.x / 2 ^ (8 * (b - pa)))
              | _ => Memory.read s.mem b)
            | none => Memory.read s.mem b)) ∧
        ∀ op wide, e.op = .red op wide → e.bytes = (if wide then 8 else 4) →
          Memory.read t.mem = e.accs.foldl (afterStep op e.bytes) (Memory.read s.mem)) ∧
    ∀ drop wide a pa h key inst, e.op = .clean drop wide → e.accs = [a] → a.place = some (.phys pa h key inst) →
      s.placeLive (.phys pa h key inst) = true →
      let line := pa / 192
      ∃ t, exec (.writePerformed g k) s = .next t ∧ t.mem = s.mem ∧ t.blkKey = s.blkKey ∧
        (drop = true → ∀ l ∈ t.icache, l.line = line → wide = false ∧ l.core ≠ x.core) ∧
        (h = 0 → wide = false → ∀ l ∈ t.l1, l.line = line → l.core = x.core → drop = false ∧ l.dirty = 0) ∧
        ((h = 0 ∨ h = 2) → wide = true → ∀ m, s.cache.find? (·.line == line) = some m →
          (∀ l ∈ t.cache, l.line = line → l.dirty = 0) ∧ (∀ l ∈ t.l1, l.line = line → l.dirty = 0) ∧
          (h = 0 → drop = true → m.locked = false → (∀ l ∈ t.cache, l.line ≠ line) ∧ ∀ l ∈ t.l1, l.line ≠ line))

/-- R373, R375, R377 and R193: a translation that succeeds, where the blocks of its leaves' flag bytes stand under the keys through
which it reaches them, changes nothing but the flattened entries, the caches and channels that its node reads and flag writes
pass through with their contexts' energy, and, in memory, the accessed bit of leaves that its walk read and the dirty bit of
leaves that a write reaches: each byte that it changes gains one of those bits. -/
def Sys2Proof.Part.TranslationTouchesLeavesOnly : Prop :=
  ∀ (s t : State) (core : Option Nat) (c a : Nat) (acc : Acc) (f : Flat),
    s.translate core c a acc = (t, .ok f) →
    (∀ l ∈ f.leaves, ∀ inst, s.instOf l.key = some inst →
      smGet 0 s.blkKey ((l.pa + 5) / 16) = inst ∧ smGet 0 s.blkKey ((l.pa + 6) / 16) = inst) →
      let leaf := fun (n : Nat) => n ∈ f.leaves.map (·.pa)
      t = { s with wq := t.wq, flat := t.flat, l1 := t.l1, cache := t.cache, stale := t.stale, leftLines := t.leftLines
                   chans := t.chans, contexts := t.contexts } ∧
      (∀ k, ∃ n, t.ctx? k = (s.ctx? k).map fun x => { x with charge := n }) ∧
      ∀ b, t.byte b = s.byte b ∨
        (leaf (b - 5) ∧ 5 ≤ b ∧ t.byte b = s.byte b ||| 0x80) ∨
        (acc ≠ .r ∧ acc ≠ .x ∧ leaf (b - 6) ∧ 6 ≤ b ∧ t.byte b = s.byte b ||| 0x01) ∨
        (acc ≠ .r ∧ acc ≠ .x ∧ leaf (b - 5) ∧ leaf (b - 6) ∧ 6 ≤ b ∧ t.byte b = s.byte b ||| 0x81)

/-- R372 to R377: the stages of a context and of its ancestors give the levels and the physical address that their page tables
say, or the failing stage; where no flattened entry maps the page, an access has their composed address, permissions, home,
key and page size, or PERMISSION or KEY_ABSENT of the level that denies it, or TRANSLATION of an outer level with HOME 1. An
entry that maps the page serves an access whose permissions and grants it has. That the device has no memory at an address is
the model's own cause (log 13). -/
def Sys2Proof.Part.ComposedTranslations : Prop :=
  ∀ (s : State) (core : Option Nat) (c a : Nat) (acc : Acc), Rooted s c →
    let bare := fun (l : Lvl) => { l with leaf := ⟨0, 0, 0, []⟩, node := 0 }
    (∀ ls pa, Composes s c a (.ok (ls, pa)) ↔ ∃ ms tr, s.walk c a = .ok (ms, pa, tr) ∧ ms.map bare = ls) ∧
    (∀ e, Composes s c a (.error e) ↔ s.walk c a = .error e) ∧
    (a < 2 ^ 57 → s.flatHit core c (a / 12288) = none →
      let r := (s.translate core c a acc).2
      (∀ e, Composes s c a (.error e) → r = .error e) ∧
      ∀ ls pa, Composes s c a (.ok (ls, pa)) →
        (∀ l, ls.tail.find? (·.home == 1) = some l → r = .error ⟨2, l.depth, l.input, false⟩) ∧
        ((∀ l ∈ ls.tail, l.home ≠ 1) →
          (∀ e, Refused s ls acc e → r = .error e) ∧
          ((∀ e, ¬ Refused s ls acc e) → ∃ f, r = .ok f ∧ f.ctx = c ∧ f.target a = pa ∧
            (f.r = true ↔ ∀ l ∈ ls, l.r = true) ∧ (f.w = true ↔ ∀ l ∈ ls, l.w = true) ∧ (f.x = true ↔ ∀ l ∈ ls, l.x = true) ∧
            f.key = innerKey ls ∧ f.home = (if (ls.head?.map (·.home)) = some 1 then 1 else outerHome ls) ∧
            (∀ l ∈ ls, f.size ≤ l.size) ∧ (∃ l ∈ ls, f.size = l.size) ∧
            f.page ≤ a / 12288 ∧ a / 12288 < f.page + f.size))) ∧
    ∀ f, a < 2 ^ 57 → s.flatHit core c (a / 12288) = some f → s.grantFail f (a / 12288) a = none →
      (match acc with
        | .r => f.r
        | .w => f.w
        | .x => f.x
        | .rw => f.r && f.w) = true → (s.translate core c a acc).2 = .ok f

/-- R237, R238, R245, R213, R215 and R221: a fence with no residual closure goes on when every read and entry that it was numbered
behind at its first issue is done, of which one whose scope holds no other agent awaits only entries with their data pending and
cache operations, and, at .cx or .sy, when every bank has completed what it had accepted once those were done; until then it holds
its path with that number and those counts.
bpref and ipref go on, which leave every register as it is: bpref starts its lines' filling, ipref asks for its lines; where no lane
executes each changes only the position. -/
def Sys2Proof.Part.FencesAndPrefetches : Prop :=
  ∀ (s : State) (x : Group) (p : Nat) (sc : Scope) (o : Order) (r n : Nat) (m : MemOp),
    let src : List (Src × Bool) := [(.s m.base, true), (m.index, false)]
    let go : Host.Outcome State Fault Refusal := .next (s.setGroup (past x p))
    AtIssue s x p →
    (Unheld x p [] [] → (x.exec p = 0 → exec (.fence sc o) s = go) ∧
      (x.exec p ≠ 0 → x.rcq = [] → x.poisonFor p (fun _ => true) true = none →
        let lone := s.alone x p sc
        let reads := decide (o ≠ .rlx)
        let writes := decide (o ≠ .acq)
        let wide := decide (sc = .cx ∨ sc = .sy)
        let f : Fence := (x.path p).fence.getD ⟨s.fresh, none⟩
        let own := (reads = true ∧ lone = false ∧ x.readsBefore p f.no = true) ∨ (writes = true ∧ x.writesBefore p f.no lone = true)
        let h : Fence → Prop := fun h => h.no = f.no ∧
          (own ∨ writes = false ∨ wide = false ∨ f.banks.isSome = true → h.banks = f.banks) ∧
          (¬ own → writes = true → wide = true → f.banks = none → h.banks = some (s.bankMarks x.ctx))
        let lazy := writes = true ∧ (sc = .co ∨ sc = .cx ∨ sc = .sy)
        ∀ g, h g →
          (¬ own ∧ s.banksDone (g.banks.getD []) = true →
            exec (.fence sc o) s = .next (State.setGroup (if lazy then s.l1Release x.uid else s) (past x p))) ∧
          (own ∨ s.banksDone (g.banks.getD []) = false → exec (.fence sc o) s = .next (State.setGroup { s with fresh := s.fresh + 1 }
            (x.modPath p fun y => { y with fence := some g }))))) ∧
    (Unheld x p (src ++ [(.s r, true)]) [] → (Instr.bpref r m).wf = true →
      (x.exec p = 0 → exec (.bpref r m) s = go) ∧
      (x.exec p ≠ 0 →
        let w := x.sGet r
        let a := (ea s x p m 0).toNat
        let len := w.toNat % 2 ^ 40
        let ctr := w.toNat / 2 ^ 40 % 2 ^ 16
        (w.getLsbD 63 = true → ctr < ((s.ctx? x.ctx).map (·.counters)).getD 0) →
        exec (.bpref r m) s = .next (State.setGroup { s with
          fresh := s.fresh + 1
          bprefs := s.bprefs ++ [{ id := s.fresh, ctx := x.ctx, core := x.core, lo := a / 192
                                   hi := if len = 0 then a / 192 else (a + len - 1) / 192 + 1
                                   ctr := if w.getLsbD 63 then some ctr else none }] } (past x p)))) ∧
    (Unheld x p src [] → (Instr.ipref n m).wf = true →
      (x.exec p = 0 → exec (.ipref n m) s = go) ∧
      (x.exec p ≠ 0 →
        exec (.ipref n m) s = .next (committed s (State.setGroup
          ((List.range n).foldl (fun t i => t.iprefLine x.core x.ctx ((ea s x p m 0).toNat / 192 + i)) s) (past x p)))))

/-- R238, R241 to R244 and R246: a bpref ends with its lines filled and its counter advanced; a line's fill reads its 192
bytes; and the clause buffer of an active group takes the clause at a path's header that passes its checks, and no other path's
clause stays in it. A path resumed inside a clause fetches its words from its position on again. -/
def Sys2Proof.Part.FetchesComplete : Prop :=
  (∀ (s : State) (b : Bpref), s.bprefs.find? (·.id == b.id) = some b →
    let t := (List.range (b.hi - b.lo)).foldl (fun t i => t.bprefLine b (b.lo + i)) s
    let u : State := { t with bprefs := t.bprefs.filter (·.id != b.id) }
    exec (.bprefDone b.id) s = .next (committed s (match b.ctr with
      | some c => u.setCounter b.ctx c (u.counter b.ctx c + 1)
      | none => u))) ∧
  (∀ (s : State) (core line : Nat), s.wq = [] → s.hostWq = [] →
    exec (.instructionFill core line) s = .next { s with icache := s.icache.map fun l =>
      if l.core = core ∧ l.line = line ∧ l.bytes = [] then
        { l with bytes := (List.range 192).map fun i => s.readUnder l.inst (line * 192 + i) } else l }) ∧
  ∀ (s : State) (g p : Nat) (x : Group),
    let y := x.path p
    s.group? g = some x → x.resident = true → x.active = true → y.st = .ready → s.fetchHolds x p = false →
    y.formAfter = false → y.fetched = false →
    (∀ t u v hd ws, y.hdr = true → y.pc.toNat % 8 = 0 → s.fetchWords x.core x.ctx y.pc 1 = (t, .words [hd]) →
      t.fetchWords x.core x.ctx y.pc (hdrCount hd.toNat + 2) = (u, .words (hd :: ws)) →
      u.entryOk x y.pc = (v, some true) → hdrOk hd.toNat = true → clauseOk hd.toNat 0 (ws.map (·.toNat)) = true →
      ∃ w, exec (.clauseFetch g p) s = .next (committed s w) ∧ w = { v with groups := w.groups } ∧
        w.groups = v.groups.map (fun z => if z.uid = x.uid then z.buffer p fun y =>
          { y with head := hd, words := ws, fetched := true } else z)) ∧
    (∀ t ws, y.hdr = false → s.fetchWords x.core x.ctx y.pc (hdrCount y.head.toNat + 1 - y.pos) = (t, .words ws) →
      exec (.clauseFetch g p) s = .next (committed s (t.modGroup x.uid fun x => x.buffer p fun y =>
        { y with words := y.words.take y.pos ++ ws, fetched := true }))) ∧
    ∀ (f : Path → Path) (z : Group) (q : Nat), q < 8 → q ≠ p → z.uid = x.uid → ((z.buffer p f).path q).fetched = false

namespace Sys2Proof.Claim

open Sys2Proof.Machine

/-! ### The accumulator store and the matrix engine -/

/-- The path stops precisely with a cause (R390). -/
def stops (i : Instr) (s : State) (x : Group) (p : Nat) (c : Cause) : Prop :=
  exec i s = .next (committed s (s.stopHere x.uid p c))

/-- Whether a tile offset is out of range (R249). -/
def outOfRange (s : State) (x : Group) (off need : Nat) : Prop :=
  off % 4096 ≠ 0 ∨ ((s.wg? x.coh x.wg).map (·.accSize)).getD 0 < off + need

/-- Pending updates of rows, numbered on from the next number. -/
def updates (s : State) (off : Nat) (rows : List Nat) (f : Nat → MUpd) : List MPend :=
  (rows.zipIdx s.fresh).map fun q => { id := q.2, inst := s.fresh, o := off, row := q.1, upd := f q.1 }

/-- The bits [pos + n - 1 : pos] of a descriptor's entry at bit `at_`. -/
def entry (d : BitVec 512) (at_ pos n : Nat) : Nat := (d.extractLsb' (at_ + pos) n).toNat

/-- The rate classes, with their depth K (R254, R257). -/
def rateClasses : List (Nat × List Nat) := [(128, [0x12]), (64, [0x13, 0x10, 0x11]), (32, [0x14, 0x0F, 0x0E])]
/-- K of a type. -/
def depth (t : Nat) : Nat := ((rateClasses.find? fun c => c.2.contains t).map (·.1)).getD 0

/-- The element registers n_A and the scale registers q of an A type (R254, R256). -/
def elementRegs (t : Nat) : Nat := if t = 0x14 then 12 else 16
def scaleRegs (t : Nat) : Nat := if t = 0x12 then 2 else if t = 0x13 ∨ t = 0x14 then 1 else 0

/-- R254, for an mma whose element registers start at a in a window of `win` registers; the stride is that of an open
subscription. -/
structure FormatValid (d : BitVec 512) (a win : Nat) (stride : Option Nat) : Prop where
  cls : ∃ c ∈ rateClasses, entry d 0 0 5 ∈ c.2 ∧ entry d 64 0 5 ∈ c.2
  ablen : entry d 0 8 4 = if entry d 0 0 5 ∈ [0x12, 0x13, 0x14] then 5 else 0
  bblen : entry d 64 8 4 = if entry d 64 0 5 ∈ [0x12, 0x13, 0x14] then 5 else 0
  scales : entry d 0 0 5 ∈ [0x12, 0x13, 0x14] → a + entry d 0 16 5 + scaleRegs (entry d 0 0 5) ≤ win ∧
    elementRegs (entry d 0 0 5) ≤ entry d 0 16 5
  noScales : entry d 0 0 5 ∉ [0x12, 0x13, 0x14] → entry d 0 16 5 = 0
  elements : a + elementRegs (entry d 0 0 5) ≤ win
  noBScales : entry d 64 0 5 ∉ [0x12, 0x13, 0x14] → entry d 64 16 16 = 0
  reserved : entry d 0 21 43 = 0 ∧ entry d 0 12 4 = 0 ∧ entry d 0 5 3 = 0 ∧ entry d 64 48 16 = 0 ∧ entry d 64 12 4 = 0 ∧
    entry d 64 5 3 = 0 ∧ entry d 128 0 384 = 0
  areas : ∀ n, stride = some n →
    let as := [(entry d 64 32 16, 8), (0, if entry d 64 0 5 = 0x14 then 32 * 48 else 32 * 64)] ++
      (if entry d 64 0 5 ∈ [0x12, 0x13, 0x14] then [(entry d 64 16 16, 32 * (depth (entry d 64 0 5) / 32) * 2)] else [])
    (∀ r ∈ as, r.1 + r.2 ≤ n) ∧ as.Pairwise fun r q => r.1 + r.2 ≤ q.1 ∨ q.1 + q.2 ≤ r.1

/-- The registers that an mma captures (R256). -/
def capturedRegs (d : BitVec 512) (a : Nat) : List Nat :=
  (List.range (elementRegs (entry d 0 0 5))).map (a + ·) ++
    (List.range (scaleRegs (entry d 0 0 5))).map (a + entry d 0 16 5 + ·)

/-- Element k of a row or column: b bits of its little-endian integer, under the scale pair of its block (R256, R257). -/
def element (t raw : Nat) (pair : Nat → Nat) (k : Nat) : FV :=
  mVal t (pair (k / 32)) (raw / 2 ^ (mBits t * k) % 2 ^ mBits t)

/-- The little-endian number of bytes o to o + n - 1. -/
def number (bs : List Byte) (o n : Nat) : Nat := ((List.range n).map fun i => (bs.getD (o + i) 0).toNat * 2 ^ (8 * i)).sum

/-- Element k of row i of A, from the row's registers (R256). -/
def aElement (t : Nat) (els scs : List Word) (k : Nat) : FV :=
  element t ((els.zipIdx.map fun w => w.1.toNat * 2 ^ (32 * w.2)).sum)
    (fun m => (scs.getD (m / 2) 0).toNat / 2 ^ (16 * (m % 2)) % 2 ^ 16) k

/-- Element k of column j of a tile image or P slice whose scale pairs start at so (R257, R274). -/
def bElement (t : Nat) (bs : List Byte) (so j k : Nat) : FV :=
  let n := if t = 0x14 then 48 else 64
  element t (number bs (n * j) n) (fun m => number bs (so + 2 * (j * (depth t / 32) + m)) 2) k

/-- The updates of one accumulator word, in ascending groups of eight products; marked groups add +0 (R134, R137). -/
def dot (k : Nat) (a b : Nat → FV) (marked : Nat → Bool) (acc : Word) : Word × FFlags :=
  (List.range (k / 8)).foldl (fun t g =>
    let s := if marked g then (.zero false, false)
      else groupSum ((List.range 8).map fun i => (a (8 * g + i), b (8 * g + i)))
    let u := accUpdate t.1.toNat s.1 s.2
    (BitVec.ofNat 32 u.1, t.2.or u.2)) (acc, .none)

/-- Whether a row of a block holds a word among its first `cols` that an uncorrectable error struck, with no update of that
row to come (R199; log 47). -/
def struck (s : State) (x : Group) (block row cols : Nat) : Prop :=
  (∀ m ∈ x.mpend, ¬ (m.row = row ∧ block ∈ m.blocks)) ∧
    ∃ w, s.wg? x.coh x.wg = some w ∧ ∃ c, c < cols ∧ (block + 128 * row + 4 * c) / 4 ∈ w.badAcc
/-- The stop of a form that reads struck rows: code 7 in those lanes, 0 in the other rows that it updates (R199, R226). -/
def poisoned (i : Instr) (s : State) (x : Group) (p : Nat) (rows : List Nat) (hit : Nat → Prop) : Prop :=
  ∀ codes : List Nat, codes.length = 32 →
    (∀ l, l < 32 → (l ∈ rows → hit l → codes.getD l 0 = 7) ∧ (l ∈ rows → ¬ hit l → codes.getD l 0 = 0) ∧
      (l ∉ rows → codes.getD l 0 = 0xF)) → stops i s x p { Cause.plain 0x17 0 with lanes := laneVec codes }

/-- A read of n bytes that a uniform instruction makes at issue: its checks pass with the machine t after them, no earlier
access of the group to those bytes waits, no join or regang holds it behind one, no copy owns them, and none is poisoned; q is
where they stand (R210, R217, R255). -/
def readForm (n : Nat) (m : MemOp) : MemForm :=
  { n, acc := .r, mem := m, uniform := true, srcs := [], regs := fun _ => [], rd := false, wr := false, rmw := false }
structure ReadsNow (n : Nat) (m : MemOp) (s : State) (x : Group) (p : Nat) (t : State) (q : Place) : Prop where
  passes : ∃ as, Passes (readForm n m) s x p t as ∧ (as.head?).bind (·.place) = some q
  written : ∀ e ∈ x.sbuf, e.isClean = false → ∀ a ∈ e.accs, ∀ r, a.place = some r → r.overlaps e.bytes q n = false
  read : ∀ o ∈ x.outs, o.undecided = true → ∀ a ∈ o.accs, ∀ r, a.place = some r → r.overlaps o.bytes q n = false
  order : x.orderedBehind t.fresh (x.path p).agent (x.path p).hist false false = false
  owned : ∀ i, i < n → t.owned x.uid t.fresh (q.add i) = false ∧ t.placeBad (q.add i) = false
/-- Such a read touches its lines. -/
def touched (t : State) (x : Group) (q : Place) (n : Nat) : State :=
  t.touchAll x true false ((List.range n).map fun i => ⟨0, 0, some (q.add i), 0, 0⟩)

/-- A uniform instruction ends with a status: s(d) and its latch hold it, and the path moves on (R38). -/
def answered (t : State) (x : Group) (p d r : Nat) : State :=
  t.modGroup x.uid fun y => past (y.putStatus p d (BitVec.ofNat 64 r)) p

end Sys2Proof.Claim

/-- R249 to R252: accw, accz and accr with a tile offset out of range stop precisely with ACC_RANGE; otherwise they go on,
accw and accz with one pending update for each executing lane that is no helper, accr with one pending read for each
executing lane. -/
def Sys2Proof.Part.AccumulatorForms : Prop :=
  ∀ (s : State) (x : Group) (p o a n c : Nat),
    let off := (x.sGet o).toNat
    let cause := uniCause 0x18 (x.exec p) 8 (x.sGet o)
    let rows := lanesOf (x.exec p &&& ~~~x.helpers)
    let next := fun (f : Nat → MUpd) => Host.Outcome.next (State.setGroup { s with fresh := s.fresh + rows.length }
      (past { x with mpend := x.mpend ++ updates s off rows f } p))
    AtIssue s x p →
    (Unheld x p ((.s o, true) :: (List.range n).map fun i => (.v (a + i), false)) [] →
      (outOfRange s x off 4096 → stops (.accw o a n c) s x p cause) ∧
      (¬ outOfRange s x off 4096 →
        exec (.accw o a n c) s = next fun r => .write c ((List.range n).map fun i => x.vGet (a + i) r))) ∧
    (Unheld x p [(.s o, true)] [] →
      (outOfRange s x off 4096 → stops (.accz o n c) s x p cause) ∧
      (¬ outOfRange s x off 4096 → exec (.accz o n c) s = next fun _ => .zero c n)) ∧
    (Unheld x p [(.s o, true)] (x.rows a n) →
      (outOfRange s x off 4096 → stops (.accr o a n c) s x p cause) ∧
      (¬ outOfRange s x off 4096 →
        let lanes := lanesOf (x.exec p)
        exec (.accr o a n c) s = .next (State.setGroup { s with fresh := s.fresh + lanes.length }
          (past { x with outs := x.outs ++ (lanes.zipIdx s.fresh).map fun q =>
            { id := q.2, inst := s.fresh, path := p, pc := (x.path p).pc, op := .accr off n c, regs := x.rows a n
              lanes := maskOf [q.1], accs := [], agent := (x.path p).agent, hist := [], acq := false
              rel := false, scope := .qd, alone := false, bytes := 0, fl := .none, discard := [], whole := [], poison := 0
              poisonVa := 0, rpl := none } } p))))

/-- R252 and R270: a lane of an accr lands once no earlier update of its row waits: its registers hold the row's words from
column c on, and nothing else of the registers changes. -/
def Sys2Proof.Part.AccumulatorReadsLand : Prop :=
  ∀ (s : State) (g k : Nat) (x : Group) (o : Out) (w : Workgroup) (off n c a l : Nat),
    s.wq = [] → s.hostWq = [] → s.group? g = some x → x.outs.find? (·.id == k) = some o → o.op = .accr off n c → o.regs = x.rows a n →
    l < 32 → o.lanes = maskOf [l] → o.poison = 0 → s.wg? x.coh x.wg = some w →
    (∀ m ∈ x.mpend, m.id < o.id → m.row = l → off ∉ m.blocks) →
    (∀ i, i < n → (off + 128 * l + 4 * (c + i)) / 4 ∉ w.badAcc) →
    ∃ y, exec (.accrLanding g k) s = .next ((s.setGroup (Group.captureBound y)).reap) ∧
      y = { x with v := y.v, badRows := y.badRows, outs := x.outs.filter (·.id != k) } ∧
      (∀ i, i < n → Reg.v (x.wb + a + i) ∉ o.discard →
        y.rowGet (x.wb + a + i) l = smGet 0 w.acc ((off + 128 * l + 4 * (c + i)) / 4)) ∧
      ∀ row m, m < 32 → ¬ (m = l ∧ Reg.v row ∈ o.regs ∧ Reg.v row ∉ o.discard) →
        y.rowGet row m = x.rowGet row m ∧ (row * 32 + m ∈ y.badRows ↔ row * 32 + m ∈ x.badRows)

/-- R134 to R136: a group sum is NaN with a NaN product or infinities of both signs, an infinity with one, and otherwise
the exact sum, +0 where it is zero; the update rounds the accumulator's exact sum with it once, to nearest even, and only
IV and OF are kept. -/
def Sys2Proof.Part.GroupSums : Prop :=
  (∀ ps : List (FV × FV),
    let prods := ps.map fun q => (fmulX q.1 q.2).1
    let iv := ps.any fun q => (fmulX q.1 q.2).2 || q.1.isSig || q.2.isSig
    ((∃ v ∈ prods, v.isNan = true) → groupSum ps = (.nan false, iv)) ∧
    ((∀ v ∈ prods, v.isNan = false) →
      (FV.inf false ∈ prods → FV.inf true ∈ prods → groupSum ps = (.nan false, true)) ∧
      (∀ b, FV.inf b ∈ prods → FV.inf (!b) ∉ prods → groupSum ps = (.inf b, iv)) ∧
      ((∀ b, FV.inf b ∉ prods) → (groupSum ps).2 = iv ∧
        rat (groupSum ps).1 = some ((prods.map fun v => (rat v).getD 0).sum) ∧
        (rat (groupSum ps).1 = some 0 → (groupSum ps).1.neg = false)))) ∧
  ∀ (acc : Nat) (v : FV) (iv : Bool),
    let a := fval fp32 acc
    let r := roundF fp32 .rne (faddX .rne a v).1
    accUpdate acc v iv = (r.1, { FFlags.none with iv := iv || (faddX .rne a v).2 || a.isSig, of := r.2.of })

/-- R252, R259, R134, R138, R139 and R270: a pending update that has its segments, with no earlier update or read of its row
waiting, takes effect whole: accw and accz write their columns; an mma adds its sums to the row's 32 words, from +0 with
.z; an adapply adds alpha times its sum to them with one rounding, and +0 where the sum is zero, whatever alpha is (log 97); a companion update adds to its rank's columns of the
companion row. Every other accumulator word is as before. -/
def Sys2Proof.Part.RowUpdates : Prop :=
  ∀ (s : State) (g k : Nat) (x : Group) (m : MPend) (w : Workgroup),
    s.wq = [] → s.hostWq = [] → s.group? g = some x → x.mpend.find? (·.id == k) = some m → s.wg? x.coh x.wg = some w →
    w.retired = false → m.ready = true → (∀ b ∈ m.blocks, x.rowFree m.id b m.row = true) → m.o % 4096 = 0 → m.row < 32 →
    ∃ w' fl, exec (.mmaUpdate g k) s = .next (State.reap
        ((s.modWg x.coh x.wg fun _ => w').modGroup g fun y =>
          { y with mpend := y.mpend.filter (·.id != k), fl := y.fl.or fl })) ∧
      w' = { w with acc := w'.acc, badAcc := w'.badAcc } ∧
      let word := fun (v : Workgroup) (block c : Nat) => smGet 0 v.acc ((block + 128 * m.row + 4 * c) / 4)
      let only := fun (block : Nat) (hit : Nat → Prop) =>
        ∀ q, (∀ c, hit c → q ≠ (block + 128 * m.row + 4 * c) / 4) → smGet 0 w'.acc q = smGet 0 w.acc q
      (∀ c xs, m.upd = .write c xs → fl = .none ∧ only m.o (fun i => c ≤ i ∧ i < c + xs.length) ∧
        ∀ i, i < xs.length → word w' m.o (c + i) = xs.getD i 0) ∧
      (∀ c n, m.upd = .zero c n → fl = .none ∧ only m.o (fun i => c ≤ i ∧ i < c + n) ∧
        ∀ i, i < n → word w' m.o (c + i) = 0) ∧
      (∀ z els scs d tile, m.upd = .mma z els scs d tile → depth (entry d 0 0 5) = depth (entry d 64 0 5) →
        let sum := fun (j : Nat) => dot (depth (entry d 0 0 5)) (aElement (entry d 0 0 5) els scs)
          (bElement (entry d 64 0 5) tile (entry d 64 16 16) j)
          (fun grp => (number tile (entry d 64 32 16) 8).testBit (4 * grp + j / 8)) (if z then 0 else word w m.o j)
        only m.o (fun i => i < 32) ∧ (∀ j, j < 32 → word w' m.o j = (sum j).1) ∧
          fl = (List.range 32).foldl (fun f j => f.or (sum j).2) .none) ∧
      (∀ id n e q, m.upd = .apply id n e q →
        let alpha := fval fp32 (number e 16 4)
        let bytes := if number e 26 1 % 32 = 0x0D then 4 else 2
        let sum := fun (j : Nat) =>
          let s := groupSum ((List.range (4 * 2 ^ (number e 24 1 % 4))).map fun c =>
            (fval fp32 (word w (m.o + 4096) c).toNat,
              fval (mFmt (number e 26 1 % 32)) (number q (bytes * (32 * c + j)) bytes)))
          if rat s.1 = some 0 then accUpdate (word w m.o j).toNat (.zero false) (s.2 || alpha.isSig)
          else accUpdate (word w m.o j).toNat (fmulX alpha s.1).1 (s.2 || (fmulX alpha s.1).2 || alpha.isSig)
        only m.o (fun i => i < 32) ∧ (∀ j, j < 32 → word w' m.o j = BitVec.ofNat 32 (sum j).1) ∧
          fl = (List.range 32).foldl (fun f j => f.or (sum j).2) .none) ∧
      ∀ id ks els scs d e sl r, m.upd = .comp id ks els scs d (some e) (some sl) r →
        depth (entry d 0 0 5) = depth (number e 25 1 % 32) →
        let rank := 4 * 2 ^ (number e 24 1 % 4)
        only (m.o + 4096) (fun i => i < rank) ∧ ∀ c, c < rank →
          word w' (m.o + 4096) c = (dot (depth (entry d 0 0 5)) (aElement (entry d 0 0 5) els scs)
            (bElement (number e 25 1 % 32) sl (rank * if number e 25 1 % 32 = 0x14 then 48 else 64) c) (fun _ => false)
            (word w (m.o + 4096) c)).1

/-- R254, R259, R260, R261, R275 and R276: what an mma or an mma.ad does once its holds are over: FORMAT_INVALID, ACC_RANGE,
STREAM_RANGE and STREAM_FAULT stop it precisely, in that order; otherwise an mma goes on, its rows' updates pending with the
operands and the tile it read, and the A latch filled or emptied; but where it adds to a row that holds a word struck by an
uncorrectable error (R199; which rows stop it is the model's choice, log 47) it stops with POISON. An mma.ad does so too, and each of its rows whose id is
not 0xFFFF looks its adapter up; it stays at issue while too few row-replay entries are free. -/
def Sys2Proof.Part.MatrixUpdatesIssue : Prop :=
  ∀ (s : State) (x : Group) (p o a n h j v : Nat) (reuse z ad : Bool) (srcs : List (Src × Bool)),
    let i : Instr := if ad then .mmaAd reuse z o a n h j v else .mma reuse z o a n h j
    let need := if ad then 8192 else 4096
    let d := x.dGet n
    let u := x.sub h
    let off := (x.sGet o).toNat
    let stride := if u.isOpen then some u.stride else none
    let e := x.exec p
    let rows := lanesOf (e &&& ~~~x.helpers)
    let bad := fun (l : Nat) => z = false ∧ struck s x off l 32
    let na := elementRegs (entry d 0 0 5)
    let ns := scaleRegs (entry d 0 0 5)
    let first := a + entry d 0 16 5
    let els := fun (l : Nat) => match x.alatch with
      | some k => (k.els.take na).map (·.getD l 0)
      | none => (List.range na).map fun r => x.vGet (a + r) l
    let scs := fun (l : Nat) => match x.alatch with
      | some k => (k.scs.take ns).map (·.getD l 0)
      | none => (List.range ns).map fun r => x.vGet (first + r) l
    AtIssue s x p → ((x.mpend.filter MPend.isMma).map (·.inst)).eraseDups.length < 4 →
    (srcs = [] ∨ srcs = (capturedRegs d a).map fun r => (.v r, false)) →
    (srcs = [] ↔ ¬ (x.alatch = none ∧ FormatValid d a x.win none)) →
    Unheld x p ((.s o, true) :: (if ad then [(.v v, false)] else []) ++ srcs) [] →
    (¬ FormatValid d a x.win stride → stops i s x p (uniCause 0x19 e 9 0)) ∧
    (FormatValid d a x.win stride → outOfRange s x off need → stops i s x p (uniCause 0x18 e 8 (x.sGet o))) ∧
    (FormatValid d a x.win stride → ¬ outOfRange s x off need →
      (u.isOpen = false ∨ u.w ≤ j ∨ u.count ≤ u.p + j → stops i s x p (uniCause 0x1A e 0xA 0)) ∧
      (u.isOpen = true → j < u.w → u.p + j < u.count →
        (∀ code aux sdep, u.slots[j]? = some (.failed code aux sdep) →
          stops i s x p { uniCause 0x1B e 0xB (u.baseVa + BitVec.ofNat 64 ((u.p + j) * u.stride)) with
            aux := BitVec.ofNat 64 aux, sdep := sdep }) ∧
        (∀ tile keys, u.slots[j]? = some (.landed tile keys) →
          (∀ k, x.alatch = some k → k.els.length < na ∨ k.scs.length < ns → stops i s x p (uniCause 0x19 e 9 0)) ∧
          ((∀ k, x.alatch = some k → na ≤ k.els.length ∧ ns ≤ k.scs.length) → (∃ l ∈ rows, bad l) →
            poisoned i s x p rows bad) ∧
          ((∀ k, x.alatch = some k → na ≤ k.els.length ∧ ns ≤ k.scs.length) → (∀ l ∈ rows, ¬ bad l) →
            let t : State := { s with fresh := s.fresh + rows.length + 1 }
            let held : ALatch := x.alatch.getD ⟨(List.range na).map fun r => (List.range 32).map (x.vGet (a + r)),
              (List.range ns).map fun r => (List.range 32).map (x.vGet (first + r))⟩
            let y : Group := { x with
              mpend := x.mpend ++ updates s off rows fun l => .mma z (els l) (scs l) d tile
              alatch := if reuse then some held else none }
            (ad = false → exec i s = .next (t.setGroup (past y p))) ∧
            (ad = true →
              let id := fun (r : Nat) => (x.vGet v r).toNat % 2 ^ 16
              let named := rows.filter fun r => id r != 0xFFFF
              let hits := fun (r : Nat) => ∃ c b, s.seg? x.core x.ctx (id r) .entry 0 = some c ∧
                s.seg? x.core x.ctx (id r) (.p ((x.vGet v r).toNat / 2 ^ 16)) (BitVec.ofNat 32 (number c.bytes 20 4)) = some b ∧
                x.replayOn (off + 4096) r = false
              let used := ((s.groups.filter fun g => g.core == x.core).map fun g => (g.mpend.filter MPend.isReplay).length).sum
              ∀ missing : List Nat, missing.Nodup → (∀ r, r ∈ missing ↔ r ∈ named ∧ ¬ hits r) →
                (64 < used + missing.length → exec i s = .next s) ∧
                (used + missing.length ≤ 64 →
                  let r := named.foldl (fun q row => adRow v off s.fresh d held q.1 q.2 row) (t, y)
                  exec i s = .next (r.1.setGroup (past r.2 p))))))))

/-- R255, R262 to R268: mfmt loads its 64 bytes into a d register; sopen answers 3, 2, 1 or 0 and opens; sadv moves the
window on, keeping the tiles still in it, and stops on a closed handle; sclose closes; sstat answers its word, all zero for a
closed handle (the model's choice, log 107); and one line of a slot's fetch is read, or fails the slot; the fetch waits while an
access before it is not performed (R220), or while a copy owns the line (R217) that is not the group's own and later.
That a slot's lines are read one by one is the model's reading (log 46). -/
def Obligations.FormatsAndStreams : Prop :=
  (∀ (s : State) (x : Group) (p d b r w h n : Nat) (k : BitVec 9),
    let go : Host.Outcome State Fault Refusal := .next (s.setGroup (past x p))
    let u := x.sub h
    AtIssue s x p →
    (Unheld x p [(.s b, true)] [] →
      (x.exec p = 0 → exec (.mfmt d b k) s = go) ∧
      ∀ t q, x.exec p ≠ 0 → ReadsNow 64 ⟨b, .imm 0, 0, BitVec.ofInt 16 (64 * k.toInt)⟩ s x p t q →
        exec (.mfmt d b k) s = .next (committed s ((touched t x q 64).modGroup x.uid fun y =>
          past { y with d := smSet 0 y.d d (BitVec.ofNat 512 (numberAt t q 64)) } p))) ∧
    (Unheld x p [(.s r, true)] (x.srcRegs (.s d) true) →
      (x.exec p = 0 → exec (.sopen d r w h) s = go) ∧
      ∀ t q, x.exec p ≠ 0 → ReadsNow 64 ⟨r, .imm 0, 0, 0⟩ s x p t q →
        let rec_ := numberAt t q 64
        let stride := rec_ / 2 ^ 64 % 2 ^ 32
        let count := rec_ / 2 ^ 96 % 2 ^ 32
        let open_ := (touched t x q 64).coreSubs x.core
        let bad := stride % 64 ≠ 0 ∨ stride < 64 ∨ 12288 < stride ∨ count = 0 ∨ rec_ / 2 ^ 128 ≠ 0
        let full := 16 ≤ open_.length ∨ 196608 < (open_.map fun v => v.w * v.stride).sum + w * stride
        let t' := touched t x q 64
        let end_ := fun (st : Nat) => exec (.sopen d r w h) s = .next (committed s (answered t' x p d st))
        (bad → end_ 3) ∧ (¬ bad → u.isOpen = true → end_ 2) ∧ (¬ bad → u.isOpen = false → full → end_ 1) ∧
        (¬ bad → u.isOpen = false → ¬ full →
          exec (.sopen d r w h) s = .next (committed s (answered (({ t' with fresh := t'.fresh + 1 }.modGroup x.uid
            fun y => y.setSub h
              { isOpen := true, record := x.sGet r, baseVa := BitVec.ofNat 64 (rec_ % 2 ^ 64), stride, count, w, p := 0
                bound := t'.fresh, slots := List.replicate (min w count) (.fetching [] []) }).l1Fit x.core) x p d 0)))) ∧
    (Unheld x p [] [] →
      (x.exec p = 0 → exec (.sadv h n) s = go ∧ exec (.sclose h) s = go) ∧
      (x.exec p ≠ 0 →
        (u.isOpen = false → stops (.sadv h n) s x p (uniCause 0x1A (x.exec p) 0xA 0)) ∧
        (u.isOpen = true →
          let live := min u.w (u.count - (u.p + n))
          let kept := (u.slots.drop n).take live
          exec (.sadv h n) s = .next (State.setGroup { s with fresh := s.fresh + 1 }
            (past (x.setSub h { u with
              p := u.p + n, bound := s.fresh
              slots := kept ++ List.replicate (live - kept.length) (.fetching [] []) }) p))) ∧
        exec (.sclose h) s = .next (s.setGroup (past (x.setSub h ⟨false, 0, 0, 0, 0, 0, 0, 0, []⟩) p)))) ∧
    (Unheld x p [] (x.srcRegs (.s d) true) →
      (x.exec p = 0 → exec (.sstat d h) s = go) ∧
      (x.exec p ≠ 0 →
        let fails := u.slots.filterMap fun k => match k with
          | .failed c _ _ => some c
          | _ => none
        let ready := (u.slots.takeWhile fun k => match k with
          | .landed _ _ => true
          | _ => false).length
        exec (.sstat d h) s = .next (answered s x p d (if u.isOpen = false then 0 else
          2 ^ 63 + (if fails = [] then 0 else 2 ^ 62) + fails.headD 0 * 2 ^ 58 + ready * 2 ^ 54 + (u.w - 1) * 2 ^ 51 +
            u.p % 2 ^ 32))))) ∧
  ∀ (s : State) (g h j : Nat) (x : Group) (got : List Byte) (keys : List Nat),
    let u := x.sub h
    s.wq = [] → s.hostWq = [] → s.group? g = some x → x.resident = true → u.isOpen = true → u.slots[j]? = some (.fetching got keys) →
    let before := (∀ e ∈ x.sbuf, e.isClean = true ∨ u.bound ≤ e.id) ∧ ∀ o ∈ x.outs, o.undecided = true → u.bound ≤ o.id
    let a := u.baseVa + BitVec.ofNat 64 ((u.p + j) * u.stride)
    let at_ := a + BitVec.ofNat 64 got.length
    let r := s.readPiece (some x.core) x.ctx at_.toNat (min (u.stride - got.length) (192 - (a.toNat + got.length) % 192)) .r true
    let via := (s.translate (some x.core) x.ctx at_.toNat .r).2
    let owned := ∃ f, via = .ok f ∧ ∃ c ∈ s.copies, (0, 0, 0, f.target at_.toNat / 192) ∈ c.lines ∧
      ∀ d ∈ s.copies, ¬ (d.group = g ∧ u.bound < d.id ∧ d.id ≤ c.id)
    let put := fun (t : State) (k : Slot) =>
      t.modGroup g fun y => y.setSub h { y.sub h with slots := (y.sub h).slots.set j k }
    (¬ before ∨ owned → exec (.slotFetch g h j) s = .next s) ∧
    (before → ¬ owned →
      (∀ t e, r = (t, .error e) → exec (.slotFetch g h j) s = .next (committed s (put t (.failed e.code e.addr e.sdep)))) ∧
      ∀ t bs, r = (t, .ok bs) →
        let used := ((match via with
          | .ok f => f.key
          | .error _ => 0) :: keys).eraseDups
        exec (.slotFetch g h j) s = .next (committed s (put t
          (if u.stride ≤ (got ++ bs).length then .landed (got ++ bs) used else .fetching (got ++ bs) used))))

namespace Sys2Proof.Claim

open Sys2Proof.Machine

/-! ### Adapters -/

/-- A valid entry (R273, R278). -/
structure EntryValid (e : List Byte) : Prop where
  valid : number e 31 1 = 128
  reserved : number e 26 1 < 32 ∧ number e 25 1 < 32 ∧ number e 24 1 < 4
  types : number e 26 1 ∈ [0x0D, 0x0E, 0x0F] ∧ ∃ c ∈ rateClasses, number e 25 1 ∈ c.2
  slices : number e 27 2 ≠ 0 ∧ number e 29 2 ≠ 0
  addresses : number e 0 8 % 64 = 0 ∧ number e 8 8 % 64 = 0

/-- The number of slices of P or Q that an entry names (R273). -/
def slices (e : List Byte) (q : Bool) : Nat := if q then number e 29 2 else number e 27 2
/-- The bytes of a slice (R274). -/
def sliceBytes (e : List Byte) (q : Bool) : Nat :=
  let r := 4 * 2 ^ (number e 24 1 % 4)
  let t := number e 25 1 % 32
  if q then 32 * (if number e 26 1 % 32 = 0x0D then 4 else 2) * r
  else
    let cb := if t = 0x14 then 48 else 64
    let n := r * cb + if t ∈ [0x12, 0x13, 0x14] then 2 * r * depth t / 32 else 0
    (n + 63) / 64 * 64
/-- GEN of an entry. -/
def generation (e : List Byte) : Word := BitVec.ofNat 32 (number e 20 4)

/-- The segment kind of a slice. -/
def sliceOf (q : Bool) (n : Nat) : SegKind := if q then .q n else .p n

/-- A fill asked for by a group's request of number `no`. -/
def fill (s : State) (x : Group) (no id : Nat) (kind : SegKind) (addr : DWord) (size : Nat) (gen : Word) (prefetch : Bool)
    (wants : List FillWant) (doomed : Option Nat) : SegFill :=
  { id := s.fresh, core := x.core, ctx := x.ctx, ad := id, kind, addr, size, gen, got := [], asks := [⟨x.uid, no, prefetch⟩], wants
    doomed, doomGen := [], keys := [] }
/-- A fill in flight is of the segment, and no adinv or adbind has dropped it before the request (R287). -/
def Fits (f : SegFill) (x : Group) (no id : Nat) (kind : SegKind) (gen : Word) : Prop :=
  f.core = x.core ∧ f.ctx = x.ctx ∧ f.ad = id ∧ f.kind = kind ∧ (kind = .entry ∨ f.gen = gen) ∧
    (∀ k, f.doomed = some k → no < k) ∧ ∀ k ∈ f.doomGen, no < k.2
/-- A request can join a fill that has read nothing: every access of its group before it is performed, or the fill awaits it
already (R220). -/
def Joins (s : State) (f : SegFill) (x : Group) (no : Nat) : Prop :=
  let awaited := fun (n : Nat) => n < no → ∃ a ∈ f.asks, a.group = x.uid ∧ n < a.no
  f.got = [] ∧ ∀ y, s.group? x.uid = some y →
    (∀ e ∈ y.sbuf, e.isClean = false → awaited e.id) ∧ ∀ o ∈ y.outs, o.undecided = true → awaited o.id

/-- The table's bounds for a context (R273). -/
def table (s : State) (x : Group) : Nat × DWord :=
  ((s.ctx? x.ctx).map fun c => (c.adCount, c.adBase)).getD (0, 0)

end Sys2Proof.Claim

/-- R275 to R278 and R274: one row's lookups by an mma.ad. An id beyond the table fails the row with reason 1, an entry that
is invalid or of another rate class with 2, a slice beyond KSL with 3; an absent entry or slice is asked for and the row
captured to be replayed, the row counted as a miss; with both present its update joins the row's order. A slice is asked
for at its address, in its size. A request joins a fill in flight of its segment that has read nothing, where none has dropped it
before that (R287) and the group's accesses before the request come before the fill (R220); else it has a fill of its own. -/
def Sys2Proof.Part.AdapterRows : Prop :=
  ∀ (v off inst row : Nat) (d : BitVec 512) (l : ALatch) (s : State) (x : Group),
    let w := (x.vGet v row).toNat
    let id := w % 2 ^ 16
    let ks := w / 2 ^ 16
    let k := depth (entry d 0 0 5)
    let els := (l.els.take (elementRegs (entry d 0 0 5))).map (·.getD row 0)
    let scs := (l.scs.take (scaleRegs (entry d 0 0 5))).map (·.getD row 0)
    let missed : Group := { x with ad := { x.ad with miss := x.ad.miss ||| 1#32 <<< row, count := x.ad.count + 1 } }
    let failed := fun (u : State) (reason : Nat) => (u, { missed with ad := { missed.ad with
      fails := ⟨row, reason, id, ks, 0⟩ :: missed.ad.fails.filter (·.row != row) } })
    let with_ := fun (y : Group) (e b : Option (List Byte)) (replay : Bool) =>
      { y with mpend := y.mpend ++ [⟨s.fresh, inst, off, row, .comp id ks els scs d e b replay⟩] }
    let t : State := { s with fresh := s.fresh + 1 }
    row < 32 → k ≠ 0 →
    (s.seg? x.core x.ctx id .entry 0 = none →
      ((table s x).1 ≤ id → adRow v off inst d l s x row = failed s 1) ∧
      (id < (table s x).1 → adRow v off inst d l s x row =
        (t.fillAsk x s.fresh id .entry ((table s x).2 + BitVec.ofNat 64 (32 * id)) 32 0 false [] none, with_ missed none none true))) ∧
    (∀ c, s.seg? x.core x.ctx id .entry 0 = some c →
      let b := s.seg? x.core x.ctx id (.p ks) (generation c.bytes)
      let used := fun (u : State) => u.adUse x id false ks c.bytes
      let fits := EntryValid c.bytes ∧ depth (number c.bytes 25 1) = k
      (¬ fits → adRow v off inst d l s x row = failed (used s) 2) ∧
      (fits → slices c.bytes false ≤ ks → adRow v off inst d l s x row = failed (used s) 3) ∧
      (fits → ks < slices c.bytes false → b = none → adRow v off inst d l s x row =
        ((used t).sliceAsk x s.fresh id false ks c.bytes false none, with_ missed (some c.bytes) none true)) ∧
      (fits → ks < slices c.bytes false → ∀ p, b = some p → adRow v off inst d l s x row =
        (used t, with_ x (some c.bytes) (some p.bytes) (x.replayOn (off + 4096) row)))) ∧
    ∀ (q pre : Bool) (no n size : Nat) (e : List Byte) (kind : SegKind) (a : DWord) (gen : Word) (wants : List FillWant)
        (dead : Option Nat),
      s.sliceAsk x no id q n e pre dead = s.fillAsk x no id (sliceOf q n)
        (BitVec.ofNat 64 (number e (if q then 8 else 0) 8 + n * sliceBytes e q)) (sliceBytes e q) (generation e) pre [] dead ∧
      let fits := fun f => f ∈ s.fills ∧ Fits f x no id kind gen
      let r := s.fillAsk x no id kind a size gen pre wants dead
      ((∃ f, fits f ∧ ∃ k ∈ f.asks, k.group = x.uid ∧ no ≤ k.no) → r = s) ∧
      ((∀ f, fits f → ∀ k ∈ f.asks, k.group = x.uid → k.no < no) →
        ((∃ f, fits f ∧ Joins s f x no) → ∃ j, fits j ∧ Joins s j x no ∧ r = { s with
          fills := s.fills.map fun f => if f.id = j.id then
            { f with asks := f.asks ++ [⟨x.uid, no, pre⟩], wants := f.wants ++ wants } else f }) ∧
        ((∀ f, fits f → ¬ Joins s f x no) → r = { s with
          fresh := s.fresh + 1, fills := s.fills ++ [fill s x no id kind a size gen pre wants dead] }))

/-- R283, R284, R286 and R287: adbind sets the context's table and drops its segments, or stops on a base that is not a
multiple of 64, and stays at issue while a lookup or fill of its group is outstanding; adfetch asks for what is absent;
adinv drops what it names, and a fill in flight once it has served the lookups made before; adstat marks its destination pending and, landing, returns its word and clears it with .clr.
Where no lane executes, only the position changes. -/
def Sys2Proof.Part.AdapterTableForms : Prop :=
  (∀ (s : State) (x : Group) (p b n r c : Nat) (q clr : Bool) (sel : AdSel),
    let none_ := fun (i : Instr) => x.exec p = 0 → exec i s = .next (s.setGroup (past x p))
    let go := fun (i : Instr) (t : State) => exec i s = .next (t.modGroup x.uid fun y => past y p)
    let mine := fun (f : SegFill) => f.ctx == x.ctx
    let dropped := fun (f : SegFill) => { f with doomed := some (f.doomed.getD s.fresh) }
    let id := (x.sGet r).toNat % 2 ^ 16
    let gen : Word := (x.sGet r).setWidth 32
    AtIssue s x p →
    (Unheld x p [(.s b, true), (.s n, true)] [] → none_ (.adbind b n) ∧
      (x.exec p ≠ 0 →
        ((x.sGet b).toNat % 64 ≠ 0 → stops (.adbind b n) s x p (uniCause 0x11 (x.exec p) 1 (x.sGet b))) ∧
        ((x.sGet b).toNat % 64 = 0 → adBusy s x = true → exec (.adbind b n) s = .next s) ∧
        ((x.sGet b).toNat % 64 = 0 → adBusy s x = false →
          go (.adbind b n) { s.modCtx x.ctx fun k => { k with adBase := x.sGet b, adCount := (x.sGet n).toNat % 2 ^ 16 } with
            segs := s.segs.filter fun k => k.ctx != x.ctx
            fills := s.fills.map fun f => if mine f then dropped f else f }))) ∧
    (Unheld x p [(.s r, true)] [] →
      let i : Instr := if q then .adfetchQ r else .adfetchP r
      let first := (x.sGet r).toNat / 2 ^ 16 % 2 ^ 16
      let count := (x.sGet r).toNat / 2 ^ 32 % 2 ^ 8 + 1
      none_ i ∧
      (x.exec p ≠ 0 →
        let u : State := { s with fresh := s.fresh + 1 }
        (s.seg? x.core x.ctx id .entry 0 = none →
          ((table s x).1 ≤ id ∨ s.prefetchFull x.core x.ctx = true → go i u) ∧
          (id < (table s x).1 → s.prefetchFull x.core x.ctx = false →
            go i (u.fillAsk x s.fresh id .entry ((table s x).2 + BitVec.ofNat 64 (32 * id)) 32 0 true
              [⟨x.uid, s.fresh, q, first, count⟩] none))) ∧
        (∀ k, s.seg? x.core x.ctx id .entry 0 = some k →
          (¬ EntryValid k.bytes → go i u) ∧
          (EntryValid k.bytes → go i ((List.range count).foldl (fun t j =>
            if slices k.bytes q ≤ first + j ∨ (t.seg? x.core x.ctx id (sliceOf q (first + j)) (generation k.bytes)).isSome ∨
              t.prefetchFull x.core x.ctx = true then t
            else t.sliceAsk x s.fresh id q (first + j) k.bytes true none) u)))) ∧
      none_ (.adinvId r) ∧ none_ (.adinvGen r) ∧
      (x.exec p ≠ 0 →
        go (.adinvId r) { s with
          segs := s.segs.filter fun k => !(k.ctx == x.ctx && k.id == id)
          fills := s.fills.map fun f => if mine f && f.ad == id then dropped f else f } ∧
        go (.adinvGen r) { s with
          segs := s.segs.filter fun k => !(k.ctx == x.ctx && k.gen == gen)
          fills := s.fills.map fun f =>
            if !mine f then f
            else if f.kind == .entry then { f with doomGen := (gen, s.fresh) :: f.doomGen }
            else if f.gen == gen then dropped f else f })) ∧
    (Unheld x p [] [] → none_ .adinvAll ∧
      (x.exec p ≠ 0 → go .adinvAll { s with
        segs := s.segs.filter fun k => k.ctx != x.ctx
        fills := s.fills.map fun f => if mine f then dropped f else f })) ∧
    (Unheld x p [] (x.srcRegs (.s c) true) → none_ (.adstat sel clr c) ∧
      (x.exec p ≠ 0 → exec (.adstat sel clr c) s = .next (State.setGroup { s with fresh := s.fresh + 1 }
        (past { x with outs := x.outs ++ [
          { id := s.fresh, inst := s.fresh, path := p, pc := (x.path p).pc, op := .adstat sel clr
            regs := if c = 0 then [] else [.s c], lanes := x.exec p, accs := [], agent := 0, hist := [], acq := false
            rel := false, scope := .qd, alone := false, bytes := 0, fl := .none, discard := [], whole := [], poison := 0
            poisonVa := 0, rpl := none }] } p))))) ∧
  ∀ (s : State) (g k c : Nat) (x : Group) (o : Out) (sel : AdSel) (clr : Bool),
    s.wq = [] → s.hostWq = [] → s.group? g = some x → x.outs.find? (·.id == k) = some o → o.op = .adstat sel clr → o.regs = [.s c] →
    Reg.s c ∉ o.discard → c ≠ 0 →
    let rows := fun (f : Nat → Bool) => ((List.range 32).map fun i => (f i).toNat * 2 ^ i).sum
    let lowest := (List.range 32).findSome? fun i => x.ad.fails.find? (·.row == i)
    ∃ y, exec (.adstatLanding g k) s = .next ((s.setGroup (Group.captureBound y)).reap) ∧
      y = { x with s := y.s, ad := y.ad, outs := x.outs.filter (·.id != k) } ∧
      (∀ n, y.sGet n = if n = c then BitVec.ofNat 64 (match sel with
        | .m => x.ad.miss.toNat * 2 ^ 32 + rows fun i => x.mpend.any fun m => m.isReplay && m.row == i
        | .f => rows (fun i => x.ad.fails.any (·.row == i)) * 2 ^ 32 + (match lowest with
          | some f => f.reason % 16 * 2 ^ 28 + (if f.reason = 4 then f.code % 16 else 0) * 2 ^ 24
          | none => 0)
        | .n => x.ad.count.toNat) else x.sGet n) ∧
      y.ad = if clr = false then x.ad else match sel with
        | .m => { x.ad with miss := 0 }
        | .f => { x.ad with fails := [] }
        | .n => { x.ad with count := 0 }

/-- R285 and R288: an adapply out of range stops; with every row's entry and Q slice present and valid, it stops with
ADAPTER_FAULT when a row has FAIL set, with POISON when one of its rows or companion rows holds a word struck by an
uncorrectable error (R199; which rows stop it is the model's choice, log 47), and otherwise goes on with its rows' updates in
their order. -/
def Sys2Proof.Part.AdapterApply : Prop :=
  ∀ (s : State) (x : Group) (p o v n : Nat) (ent slc : Nat → Seg),
    let i : Instr := .adapply o v n
    let off := (x.sGet o).toNat
    let id := fun (r : Nat) => (x.vGet v r).toNat % 2 ^ 16
    let rows := (lanesOf (x.exec p &&& ~~~x.helpers)).filter fun r => id r != 0xFFFF
    let k := (x.sGet n).toNat
    let y : Group := { x with applies := x.applies.filter (·.path != p) }
    let t : State := { rows.foldl (fun (t : State) r => t.adUse x (id r) true k (ent r).bytes) s with fresh := s.fresh + 1 }
    let bad := fun (r : Nat) => struck s x off r 32 ∨ struck s x (off + 4096) r (4 * 2 ^ (number (ent r).bytes 24 1 % 4))
    AtIssue s x p → Unheld x p [(.s o, true), (.v v, false), (.s n, true)] [] →
    (outOfRange s x off 8192 → stops i s x p (uniCause 0x18 (x.exec p) 8 (x.sGet o))) ∧
    (¬ outOfRange s x off 8192 →
      ((∃ r ∈ rows, x.replayOn (off + 4096) r = true) → exec i s = .next s) ∧
      ((∀ r ∈ rows, x.replayOn (off + 4096) r = false ∧ s.seg? x.core x.ctx (id r) .entry 0 = some (ent r) ∧
          s.seg? x.core x.ctx (id r) (.q k) (generation (ent r).bytes) = some (slc r) ∧ EntryValid (ent r).bytes ∧
          k < slices (ent r).bytes true) →
        (x.applies.find? fun a => a.path == p && a.pc == (x.path p).pc) = none →
        ((∀ r ∈ rows, ∀ f ∈ x.ad.fails, f.row ≠ r) →
          ((∀ r ∈ rows, ¬ bad r) →
            exec i s = .next (State.setGroup { t with fresh := t.fresh + rows.length }
              (past { y with mpend := y.mpend ++ updates t off rows fun r => .apply (id r) k (ent r).bytes (slc r).bytes } p))) ∧
          ((∃ r ∈ rows, bad r) → ∀ codes : List Nat, codes.length = 32 →
            (∀ l, l < 32 → (l ∈ rows → bad l → codes.getD l 0 = 7) ∧ (l ∈ rows → ¬ bad l → codes.getD l 0 = 0) ∧
              (l ∉ rows → codes.getD l 0 = 0xF)) →
            exec i s = .next (committed s ((t.setGroup y).stopHere x.uid p
              { Cause.plain 0x17 0 with lanes := laneVec codes })))) ∧
        (∀ f, (rows.filterMap fun r => x.ad.fails.find? (·.row == r)).head? = some f →
          exec i s = .next (committed s ((t.setGroup y).stopHere x.uid p { Cause.plain 0x1C (x.exec p) with
            lanes := laneVec ((List.range 32).map fun l =>
              if laneOn (x.exec p) l = false then 0xF else if l ∈ rows ∧ ∃ f ∈ x.ad.fails, f.row = l then 0xC else 0)
            reason := f.reason
            aux := BitVec.ofNat 64 (f.id % 2 ^ 16 + f.slice % 2 ^ 16 * 2 ^ 16 + f.code % 16 * 2 ^ 32) })))))

/-- R217, R220, R278, R280, R281, R287 and R289: one line of an adapter fill is read, once every access of its askers' groups before
their requests has been performed and no copy owns the line; a read that fails, or an entry that is not valid, fails the replays and
lookups that wait on it, and a whole segment serves them, and enters the cache unless an adinv or adbind has dropped it meanwhile.
Then no pending update made after that receives its bytes. A fill that adfetches alone ask for is given up where their context's
prefetch quota is full. -/
def Sys2Proof.Part.AdapterFills : Prop :=
  ∀ (s : State) (k : Nat) (f : SegFill),
    let at_ := f.addr + BitVec.ofNat 64 f.got.length
    let n := min (f.size - f.got.length) (192 - (f.addr.toNat + f.got.length) % 192)
    let r := s.readPiece (some f.core) f.ctx at_.toNat n .r true
    let idle := (∀ a ∈ f.asks, a.prefetch = true) ∧ s.prefetchFull f.core f.ctx = true
    let before := ∀ a ∈ f.asks, ∀ x, s.group? a.group = some x → (∀ e ∈ x.sbuf, e.isClean = true ∨ a.no ≤ e.id) ∧
      ∀ o ∈ x.outs, o.undecided = true → a.no ≤ o.id
    let owned := ∃ h, (s.translate (some f.core) f.ctx at_.toNat .r).2 = .ok h ∧
      ∃ c ∈ s.copies, (0, 0, 0, h.target at_.toNat / 192) ∈ c.lines ∧
        ∀ a ∈ f.asks, ∀ d ∈ s.copies, ¬ (d.group = a.group ∧ a.no < d.id ∧ d.id ≤ c.id)
    s.wq = [] → s.hostWq = [] → s.fills.find? (·.id == k) = some f →
    (idle → exec (.adapterFill k) s = .next { s with fills := s.fills.filter (·.id != k) }) ∧
    (¬ idle → ¬ before ∨ owned → exec (.adapterFill k) s = .next s) ∧
    (¬ idle → before → ¬ owned →
      (∀ t e, r = (t, .error e) → exec (.adapterFill k) s = .next (committed s (t.fillFail f 4 e.code))) ∧
      ∀ t bs, r = (t, .ok bs) → ∃ g : SegFill, g = { f with got := f.got ++ bs, keys := g.keys } ∧
        (g.got.length < f.size → exec (.adapterFill k) s =
          .next (committed s { t with fills := t.fills.map fun h => if h.id == k then g else h })) ∧
        (f.size ≤ g.got.length →
          (f.kind = .entry → ¬ EntryValid g.got → exec (.adapterFill k) s = .next (committed s (t.fillFail g 2 0))) ∧
          (f.kind ≠ .entry ∨ EntryValid g.got →
            let u := t.fillLand g g.got
            let gen := if f.kind = .entry then generation g.got else f.gen
            exec (.adapterFill k) s = .next (committed s u) ∧
            (∀ h ∈ u.segs, (∃ q ∈ t.segs, h = { q with used := h.used, prefetched := h.prefetched }) ∨
              (f.doomed = none ∧ (∀ d ∈ f.doomGen, d.1 ≠ gen) ∧ h.core = f.core ∧ h.ctx = f.ctx ∧ h.id = f.ad ∧
                h.kind = f.kind ∧ h.gen = gen ∧ h.bytes = g.got)) ∧
            ∀ no, (f.doomed = some no ∨ (gen, no) ∈ f.doomGen) → ∀ g x m, t.group? g = some x → m ∈ x.mpend → no ≤ m.id →
              ∃ y, u.group? g = some y ∧ m ∈ y.mpend)))

namespace Sys2Proof.Claim

open Sys2Proof.Machine

/-! ### Control -/

/-- The target of a B-format transfer (R52). -/
def branchTarget (x : Group) (p : Nat) (off : BitVec 32) : DWord := (x.path p).pc + (off.signExtend 64 <<< 3)

/-- Whether a lane satisfies a condition (R171). -/
def takes (s : State) (x : Group) (p : Nat) (c : BrCond) (l : Nat) : Bool :=
  match c with
  | .al => true
  | .m n => (x.mRead p n).getLsbD l
  | .nm n => !(x.mRead p n).getLsbD l
  | .nz a => word s x p a false l != 0
  | .z a => word s x p a false l == 0
/-- The lanes that execute and take, and those of a quad. -/
def takers (s : State) (x : Group) (p : Nat) (c : BrCond) : Word :=
  maskOf ((lanesOf (x.exec p)).filter (takes s x p c))
def ofQuad (q : Nat) (w : Word) : BitVec 4 := w.extractLsb' (4 * q) 4

/-- A quad at a branch: whether it divides, and what it becomes and where it goes (R171). -/
def divides (d : Quad) (t : BitVec 4) (tgt fall : DWord) : Bool := t != 0 && d.qm &&& ~~~t != 0 && tgt != fall
def branched (d : Quad) (q : Nat) (t : BitVec 4) (tgt fall : DWord) (past : List Before) : Quad × QuadTo :=
  if t = 0 ∨ tgt = fall then (d, ⟨q, fall, false, true, false, []⟩)
  else if d.qm &&& ~~~t = 0 then (d, ⟨q, tgt, false, true, false, []⟩)
  else ({ d with qm := t, stack := (d.stack.take 1).map (fun e => { e with pend := d.qm &&& ~~~t, ppc := fall, hist := past }) ++
      d.stack.drop 1 }, ⟨q, tgt, false, false, false, past⟩)

/-- What a path has accessed, as another agent stands behind it; with `sync`, past a join or regang (R182, R210). -/
def accessed (y : Path) (now : Nat) (sync : Bool) : List Before := y.hist ++ [⟨y.agent, now, sync⟩]
/-- An outstanding access of a group, by its number and its agent. -/
def outstanding (x : Group) (n a : Nat) : Prop :=
  (∃ o ∈ x.outs, o.id = n ∧ o.agent = a) ∨ ∃ e ∈ x.sbuf, e.id = n ∧ e.agent = a

/-- A quad at its join (R174): it switches to its pending side, which stands behind what was accessed before the divergence, or
pops its mark and goes on behind both sides (R182). -/
def joined (d : Quad) (q : Nat) (fall : DWord) (past : List Before) : Quad × QuadTo × Bool :=
  match d.stack with
  | [] => (d, ⟨q, fall, false, true, false, []⟩, false)
  | e :: rest =>
    if e.sw = false ∧ e.pend &&& d.alive &&& ~~~d.helper ≠ 0 then
      ({ d with qm := e.pend &&& d.alive, stack := { e with sw := true, hist := past } :: rest },
        ⟨q, e.ppc, false, false, false, e.hist⟩, true)
    else ({ d with qm := e.full &&& d.alive, stack := rest }, ⟨q, fall, false, true, e.sw || e.pend != 0, e.hist⟩, false)

/-- A quad whose executing lanes l have exited: the stack's loop of R175. -/
def resolved (d : Quad) : List JEntry → Quad
  | [] => { d with path := none, qm := 0, alive := 0, stack := [] }
  | e :: rest =>
    if e.sw = false ∧ e.pend &&& d.alive &&& ~~~d.helper ≠ 0 then
      { d with qm := e.pend &&& d.alive, stack := { e with sw := true } :: rest }
    else if e.full &&& d.alive &&& ~~~d.helper ≠ 0 then { d with qm := e.full &&& d.alive, stack := rest }
    else resolved d rest
def exited (d : Quad) (l : BitVec 4) : Quad :=
  let d := { d with alive := d.alive &&& ~~~l, qm := d.qm &&& ~~~l }
  if d.qm &&& d.alive &&& ~~~d.helper ≠ 0 then d else resolved d d.stack
/-- A quad but for its path and what its marks keep of the order of accesses. -/
def plain (d : Quad) : Quad := { d with path := none, stack := d.stack.map fun e => { e with hist := [] } }

/-- Every quad of a path as f gives it. -/
def quads (x : Group) (qs : List Nat) (f : Nat → Quad) : Group := qs.foldl (fun y q => y.setQuad q (f q)) x

/-- An instruction that drains the closure queue may go on (R312). -/
def Drained (x : Group) (p : Nat) : Prop := x.rcq = [] ∧ x.poisonFor p (fun _ => true) true = none

/-- The clause of a path ends and it stands before another one (R46, R165). -/
def jump (y : Group) (p : Nat) (pc : DWord) : Group := y.modPath p fun y => y.endClause pc

end Sys2Proof.Claim

/-- R167 and R182: when the quads of a path stand at different addresses, those at the fall-through address keep the path's
entry, or else the set of the lowest quad; every other set takes the lowest free entry, in the order of its lowest quad, READY
before a clause, an agent of its own. A set that goes on behind the path keeps every outstanding access before it that stood
before the path; a set that goes on behind nothing has none. The path stays the agent that it was only where all its quads go on
together, with no join passed. No register and no other path changes.
The number of a new agent, and what stands before it, are the model's reading (log 31). -/
def Obligations.PathsRegroup : Prop :=
  ∀ (s : State) (x : Group) (p : Nat) (fall : DWord) (goes : List QuadTo),
    let free := (List.range 8).filter fun k => (x.path k).st == .free && k != p
    let keep := if fall ∈ goes.map (·.pc) then fall else (goes.map (·.pc)).headD 0
    let sets := ((goes.map (·.pc)).eraseDups).filter (· != keep)
    let same := ∀ t ∈ goes, t.pc = keep ∧ t.cur = true ∧ t.sync = false ∧ t.add = []
    let follows := fun (t : QuadTo) (z : Path) =>
      (t.cur = true → ∀ n a, outstanding x n a → precedes n a s.fresh (x.path p).agent (x.path p).hist = true →
        precedes n a s.fresh z.agent z.hist = true ∧ (t.sync = true → syncs n a z.hist = true)) ∧
      ((∀ u ∈ goes, u.pc = t.pc → u.cur = false ∧ u.add = []) → z.hist = [])
    s.group? x.uid = some x → p < 8 → x.paths.length = 8 → x.quads.length = 8 → goes ≠ [] → (∀ t ∈ goes, t.form = false) →
    (goes.map (·.quad)).Pairwise (· < ·) → (∀ t ∈ goes, t.quad < 8) → sets.length ≤ free.length → (x.path p).st = .ready →
    ∃ y, (s.regroup x.uid p fall goes).group? x.uid = some y ∧
      y = { x with quads := y.quads, paths := y.paths } ∧
      (∀ t ∈ goes, t.pc = keep → y.quad t.quad = x.quad t.quad ∧ (¬ same → follows t (y.path p))) ∧
      (∀ (i : Nat) (t : QuadTo) (k : Nat), t ∈ goes → sets[i]? = some t.pc → free[i]? = some k →
        y.quad t.quad = { x.quad t.quad with path := some k } ∧ (y.path k).st = .ready ∧ (y.path k).pc = t.pc ∧
        (y.path k).hdr = true ∧ (y.path k).agent = s.fresh + 1 + i ∧ follows t (y.path k)) ∧
      (y.path p).pc = keep ∧ (y.path p).hdr = true ∧ (y.path p).st = .ready ∧
      (same → (y.path p).agent = (x.path p).agent ∧ (y.path p).hist = (x.path p).hist) ∧
      (¬ same → (y.path p).agent = s.fresh) ∧
      (∀ k, k ≠ p → k ∉ free.take sets.length → y.path k = x.path k) ∧
      (∀ q, q ∉ goes.map (·.quad) → y.quad q = x.quad q) ∧
      ∀ g, g ≠ x.uid → (s.regroup x.uid p fall goes).group? g = s.group? g

/-- R171 to R174: bra sends each quad to its target or to the fall-through address, or divides it at its mark, and stops
with UNMARKED_DIVERGENCE, changing nothing, where a quad has no open mark; brp takes on the pending state alone and holds on
nothing; mjoin
pushes a mark on every quad, or stops with JOIN_OVERFLOW; join switches each quad to its pending side or pops its mark, or
stops with UNMATCHED_JOIN.
That a join acts whatever its guard admits (log 94), the LANES of a JOIN_OVERFLOW record (log 92), which branches enter
the branch map (log 43), that brp goes on while its guard is pending (log 41) and tests the mark of the one register it
names (log 105), and the agents after a division or join (log 31), are the model's. -/
def Obligations.BranchesAndJoins : Prop :=
  ∀ (s : State) (x : Group) (p : Nat) (c : BrCond) (off : BitVec 32) (np : Bool) (a : Src),
    let qs := x.quadsOf p
    let y := x.path p
    let e := x.exec p
    let tgt := branchTarget x p off
    let t := fun q => ofQuad q (takers s x p c)
    let acc := accessed y s.fresh
    AtIssue s x p →
    (Unheld x p (braSrcs c) [] →
      ((∃ q ∈ qs, divides (x.quad q) (t q) tgt y.fall = true ∧ (∀ m, (x.quad q).stack.head? = some m → m.pend ≠ 0)) →
        stops (.bra c off) s x p (Cause.plain 0x20 e)) ∧
      ((∀ q ∈ qs, divides (x.quad q) (t q) tgt y.fall = true → ∃ m, (x.quad q).stack.head? = some m ∧ m.pend = 0) →
        exec (.bra c off) s = .next (committed s (State.regroup
          ((s.mapBranch x.uid p (decide (takers s x p c &&& x.mask p ≠ 0))).modGroup x.uid fun z =>
            quads z qs fun q => (branched (x.quad q) q (t q) tgt y.fall (acc false)).1)
          x.uid p y.fall (qs.map fun q => (branched (x.quad q) q (t q) tgt y.fall (acc false)).2))))) ∧
    ((Instr.brp np a off).wf = true →
      let pending := (match a with
        | .v n => x.pending (.v (x.wb + n))
        | .s n => n != 0 && x.pending (.s n)
        | _ => false)
      let take := e != 0 && (pending != np)
      exec (.brp np a off) s = .next (committed s ((s.mapBranch x.uid p take).modGroup x.uid fun z =>
        jump z p (if take then tgt else y.fall)))) ∧
    ((∃ q ∈ qs, 8 ≤ (x.quad q).stack.length) → stops (.mjoin off) s x p (Cause.plain 0x21 (x.mask p))) ∧
    ((∀ q ∈ qs, (x.quad q).stack.length < 8) →
      exec (.mjoin off) s = .next (s.setGroup (past (quads x qs fun q =>
        { x.quad q with stack := ⟨(x.quad q).qm, 0, false, 0, tgt, []⟩ :: (x.quad q).stack }) p))) ∧
    (Unheld x p [] [] → Drained x p →
      ((∃ q ∈ qs, ∀ m, (x.quad q).stack.head? = some m → m.rj ≠ y.header) → stops .join s x p (Cause.plain 0x22 e)) ∧
      ((∀ q ∈ qs, ∃ m, (x.quad q).stack.head? = some m ∧ m.rj = y.header) →
        let side := fun (q : Nat) => joined (x.quad q) q y.fall (acc true)
        let u := s.modGroup x.uid fun z => quads z qs fun q => (side q).1
        let bits := fun (b : Bool) => ((qs.filter fun q => (side q).2.2 == b).map (2 ^ ·)).sum
        exec .join s = .next (committed s (State.regroup
          (u.emit x.uid p 6 y.header (((u.group? x.uid).map (·.mask p)).getD 0) (bits true + bits false * 2 ^ 8) 0)
          x.uid p y.fall (qs.map fun q => (side q).2.1)))))

/-- R175, R176 and R17: an exit ends its executing lanes: each quad of the path goes on, switches to its pending side,
releases the siblings that wait at a rejoin point, or retires; a group that keeps a live quad stands, with every register as it was,
and one without retires; where no lane executes, only the position changes, and while the header of a released rejoin point is being fetched the exit waits (R170, R246). A regang waits
until every live quad stands at one: at one address the paths merge
into the lowest of their entries and go on at the fall-through address, behind everything that they accessed (R182); at different addresses the group stops with
REGANG_MISMATCH, its paths staying where they are, and a STEP of one ends with the cause (R448).
That a mismatch leaves every path in REGANG under one record (log 42), that regang acts whatever its guard admits (log
94), that the merged path stands behind everything its paths accessed (log 31), and which quads an exit resolves (log
104), are the model's. -/
def Obligations.ExitsAndRegangs : Prop :=
  ∀ (s : State) (x : Group) (p : Nat),
    let e := x.exec p
    let waits := { x.path p with st := PState.regang, skip := false }
    let y := x.setPath p waits
    let u := s.modGroup x.uid fun z => z.modPath p fun w => { w with st := PState.regang, skip := false }
    let live := ∃ q, q < 8 ∧ (x.quad q).path.isSome = true ∧ (q ∈ x.quadsOf p → (exited (x.quad q) (ofQuad q e)).path ≠ none)
    AtIssue s x p → Unheld x p [] [] → Drained x p → x.quads.length = 8 → x.paths.length = 8 →
    (e = 0 → exec .exit s = .next (s.setGroup (past x p))) ∧
    (e ≠ 0 → adBusy s x = false → (s.exitWaits x p e).2 = true →
      exec .exit s = .next (committed s (s.exitWaits x p e).1)) ∧
    (e ≠ 0 → adBusy s x = false → (s.exitWaits x p e).2 = false → ∃ t, exec .exit s = .next t ∧
      (x.retired = false → live → ∃ z, t.group? x.uid = some z ∧ z.retired = false ∧
        (∀ q, q < 8 →
          plain (z.quad q) = plain (if q ∈ x.quadsOf p then exited (x.quad q) (ofQuad q e) else x.quad q)) ∧
        z.v = x.v ∧ z.s = x.s ∧ z.m = x.m ∧ z.d = x.d) ∧
      (¬ live → ∀ z, t.group? x.uid = some z → z.retired = true)) ∧
    ((∃ k ∈ y.usedPaths, (y.path k).st ≠ .regang) →
      exec .regang s = .next (committed s (u.parkedShare x.core x.ctx))) ∧
    ((∀ k ∈ y.usedPaths, (y.path k).st = .regang ∧ (y.path k).pc = (x.path p).pc) →
      (∀ k ∈ y.usedPaths, (y.path k).stepping = false ∧ hdrCount (y.path k).head.toNat ≤ (y.path k).pos) →
      ∀ k, y.usedPaths.head? = some k → ∃ t z, exec .regang s = .next t ∧ t.group? x.uid = some z ∧
        z = { x with quads := z.quads, paths := z.paths } ∧
        (∀ q, q < 8 → z.quad q = if (x.quad q).path.isSome then { x.quad q with path := some k } else x.quad q) ∧
        (z.path k).st = .ready ∧ (z.path k).pc = (y.path k).fall ∧ (z.path k).hdr = true ∧
        (∀ j ∈ y.usedPaths, ∀ n, outstanding x n (x.path j).agent → n < s.fresh →
          syncs n (x.path j).agent (z.path k).hist = true) ∧
        ∀ j, j < 8 → j ≠ k → (z.path j).st = .free) ∧
    ((∀ k ∈ y.usedPaths, (y.path k).st = .regang ∧ (y.path k).stop = none) →
      ∀ k, y.usedPaths.head? = some k → (∃ j ∈ y.usedPaths, (y.path j).pc ≠ (y.path k).pc) →
        let v := (u.raiseStop x.uid k (Cause.plain 0x24 (y.mask k))).modGroup x.uid
          fun z => z.modPath k fun w => { w with st := .regang, fetched := true }
        exec .regang s = .next (committed s (((y.usedPaths.filter fun q => (y.path q).stepping).foldl
          (fun t q => t.stepRecord x.uid q ⟨4, 0, 0, 0, 0x24, true⟩) v).parkedShare x.core x.ctx)))

/-- R75, R177, R80: a call or ret by a diverged group stops with DIVERGED_CALL, a move beyond the stack with STACK_LIMIT; a
move that residency does not allow calls the spill handler and leaves the path at its word; otherwise the link is written,
the window moves by the frame, the working set is emptied, and the path stands before its target. -/
def Sys2Proof.Part.CallsAndReturns : Prop :=
  ∀ (s : State) (x : Group) (p l r f8 : Nat) (off : BitVec 32),
    let y := x.path p
    let e := x.exec p
    let more := if l = 0 then [] else [Reg.s l]
    let diverged := 1 < x.usedPaths.length
    AtIssue s x p →
    (∀ (i : Instr) (srcs : List (Src × Bool)) (tgt : DWord), (i = .call l f8 off ∧ srcs = [] ∧ tgt = branchTarget x p off) ∨
        (i = .calli l r f8 ∧ srcs = [(.s r, true)] ∧ tgt = x.sGet r) → Unheld x p srcs more →
      let wb := x.wb + 8 * f8
      (e = 0 → exec i s = .next (s.setGroup (past x p))) ∧
      (e ≠ 0 → diverged → stops i s x p (Cause.plain 0x23 e)) ∧
      (e ≠ 0 → ¬ diverged → Drained x p →
        (4096 < wb + x.win → stops i s x p (Cause.plain 0x25 e)) ∧
        (wb + x.win ≤ 4096 → x.rlo + x.nres < wb + x.win →
          exec i s = .next (s.setGroup { x with handler := some (p, 0x28, wb) })) ∧
        (wb + x.win ≤ 4096 → wb + x.win ≤ x.rlo + x.nres → ∃ t z,
          exec i s = .next t ∧ t.group? x.uid = some z ∧ t = { s with groups := t.groups, traceHeld := t.traceHeld } ∧
          (∀ g, g ≠ x.uid → t.group? g = s.group? g) ∧
          z = { x with wb := wb, ws := [], s := (x.sSet l y.fall).s, paths := z.paths } ∧
          z.path p = { y.endClause tgt with brmap := (z.path p).brmap } ∧ ∀ q, q ≠ p → z.path q = x.path q))) ∧
    (Unheld x p [(.s r, true)] [] →
      (e = 0 → exec (.ret r f8) s = .next (s.setGroup (past x p))) ∧
      (e ≠ 0 → diverged → stops (.ret r f8) s x p (Cause.plain 0x23 e)) ∧
      (e ≠ 0 → ¬ diverged → Drained x p →
        (x.wb < 8 * f8 → stops (.ret r f8) s x p (Cause.plain 0x25 e)) ∧
        (8 * f8 ≤ x.wb → x.wb - 8 * f8 < x.rlo →
          exec (.ret r f8) s = .next (s.setGroup { x with handler := some (p, 0x29, x.wb - 8 * f8) })) ∧
        (8 * f8 ≤ x.wb → x.rlo ≤ x.wb - 8 * f8 → ∃ t z,
          exec (.ret r f8) s = .next t ∧ t.group? x.uid = some z ∧ t = { s with groups := t.groups, traceHeld := t.traceHeld } ∧
          (∀ g, g ≠ x.uid → t.group? g = s.group? g) ∧
          z = { x with wb := x.wb - 8 * f8, ws := [], paths := z.paths } ∧
          z.path p = { y.endClause (x.sGet r) with brmap := (z.path p).brmap } ∧ ∀ q, q ≠ p → z.path q = x.path q)))

/-- R76, R199, R204 and R318: with no row to be moved pending and every row's access allowed, the spill handler waits for what
its group's accesses and a copy hold of those rows, and then writes its rows to the spill slot (SPILL, DEFER_CAPACITY) or reads
them back (FILL), moves RLO and lets the group go on; the rows that stay resident keep their values, and no other byte of
memory changes. A row with a word that an uncorrectable error struck is not moved (log 47): there the group stops. -/
def Sys2Proof.Part.SpillsAndFills : Prop :=
  ∀ (s u : State) (g p n wb : Nat) (x : Group) (ps : List Place),
    s.wq = [] → s.hostWq = [] → s.group? g = some x →
    (∀ (i : Instr) (k code : Nat), (i = .spill g ∧ code = 0x28 ∧ n = wb ∧ k = wb + x.win - x.nres - x.rlo) ∨
        (i = .deferCapacity g ∧ code = 0x2A ∧ k = min (8 * ((n - x.freeRows.length + 7) / 8)) (x.wb - x.rlo)) →
      x.handler = some (p, code, n) → (∀ j, j < k → x.pending (.v (x.rlo + j)) = false) →
      s.rowPlaces x x.rlo .w k = (u, .ok ps) →
      (u.rowsHeld x p ps = true → exec i s = .next (committed s u)) ∧
      (u.rowsHeld x p ps = false → ∀ j, j < k → (∃ l, l < 32 ∧ (x.rlo + j) * 32 + l ∈ x.badRows) →
        (∀ h l, h < j → l < 32 → (x.rlo + h) * 32 + l ∉ x.badRows) →
        exec i s = .next (committed s ((u.setGroup { x with handler := none }).stopHere x.uid p { Cause.plain code (x.exec p) with
          reason := 7, addr := x.slotBase + BitVec.ofNat 64 (128 * (x.rlo + j)), sdep := 0xFF }))) ∧
      (u.rowsHeld x p ps = false → (∀ b ∈ x.badRows, b / 32 < x.rlo ∨ x.rlo + k ≤ b / 32) →
        (∀ q ∈ ps, ∀ b, b < 128 → u.placeBad (q.add b) = false) →
        let w := (List.range k).foldl (fun t j => (List.range 128).foldl (fun t b =>
            t.placePut ((ps.getD j (.pin 0 0 0)).add b)
              (BitVec.ofNat 8 ((x.rowGet (x.rlo + j) (b / 4)).toNat / 2 ^ (8 * (b % 4))))) t)
          ((ps.flatMap (·.bytes 128)).foldl (fun t b => t.placeClear b) (u.rowsTouch x ps true))
        ∃ y, exec i s = .next (committed s (State.setGroup { w.rowsDone x ps with free := w.free + 32 * k } y)) ∧
          y = { x with v := y.v, badRows := y.badRows, rlo := x.rlo + k, handler := none } ∧
          ∀ row l, l < 32 → (row < x.rlo + x.nres ∨ x.rlo + x.nres + k ≤ row) → y.rowGet row l = x.rowGet row l)) ∧
    (x.handler = some (p, 0x29, wb) → (∀ j, j < x.rlo - wb → x.pending (.v (wb + x.nres + j)) = false) →
      s.rowPlaces x wb .r (x.rlo - wb) = (u, .ok ps) →
      (u.rowsHeld x p ps = true → exec (.fill g) s = .next (committed s u)) ∧
      (u.rowsHeld x p ps = false → (∀ q ∈ ps, ∀ b, b < 128 → u.placeBad (q.add b) = false) →
        ∃ y, exec (.fill g) s = .next (committed s ((u.rowsTouch x ps false).setGroup y)) ∧
          y = { x with v := y.v, badRows := y.badRows, rlo := wb, handler := none } ∧
          ∀ row l, l < 32 → y.rowGet row l =
            match (if wb ≤ row ∧ row < x.rlo then ps[row - wb]? else none) with
            | some q => BitVec.ofNat 32 (numberAt u (q.add (4 * l)) 4)
            | none => x.rowGet row l))

/-- R179, R81, R82 and R52: yield, nop and rgn go on, rgn with the working set that the region table lists; trap stops with
its code, going on behind it; brk stops as a debug stop, or, where a record cannot be written, with BREAKPOINT, and with ALLP the
group's other paths that are READY, BLOCKED or in REGANG halt too, in ascending path index (R441, R443, R467); where no lane executes, only the position changes. -/
def Sys2Proof.Part.OtherControlForms : Prop :=
  ∀ (s : State) (x : Group) (p : Nat) (code : BitVec 24),
    let e := x.exec p
    let go : Host.Outcome State Fault Refusal := .next (s.setGroup (past x p))
    AtIssue s x p → Unheld x p [] [] →
    exec .yield s = .next (s.setGroup (past { x with yielded := true } p)) ∧
    exec .nop s = go ∧
    (e = 0 → exec (.trap code) s = go ∧ exec (.brk code) s = go ∧ exec (.rgn code) s = go) ∧
    (e ≠ 0 →
      stops (.trap code) s x p { Cause.plain 0x30 e with aux := code.setWidth 64, after := true } ∧
      (∀ u, s.mboxUsable x.ctx = (u, false) →
        exec (.brk code) s = .next (committed s (u.stopHere x.uid p
          { Cause.plain 0x31 e with aux := code.setWidth 64, after := true }))) ∧
      (∀ u, s.mboxUsable x.ctx = (u, true) →
        let others := fun (q : Nat) => (u.dbgWord x.ctx 0x1000).getLsbD 62 = true ∧ q ≠ p ∧ q ∈ x.usedPaths ∧
          ((x.path q).st = .ready ∨ (x.path q).st = .blocked ∨ (x.path q).st = .regang)
        exec (.brk code) s = .next (committed s ((List.range 8).foldl (fun t q =>
          if q = p then
            if (t.mboxUsable x.ctx).2 = true then t.haltPath x.uid p ⟨1, 0, 0, 0, code.setWidth 64, false⟩
            else t.stopHere x.uid p { Cause.plain 0x31 e with aux := code.setWidth 64, after := true }
          else if others q then t.haltIf x.uid q ⟨5, 0, 0, 0, 0, false⟩ else t) u))) ∧
      (∀ t es, (∃ u hd w, s.codeRead x.core x.ctx (x.kent - 8) 8 = (u, some hd) ∧ w = number hd 0 8 ∧ w / 2 ^ 16 = 0x2BF * 2 ^ 38 ∧
          code.toNat < w % 2 ^ 16 ∧
          u.codeRead x.core x.ctx (x.kent - 8 - BitVec.ofNat 64 (192 * (w % 2 ^ 16 - code.toNat))) 192 = (t, some es)) →
        exec (.rgn code) s = .next (committed s (t.setGroup (past
          { x with ws := ((List.range x.win).filter fun k => (number es 0 192).testBit k).take 128 } p)))) ∧
      (∀ t hd, s.codeRead x.core x.ctx (x.kent - 8) 8 = (t, some hd) →
        number hd 0 8 / 2 ^ 16 ≠ 0x2BF * 2 ^ 38 ∨ number hd 0 8 % 2 ^ 16 ≤ code.toNat →
        exec (.rgn code) s = .next (committed s (t.setGroup (past { x with ws := [] } p)))) ∧
      (∀ t, s.codeRead x.core x.ctx (x.kent - 8) 8 = (t, none) →
        exec (.rgn code) s = .next (committed s (t.setGroup (past { x with ws := [] } p)))))

namespace Sys2Proof.Claim

open Sys2Proof.Machine

/-! ### Deferral -/

/-- The slots of a closure's sources. -/
def slotOf (c : Closure) (k : Nat) : CSlot := if k = 0 then c.a else if k = 1 then c.b else c.c

/-- How many sources an instruction that can defer has, beside a destination that it reads. -/
def sources (i : Instr) : Nat :=
  match aluOf i with
  | some a => a.srcs.length
  | none => 1

/-- What a deferral records (R314, R320): the word, its lanes, each source that is ready as a copy of its value, each
pending v source bound to its producer, and a pending destination that is not read bound too. -/
structure Captured (s : State) (x y : Group) (p : Nat) (i : Instr) (w : DWord) (c : Closure) : Prop where
  word : c.word = w ∧ c.pc = (x.path p).pc ∧ c.path = p ∧ c.pos = (x.path p).pos
  lanes : c.lanes = x.exec p ∧ c.avail = x.mask p
  regs : c.regs = deferDst x i ∧ c.discard = []
  ready : ∀ k o, k < sources i → (deferSrcs i)[k]? = some o → (∀ r ∈ x.srcRegs o.src o.wide, x.pending r = false) →
    (x.path p).awaitsLatch o.src = false → ∀ l, l < 32 →
      slotVal y o (slotOf c k) l % 2 ^ width o.wide = o.val s x p l % 2 ^ width o.wide
  bound : ∀ k o n, k < sources i → (deferSrcs i)[k]? = some o → o.src = .v n →
    (x.pending (.v (x.wb + n)) = true ∨ (o.wide = true ∧ x.pending (.v (x.wb + n + 1)) = true)) →
      ∃ r r2, slotOf c k = .bound (.v (x.wb + n)) r r2 o.wide true (x.pending (.v (x.wb + n)))
        (o.wide && x.pending (.v (x.wb + n + 1)))
  dst : ∀ a n, aluOf i = some a → a.old = false → a.d = .v n → x.pending (.v (x.wb + n)) = true →
    ∃ hi, c.d = .bound (.v (x.wb + n)) 0 0 a.dwide false true hi
  window : ∀ row l, row < x.wb + x.win → y.rowGet row l = x.rowGet row l

/-- The path goes on past a deferred word, whose latch, if it has one, awaits the closure in the path's lanes. -/
def deferredPath (y : Path) (id : Nat) (avail : Word) (latch : Bool) : Path :=
  let d := if latch then ⟨y.pos % 8, id, avail, []⟩ :: y.dlatch.filter (·.latch != y.pos % 8) else y.dlatch
  { y.advance with dlatch := if y.pos < hdrCount y.head.toNat then d else [] }

end Sys2Proof.Claim

/-- R310 and R311: dmode and drain go on, dmode.off and drain once the closure queue is empty; where no lane executes, only
the position changes. -/
def Sys2Proof.Part.DeferringMode : Prop :=
  ∀ (s : State) (x : Group) (p : Nat),
    let go := fun (y : Group) => Host.Outcome.next (s.setGroup (past y p))
    AtIssue s x p → Unheld x p [] [] →
    (x.exec p = 0 → exec .dmodeOn s = go x ∧ exec .dmodeOff s = go x ∧ exec .drain s = go x) ∧
    (x.exec p ≠ 0 → exec .dmodeOn s = go { x with defer := true } ∧
      (Drained x p → exec .dmodeOff s = go { x with defer := false } ∧ exec .drain s = go x) ∧
      (x.rcq ≠ [] → x.poisonFor p (fun _ => true) true = none → exec .dmodeOff s = .next s ∧ exec .drain s = .next s))

/-- R313, R314, R316, R318 and R199: an instruction that defers takes a queue entry and its rows and goes on, its sources
captured or bound; a store first passes its checks and enters the store buffer, waiting for its data; one that executes in no lane
takes a closure of no lanes. With the queue full, or no headroom and no row to spill, it stays at issue; with too little headroom it
calls the spill handler; where it reads a word that an uncorrectable error struck, it stops. The latch is deferred in the lanes of
the path's mask, and the later closure's base is the earlier's result (the model's reading, log 24). -/
def Sys2Proof.Part.InstructionsDefer : Prop :=
  ∀ (s : State) (x : Group) (p : Nat) (w : DWord) (i : Instr),
    let keys := rowKeys x (deferSrcs i)
    AtIssue s x p → decode w.toNat = some i → x.defers p i = true →
    (x.defer = true ∧ hdrNodefer (x.path p).head.toNat = false ∧ keys.length ≤ 3 ∧
      ((∃ r ∈ deferDst x i, x.pending r = true) ∨ ∃ o ∈ deferSrcs i,
        (∃ n, Reg.v n ∈ x.srcRegs o.src o.wide ∧ x.pending (.v n) = true) ∨ (x.path p).deferredLatch o.src = true) ∧
      ∀ r ∈ x.guardRegs p, x.pending r = false) ∧
    (32 ≤ x.rcq.length → exec (.defer w) s = .next s) ∧
    (x.rcq.length < 32 → x.deferBad p i ≠ 0 → stops (.defer w) s x p { Cause.plain 0x17 0 with
      lanes := laneVecIn (x.exec p &&& ~~~x.helpers) (x.deferBad p i) 7 }) ∧
    (x.rcq.length < 32 → x.deferBad p i = 0 →
      (x.freeRows.length < keys.length →
        (x.wb ≤ x.rlo → exec (.defer w) s = .next s) ∧
        (x.rlo < x.wb → exec (.defer w) s = .next (s.setGroup { x with handler := some (p, 0x2A, keys.length) })) ∧
      (keys.length ≤ x.freeRows.length →
        (storeOf i = none → ∃ t y c, exec (.defer w) s = .next t ∧
          t = { s with groups := t.groups, fresh := s.fresh + 1, traceHeld := t.traceHeld } ∧
          t.group? x.uid = some y ∧ (∀ g, g ≠ x.uid → t.group? g = s.group? g) ∧
          y = { x with v := y.v, badRows := y.badRows, paths := y.paths, rcq := x.rcq ++ [c] } ∧ c.id = s.fresh ∧
          Captured s x y p i w c ∧
          y.path p = { deferredPath (x.path p) c.id (x.mask p) (((aluOf i).map fun a => !a.trans).getD false) with brmap := (y.path p).brmap } ∧
          ∀ q, q ≠ p → y.path q = x.path q) ∧
        ∀ st, storeOf i = some st →
          let f := if st.op = .st then stForm st.n st.data st.mem else redForm st.n st.data st.mem
          let takes := fun (t : State) (as : List LaneAcc) => ∃ u y c, exec (.defer w) s = .next u ∧
            u = committed s { t with
              groups := u.groups, traceHeld := u.traceHeld, fresh := t.fresh + 1 + (requests as).length } ∧
            u.group? x.uid = some y ∧
            y = { x with
              v := y.v, badRows := y.badRows, paths := y.paths, rcq := x.rcq ++ [c]
              sbuf := x.sbuf ++ (writes { t with fresh := t.fresh + 1 } x p st.op st.rel st.sc st.n as (requests as)).map
                fun e => { e with waits := some c.id, deferred := true } } ∧
            c.id = t.fresh ∧ Captured t x y p i w c ∧
            y.path p = { deferredPath (x.path p) c.id (x.mask p) false with brmap := (y.path p).brmap }
          (∀ t as, Passes f s x p t as → takes t as) ∧ (x.exec p = 0 → s.replayHolds x = false → takes s []))))

/-- R315, R86, R91 and R316: a closure at the head whose inputs are ready runs: it writes its destination in its lanes with
what its form computes from the captured sources, but for registers that a debugger has written since; it raises its
flags, gives the closures bound to it the result, which stands for its deferred latch while no latch of the clause changes, and
leaves the queue, while no replay record of its group is held (R436). A transcendental becomes a producer,
and a store's data reaches its entries. A bound input is copied, whole, once its producer has written the register. -/
def Sys2Proof.Part.ClosuresRun : Prop :=
  (∀ (s : State) (g : Nat) (x : Group) (c : Closure) (rest : List Closure) (i : Instr),
    s.wq = [] → s.hostWq = [] → s.group? g = some x → x.resident = true → x.active = true →
    s.replayHolds x = false → x.rcq = c :: rest → c.ready = true → decode c.word.toNat = some i →
    (∀ q ∈ rest, q.id ≠ c.id) → x.uid = g →
    (∀ a, aluOf i = some a →
      let vals := fun k l => ((a.srcs[k]?).map fun o => slotVal x o (slotOf c k) l).getD 0
      let old := fun l => match a.d with
        | .off => a.oldVal s x l
        | .v n => slotVal x (opI (.v n) a.dwide) c.d l
        | .s n => slotVal x (opI (.s n) a.dwide) c.d l
        | .m n => slotVal x (opI (.m n) a.dwide) c.d l
      let r := fun l => a.f l vals old c.avail c.lanes
      let fl := raised a.d.isS c.lanes x.helpers fun l => (r l).2
      let val := fun l => if a.d.isS then (if c.lanes = 0 then c.latchBase.getD l 0 else BitVec.ofNat 32 (r 0).1)
        else if laneOn c.lanes l then BitVec.ofNat 32 (r l).1 else c.latchBase.getD l 0
      let waits := fun (row l : Nat) =>
        ∃ q ∈ rest, ∃ ls, CSlot.latchOf c.id row ls ∈ [q.a, q.b, q.c, q.d] ∧ laneOn ls l = true
      let done := fun (t : CSlot) => match t with
        | .latchOf id row _ => if id = c.id then CSlot.row row 0 false else t
        | t => t
      let based := fun (q : Closure) => match q.base with
        | some (id, ls) => if id = c.id then { q with
            base := none, latchBase := (List.range 32).map fun l => if laneOn ls l then val l else q.latchBase.getD l 0 } else q
        | none => q
      (a.trans = true → c.lanes ≠ 0 → exec (.closureRun g) s = .next (State.setGroup { s with free := s.free + 64 }
        (Group.captureBound { x with rcq := rest, fl := x.fl.or fl, outs := x.outs ++ [
          { id := c.id, inst := c.id, path := c.path, pc := c.pc, op := .trans, regs := c.regs, lanes := c.lanes
            accs := (lanesOf c.lanes).map fun l => ⟨l, 0, none, (r l).1, 0⟩, agent := 0, hist := [], acq := false
            rel := false, scope := .qd, alone := false, bytes := 0, fl := .none, discard := c.discard, whole := [], poison := 0
            poisonVa := 0, rpl := none }] }))) ∧
      (a.trans = false → ∃ y, exec (.closureRun g) s =
          .next (State.setGroup { s with free := s.free + 64 } (Group.captureBound y)) ∧
        y = { x with v := y.v, s := y.s, m := y.m, badRows := y.badRows, paths := y.paths, fl := x.fl.or fl
                     rcq := rest.map fun q => { based q with a := done q.a, b := done q.b, c := done q.c, d := done q.d } } ∧
        (∀ row l, l < 32 → waits row l → y.rowGet row l = val l) ∧
        (∀ row l, l < 32 → ¬ waits row l →
          let hit := fun (k : Nat) => Reg.v (x.wb + k) ∉ c.discard ∧ laneOn c.lanes l = true ∧ row = x.wb + k
          y.rowGet row l = match a.d with
            | .v n => if hit n then BitVec.ofNat 32 (r l).1
                else if a.dwide = true ∧ hit (n + 1) then BitVec.ofNat 32 ((r l).1 / 2 ^ 32) else x.rowGet row l
            | _ => x.rowGet row l) ∧
        (∀ k, y.sGet k = if a.d = .s k ∧ k ≠ 0 ∧ c.lanes ≠ 0 ∧ Reg.s k ∉ c.discard then sExtend a.dwide a.dsign (r 0).1
          else x.sGet k) ∧
        (∀ k l, l < 32 → (y.mGet k).getLsbD l =
          if a.d = .m k ∧ k ≠ 0 ∧ laneOn c.lanes l = true ∧ Reg.m k ∉ c.discard then decide ((r l).1 % 2 = 1)
          else (x.mGet k).getLsbD l) ∧
        ∀ q, y.path q = if q = c.path then { x.path q with
          dlatch := (x.path q).dlatch.map fun d => if d.closure = c.id then { d with value := (List.range 32).map val } else d }
          else x.path q)) ∧
    (∀ st, storeOf i = some st → exec (.closureRun g) s = .next (s.setGroup (Group.captureBound { x with
      rcq := rest
      sbuf := x.sbuf.map fun e => if e.waits = some c.id then
        { e with waits := none, accs := e.accs.map fun (b : LaneAcc) =>
            { b with x := slotVal x (opI st.data (decide (st.n = 8))) c.a b.lane % 2 ^ (8 * st.n) } } else e })))) ∧
  ∀ (x : Group) (id n r r2 : Nat) (wide lo hi : Bool),
    (lo = true → x.awaits id (.v n) = false) → (hi = true → wide = true ∧ x.awaits id (.v (n + 1)) = false) → r ≠ r2 →
    let q := x.captureSlot id (.bound (.v n) r r2 wide true lo hi)
    q.2 = .row r r2 wide ∧ ∀ row l, l < 32 → q.1.rowGet row l =
      if lo = true ∧ row = r then x.rowGet n l
      else if hi = true ∧ row = r2 then (if lo = true ∧ n + 1 = r then x.rowGet n l else x.rowGet (n + 1) l)
      else x.rowGet row l

namespace Sys2Proof.Claim

open Sys2Proof.Machine

/-! ### Work creation -/

/-- The filling bin of a record's key (R324). -/
def filling (s : State) (ctx region : Nat) (r : Rec) : Option Bin :=
  s.bins.find? fun b => b.region == region && b.ctx == ctx && !b.closed &&
    (b.recs.head?.map fun q => decide (q.entry = r.entry ∧ q.control = r.control)).getD false

/-- The records of the executing lanes that are no helpers, in ascending order; the entry word's size is filled in where it
is 0 (R322, R323). -/
def records (s : State) (x : Group) (p : Nat) (e : DWord) (v : Nat) : List Rec :=
  let w := if e.toNat / 2 ^ 59 = 0 then
      let hr := if x.win * 8 ≤ x.nres then 3 else if x.win * 4 ≤ x.nres then 2 else if x.win * 2 ≤ x.nres then 1 else 0
      BitVec.ofNat 64 (x.win / 64 * 2 ^ 59 + hr * 2 ^ 57 + e.toNat % 2 ^ 57)
    else e
  (lanesOf (x.exec p &&& ~~~x.helpers)).map fun l =>
    { entry := w, payload := (List.range 14).map fun i => x.vGet (v + i) l, control := x.control, from_ := x.uid
      bound := s.fresh }

/-- The 64 bytes of a record (R322). -/
def recordBytes (r : Rec) : List Byte :=
  (List.range 64).map fun i => BitVec.ofNat 8 (if i < 8 then r.entry.toNat / 2 ^ (8 * i)
    else (r.payload.getD ((i - 8) / 4) 0).toNat / 2 ^ (8 * (i % 4)))
/-- A record enters the pool where it has room and its access is allowed: its bytes go to the lowest slot that no record of
the context holds (R326; which slot is the model's choice, log 17). -/
def Pooled (s : State) (ctx region : Nat) (r : Rec) (parked : Option (Nat × DWord)) (t : State) : Prop :=
  let mine := s.pool.filter (·.ctx == ctx)
  let d := (s.ctx? ctx).map (·.desc)
  mine.length < (d.map (·.pooln)).getD 0 ∧ ∃ k u b, (∀ q ∈ mine, q.slot ≠ k) ∧ (∀ j, j < k → ∃ q ∈ mine, q.slot = j) ∧
    s.ctxWrite none ctx ((d.map (·.pool)).getD 0 + BitVec.ofNat 64 (64 * k)) (recordBytes r) = (u, .ok b) ∧
    t = { u with pool := u.pool ++ [⟨ctx, region, k, r, parked, false⟩] }

/-- Records are placed one after the other. -/
def Placed : (State → Rec → State → Prop) → State → List Rec → State → Prop
  | _, s, [], t => t = s
  | f, s, r :: rest, t => ∃ u, f s r u ∧ Placed f u rest t

/-- A packet's fields are in range and its reserved fields zero (R329). -/
structure PacketFits (bs : List Byte) : Prop where
  always : number bs 0 8 < 2 ^ 57 ∧ number bs 15 1 < 4 ∧ number bs 28 1 ≤ 7 ∧ number bs 42 2 % 2 ^ 15 = 0
  sizes : (number bs 15 1).testBit 1 = false → number bs 8 4 ≠ 0 ∧ 1 ≤ number bs 12 2 ∧ number bs 12 2 ≤ 1024 ∧
    1 ≤ number bs 14 1 ∧ number bs 14 1 ≤ 8
  window : (number bs 15 1).testBit 1 = false → number bs 16 2 % 64 = 0 ∧ 64 ≤ number bs 16 2 ∧ number bs 16 2 ≤ 1536 ∧
    number bs 18 2 % 8 = 0 ∧ number bs 16 2 ≤ number bs 18 2 ∧ number bs 18 2 ≤ 4096
  stores : (number bs 15 1).testBit 1 = false → number bs 20 4 % 12288 = 0 ∧ number bs 20 4 ≤ 1179648 ∧
    number bs 24 4 % 4096 = 0 ∧ number bs 24 4 ≤ 4194304
  reserved : (number bs 15 1).testBit 1 = false → number bs 29 3 = 0 ∧ number bs 44 4 = 0 ∧ number bs 56 72 = 0
  producers : (number bs 15 1).testBit 1 = false → ∀ w, w < number bs 14 1 → number bs (32 + w) 1 < (number bs 12 2 + 31) / 32

/-- The fields of a packet at their offsets (R329). -/
structure Fields (bs : List Byte) (k : Packet) : Prop where
  entry : k.entry = BitVec.ofNat 64 (number bs 0 8 % 2 ^ 57) ∧ k.args = BitVec.ofNat 64 (number bs 48 8)
  sizes : k.grid = number bs 8 4 ∧ k.wgl = number bs 12 2 ∧ k.coh = number bs 14 1 ∧ k.win = number bs 16 2 ∧ k.stk = number bs 18 2
  stores : k.cstore = number bs 20 4 ∧ k.acc = number bs 24 4
  flags : k.concurrent = (number bs 15 1).testBit 0 ∧ k.graph = (number bs 15 1).testBit 1 ∧ k.prio = number bs 28 1
  prod : k.prod.length = 8 ∧ ∀ w, w < 8 → k.prod.getD w 0 = number bs (32 + w) 1
  done : k.done = if (number bs 43 1).testBit 7 then some (number bs 40 2) else none

/-- The completion counter that a packet names. -/
def doneOf (bs : List Byte) : Option Nat := if (number bs 43 1).testBit 7 then some (number bs 40 2) else none
/-- The first reason of R331 that applies to a packet that has been read. -/
def Reason (s : State) (ctx : Nat) (bs : List Byte) (n : Nat) : Prop :=
  let graph := (number bs 15 1).testBit 1
  let groups := (number bs 12 2 + 31) / 32
  let k := s.ctx? ctx
  let fit := graph = true ∨ (groups * number bs 18 2 ≤ 12288 ∧ number bs 14 1 * groups ≤ (k.map (·.desc.spilln)).getD 0)
  let counter := ∀ i, doneOf bs = some i → i < (k.map (·.counters)).getD 0
  (n = 1 ∧ ¬ PacketFits bs) ∨ (n = 2 ∧ PacketFits bs ∧ ¬ fit) ∨ (n = 3 ∧ PacketFits bs ∧ fit ∧ ¬ counter) ∨
    (n = 0 ∧ PacketFits bs ∧ fit ∧ counter)

/-- A walk goes to a node. -/
def walksTo (s : State) (k : Nat) (w : Walk) (a : Nat) : State :=
  s.modLaunch k fun l => { l with walk := some { w with node := BitVec.ofNat 64 a, cur := none } }
/-- A walk ends with a reason (R337). -/
def walkEnds (s : State) (l : Launch) (w : Walk) (reason code : Nat) : State :=
  (s.launchInvalid l.ctx l.serial reason w.node code).modLaunch l.uid fun l =>
    { l with walk := some { w with ended := true, cur := none } }

/-- A well-formed node (R335). -/
structure NodeValid (bs : List Byte) : Prop where
  type : 1 ≤ number bs 0 1 ∧ number bs 0 1 ≤ 5
  reserved : number bs 2 6 = 0 ∧ number bs 40 24 = 0
  kernel : number bs 0 1 = 1 → number bs 1 1 < 2 ∧ number bs 24 8 = 0 ∧ number bs 32 8 = 0
  cond : number bs 0 1 = 2 → number bs 1 1 ≤ 5 ∧ number bs 24 8 < 2 ^ 32
  loop : number bs 0 1 = 3 → number bs 1 1 ≤ 7 ∧ number bs 32 8 < 2 ^ 32
  plain : 4 ≤ number bs 0 1 → number bs 1 1 = 0 ∧ number bs 16 8 = 0 ∧ number bs 24 8 = 0 ∧ number bs 32 8 = 0

/-- A condition of a COND node (R335). -/
def nodeHolds (k : Nat) (x v : Word) : Bool :=
  match k with
  | 0 => x == v
  | 1 => x != v
  | 2 => decide (x.toNat < v.toNat)
  | 3 => decide (v.toNat ≤ x.toNat)
  | 4 => decide (x.toInt < v.toInt)
  | _ => decide (v.toInt ≤ x.toInt)

end Sys2Proof.Claim

/-- R324: a record joins the filling bin of its key, which closes at 32 records, or starts the lowest free bin of its
region; with neither it finds no bin. A filling bin closes once its timer has run, and not before. -/
def Obligations.RecordsEnterBins : Prop :=
  (∀ (s : State) (ctx region : Nat) (r : Rec),
    (∀ b, filling s ctx region r = some b → s.binRec ctx region r = some { s with
      fresh := s.fresh + 1
      bins := s.bins.map fun x => if x.region = region ∧ x.idx = b.idx then
        { x with recs := b.recs ++ [r], closed := decide (32 ≤ b.recs.length + 1)
                 closeNo := if 32 ≤ b.recs.length + 1 then s.fresh else x.closeNo } else x }) ∧
    (filling s ctx region r = none →
      (∀ i, i < 64 → (∀ b ∈ s.bins, b.region = region → b.idx ≠ i) → (∀ j, j < i → ∃ b ∈ s.bins, b.region = region ∧ b.idx = j) →
        s.binRec ctx region r = some { s with bins := s.bins ++ [⟨region, i, ctx, [r], false, s.ns.toNat, 0⟩] }) ∧
      ((∀ i, i < 64 → ∃ b ∈ s.bins, b.region = region ∧ b.idx = i) → s.binRec ctx region r = none))) ∧
  ∀ (s : State) (region idx : Nat) (b : Bin),
    let due := b.started + ((s.ctx? b.ctx).map (·.bint)).getD 0
    s.wq = [] → s.hostWq = [] → (s.bins.find? fun b => b.region == region && b.idx == idx && !b.closed) = some b →
    (s.ns.toNat < due → exec (.binTimer region idx) s = .next s) ∧
    (due ≤ s.ns.toNat → exec (.binTimer region idx) s = .next { s with
      fresh := s.fresh + 1
      bins := s.bins.map fun x => if x.region = region ∧ x.idx = idx then { x with closed := true, closeNo := s.fresh } else x })

/-- R322, R323, R326, R327, R178: a spawn places the records of its lanes in bins, or in the pool, in lane order, and goes on;
a suspend parks them in the pool on its counter, and its lanes cease to be live, the records released at once where the
counter has reached its target. A size above 24 or a context without spill slots is WORK_INVALID, a counter that the context
lacks EVENT_RANGE; where no lane executes, only the position changes.
Which slot of the pool a record takes (log 17), and that a suspend in no lane tests nothing (log 99), and ADDR of a
record whose operand is no address (log 110), are the model's choices. -/
def Obligations.SpawnsAndSuspends : Prop :=
  ∀ (s t : State) (x : Group) (p e v c n : Nat),
    let ex := x.exec p
    let go := Host.Outcome.next (s.setGroup (past x p))
    let payload : List (Src × Bool) := (List.range 14).map fun i => (.v (v + i), false)
    let bad := 24 < (x.sGet e).toNat / 2 ^ 59 ∨ ((s.ctx? x.ctx).map (·.desc.spilln)).getD 0 = 0
    let s' : State := { s with fresh := s.fresh + 1 }
    AtIssue s x p →
    (Unheld x p ((.s e, true) :: payload) [] →
      (ex = 0 → exec (.spawn e v) s = go) ∧
      (ex ≠ 0 → bad → stops (.spawn e v) s x p (uniCause 0x1D ex 0xD 0)) ∧
      (ex ≠ 0 → ¬ bad →
        Placed (fun s r t => s.binRec x.ctx (x.core / 8) r = some t ∨
          (s.binRec x.ctx (x.core / 8) r = none ∧ Pooled s x.ctx (x.core / 8) r none t)) s' (records s x p (x.sGet e) v) t →
        exec (.spawn e v) s = .next (committed s (t.modGroup x.uid fun y => past y p)))) ∧
    (Unheld x p ((.s c, true) :: (.s n, true) :: (.s e, true) :: payload) [] → Drained x p →
      (ex = 0 → exec (.suspend c n e v) s = go) ∧
      (ex ≠ 0 → ((s.ctx? x.ctx).map (·.counters)).getD 0 ≤ (x.sGet c).toNat →
        stops (.suspend c n e v) s x p (uniCause 0x1E ex 0xE 0)) ∧
      (ex ≠ 0 → (x.sGet c).toNat < ((s.ctx? x.ctx).map (·.counters)).getD 0 →
        (bad → stops (.suspend c n e v) s x p (uniCause 0x1D ex 0xD 0)) ∧
        (¬ bad → adBusy s x = false → ∀ w, s.exitWaits x p ex = (w, false) →
          Placed (fun s r t => Pooled s x.ctx (x.core / 8) r (some ((x.sGet c).toNat, x.sGet n)) t)
            { w with fresh := w.fresh + 1 } (records w x p (x.sGet e) v) t →
          let u := t.exitLanes x.uid p ex
          exec (.suspend c n e v) s =
            .next (committed s (u.setCounter x.ctx (x.sGet c).toNat (u.counter x.ctx (x.sGet c).toNat))))))

/-- R330 to R333, R17 and R214: a launch is privileged for a child or a control queue, needs a queue that is granted and a
packet address that is a multiple of 64 and readable, and takes an entry of the store with the context's next serial number
and status 0, or none with status 1. The launch unit reads the packet once the launcher's earlier accesses have been
performed; a packet that fails raises LAUNCH_INVALID with its first reason and completes at once, any other starts its grid
or walk, with the fields that the packet's bytes give (R329). A grid whose cohorts have all retired completes, and with it its
launch, but not while a line that one of its groups dirtied is still to be written back (R214); a grid of a graph completes
alone with its own DONE, and the graph's launch completes once its walk has ended and none of its grids is left (R332, R336,
R337). -/
def Sys2Proof.Part.LaunchesRun : Prop :=
  (∀ (s : State) (x : Group) (p d r q : Nat) (child : Bool),
    let i : Instr := if child then .launchChild d r q else .launch d r q
    let e := x.exec p
    let a := x.sGet r
    let c := if child then (x.sGet d).toNat % 2 ^ 12 else x.ctx
    let granted := (s.ctx? c).any fun k => decide (q < k.queues)
    let control := (s.ctx? c).any fun k => k.desc.ctlq.toNat.testBit q
    AtIssue s x p → Unheld x p [(.s r, true), (.s d, true)] [] →
    (e = 0 → exec i s = .next (s.setGroup (past x p))) ∧
    (e ≠ 0 → child = true → x.control = false → stops i s x p (Cause.plain 0x03 e)) ∧
    (e ≠ 0 → (child = true → x.control = true) →
      ((child = true ∧ s.isChild x.ctx c = false) ∨ granted = false → stops i s x p (uniCause 0x1D e 0xD a)) ∧
      ((child = true → s.isChild x.ctx c = true) → granted = true →
        (child = false → control = true → x.control = false → stops i s x p (Cause.plain 0x03 e)) ∧
        ((child = false → control = true → x.control = true) →
          (a.toNat % 64 ≠ 0 → stops i s x p (uniCause 0x11 e 1 a)) ∧
          (a.toNat % 64 = 0 →
            (∀ t f, s.rangeOk x .r [a.toNat, a.toNat + 127] = (t, .error f) → f.code ≠ 0xFF →
              exec i s = .next (committed s (t.stopHere x.uid p { uniCause (0x10 + f.code) e f.code a with
                aux := BitVec.ofNat 64 f.addr, sdep := f.sdep, cow := f.cow }))) ∧
            ∀ t k, s.rangeOk x .r [a.toNat, a.toNat + 127] = (t, .ok ()) → t.ctx? c = some k →
              let n := (t.launches.filter (·.ctx == c)).length
              (k.store ≤ n → exec i s = .next (committed s (answered t x p d 1))) ∧
              (n < k.store → exec i s = .next (committed s (answered
                { t.modCtx c fun k => { k with lserial := k.lserial + 1 } with
                  fresh := t.fresh + 1
                  launches := t.launches ++ [
                    { uid := t.fresh, ctx := c, queue := q, serial := k.lserial, addr := a, via := x.ctx, from_ := x.uid
                      bound := t.fresh, control, read := false, pkt := Packet.none, raw := [], walk := none
                      traced := (smGet 0 k.obs 0x2010).getLsbD 63 && (smGet 0 k.obs 0x2018).getLsbD q }] }
                x p d 0)))))))) ∧
  (∀ (s : State) (k : Nat) (l : Launch),
    s.wq = [] → s.hostWq = [] → s.launch? k = some l → l.read = false →
    (∀ x, s.group? l.from_ = some x → (∀ e ∈ x.sbuf, e.isClean = true ∨ l.bound ≤ e.id) ∧
      ∀ o ∈ x.outs, o.undecided = true → l.bound ≤ o.id) →
    let i : Instr := .launchPacketRead k
    let r := s.ctxRead none l.via l.addr 128 .r
    let freed := fun (t : State) => { t with launches := t.launches.filter (·.uid != k) }
    (∀ t e, r = (t, .error e) → exec i s = .next (committed s (freed (t.launchInvalid l.ctx l.serial 4 l.addr e.code)))) ∧
    ∀ t bs n, r = (t, .ok bs) → bs.length = 128 → Reason t l.ctx bs n →
      (n ≠ 0 → exec i s = .next (committed s ((freed (t.launchInvalid l.ctx l.serial n l.addr 0)).doneUp l.ctx (doneOf bs)))) ∧
      (n = 0 → ∀ pkt, Fields bs pkt →
        let graph := (number bs 15 1).testBit 1
        let walk : Option Walk := if graph then some ⟨BitVec.ofNat 64 (number bs 0 8), none, List.replicate 8 0, none, 0, false⟩ else none
        let u := t.modLaunch k fun _ => { l with read := true, pkt, raw := bs, walk }
        (graph = true → exec i s = .next (committed s u)) ∧
        (graph = false → exec i s = .next (committed s { u with
          fresh := t.fresh + 1
          grids := t.grids ++ [{ uid := t.fresh, launch := k, ctx := l.ctx, serial := l.serial, pkt, control := l.control
                                 placed := 0, gone := 0, traced := l.traced }]
          sessions := if l.traced then t.sessions ++ [⟨l.ctx, t.fresh, false⟩] else t.sessions })))) ∧
  (∀ (s : State) (k : Nat) (g : Grid), s.wq = [] → s.hostWq = [] → s.grid? k = some g →
    (∃ x ∈ s.groups, x.grid = some g.uid ∧ ∃ l ∈ s.l1, l.dirty ≠ 0 ∧ ∃ w ∈ l.writers, w.1 = x.uid) →
    exec (.gridComplete k) s = .next s) ∧
  (∀ (s : State) (k : Nat) (g : Grid) (l : Launch),
    s.wq = [] → s.hostWq = [] → s.grid? k = some g → s.launch? g.launch = some l → l.read = true →
    g.pkt.grid ≤ g.placed → g.placed ≤ g.gone → (∀ x ∈ s.groups, x.grid ≠ some g.uid) →
    let t := s.closeSession g.uid none
    let u := { t with grids := t.grids.filter (·.uid != g.uid) }
    (l.walk = none → (∀ h ∈ s.grids, h.launch = g.launch → h.uid = g.uid) → exec (.gridComplete k) s =
      .next (committed s (State.doneUp { u with launches := u.launches.filter (·.uid != g.launch) } l.ctx l.pkt.done))) ∧
    (l.walk.isSome = true → exec (.gridComplete k) s = .next (committed s (u.doneUp g.ctx g.pkt.done)))) ∧
  ∀ (s : State) (k : Nat) (l : Launch) (w : Walk),
    s.wq = [] → s.hostWq = [] → s.grid? k = none → s.launch? k = some l → l.read = true → l.walk = some w →
    (w.ended = false ∨ (∃ g ∈ s.grids, g.launch = k) → exec (.gridComplete k) s = .next s) ∧
    (w.ended = true → (∀ g ∈ s.grids, g.launch ≠ k) → exec (.gridComplete k) s =
      .next (committed s (State.doneUp { s with launches := s.launches.filter (·.uid != k) } l.ctx l.pkt.done)))

/-- R335 to R337: an eligible walk that waits for nothing reads its node, or ends with NODE or STEPS; a node of kind KERNEL
starts its packet's grid with the graph's priority and waits for it unless it is CONCURRENT; COND and LOOP act on their word
after the join; JOIN goes on and END ends the walk; a word that cannot be read ends it with WORD. -/
def Sys2Proof.Part.GraphsWalk : Prop :=
  ∀ (s : State) (k : Nat) (l : Launch) (w : Walk),
    let i : Instr := .graphNode k
    let goes := fun (t : State) => exec i s = .next (committed s t)
    s.wq = [] → s.hostWq = [] → s.launch? k = some l → l.walk = some w → w.ended = false → (∀ g, w.waits = some g → s.grid? g = none) →
    s.isEligible l = true → s.isFrozen l.ctx = false →
    (w.cur = none →
      (65536 ≤ w.steps → goes (walkEnds s l w 7 0)) ∧
      (w.steps < 65536 → w.node.toNat % 64 ≠ 0 → goes (walkEnds s l w 5 0)) ∧
      (w.steps < 65536 → w.node.toNat % 64 = 0 →
        (∀ t e, s.ctxRead none l.ctx w.node 64 .r = (t, .error e) → goes (walkEnds t l w 5 0)) ∧
        ∀ t bs, s.ctxRead none l.ctx w.node 64 .r = (t, .ok bs) → bs.length = 64 →
          (¬ NodeValid bs → goes (walkEnds t l w 5 0)) ∧
          (NodeValid bs → goes (t.modLaunch k fun l =>
            { l with walk := some { w with cur := some bs, steps := w.steps + 1, waits := none } })))) ∧
    ∀ bs, w.cur = some bs → NodeValid bs →
      let next := number bs 8 8
      let a := BitVec.ofNat 64 (number bs 16 8)
      ((∃ g ∈ s.grids, g.launch = k) → number bs 0 1 ≠ 1 → exec i s = .next s) ∧
      ((∀ g ∈ s.grids, g.launch ≠ k) →
        (number bs 0 1 = 4 → goes (walksTo s k w next)) ∧
        (number bs 0 1 = 5 → goes (s.modLaunch k fun l => { l with walk := some { w with ended := true, cur := none } })) ∧
        (number bs 0 1 = 2 ∨ number bs 0 1 = 3 →
          (number bs 16 8 % 4 = 0 → ∀ t e, s.ctxRead none l.ctx a 4 .r = (t, .error e) → goes (walkEnds t l w 8 e.code)) ∧
          (number bs 16 8 % 4 = 0 → ∀ t ws, s.ctxRead none l.ctx a 4 .r = (t, .ok ws) → ws.length = 4 →
            let word := BitVec.ofNat 32 (number ws 0 4)
            let slot := number bs 1 1
            let n := w.counts.getD slot 0
            (number bs 0 1 = 2 →
              goes (walksTo t k w (if nodeHolds slot word (BitVec.ofNat 32 (number bs 24 4)) then number bs 32 8 else next))) ∧
            (number bs 0 1 = 3 →
              goes (if word ≠ 0 ∧ (number bs 32 4 = 0 ∨ n < number bs 32 4) then
                  walksTo t k { w with counts := w.counts.set slot (n + 1) } (number bs 24 8)
                else walksTo t k { w with counts := w.counts.set slot 0 } next))))) ∧
      (number bs 0 1 = 1 → number bs 16 8 % 64 = 0 →
        let r := s.ctxRead none l.ctx a 128 .r
        (∀ t e, r = (t, .error e) → e.code ≠ 1 →
          goes (walksTo (t.launchInvalid l.ctx l.serial 4 a e.code) k { w with steps := 0 } next)) ∧
        ∀ t pk n, r = (t, .ok pk) → pk.length = 128 → Reason t l.ctx pk n →
          (n ≠ 0 → goes (walksTo ((t.launchInvalid l.ctx l.serial n a 0).doneUp l.ctx (doneOf pk)) k { w with steps := 0 } next)) ∧
          (n = 0 → (number pk 15 1).testBit 1 = true → goes (walkEnds t l w 6 0)) ∧
          (n = 0 → (number pk 15 1).testBit 1 = false → ∀ c f, t.ctx? l.ctx = some c → Fields pk f →
            goes (walksTo { t.modCtx l.ctx fun c => { c with lserial := c.lserial + 1 } with
                fresh := t.fresh + 1
                grids := t.grids ++ [{ uid := t.fresh, launch := k, ctx := l.ctx, serial := c.lserial
                                       pkt := { f with prio := l.pkt.prio }, control := l.control, placed := 0
                                       gone := 0, traced := l.traced }]
                sessions := if l.traced then t.sessions ++ [⟨l.ctx, t.fresh, false⟩] else t.sessions }
              k { w with steps := 0, waits := if (number bs 1 1).testBit 0 then none else some t.fresh } next)))

namespace Sys2Proof.Claim

open Sys2Proof.Machine

/-! ### Scheduling -/

/-- A group as it enters (R334, R165): one READY path at the entry address, whose mask and helper lanes are given lane by
lane, and every register, flag and unit empty. -/
structure Enters (x : Group) (ctx core win nres : Nat) (kent : DWord) (live helper : Nat → Bool) : Prop where
  place : x.ctx = ctx ∧ x.core = core ∧ x.resident = true ∧ x.retired = false
  window : x.win = win ∧ x.nres = nres ∧ x.wb = 0 ∧ x.rlo = 0 ∧ x.kent = kent
  entry : x.paths.length = 8 ∧ (x.path 0).st = .ready ∧ (x.path 0).pc = kent ∧ (x.path 0).hdr = true
  others : ∀ q, 0 < q → (x.path q).st = .free
  mask : ∀ l, l < 32 → (x.mask 0).getLsbD l = live l
  helpers : ∀ l, l < 32 → x.helpers.getLsbD l = helper l
  masks : ∀ k, x.mGet k = 0
  descriptors : ∀ k, x.dGet k = 0
  state : x.defer = false ∧ x.fl = .none ∧ x.alatch = none ∧ x.subs = [] ∧ x.rcq = [] ∧ x.outs = [] ∧ x.sbuf = [] ∧ x.badRows = []

/-- The bounds of R342 on a core that takes one workgroup more. -/
structure CoreBounds (s : State) (k ctx : Nat) (n : WgNeed) : Prop where
  groups : (s.coreGroups k).length + n.groups ≤ 64
  rows : ((s.coreGroups k).map (·.nres)).sum + n.rows ≤ 12288
  pages : ((s.coreWgs k).map (·.pages)).sum + n.pages ≤ 96
  acc : ((s.coreWgs k).map (·.accSize)).sum + n.acc ≤ 4194304
  context : s.coreIdle k = true ∨ s.coreCtx k = some ctx
  staying : s.coreClosed k ctx = false
  windows : n.subs = 0 ∨ ((((s.coreGroups k).flatMap (·.subs)).filter (·.isOpen)).length + n.subs ≤ 16 ∧
    ((((s.coreGroups k).flatMap (·.subs)).filter (·.isOpen)).map fun u => u.w * u.stride).sum + n.window ≤ 196608)

/-- The cores and contexts of resident groups, each pair once. -/
def busy (s : State) : List (Nat × Nat) :=
  ((s.groups.filter fun g => g.resident && !g.retired).map fun g => (g.core, g.ctx)).eraseDups

/-- A context and its ancestors. -/
def ancestors (s : State) : Nat → Nat → List Nat
  | 0, _ => []
  | n + 1, c =>
    match s.ctx? c with
    | none => []
    | some x => c :: (match x.parent with
      | some p => ancestors s n p
      | none => [])

end Sys2Proof.Claim

/-- R263, R339 to R342, R344, R345, R347, R350 and R407: a dispatch step acts on the service counters after the ticks that are
due. It places at most one cohort in a region and no cohort twice; each is a
candidate of its context, which is not frozen, that fits the region, which no other head holds, on the cores that fit; where nothing is placed, no
head fits a region that is not held. A cohort fits on distinct cores of the region, one for each workgroup, within their
bounds, those that run its context first, then idle ones unless the region's other cores already number its cap. -/
def Sys2Proof.Part.CohortsArePlaced : Prop :=
  (∀ s : State, s.wq = [] → s.hostWq = [] →
    let u := (s.contexts.map (·.id)).foldl State.blockHead s.tickUp.gainAll
    ∃ ps t, exec .dispatchStep s = .next (committed s { ps.foldl State.place u with contexts := t }) ∧
      (ps.map (·.region)).Nodup ∧ (ps.map (·.cand)).Nodup ∧
      (∀ q ∈ ps, q.region < 96 ∧ u.fit q.region q.cand = some q.cores ∧ (∃ c ∈ u.contexts, q.cand ∈ u.cands c.id ∧ u.isFrozen c.id = false) ∧
        ∀ h, u.holder q.region = some h → h = q.cand) ∧
      (ps = [] → ∀ r c h, r < 96 → c ∈ u.contexts → u.isFrozen c.id = false → u.head? c.id = some h →
        u.holder r = none → u.fit r h = none)) ∧
  (∀ (s : State) (r : Nat) (c : Cand) (n : Need) (ks : List Nat),
    s.need c = some n → s.fit r c = some ks →
    (∀ q, n.only = some q → q = r) ∧ n.slots ≤ (s.freeSlots n.ctx).length ∧ ks.length = n.wgs.length ∧ ks.Nodup ∧
    (∀ (i k : Nat) (w : WgNeed), ks[i]? = some k → n.wgs[i]? = some w → k / 8 = r ∧ CoreBounds s k n.ctx w) ∧
    ((∃ k ∈ ks, s.coreIdle k = true) → 8 - s.idleCount r < s.actMax r)) ∧
  ∀ (s : State) (r m : Nat) (c : Cand) (n : Need) (w : WgNeed),
    s.need c = some n → n.wgs = List.replicate m w → (∀ q, n.only = some q → q = r) → n.slots ≤ (s.freeSlots n.ctx).length →
    let takes := fun k => s.coreTakes k n.ctx w
    let run := ((regionCores r).filter fun k => s.coreCtx k == some n.ctx).filter takes
    let idle := ((regionCores r).filter s.coreIdle).filter takes
    let open_ := if 8 - s.idleCount r < s.actMax r then run ++ idle else run
    s.fit r c = if m ≤ open_.length then some (open_.take m) else none

/-- R14, R16, R325 and R334: what a group holds as it enters, from a grid's packet or from a bin's records. A group goes to
the partition of its core that has the fewest groups, into its active set if there is room, and takes its context's lowest
free spill slot. -/
def Sys2Proof.Part.GroupsEnter : Prop :=
  (∀ (uid coh core w gi index : Nat) (g : Grid),
    let x := gridGroup uid coh core w gi g index
    let n := g.pkt.wgl
    Enters x g.ctx core g.pkt.win g.pkt.stk g.pkt.entry (fun l => decide (32 * gi + 4 * (l / 4) < n))
      (fun l => decide (n ≤ 32 * gi + l ∧ 32 * gi + 4 * (l / 4) < n)) ∧
    x.grid = some g.uid ∧ x.wg = w ∧ x.gi = gi ∧ x.idGrid = g.serial ∧ x.idCoh = BitVec.ofNat 32 index ∧ x.bin = false ∧
    x.control = g.control ∧ (∀ k, x.sGet k = if k = 1 then g.pkt.args else 0) ∧ ∀ row l, x.rowGet row l = 0) ∧
  (∀ (uid coh core : Nat) (b : Bin) (r : Rec),
    let x := binGroup uid coh core b
    let w := 64 * (r.entry.toNat / 2 ^ 59)
    b.recs.head? = some r → b.recs.length ≤ 32 →
    Enters x b.ctx core w (min 4096 (w * 2 ^ (r.entry.toNat / 2 ^ 57 % 4))) (BitVec.ofNat 64 (r.entry.toNat % 2 ^ 57))
      (fun l => decide (l < b.recs.length)) (fun _ => false) ∧
    x.grid = none ∧ x.wg = 0 ∧ x.gi = 0 ∧ x.idGrid = 0xFFFFFFFF ∧ x.idCoh = 0 ∧ x.bin = true ∧ x.control = r.control ∧
    (∀ k, x.sGet k = if k = 2 then BitVec.ofNat 64 b.recs.length else 0) ∧
    ∀ row l, l < 32 → x.rowGet row l =
      if row < 14 then ((b.recs[l]?).map fun q => q.payload.getD row 0).getD 0 else 0) ∧
  ∀ (s : State) (x : Group) (c : Context), s.ctx? x.ctx = some c →
    let p := s.partOf x.core
    let count := fun (q : Nat) => ((s.coreGroups x.core).filter (·.part == q)).length
    let y := { x with
      part := p, slot := (s.freeSlots x.ctx).headD 0
      active := decide (((s.coreGroups x.core).filter fun (g : Group) => g.part == p && g.active).length < 4)
      slotBase := c.desc.spill + BitVec.ofNat 64 (524288 * (s.freeSlots x.ctx).headD 0) }
    p < 4 ∧ (∀ q, q < 4 → count p ≤ count q ∧ (count q = count p → p ≤ q)) ∧
    ((smGet 0 c.obs 0x2028).getLsbD 63 = false → s.sessions = [] →
      s.enter x = { s with groups := s.groups ++ [{ y with rnum := 0 }] })

/-- R84, R343 to R345, R347, R348, R350 and R352: a blocked head gains an age step each 64 µs that it remains blocked, up to 8, and at 8 the one that
holds its region calls a ladder on as many overstayed cores as it lacks; a tick raises each service counter of a busy core's
context and charges the core's energy to it and its ancestors, but not to a frozen one (R407); a window's end clears the charges and keeps an overrun up to
one budget; a temperature sets a region's cap; and a partition's active set exchanges the group that has waited longest, 16
cc at least, for the oldest that is ready, the rows of the one going into Twilight and those of the other's working set being
reloaded (R79, R84). A frozen head's 64 µs begin anew (log 87), the share in force is that before the tick's charge (log 76), and
readiness outside the active set is the model's choice (log 71).
The energy of a tick is a free value (log 6); which groups are exchanged (log 51), a frozen head's time begun anew (log
87) and the share before the tick's charge (log 76) are the model's. -/
def Obligations.ClocksAdvance : Prop :=
  (∀ (s : State) (ctx : Nat), s.wq = [] → s.hostWq = [] →
    ((∀ h c b, s.head? ctx = some h → s.ctx? ctx = some c → b ∈ c.blocked → b.cand ≠ h) → exec (.ageStep ctx) s = .next s) ∧
    ∀ h c b, s.head? ctx = some h → s.ctx? ctx = some c → c.blocked.find? (·.cand == h) = some b →
      let with_ := fun (f : Blocked → Blocked) =>
        s.modCtx ctx fun c => { c with blocked := c.blocked.map fun q => if q.cand = h then f q else q }
      let u := with_ fun q => { q with age := min 8 (q.age + 1), ageAt := q.ageAt + 64000 }
      (s.isFrozen ctx = true ∨ s.fitsSome h = true →
        exec (.ageStep ctx) s = .next (with_ fun q => { q with ageAt := s.ns.toNat })) ∧
      (s.isFrozen ctx = false → s.fitsSome h = false →
        (s.ns.toNat < b.ageAt + 64000 → exec (.ageStep ctx) s = .next s) ∧
        (b.ageAt + 64000 ≤ s.ns.toNat →
          (b.age < 8 → exec (.ageStep ctx) s = .next u) ∧
          (b.age = 8 → u.holder b.target = some h → exec (.ageStep ctx) s =
            .next (((u.overstayed b.target ctx).take (u.lacks b)).foldl (fun t k => t.callLadder k.1 k.2 false) u))))) ∧
  (∀ s : State, s.wq = [] → s.hostWq = [] →
    (s.ns.toNat / 1000 ≤ s.tickAt → exec .serviceTick s = .next s) ∧
    (s.tickAt < s.ns.toNat / 1000 → ∃ cs : List Context, exec .serviceTick s = .next { s with tickAt := s.tickAt + 1, contexts := cs } ∧
      cs.length = s.contexts.length ∧ ∀ (i : Nat) (c : Context), s.contexts[i]? = some c → ∃ d : Context, cs[i]? = some d ∧
        d = { c with sv := d.sv, charge := d.charge } ∧
        (∀ r : Nat, let n := ((busy s).filter fun k => k.2 == c.id && k.1 / 8 == r).length
          smGet 0 d.sv r = if s.eff c.id = 0 ∨ n = 0 then smGet 0 c.sv r
            else (smGet 0 c.sv r + n * (2 ^ 48 / s.eff c.id)) % 2 ^ 64) ∧
        d.charge = c.charge + if s.isFrozen c.id then 0 else
          ((busy s).map fun k => (ancestors s 6 k.2).count c.id * Config.coreEnergy k.1 (s.tickAt + 1)).sum)) ∧
  (∀ s : State, s.wq = [] → s.hostWq = [] →
    (s.ns.toNat / 10 ^ 7 ≤ s.windowAt → exec .energyWindow s = .next s) ∧
    (s.windowAt < s.ns.toNat / 10 ^ 7 → exec .energyWindow s = .next { s with
      windowAt := s.windowAt + 1
      contexts := s.contexts.map fun (c : Context) =>
        let excess := c.overrun + c.charge / 10 ^ 9 - c.ebudget
        { c with charge := 0, overrun := if c.ebudget = 2 ^ 32 - 1 then 0 else min c.ebudget excess } })) ∧
  (∀ (s : State) (r : Nat) (t : Int), s.wq = [] → s.hostWq = [] →
    ∃ u, exec (.actmaxUpdate r t) s = .next { s with actmax := u } ∧ (∀ q, q ≠ r → smGet 8 u q = smGet 8 s.actmax q) ∧
      (t < 95 → smGet 8 u r = 8) ∧ (95 ≤ t → t < 100 → smGet 8 u r = 6) ∧ (100 ≤ t → t < 105 → smGet 8 u r = 4) ∧
      (105 ≤ t → smGet 8 u r = 2)) ∧
  ∀ (s : State) (core part : Nat), s.wq = [] → s.hostWq = [] →
    let u := s.markWaits core part
    let gs := (u.coreGroups core).filter (·.part == part)
    let enters := fun (t : State) (y : Group) => t.modGroup y.uid fun g =>
      { g with active := true, waitSince := 0, yielded := false, awake := g.awake.map fun _ => g.ws.map (g.wb + ·) }
    let outside := fun (y : Group) => y ∈ gs ∧ y.active = false ∧ u.groupReady y = true ∧
      ∀ z ∈ gs, z.active = false → u.groupReady z = true → z ≠ y → y.startNo < z.startNo
    let waited := fun (y : Group) => y.active = true ∧ y.waitSince ≠ 0 ∧ y.waitSince + 16 ≤ s.cycle.toNat + 1
    ((∀ y ∈ gs, y.active = false → u.groupReady y = false) → exec (.activeSetSwap core part) s = .next u) ∧
    ∀ y, outside y →
      ((gs.filter (·.active)).length < 4 → exec (.activeSetSwap core part) s = .next (enters u y)) ∧
      (4 ≤ (gs.filter (·.active)).length →
        ((∀ z ∈ gs, ¬ waited z) → exec (.activeSetSwap core part) s = .next u) ∧
        ∀ x ∈ gs, waited x → (∀ z ∈ gs, waited z → z ≠ x → x.waitSince < z.waitSince) →
          exec (.activeSetSwap core part) s = .next (enters (u.modGroup x.uid fun g => { g with
            active := false, awake := some []
            paths := g.paths.map fun q =>
              if q.hdr then { q with head := 0, words := [], fetched := false } else { q with fetched := false } }) y))

namespace Sys2Proof.Claim

open Sys2Proof.Machine

/-! ### Block transfers -/

/-- The bytes that a cpy or cpyl moves, in destination order: each one's destination and its source, or none where it is
padding (R359, R361). -/
def moves (dst src : DWord) (len : Nat) : List (DWord × Option DWord) :=
  (List.range len).map fun i => (dst + BitVec.ofNat 64 i, some (src + BitVec.ofNat 64 i))
/-- A field of a layout record. -/
def half (bs : List Byte) (at_ : Nat) : Int := (BitVec.ofNat 16 (number bs at_ 2)).toInt
def taps (bs : List Byte) (dst : DWord) (ctl : Nat) : List (DWord × Option DWord) :=
  let e := 2 ^ number bs 30 1
  (List.range (number bs 36 2)).flatMap fun (py : Nat) => (List.range (number bs 38 2)).flatMap fun (px : Nat) =>
    let y : Int := half bs 32 + (py * number bs 40 1 : Nat) + (BitVec.ofNat 16 (ctl / 2 ^ 16)).toInt
    let x : Int := half bs 34 + (px * number bs 41 1 : Nat) + (BitVec.ofNat 16 ctl).toInt
    (List.range (number bs 28 2)).flatMap fun (c : Nat) => (List.range e).map fun (i : Nat) =>
      (dst + BitVec.ofNat 64 ((py * number bs 38 2 + px) * number bs 20 4 + c * e + i),
        if 0 ≤ y ∧ y < number bs 24 2 ∧ 0 ≤ x ∧ x < number bs 26 2 then
          some (BitVec.ofNat 64 (number bs 0 8 + y.toNat * number bs 8 4 + x.toNat * number bs 12 4 + c * number bs 16 4 + i))
        else none)

/-- A layout record that R360 admits. -/
structure LayoutFits (bs : List Byte) (dst : DWord) : Prop where
  sizes : number bs 24 2 ≠ 0 ∧ number bs 26 2 ≠ 0 ∧ number bs 28 2 ≠ 0 ∧ number bs 36 2 ≠ 0 ∧ number bs 38 2 ≠ 0
  steps : number bs 40 1 ≠ 0 ∧ number bs 41 1 ≠ 0 ∧ number bs 30 1 ≤ 3
  reserved : number bs 31 1 = 0 ∧ number bs 42 22 = 0
  aligned : ∀ v ∈ [number bs 0 8, number bs 8 4, number bs 12 4, number bs 16 4, number bs 20 4, dst.toNat],
    v % 2 ^ number bs 30 1 = 0
  rows : number bs 28 2 * 2 ^ number bs 30 1 ≤ number bs 20 4
  total : (number bs 36 2 * number bs 38 2 - 1) * number bs 20 4 + number bs 28 2 * 2 ^ number bs 30 1 ≤ 16777215

/-- A control word that R358 admits. -/
def controlFits (layout : Bool) (ctl ring : DWord) : Prop :=
  ctl.extractLsb' 56 7 = 0 ∧ (layout = true → ctl.extractLsb' 32 8 = 0) ∧ (layout = false → ctl.extractLsb' 24 16 = 0) ∧
    (ctl.getLsbD 63 = true → ring.toNat % 32 = 0)

/-- A copy takes an entry of its core's queue with status 0, its destination translated at once and nothing moved (R356,
R362). -/
def Accepted (i : Instr) (s t : State) (x : Group) (p d : Nat) (ctl ring : DWord) (bytes : List (DWord × Option DWord)) : Prop :=
  ∃ (c : Copy) (u : State), c.shape.moves = bytes ∧ c.id = t.fresh ∧ c.core = x.core ∧ c.ctx = x.ctx ∧ c.group = x.uid ∧ c.coh = x.coh ∧
    c.wg = x.wg ∧ c.who = x.who ∧ c.pc = (x.path p).pc ∧ c.pos = (x.path p).pos ∧ c.tag = ctl.extractLsb' 40 16 ∧
    c.ring = (if ctl.getLsbD 63 then some ring else none) ∧ c.moved = false ∧ c.srcs = none ∧ c.buf = [] ∧ c.cut = none ∧
    c.done = 0 ∧ c.batch = 0 ∧ u.fresh = t.fresh + 1 ∧ u.copies = t.copies ++ [c] ∧
    exec i s = .next (committed s (answered (u.modGroup x.uid fun y => { y with unb := y.unb ++ [c.id] }) x p d 0)) ∧
    ((∃ f, c.failed = some f ∧ f.status = 1 ∧ f.count = 0 ∧ c.pages = [] ∧ f.faddr ∈ bytes.map (·.1)) ∨
      (c.failed = none ∧ ∀ a ∈ bytes.map (·.1), (c.placeOf a).isSome))

/-- Whether a copy's engine is at work, with nothing in its way yet (R363). -/
structure Moving (s : State) (c : Copy) : Prop where
  queued : s.copy? c.id = some c
  going : c.moved = false ∧ c.failed = none ∧ c.cut = none
  only : ∀ k ∈ s.copies, k.id = c.id → k = c
/-- The places that the engine may use now (R197, R199, R364). -/
def usable (s : State) (ps : List Place) : Prop :=
  ∀ q ∈ ps, s.placeLive q = true ∧ s.pinLive q = true ∧ s.placeBad q = false

/-- The little-endian bytes of a number. -/
def littleEndian (n v : Nat) : List Byte := (List.range n).map fun i => BitVec.ofNat 8 (v / 2 ^ (8 * i))
/-- The completion record of a copy that succeeded (R369). -/
def doneRecord (c : Copy) : List Byte :=
  littleEndian 4 (c.tag.toNat * 2 ^ 16) ++ littleEndian 4 c.batch.toNat ++ littleEndian 8 c.shape.moves.length ++ littleEndian 16 0

end Sys2Proof.Claim

/-- R354 to R362: cpy and cpyl need the producer group, an admitted control word and, for cpyl, a layout record that can be
read and is admitted; they take an entry of the core's queue, behind an acquire before them (R212), or answer 1 at once where
none is free. WORK_INVALID bears the address of the layout record that is not admitted, or of a ring that is not aligned (R392);
a control word has none (log 110). Where no lane executes, only the position changes. -/
def Sys2Proof.Part.CopiesAreAccepted : Prop :=
  ∀ (s : State) (x : Group) (p d a : Nat) (layout : Bool),
    let i : Instr := if layout then .cpyl d a else .cpy d a
    let e := x.exec p
    let ctl := x.sGet (a + 2)
    let ring := x.sGet (a + 3)
    AtIssue s x p →
    Unheld x p [(.s a, true), (.s (a + 1), true), (.s (a + 2), true), (.s (a + 3), true)] (x.srcRegs (.s d) true) →
    (e = 0 → exec i s = .next (s.setGroup (past x p))) ∧
    (e ≠ 0 → s.isProducer x = false → stops i s x p (uniCause 0x1F e 0xD 0)) ∧
    (e ≠ 0 → s.isProducer x = true →
      (¬ controlFits layout ctl ring → stops i s x p
        (uniCause 0x1D e 0xD (if ctl.getLsbD 63 = true ∧ ring.toNat % 32 ≠ 0 then ring else 0))) ∧
      (controlFits layout ctl ring →
        (64 ≤ (s.copies.filter (·.core == x.core)).length → exec i s = .next (committed s (answered s x p d 1))) ∧
        ((s.copies.filter (·.core == x.core)).length < 64 →
          (layout = false → (x.acqHeld p s.fresh = true → exec i s = .next s) ∧
            (x.acqHeld p s.fresh = false →
              Accepted i s s x p d ctl ring (moves (x.sGet a) (x.sGet (a + 1)) (ctl.toNat % 2 ^ 24)))) ∧
          (layout = true → ∀ t q, ReadsNow 64 ⟨a + 1, .imm 0, 0, 0⟩ s x p t q →
            let bs := (List.range 64).map fun i => t.placeByte (q.add i)
            (¬ LayoutFits bs (x.sGet a) → exec i s = .next (committed s ((touched t x q 64).stopHere x.uid p
              (uniCause 0x1D e 0xD (x.sGet (a + 1)))))) ∧
            (LayoutFits bs (x.sGet a) → x.acqHeld p t.fresh = false →
              Accepted i s (touched t x q 64) x p d ctl ring (taps bs (x.sGet a) ctl.toNat))))))

/-- R359, R363, R364, R369, R206, R217 and R218: the engine of a copy first translates its source lines; one that cannot be
translated leaves every destination byte as it was, and the copy ends. It then reads its source a line at a time, each byte
once, and then writes its destination a line at a time (in destination order, the model's choice, log 32), each line's bytes at
once with what was read, and nothing else, and they stand at the line's bank (R221). An earlier access of its group to those bytes, or an earlier copy that owns the line,
holds it. After the last line it ends, with its record in its ring where it asks for one.
The lines in destination order are the model's choice (log 32). -/
def Obligations.CopiesMove : Prop :=
  ∀ (s : State) (c : Copy),
    let all := c.shape.moves
    let run := exec (.copyComplete c.id) s
    let put := fun (t : State) (k : Copy) => t.modCopy c.id fun _ => k
    let ends := fun (v : State) (k : Copy) => match c.ring with
      | none => run = .next (committed s (v.copyDone k))
      | some r => ∀ w n, v.ringAppend c.ctx r 5 0 (doneRecord c) = (w, .ok n) → run = .next (committed s (w.copyDone k))
    s.wq = [] → s.hostWq = [] → Moving s c →
    (c.srcs = none →
      let lines := firstOf (fun a : DWord => a.toNat / 192) (all.filterMap (·.2))
      (∀ t ls, s.copyMaps c.core c.ctx c.coh c.wg .r 192 lines = (t, .ok ls) →
        run = .next (committed s (put t { c with srcs := some ls }))) ∧
      ∀ t a f, s.copyMaps c.core c.ctx c.coh c.wg .r 192 lines = (t, .error (a, f)) → c.ring = none → f.code ≠ 0xFF →
        let k := { c with failed := some (⟨1, f.code, 0, a, f.sdep, f.cow⟩ : CopyFail) }
        run = .next (committed s ((put t k).copyDone k))) ∧
    (c.srcs.isSome = true → c.buf.length < all.length →
      let rest := (all.drop c.buf.length).map (·.2)
      let line := fun (a : Option DWord) => a.map fun (a : DWord) => a.toNat / 192
      let now := rest.takeWhile fun a => line a == line (rest.headD none)
      let ps := now.filterMap fun a => a.bind c.srcPlace
      (s.copyWaits c ps = true → run = .next s) ∧
      (s.copyWaits c ps = false → usable s ps → (∀ a, some a ∈ now → (c.srcPlace a).isSome = true) →
        run = .next (committed s (put (s.copyTouch c.ctx false (firstOf id ps)) { c with
          buf := c.buf ++ now.map fun a =>
            match a with
            | none => 0
            | some b => (match (all.take c.buf.length).findIdx? fun m => m.2 == some b with
              | some j => c.buf.getD j 0
              | none => ((c.srcPlace b).map s.placeByte).getD 0) })))) ∧
    (c.srcs.isSome = true → all.length ≤ c.buf.length → c.done < all.length → (∀ m ∈ all, (c.placeOf m.1).isSome = true) →
      let rest := (all.drop c.done).filterMap fun m => c.placeOf m.1
      let ps := rest.takeWhile fun q => q.line == (rest.headD (.pin 0 0 0)).line
      let n := c.done + ps.length
      (s.copyWaits c ps = true → run = .next s) ∧
      (s.copyWaits c ps = false → usable s ps →
        (∀ q ∈ ps, ∃ pa h k i, q = .phys pa h k i ∧ smGet 0 s.blkKey (pa / 16) = i) →
        ∃ v, (∀ b, v.byte b = match ((ps.zip (c.buf.drop c.done)).reverse.find? fun w => w.1.overlaps 1 (.phys b 0 0 0) 1) with
          | some w => w.2
          | none => s.byte b) ∧
          (∀ pa h k i, ps.head? = some (.phys pa h k i) →
            v.bankQ = s.bankQ ++ [(⟨c.ctx, c.group, false, pa / 192⟩ : BankWrite)]) ∧
          v.copies = s.copies.map (fun k => if k.id = c.id then { c with done := n, moved := decide (all.length ≤ n) } else k) ∧
          (n < all.length → run = .next (committed s v)) ∧
          (all.length ≤ n → ends v { c with done := n, moved := true })))

/-- R354, R366 and R367: cbatch closes a batch with the next number and the copies not yet batched; a complete batch with no
incomplete one before it leaves, its failures to be reported; cwait goes on with the report once no batch that it covers is
incomplete, and sleeps until then. -/
def Sys2Proof.Part.BatchesAndReports : Prop :=
  (∀ (s : State) (x : Group) (p d : Nat),
    let e := x.exec p
    let n := x.nb + 1
    AtIssue s x p → Unheld x p [] (x.srcRegs (.s d) true) →
    (e = 0 → exec (.cbatch d) s = .next (s.setGroup (past x p))) ∧
    (e ≠ 0 → s.isProducer x = false → stops (.cbatch d) s x p (uniCause 0x1F e 0xD 0)) ∧
    (e ≠ 0 → s.isProducer x = true → exec (.cbatch d) s = .next (answered
      (State.modGroup { s with copies := s.copies.map fun c => if c.id ∈ x.unb then { c with batch := n } else c } x.uid fun y =>
        let z := { y with nb := n, unb := [], unbFails := [], batches := y.batches ++ [(⟨n, y.unb, y.unbFails⟩ : Batch)] }
        z.settleBatches z.batches.length) x p d n.toNat))) ∧
  (∀ x : Group,
    let y := x.settleBatches x.batches.length
    ∃ done, x.batches = done ++ y.batches ∧ (∀ b ∈ done, b.copies = []) ∧ (∀ b, y.batches.head? = some b → b.copies ≠ []) ∧
      y = { x with batches := y.batches, doneBatch := (done.getLast?.map (·.n)).getD x.doneBatch
                   report := x.report ++ done.flatMap fun b => b.fails.map fun f => (b.n, f) }) ∧
  ∀ (s : State) (x : Group) (p : Nat) (d : Dst) (a : Src),
    let e := x.exec p
    let n := BitVec.ofNat 32 (arg s x p a false 0)
    let waits := ∃ b ∈ x.batches, (n - b.n).toNat < 2 ^ 31
    AtIssue s x p → (x.path p).wake = .none → (Instr.cwait d a).wf = true → Unheld x p [(a, false)] (x.dstRegs d true) →
    (e = 0 → exec (.cwait d a) s = .next (s.setGroup (past x p))) ∧
    (e ≠ 0 → s.isProducer x = false → stops (.cwait d a) s x p (uniCause 0x1F e 0xD 0)) ∧
    (e ≠ 0 → s.isProducer x = true →
      (waits → exec (.cwait d a) s = .next (State.parkedShare (s.modGroup x.uid fun y => y.modPath p fun z =>
        { z with st := .blocked, wake := .cwait n, skip := false }) x.core x.ctx)) ∧
      (¬ waits →
        let report : Group → Nat := fun y => match y.report with
          | [] => 0
          | _ => 2 ^ 63 + min y.report.length 32767 * 2 ^ 48 +
            ((earliest y.report).map fun r => r.2.status % 16 * 2 ^ 36 + r.2.fcode % 16 * 2 ^ 32 + r.1.toNat).getD 0
        exec (.cwait d a) s = .next (s.modGroup x.uid fun y =>
          let z : Group := match d with
            | .s k => y.sSet k (BitVec.ofNat 64 (report y))
            | _ => y
          ({ z with report := [] }).modPath p fun w => { w.advance with st := .ready, wake := .none })))

namespace Sys2Proof.Claim

open Sys2Proof.Machine

/-! ### Counters, sampling and tracing -/

/-- A form on a counter (R426): EVENT_RANGE above the context's count; evinc and evset release at context scope:
they wait, with the number that they took first, for the group's earlier accesses, and then for the writes that the banks had
accepted from its context by that time (R221); then the counter holds its new value and s(D) the old one. -/
def OnCounter (i : Instr) (s : State) (x : Group) (p d c : Nat) (srcs : List (Src × Bool)) (new : Option (DWord → DWord)) : Prop :=
  let e := x.exec p
  let k := (x.sGet c).toNat
  let old := s.counter x.ctx k
  let has := ((s.ctx? x.ctx).map (·.counters)).getD 0
  let lone := s.alone x p .cx
  let f : Fence := (x.path p).fence.getD ⟨s.fresh, none⟩
  let own := (lone = false ∧ x.readsBefore p f.no = true) ∨ x.writesBefore p f.no lone = true
  let h : Fence := if own ∨ f.banks.isSome = true then f else { f with banks := some (s.bankMarks x.ctx) }
  let free := ¬ own ∧ s.banksDone (h.banks.getD []) = true
  AtIssue s x p → Unheld x p ((.s c, true) :: srcs) (x.srcRegs (.s d) true) →
    (e = 0 → exec i s = .next (s.setGroup (past x p))) ∧
    (e ≠ 0 → has ≤ k → stops i s x p (uniCause 0x1E e 0xE 0)) ∧
    (e ≠ 0 → k < has → (new.isSome = true → free) →
      exec i s = .next (committed s (answered (match new with
        | some g => (s.l1Release x.uid).setCounter x.ctx k (g old)
        | none => s) x p d old.toNat))) ∧
    (e ≠ 0 → k < has → new.isSome = true → ¬ free → exec i s = .next (State.setGroup { s with fresh := s.fresh + 1 }
      (x.modPath p fun y => { y with fence := some h })))

/-- A path blocks at a barrier. -/
def blockedAt (y : Group) (p : Nat) (w : Wake) : Group := y.modPath p fun z => { z with st := .blocked, wake := w, skip := false }
/-- A path blocked at a bar goes on. -/
def leavesBar (y : Path) : Path :=
  match y.st, y.wake with
  | .blocked, .bar _ => { y.advance with st := .ready, wake := .none }
  | _, _ => y
def leavesBarc (y : Path) : Path :=
  match y.st, y.wake with
  | .blocked, .barc _ => { y.advance with st := .ready, wake := .none }
  | _, _ => y

/-- The fields that samples and trace packets share (R430). -/
structure Packet32 (bs : List Byte) (s : State) (x : Group) (p : Nat) : Prop where
  size : bs.length = 32
  path : number bs 1 1 % 8 = p % 8
  ctx : number bs 2 2 = x.ctx % 4096 + s.depth x.ctx % 8 * 4096
  who : number bs 4 4 = x.core % 1024 + x.part % 4 * 2 ^ 10 + x.gi % 32 * 2 ^ 12 + x.wg % 8 * 2 ^ 17
  pc : number bs 8 8 = (x.path p).pc.toNat % 2 ^ 57
  mask : number bs 16 4 = (x.mask p).toNat

end Sys2Proof.Claim

/-- R423, R424 and R425: bar, barc and arrive stop a group with several paths; otherwise they wait until the group's earlier
accesses have taken place, arrive, and wait for the phase, arrive not. A phase completes once every group of the workgroup
that has not retired has arrived, and every lput of the workgroup has taken effect (R119), or, of the cohort, has issued barc and the cohort's lputs have; it
wakes the paths that wait. The arrival of barc is a release at .co, whose lines are marked (R214). -/
def Sys2Proof.Part.BarriersCompletePhases : Prop :=
  (∀ (s : State) (x : Group) (p : Nat),
    let one := x.usedPaths.length ≤ 1
    let t := s.wphOf x
    let at_ := s.arriveAt x
    AtIssue s x p → (x.path p).wake = .none →
    (¬ one → ∀ i ∈ [Instr.bar, .barc, .arrive], stops i s x p (Cause.plain 0x23 (x.exec p))) ∧
    (one →
      ((x.wv = true ∧ x.wt = t) ∨ x.arrivable = false → exec .arrive s = .next s) ∧
      ((x.wv = false ∨ x.wt ≠ t) → x.arrivable = true → exec .arrive s = .next (committed s
        ((at_.modGroup x.uid fun y => past { y with wt := t, wv := true } p).checkBar x.coh x.wg))) ∧
      (Drained x p → x.wv = true → x.wt ≠ t → exec .bar s = .next (s.modGroup x.uid fun y =>
        { y with wv := false }.modPath p fun z => { z.advance with wake := .none })) ∧
      (Drained x p → x.wv = true → x.wt = t → exec .bar s = .next (committed s
        (((s.modGroup x.uid fun y => blockedAt { y with wv := false } p (.bar t)).checkBar x.coh x.wg).parkedShare
          x.core x.ctx))) ∧
      (Drained x p → x.wv = false → x.arrivable = false → exec .bar s = .next s) ∧
      (Drained x p → x.wv = false → x.arrivable = true → exec .bar s = .next (committed s
        (((at_.modGroup x.uid fun y => blockedAt { y with wt := t } p (.bar t)).checkBar x.coh x.wg).parkedShare
          x.core x.ctx))) ∧
      (Drained x p → x.arrivable = false → exec .barc s = .next s) ∧
      (Drained x p → x.arrivable = true → exec .barc s = .next (committed s
        ((((s.l1Release x.uid).modGroup x.uid fun y => blockedAt { y with barc := true } p (.barc (s.cphOf x))).checkBarc x.coh).parkedShare
          x.core x.ctx))))) ∧
  ∀ (s : State) (coh w : Nat) (k : Workgroup),
    let mine := fun (y : Group) => y.coh == coh && y.wg == w && !y.retired
    let ours := fun (y : Group) => y.coh == coh && !y.retired
    (s.groups.map (·.uid)).Nodup → s.wg? coh w = some k →
    (∀ y ∈ s.groups, ∀ q, (y.path q).stepping = false ∧ (y.path q).stepped = false) →
    ((∃ y ∈ s.groups, mine y = true) → (∀ y ∈ s.groups, mine y = true → y.gi ∈ k.arrived) →
      (∀ l ∈ s.lputs, ¬ (l.coh = coh ∧ l.wg = w)) →
      s.checkBar coh w = { s with
        wgs := s.wgs.map fun y => if y.coh == coh && y.idx == w then { y with wph := y.wph + 1, arrived := [] } else y
        groups := s.groups.map fun y => if mine y then { y with paths := y.paths.map leavesBar } else y }) ∧
    ((∃ y ∈ s.groups, mine y = true ∧ y.gi ∉ k.arrived) ∨ (∃ l ∈ s.lputs, l.coh = coh ∧ l.wg = w) → s.checkBar coh w = s) ∧
    ((∃ y ∈ s.groups, ours y = true) → (∀ y ∈ s.groups, ours y = true → y.barc = true) → (∀ l ∈ s.lputs, l.coh ≠ coh) →
      s.checkBarc coh = { s with
        cohorts := s.cohorts.map fun y => if y.uid == coh then { y with cph := y.cph + 1 } else y
        groups := s.groups.map fun y => if ours y then { y with barc := false, paths := y.paths.map leavesBarc } else y }) ∧
    ((∃ y ∈ s.groups, ours y = true ∧ y.barc = false) ∨ (∃ l ∈ s.lputs, l.coh = coh) → s.checkBarc coh = s)

/-- R426 to R428: evinc, evset and evrd act on one counter and return the value before; a change releases the parked records
whose target it reaches, those that find neither a bin nor room in the pool staying parked until they do (R304), and touches no other counter, and one beyond the context's count is discarded; clk and clk.ns read
the core's cycles and device time. -/
def Sys2Proof.Part.CountersAndClocks : Prop :=
  (∀ (s : State) (x : Group) (p d c v : Nat) (n : BitVec 24),
    OnCounter (.evinc d c v) s x p d c [(.s v, true)] (some fun old => old + x.sGet v) ∧
    OnCounter (.evincI d c n) s x p d c [] (some fun old => old + n.setWidth 64) ∧
    OnCounter (.evset d c v) s x p d c [(.s v, true)] (some fun _ => x.sGet v) ∧
    OnCounter (.evrd d c) s x p d c [] none) ∧
  (∀ (s : State) (ctx idx : Nat) (k : Context) (v : DWord), s.ctx? ctx = some k →
    let t := s.setCounter ctx idx v
    (k.counters ≤ idx → t = s) ∧
    (idx < k.counters → (∀ j, t.counter ctx j = if j = idx then v else s.counter ctx j) ∧
      ∀ r ∈ t.pool, r.ctx = ctx → ∀ w, r.parked = some (idx, w) → v.toNat < w.toNat ∨ r.due = true)) ∧
  ∀ (s : State) (x : Group) (p d : Nat), AtIssue s x p → Unheld x p [] (x.srcRegs (.s d) true) →
    (x.exec p = 0 → exec (.clk d) s = .next (s.setGroup (past x p)) ∧ exec (.clkNs d) s = .next (s.setGroup (past x p))) ∧
    (x.exec p ≠ 0 → exec (.clk d) s = .next (answered s x p d s.cycle.toNat) ∧
      exec (.clkNs d) s = .next (answered s x p d s.ns.toNat))

/-- R430, R431 and R433: while sampling is on, a partition whose interval has ended appends a record of its next group in
ascending start number to the sampling ring, and starts the next interval; a flush appends the packets held for a grid's
session to the trace buffer, in order, as long as each finds room.
The instant and reason of a sample are the model's (log 34), and the TYPE byte is free (log 22). -/
def Obligations.ObserversRecord : Prop :=
  (∀ (s : State) (core part ctx : Nat),
    let k := core * 4 + part
    let ctl := s.obsWord ctx 0x2000
    let start := smGet 0 s.samp k
    let due := start + 2 ^ (ctl.toNat / 2 ^ 58 % 32)
    s.wq = [] → s.hostWq = [] → s.coreCtx core = some ctx →
    (ctl.getLsbD 63 = false → exec (.sample core part) s = .next { s with samp := smSet 0 s.samp k 0 }) ∧
    (ctl.getLsbD 63 = true → start = 0 →
      exec (.sample core part) s = .next { s with samp := smSet 0 s.samp k (s.cycle.toNat + 1) }) ∧
    (ctl.getLsbD 63 = true → start ≠ 0 → s.cycle.toNat + 1 < due → exec (.sample core part) s = .next s) ∧
    (ctl.getLsbD 63 = true → start ≠ 0 → due ≤ s.cycle.toNat + 1 →
      ∀ x u n, (∀ y ∈ s.coreGroups core, y.part = part → y.ctx = ctx → smGet 0 s.sampRot k < y.startNo → y ≠ x →
          x.startNo < y.startNo) →
        x ∈ s.coreGroups core → x.part = part → x.ctx = ctx → smGet 0 s.sampRot k < x.startNo →
        ∃ bs, Packet32 bs s x x.samplePath ∧ number bs 24 8 = s.ns.toNat ∧
          number bs 1 1 / 8 = (if s.issued.map (·.g) = some x.uid then 1 else 0) ∧
          number bs 20 4 = (if s.issued.map (·.g) = some x.uid then 0 else stallReason s x x.samplePath) ∧
          (State.ringAppend { s with samp := smSet 0 s.samp k due, sampRot := smSet 0 s.sampRot k x.startNo, free := s.free + 1 }
              ctx (s.obsWord ctx 0x2008) 5 0 bs = (u, .ok n) →
            exec (.sample core part) s = .next (committed s u)))) ∧
  ∀ (s : State) (g : Nat) (l : Session) (us : List State),
    let mine := s.traceHeld.filter (·.grid == g)
    s.sessions = [l] → l.grid = g → l.lost = false → us.length = mine.length + 1 →
    us.head? = some { s with traceHeld := s.traceHeld.filter (·.grid != g) } →
    (∀ i r u v, mine[i]? = some r → us[i]? = some u → us[i + 1]? = some v →
      ∃ n, u.ringAppend r.ctx (u.traceRing r.ctx) 5 1 r.bytes = (v, .ok n)) →
    ∀ t, us.getLast? = some t → exec (.traceFlush g) s = .next (committed s t)

namespace Sys2Proof.Claim

open Sys2Proof.Machine

/-! ### Privileged forms -/

/-- The sources and the destinations of a privileged form (R63); none for any other instruction. -/
def controlForm : Instr → Option (List (Src × Bool) × List Nat)
  | .dcreate d r | .keykill d r | .hqdoneResume d r | .hqdoneKill d r => some ([(.s r, true)], [d])
  | .dgrant d c v _ | .dtake d c v _ => some ([(.s c, true), (.s v, true)], [d])
  | .dfreeze d c | .dthaw d c | .drevoke d c | .dsnapClose d c => some ([(.s c, true)], [d])
  | .dckptSave d c a l => some ([(.s c, true), (.s a, true), (.s l, true)], [d])
  | .dckptLoad d a l => some ([(.s a, true), (.s l, true)], [d])
  | .dsnapOpen d c a => some ([(.s c, true), (.s a, true)], [d])
  | .xinv a l => some ([(.s a, true), (.s l, true)], [])
  | .xinvAll => some ([], [])
  | .keygen d | .hqpop d => some ([], [d])
  | .hqdoneRedirect d r m => some ([(.s r, true), (.s m, true)], [d])
  | .sysr d a => some ([(.s a, true)], [d, d + 1])
  | .sysw d a v | .hctl d a v | .qreset d a v | .debugWordWrite d a v | .rplctl d a v => some ([(.s a, true), (.s v, true)], [d])
  | .resume d a b c _ | .step d a b c _ | .halt d a b c _ | .rdreg d a b c _ | .wrreg d a b c _ | .dump d a b c _ =>
    some ([(.s a, true), (.s b, true), (.s c, true)], [d])
  | _ => none

/-- A privileged form runs: its group is a control group, a lane executes, and nothing holds it. -/
structure Controls (i : Instr) (s : State) (x : Group) (p : Nat) : Prop where
  issue : AtIssue s x p
  control : x.control = true
  lanes : x.exec p ≠ 0
  free : ∀ f, controlForm i = some f → Unheld x p f.1 (f.2.flatMap fun d => x.srcRegs (.s d) true)

/-- The form ends with a value in s(D) and the latch. -/
def ends (i : Instr) (s t : State) (x : Group) (p d r : Nat) : Prop := exec i s = .next (committed s (answered t x p d r))

/-- The same, where a path that a STEP released may have gone on meanwhile (R448). -/
def finishes (i : Instr) (s t : State) (x : Group) (p d r : Nat) : Prop :=
  exec i s = .next (committed s (t.finish x.uid p d (BitVec.ofNat 64 r)))

/-- The child that bits [11:0] of a register name. -/
def named (x : Group) (c : Nat) : Nat := (x.sGet c).toNat % 2 ^ 12

/-! ### Contexts -/

/-- A context descriptor (R380). -/
def descriptor (bs : List Byte) : Desc :=
  { troot := BitVec.ofNat 64 (number bs 0 8), spill := BitVec.ofNat 64 (number bs 8 8), spilln := number bs 16 4
    bint := number bs 20 4, pool := BitVec.ofNat 64 (number bs 24 8), pooln := number bs 32 4
    chip := BitVec.ofNat 16 (number bs 36 2), hq := BitVec.ofNat 64 (number bs 40 8), mbox := BitVec.ofNat 64 (number bs 48 8)
    ctlq := BitVec.ofNat 64 (number bs 56 8) }
structure DescriptorFits (bs : List Byte) : Prop where
  aligned : number bs 0 8 % 512 = 0 ∧ number bs 8 8 % 12288 = 0 ∧ number bs 24 8 % 64 = 0 ∧ number bs 40 8 % 32 = 0
  ranges : number bs 16 4 ≤ 65535 ∧ 250 ≤ number bs 20 4 ∧ number bs 20 4 ≤ 1048576
  reserved : number bs 38 2 = 0 ∧ number bs 64 64 = 0

/-- A context as it starts (R381). -/
structure StartsEmpty (k : Context) (par : Context) (n : Nat) (bs : List Byte) : Prop where
  place : k.id = n ∧ k.parent = some par.id ∧ k.desc = descriptor bs ∧ k.bint = number bs 20 4
  grants : k.share = 0 ∧ k.ranges = [] ∧ k.queues = 0 ∧ k.store = 0 ∧ k.hqcap = 0 ∧ k.counters = 0 ∧ k.lines = 0 ∧
    k.link = 0 ∧ k.keys = []
  words : k.parkth = 32 ∧ k.slice = 10 ∧ k.ebudget = par.ebudget ∧ k.frozen = false ∧ k.snap = none ∧ k.adCount = 0

/-! ### Translations in use (R379, R193) -/

/-- No store-buffer entry, copy or instruction fetch still to be performed uses a translation through base pages lo to hi - 1
of a context. -/
structure Unused (s : State) (e lo hi : Nat) : Prop where
  entries : ∀ x ∈ s.groups, ∀ en ∈ x.sbuf, tracePass e lo hi en.via = false
  copies : ∀ c ∈ s.copies, c.uses e lo hi = false
  fetches : ∀ l ∈ s.icache, l.bytes = [] → tracePass e lo hi l.via = false
/-- Part of a trace lies in base pages lo to hi - 1 of a context (R377, R379). -/
def through (e lo hi : Nat) (f : Flat) : Prop := ∃ b ∈ f.trace, b.ctx = e ∧ b.page < hi ∧ lo < b.page + b.n
/-- A range has left the flattening caches, and no line that a translation through it locked stays locked; memory and the rest
of the machine's groups stand. -/
structure Invalidated (s t : State) (e lo hi : Nat) : Prop where
  flat : ∀ f, f ∈ t.flat ↔ f ∈ s.flat ∧ ¬ through e lo hi f
  locks : ∀ m ∈ t.cache, m.locked = true → tracePass e lo hi m.via = false
  mem : t.mem = s.mem ∧ t.wq = s.wq ∧ t.groups = s.groups
/-- A line that a cache holds under a key. -/
def lost (s : State) (k line : Nat) : Prop := (∃ m ∈ s.cache, m.key = k ∧ m.line = line) ∨ ∃ m ∈ s.l1, m.key = k ∧ m.line = line
/-- Copies of what was filled under a key are gone: cached lines, whose writers are no longer known (R434), instruction lines,
adapter segments, translations and landed window slots; store-buffer entries under it are dropped (R316), and a copy whose source
has been read ends with KEY_ABSENT though only its source lay under it (R197); the sets that hold the key hold it as erased. A sector dirty in a line under it reads again as main memory holds it; every other byte reads as
before (R197, R384). -/
structure Erased (s t : State) (k : Nat) : Prop where
  inst : t.keyInst = smSet 0 s.keyInst k 0
  cached : (∀ m ∈ t.cache, m.key ≠ k) ∧ (∀ m ∈ t.l1, m.key ≠ k) ∧ (∀ m ∈ t.icache, m.key ≠ k) ∧ ∀ g ∈ t.segs, k ∉ g.keys
  flat : ∀ f, f ∈ t.flat ↔ f ∈ s.flat ∧ k ∉ f.keys ∧ ∀ l ∈ f.leaves, l.key ≠ k
  writers : ∀ m ∈ s.cache, m.key = k → m.line ∈ t.leftLines
  entries : ∀ x ∈ t.groups, ∀ e ∈ x.sbuf, e.isClean = false → ∀ a ∈ e.accs, ∀ pa h i, a.place ≠ some (.phys pa h k i)
  copies : ∀ c ∈ s.copies, c.moved = false → c.failed = none → c.shape.moves.length ≤ c.buf.length →
    (∃ m ∈ c.shape.moves, ∃ pa h i, c.placeOf m.1 = some (.phys pa h k i) ∨ m.2.bind c.srcPlace = some (.phys pa h k i)) →
    ∃ d ∈ t.copies, d.id = c.id ∧ ((∃ f, d.failed = some f ∧ f.status = 1 ∧ f.fcode = 5) ∨ ∃ a, d.cut = some (5, a))
  slots : ∀ x ∈ t.groups, ∀ u ∈ x.subs, ∀ bs ks, Slot.landed bs ks ∈ u.slots → k ∉ ks
  bytes : (∀ z ∈ s.stale, z.bytes.length = 48) → ∀ z ∈ s.stale, lost s k (z.sector / 4) →
    (∀ y ∈ s.stale, y.sector = z.sector → y = z) → ∀ i, i < 48 → t.byte (48 * z.sector + i) = z.bytes.getD i 0
  others : (∀ z ∈ s.stale, z.bytes.length = 48) → ∀ a, (∀ z ∈ s.stale, z.sector = a / 48 → ¬ lost s k (a / 192)) →
    t.byte a = s.byte a
  sets : t.contexts = s.contexts.map fun c => { c with keys := c.keys.map fun e => if e.1 = k then (k, true) else e }

/-! ### Holdings (R382) -/

/-- The counted kinds, with the bits of s(V) that they read and their greatest value. -/
def counted : List (Nat × Nat × Nat) :=
  [(0, 32, 2 ^ 32 - 1), (2, 7, 64), (3, 13, 4096), (4, 16, 65535), (5, 17, 65536), (6, 32, 2 ^ 32 - 1), (7, 32, 2 ^ 32 - 1)]
def heldOf (k : Context) (kind : Nat) : Nat :=
  match kind with
  | 0 => k.share
  | 2 => k.queues
  | 3 => k.store
  | 4 => k.hqcap
  | 5 => k.counters
  | 6 => k.lines
  | _ => k.link
/-- A count changed; counters given up or not yet held read 0. -/
def holding (k : Context) (kind n : Nat) : Context :=
  match kind with
  | 0 => { k with share := n }
  | 2 => { k with queues := n }
  | 3 => { k with store := n }
  | 4 => { k with hqcap := n }
  | 5 => { k with counters := n, ev := k.ev.filter (·.1 < n) }
  | 6 => { k with lines := n }
  | _ => { k with link := n }
/-- A queue numbered n or above holds a launch, or a counter so numbered a parked record. -/
def inUse (s : State) (ctx kind n : Nat) : Prop :=
  (kind = 2 ∧ ∃ l ∈ s.launches, l.ctx = ctx ∧ n ≤ l.queue) ∨
    (kind = 5 ∧ ∃ r ∈ s.pool, r.ctx = ctx ∧ ∃ i v, r.parked = some (i, v) ∧ n ≤ i)
/-- Launches in a context's store. -/
def stored (s : State) (ctx : Nat) : Nat := (s.launches.filter (·.ctx == ctx)).length

end Sys2Proof.Claim

/-- R63 and R37: a privileged form of a group that is no control group stops precisely with PRIVILEGE, and changes nothing
else; of a control group in which no lane executes, it changes only the position. -/
def Obligations.PrivilegedForms : Prop :=
  ∀ (s : State) (x : Group) (p : Nat) (i : Instr) (f : List (Src × Bool) × List Nat),
    controlForm i = some f → AtIssue s x p →
    (x.control = false → stops i s x p (Cause.plain 0x03 (x.exec p))) ∧
    (x.control = true → x.exec p = 0 → Unheld x p f.1 (f.2.flatMap fun d => x.srcRegs (.s d) true) →
      exec i s = .next (s.setGroup (past x p)))

/-- R379 to R381, R383 to R385 and R197: dcreate makes the child with the lowest free number, or gives the first status that
applies; keygen takes the lowest key id that no context holds; keykill erases a key of the issuer's subtree; xinv removes the
flattened entries that pass through its pages, and waits for the accesses that use them.
That xinv removes its entries at once is the model's reading (log 54). -/
def Obligations.ContextsAndKeys : Prop :=
  ∀ (s : State) (x : Group) (p d r a l : Nat),
    (Controls (.dcreate d r) s x p →
      let i : Instr := .dcreate d r
      let a := x.sGet r
      (a.toNat % 64 ≠ 0 → stops i s x p (uniCause 0x11 (x.exec p) 1 a)) ∧
      (a.toNat % 64 = 0 → ∀ t bs q, s.uniGet x p a.toNat 128 = (t, .bytes bs) → bs.length = 128 → t.ctx? x.ctx = some q →
        let deep := 4 ≤ q.depth
        let many := 255 ≤ (t.contexts.filter fun k => k.parent == some x.ctx).length
        let end_ := fun st => ends i s t x p d (st * 2 ^ 56)
        (deep → end_ 1) ∧ (¬ deep → many → end_ 2) ∧
        (¬ deep → ¬ many → (∀ n, n < 4096 → ∃ k ∈ t.contexts, k.id = n) → end_ 3) ∧
        ∀ n, ¬ deep → ¬ many → n < 4096 → (∀ k ∈ t.contexts, k.id ≠ n) → (∀ m, m < n → ∃ k ∈ t.contexts, k.id = m) →
          (¬ DescriptorFits bs → end_ 4) ∧
          (DescriptorFits bs → t.chipReached (BitVec.ofNat 16 (number bs 36 2)) = false → end_ 5) ∧
          (DescriptorFits bs → t.chipReached (BitVec.ofNat 16 (number bs 36 2)) = true →
            ∃ k, StartsEmpty k q n bs ∧ k.depth = q.depth + 1 ∧
              ends i s { t with contexts := t.contexts ++ [k] } x p d n))) ∧
    (Controls (.keygen d) s x p →
      ((∀ k, 1 ≤ k → k < 256 → ∃ c ∈ s.contexts, ∃ b, (k, b) ∈ c.keys) → ends (.keygen d) s s x p d 0) ∧
      ∀ k, 1 ≤ k → k < 256 → (∀ c ∈ s.contexts, ∀ b, (k, b) ∉ c.keys) →
        (∀ j, 1 ≤ j → j < k → ∃ c ∈ s.contexts, ∃ b, (j, b) ∈ c.keys) →
        ends (.keygen d) s (State.modCtx { s with
          keyInst := smSet 0 s.keyInst k s.nextInst, keyMaker := smSet 0 s.keyMaker k x.ctx, nextInst := s.nextInst + 1 }
          x.ctx fun c => { c with keys := c.keys ++ [(k, false)] }) x p d k) ∧
    (Controls (.keykill d r) s x p →
      let k := (x.sGet r).toNat % 256
      let mine := s.keyMade k = true ∧ s.isUnder x.ctx (smGet 0 s.keyMaker k) = true
      (k = 0 → ends (.keykill d r) s s x p d 2) ∧
      (k ≠ 0 → ¬ mine → ends (.keykill d r) s s x p d 1) ∧
      (k ≠ 0 → mine → s.keyInFlight k = true → exec (.keykill d r) s = .next s) ∧
      (k ≠ 0 → mine → s.keyInFlight k = false → ∃ t, ends (.keykill d r) s t x p d 0 ∧ Erased s t k)) ∧
    let range : Nat × Nat := rangePages (x.sGet a).toNat (x.sGet l).toNat
    (∀ q, (range.1 ≤ q ∧ q < range.2) ↔
      ∃ b, b < 2 ^ 57 ∧ (x.sGet a).toNat ≤ b ∧ b < (x.sGet a).toNat + (x.sGet l).toNat ∧ b / 12288 = q) ∧
    ∀ i lo hi, i = .xinv a l ∧ lo = range.1 ∧ hi = range.2 ∨ i = .xinvAll ∧ lo = 0 ∧ hi = (2 ^ 57 - 1) / 12288 + 1 →
      Controls i s x p → s.cmd? x p = none →
      (Unused s x.ctx lo hi → ∃ t, exec i s = .next (committed s (t.modGroup x.uid fun y => past y p)) ∧ Invalidated s t x.ctx lo hi) ∧
      (¬ Unused s x.ctx lo hi → ∃ t, exec i s = .next t ∧ t.groups = s.groups ∧ t.cmd? x p ≠ none ∧
        ∀ f, f ∈ t.flat ↔ f ∈ s.flat ∧ ¬ through x.ctx lo hi f)

/-- R382 and R20: dgrant and dtake of a counted kind move the difference between parent and child, or give the first status
that applies; of MEMORY they add or remove a range; SCHED, BINT and KEYS are set as their words say; and a context that is no
child of the issuer gives CHILD.
The statuses of KEYS (log 56), and that a grant of energy moves no charge (log 108), are the model's readings. -/
def Obligations.HoldingsMove : Prop :=
  ∀ (s : State) (x : Group) (p d c v kind : Nat) (take : Bool) (par : Context),
    let i : Instr := if take then .dtake d c v kind else .dgrant d c v kind
    let who := named x c
    let w := (x.sGet v).toNat
    let end_ := fun st => ends i s s x p d st
    Controls i s x p → s.ctx? x.ctx = some par →
    ((∀ k, s.ctx? who = some k → k.parent ≠ some x.ctx) → end_ 1) ∧
    ∀ k, s.ctx? who = some k → k.parent = some x.ctx →
      (∀ bits top, (kind, bits, top) ∈ counted →
        let n := w % 2 ^ bits
        let old := heldOf k kind
        let value := top < n ∨ (if take then old < n else n < old)
        let own := if kind = 3 then par.store - stored s par.id else heldOf par kind
        let moves := kind = 2 ∨ kind = 3 ∨ kind = 5 ∨ kind = 6
        let others := ((s.contexts.filter fun q => q.parent == some par.id && q.id != k.id).map fun q => heldOf q kind).sum
        let exceeds := ((kind = 0 ∨ kind = 7) ∧ 2 ^ 32 < others + n) ∨ (moves ∧ own < n - old)
        let busy := if take then inUse s k.id kind n ∨ (kind = 3 ∧ n < stored s k.id)
          else n ≠ old ∧ inUse s par.id kind (heldOf par kind - (n - old))
        (value → end_ 3) ∧ (¬ value → take = false → exceeds → end_ 2) ∧
        (¬ value → (take = false → ¬ exceeds) → busy → end_ 4) ∧
        (¬ value → (take = false → ¬ exceeds) → ¬ busy → moves →
          ends i s ((s.modCtx who fun q => holding q kind n).modCtx x.ctx fun q => holding q kind (heldOf q kind + old - n)) x p d 0) ∧
        (¬ value → (take = false → ¬ exceeds) → ¬ busy → ¬ moves → ends i s (s.modCtx who fun q => holding q kind n) x p d 0)) ∧
      (kind = 1 → s.cmd? x p = none → w % 8 ≠ 0 → stops i s x p (uniCause 0x11 (x.exec p) 1 (x.sGet v))) ∧
      (kind = 1 → s.cmd? x p = none → w % 8 = 0 → ∀ t bs, s.uniGet x p w 16 = (t, .bytes bs) → bs.length = 16 →
        let a := number bs 0 8
        let n := number bs 8 8
        let fits := a % 12288 = 0 ∧ n % 12288 = 0 ∧ 12288 ≤ n ∧ a + n ≤ 2 ^ 57
        (¬ fits → ends i s t x p d 3) ∧
        (fits → take = false → 64 ≤ k.ranges.length → ends i s t x p d 5) ∧
        (fits → take = false → k.ranges.length < 64 →
          ends i s (t.modCtx who fun q => { q with ranges := q.ranges ++ [(a, n)] }) x p d 0) ∧
        (fits → take = true → (a, n) ∉ k.ranges → ends i s t x p d 3) ∧
        (fits → take = true → (a, n) ∈ k.ranges →
          let u := t.modCtx who fun q => { q with ranges := q.ranges.erase (a, n) }
          Unused u par.id (a / 12288) ((a + n) / 12288) →
          ∃ z, ends i s z x p d 0 ∧ z.contexts.map (·.ranges) = u.contexts.map (·.ranges) ∧
            Invalidated u z par.id (a / 12288) ((a + n) / 12288))) ∧
      (take = true → kind = 8 ∨ kind = 9 → end_ 3) ∧
      (take = false → kind = 8 →
        let bad := w / 2 ^ 32 % 2 ^ 16 ≠ 0 ∨ w / 2 ^ 48 % 2 ^ 10 = 0 ∨ 1000 < w / 2 ^ 48 % 2 ^ 10 ∨ par.ebudget < w % 2 ^ 32
        (bad → end_ 3) ∧ (¬ bad → ends i s ((s.modCtx who fun _ =>
          { k with parkth := w / 2 ^ 58, slice := w / 2 ^ 48 % 2 ^ 10, ebudget := w % 2 ^ 32 }).parkedAll who) x p d 0)) ∧
      (take = false → kind = 9 →
        let n := w % 2 ^ 21
        let bad := n < 250 ∨ 1048576 < n
        (bad → end_ 3) ∧
        (¬ bad → ends i s (s.modCtx who fun _ => { k with bint := n, desc := { k.desc with bint := n } }) x p d 0)) ∧
      (kind = 10 →
        let here := w / 2 ^ 8 % 2 ^ 16 = 0xFFFF ∨ w / 2 ^ 8 % 2 ^ 16 = Config.thisChip.toNat
        let key := w % 256
        (take = false → (¬ here ∨ ∀ b, (key, b) ∉ par.keys) → end_ 2) ∧
        (take = false → here → ∀ b, par.keys.find? (·.1 == key) = some (key, b) → (∀ b, (key, b) ∉ k.keys) →
          ends i s (s.modCtx who fun _ => { k with keys := k.keys ++ [(key, b)] }) x p d 0) ∧
        (take = true → (¬ here ∨ ∀ b, (key, b) ∉ k.keys) → end_ 3) ∧
        (take = true → here → (∃ b, (key, b) ∈ k.keys) →
          ends i s { s.modCtx who (fun q => { q with keys := q.keys.filter (·.1 != key) }) with
            flat := s.flat.filter fun f => !(s.isUnder who f.ctx && f.keys.contains key) } x p d 0))

/-- R395 to R397: hqpop gives the address of the oldest record not yet taken, or 0; hqdone gives 1 for what is no such record,
else, where HEAD can be written (a cause of that write stops it, and changes nothing else), closes it, advances HEAD over the records done at its front, and kills, redirects or resumes the path that still stands
in the stop of its token, or gives 2 when none does. -/
def Obligations.HandlersTakeRecords : Prop :=
  (∀ (s : State) (x : Group) (p d : Nat) (c : Context), Controls (.hqpop d) s x p → s.ctx? x.ctx = some c →
    let i : Instr := .hqpop d
    let r := s.hqRing x.ctx c.desc.hq
    (c.desc.hq = 0 → ends i s s x p d 0) ∧
    (∀ t, r = (t, .unusable) → ends i s t x p d 0) ∧
    (∀ t f, r = (t, .stop f) → f.code ≠ 0xFF → f.code ≠ 7 → exec i s = .next (committed s (t.stopHere x.uid p
      { uniCause (0x10 + f.code) (x.exec p) f.code c.desc.hq with aux := BitVec.ofNat 64 f.addr, sdep := f.sdep, cow := f.cow }))) ∧
    ∀ t q u ok k, r = (t, .ring q) → t.ringUsable x.ctx c.desc.hq 6 = (u, ok) → u.ctx? x.ctx = some k →
      (ok = false ∨ k.take = q.tail → ends i s u x p d 0) ∧
      (ok = true → k.take ≠ q.tail → ends i s (u.modCtx x.ctx fun k' => { k' with take := k.take + 1 }) x p d
        ((q.base + 64 * (k.take.toNat % 2 ^ q.log2n)) % 2 ^ 64))) ∧
  ∀ (s : State) (x : Group) (p d r m act : Nat) (c : Context),
    let i : Instr := if act = 0 then .hqdoneResume d r else if act = 1 then .hqdoneKill d r else .hqdoneRedirect d r m
    Controls i s x p → s.ctx? x.ctx = some c →
    let stopAt := fun (t : State) (a : DWord) (f : TErr) => f.code ≠ 0xFF → f.code ≠ 7 →
      exec i s = .next (committed s (t.stopHere x.uid p { uniCause (0x10 + f.code) (x.exec p) f.code a with
        aux := BitVec.ofNat 64 f.addr, sdep := f.sdep, cow := f.cow }))
    (c.desc.hq = 0 → ends i s s x p d 1) ∧
    (∀ t, s.hqRing x.ctx c.desc.hq = (t, .unusable) → ends i s t x p d 1) ∧
    (∀ t f, s.hqRing x.ctx c.desc.hq = (t, .stop f) → stopAt t c.desc.hq f) ∧
    ∀ t q, s.hqRing x.ctx c.desc.hq = (t, .ring q) →
      (t.popped? x.ctx q (x.sGet r) = none → ends i s t x p d 1) ∧
      ∀ k, t.popped? x.ctx q (x.sGet r) = some k →
        (∀ u f, t.canWrite none x.ctx (pieces (c.desc.hq + 8).toNat 4) = (u, .error f) → stopAt u (c.desc.hq + 8) f) ∧
        ∀ u v ok, t.canWrite none x.ctx (pieces (c.desc.hq + 8).toNat 4) = (u, .ok ()) → u.ringUsable x.ctx c.desc.hq 6 = (v, ok) →
        (ok = false → ends i s v x p d 1) ∧
        (ok = true →
        let v := v.closeRecord x.ctx c.desc.hq q k
        (k.token = 0 → finishes i s v.deliverAll x p d 0) ∧
        (k.token ≠ 0 → v.stopped k.token = none → finishes i s v.deliverAll x p d 2) ∧
        (k.token ≠ 0 → ∀ y b e, v.stopped k.token = some (y, b) → (y.path b).stop = some e →
          (act = 1 → finishes i s (v.killGroup y.uid).deliverAll x p d 0) ∧
          (act ≠ 0 → act ≠ 1 → finishes i s (((v.emit y.uid b 3 (y.path b).pc (y.mask b) 0 (x.sGet m).toNat).modGroup y.uid
            fun z => z.modPath b fun w => w.redirected (x.sGet m)).deliverAll) x p d 0) ∧
          (act = 0 → e.cause = 0x24 →
            finishes i s (((v.modGroup y.uid fun z => z.modPath b fun w => { w with stop := none }).regangCheck y.uid).deliverAll) x p d 0) ∧
          (act = 0 → e.cause ≠ 0x24 → e.cause ≠ 0x17 ∨ e.load = 0 →
            finishes i s ((v.modGroup y.uid fun z => z.modPath b Path.resumed).deliverAll) x p d 0)))

namespace Sys2Proof.Claim

open Sys2Proof.Machine

/-! ### System words -/

/-- The form that writes the word at an address (R398). -/
def wordForm (d a v at_ : Nat) : Instr :=
  if at_ = 0x10 then .hctl d a v
  else if at_ = 0x20 then .qreset d a v
  else if at_ = 0x2028 then .rplctl d a v
  else if 0x1000 ≤ at_ ∧ at_ ≤ 0x1FFF then .debugWordWrite d a v
  else .sysw d a v

/-- The words of a context that hold what is written: the debug words and the observation words but RPLCTL (R429, R438). -/
def debugWord (a : Nat) : Prop := a = 0x1000 ∨ (0x1040 ≤ a ∧ a < 0x10C0 ∧ a % 8 = 0)
def observeWord (a : Nat) : Prop := a ∈ [0x2000, 0x2008, 0x2010, 0x2018, 0x2020, 0x2030]
/-- A value that a debug word admits (R438). -/
def debugFits (a v : Nat) : Prop :=
  (a = 0x1000 → v % 2 ^ 62 = 0) ∧
  (0x1040 ≤ a ∧ a < 0x1080 → v / 2 ^ 57 % 2 ^ 6 = 0 ∧ v % 8 = 0) ∧
  (0x1080 ≤ a ∧ a % 16 = 0 → v < 2 ^ 57) ∧
  (0x1080 ≤ a ∧ a % 16 = 8 → v / 2 ^ 40 % 2 ^ 21 = 0 ∧ (v.testBit 63 = true → v % 2 ^ 40 ≠ 0))
/-- A value that an observation word admits beside what the context holds (R429). -/
def observeFits (k : Context) (a v : Nat) : Prop :=
  let on := fun ctl => (smGet 0 k.obs ctl).getLsbD 63 = true
  let old := (smGet 0 k.obs a).toNat
  let ring := fun ctl => v < 2 ^ 57 ∧ v % 32 = 0 ∧ (on ctl → v = old)
  (a = 0x2000 → v % 2 ^ 58 = 0 ∧ 8 ≤ v / 2 ^ 58 % 32 ∧ v / 2 ^ 58 % 32 ≤ 20 ∧ (on a → v / 2 ^ 58 % 32 = old / 2 ^ 58 % 32)) ∧
  (a = 0x2008 → ring 0x2000) ∧ (a = 0x2010 → v % 2 ^ 62 = 0) ∧ (a = 0x2020 → ring 0x2010) ∧ (a = 0x2030 → ring 0x2028)

/-! ### Commands on a subtree -/

/-- No command on an overlapping subtree has yet to complete, and the path holds none (R410). -/
def Clear (s : State) (x : Group) (p t : Nat) : Prop :=
  s.cmd? x p = none ∧ ∀ k ∈ s.cmds, k.kind.orders = true → s.cmdLive k = true →
    s.isUnder t k.target = false ∧ s.isUnder k.target t = false
/-- No earlier command holds a dthaw of t: those on subtrees that meet its own are a dfreeze of t under way, which it overtakes. -/
def ClearForThaw (s : State) (x : Group) (p t : Nat) : Prop :=
  s.cmd? x p = none ∧ ∀ k ∈ s.cmds, k.kind.orders = true → s.cmdLive k = true →
    ¬ (k.kind = .revoke ∧ k.target = t) ∧ ((k.kind = .freeze ∧ k.target = t ∧ k.stage ≠ 0) ∨
      (s.isUnder t k.target = false ∧ s.isUnder k.target t = false))
/-- No earlier command, but another load, holds a load into context c. -/
def ClearForLoad (s : State) (x : Group) (p c : Nat) : Prop :=
  s.cmd? x p = none ∧ ∀ k ∈ s.cmds, k.kind.orders = true → s.cmdLive k = true → k.kind ≠ .load → s.isUnder k.target c = false
/-- The command once it has begun. -/
def begun (kind : CmdKind) (s : State) (x : Group) (p t : Nat) : State := s.cmdStart kind x p t [] 0 0
/-- A command ends: its path goes on with the status, and it leaves the order. -/
def commandEnds (i : Instr) (s v : State) (x : Group) (p d r : Nat) : Prop :=
  ∃ z, (∀ k ∈ z, ¬ (k.g = x.uid ∧ k.p = p)) ∧ finishes i s { v with cmds := z } x p d r
/-- A command waits at its word. -/
def commandWaits (i : Instr) (s v : State) : Prop := ∃ z, exec i s = .next (committed s { v with cmds := z })
/-- Steps 2 and 3 of drevoke (R416): every group of the subtree has ended and its copies have failed, its sessions and snapshots are
closed, and its launches, walks and records are gone. -/
structure WorkGone (s w : State) (t : Nat) : Prop where
  groups : ∀ g ∈ w.groups, s.isUnder t g.ctx = true → g.retired = true
  copies : ∀ c ∈ w.copies, s.isUnder t c.ctx = true → c.failed.isSome = true
  sessions : ∀ z ∈ w.sessions, s.isUnder t z.ctx = false
  snaps : ∀ c ∈ w.contexts, s.isUnder t c.id = true → c.snap = none
  launches : (∀ l ∈ w.launches, s.isUnder t l.ctx = false) ∧ ∀ g ∈ w.grids, s.isUnder t g.ctx = false
  records : (∀ b ∈ w.bins, s.isUnder t b.ctx = false) ∧ ∀ r ∈ w.pool, s.isUnder t r.ctx = false
/-- Steps 4 to 6 (R416): the contexts of the subtree have left with their translations, segments and launches, and t's parent has their
holdings. -/
structure Removed (s w : State) (t : Nat) : Prop where
  contexts : ∀ k ∈ w.contexts, k.id ≠ t
  caches : (∀ f ∈ w.flat, f.ctx ≠ t) ∧ ∀ g ∈ w.segs, g.ctx ≠ t
  launches : ∀ l ∈ w.launches, ∀ c ∈ s.subtree t, l.ctx ≠ c.id
  holdings : ∀ k q, s.parent t = some k → s.isUnder t k = false → s.ctx? k = some q → ∃ q', w.ctx? k = some q' ∧
    q'.queues = q.queues + ((s.subtree t).map (·.queues)).sum ∧ q'.store = q.store + ((s.subtree t).map (·.store)).sum ∧
    q'.counters = q.counters + ((s.subtree t).map (·.counters)).sum ∧ q'.lines = q.lines + ((s.subtree t).map (·.lines)).sum
def resident (s : State) (t : Nat) : Prop := ∃ g ∈ s.groups, g.resident = true ∧ g.retired = false ∧ s.isUnder t g.ctx = true

/-! ### The checkpoint image (R414, R415) -/

/-- A layout of bytes: its length, and fields at offsets with sizes and values, each cut to its size. -/
def Holds (b : List Byte) (n : Nat) (fs : List (Nat × Nat × Nat)) : Prop :=
  b.length = n ∧ ∀ f ∈ fs, number b f.1 f.2.1 = f.2.2 % 2 ^ (8 * f.2.1)
/-- The bytes of an image's sections of a type for the context of an index, as its directory finds them. -/
def section_ (img : List Byte) (ty i : Nat) : List Byte :=
  ((List.range (number img 16 4)).filter fun k => number img (128 + 16 * k) 4 == ty && number img (132 + 16 * k) 4 == i).flatMap
    fun k => (img.drop (number img (136 + 16 * k) 4)).take (number img (140 + 16 * k) 4)
/-- Entry j of a section of entries of n bytes. -/
def nth (b : List Byte) (n j : Nat) : List Byte := (b.drop (n * j)).take n
/-- A CONTEXT section. -/
structure ContextBytes (b : List Byte) (k : Context) (parent rdepth heldRecs : Nat) : Prop where
  tree : Holds b 1280 [(0, 4, parent), (4, 1, rdepth), (5, 1, k.frozen.toNat + 2 * k.snap.isSome.toNat), (6, 2, 0)]
  descriptor : Holds b 1280 [(8, 8, k.desc.troot.toNat), (16, 8, k.desc.spill.toNat), (24, 4, k.desc.spilln), (28, 4, k.desc.bint),
    (32, 8, k.desc.pool.toNat), (40, 4, k.desc.pooln), (44, 2, k.desc.chip.toNat), (46, 2, 0), (48, 8, k.desc.hq.toNat),
    (56, 8, k.desc.mbox.toNat), (64, 8, k.desc.ctlq.toNat), (72, 64, 0)]
  words : Holds b 1280 [(136, 8, k.parkth * 2 ^ 58 + k.slice * 2 ^ 48 + k.ebudget),
    (144, 8, min heldRecs 65535 * 2 ^ 16 + k.hctlEn.toNat), (152, 8, k.t2 * 2 ^ 32 + k.t1)]
  holdings : Holds b 1280 [(160, 4, k.share), (164, 4, k.lines), (168, 4, k.link), (172, 2, k.store), (174, 1, k.queues), (175, 1, 0),
    (176, 4, k.hqcap), (180, 4, k.counters), (184, 4, k.bint), (188, 4, k.adCount), (192, 8, k.adBase.toNat), (200, 8, 0), (1232, 48, 0)]
  grants : ∀ j, j < 64 → number b (208 + 16 * j) 8 = ((k.ranges[j]?).map (·.1)).getD 0 % 2 ^ 64 ∧
    number b (216 + 16 * j) 8 = ((k.ranges[j]?).map (·.2)).getD 0 % 2 ^ 64
/-- The words of an OBSERVE section: the debug words and the observation words but RPLCTL, with their offsets. -/
def debugAt : List (Nat × Nat) :=
  (0x1000, 8) :: (List.range 8).map (fun n => (0x1040 + 8 * n, 16 + 8 * n)) ++ (List.range 8).map fun n => (0x1080 + 8 * n, 80 + 8 * n)
def observeAt : List (Nat × Nat) := [(0x2000, 144), (0x2008, 152), (0x2010, 160), (0x2018, 168), (0x2020, 176), (0x2030, 192)]
/-- An OBSERVE section. -/
structure ObserveBytes (b : List Byte) (k : Context) : Prop where
  serials : Holds b 256 [(0, 4, k.lserial.toNat), (4, 4, k.sserial.toNat), (200, 56, 0)]
  debug : ∀ w ∈ debugAt, number b w.2 8 = (smGet 0 k.dbg w.1).toNat
  observe : ∀ w ∈ observeAt, number b w.2 8 = (smGet 0 k.obs w.1).toNat
  replay : number b 184 8 =
    ((if (smGet 0 k.obs 0x2028).getLsbD 63 then 2 ^ 63 else 0) + (if k.rplFull then 2 ^ 62 else 0) + k.rplNext) % 2 ^ 64
/-- A LAUNCHES entry; its state byte is free (log 22). -/
structure LaunchBytes (b : List Byte) (l : Launch) : Prop where
  packet : ∀ i, i < 128 → b.getD i 0 = l.raw.getD i 0
  fields : Holds b 192 [(128, 1, l.queue), (130, 2, 0), (132, 4, l.serial.toNat), (136, 8, (l.walk.map fun w => w.node.toNat).getD 0), (176, 16, 0)]
  counts : ∀ i, i < 8 → number b (144 + 4 * i) 4 = ((l.walk.map fun w => w.counts.getD i 0).getD 0) % 2 ^ 32
/-- The records of a context in the order of its RECORDS section: those of its bins, then those of its pool. -/
def recordsOf (s : State) (c : Nat) : List (Nat × Nat × Rec × Option (Nat × DWord)) :=
  ((s.bins.filter (·.ctx == c)).flatMap fun b => b.recs.map fun r => (0, b.region, r, none)) ++
    (s.pool.filter (·.ctx == c)).map fun r => (if r.parked.isSome then 2 else 1, r.region, r.rec_, r.parked)
/-- A RECORDS entry; the record's control mark stands in bit 15 of its kind (R450). -/
structure RecordBytes (b : List Byte) (kind region : Nat) (r : Rec) (parked : Option (Nat × DWord)) : Prop where
  record : b.take 64 = recordBytes r
  fields : Holds b 80 [(64, 2, kind + r.control.toNat * 2 ^ 15), (66, 2, region), (68, 4, (parked.map (·.1)).getD 0),
    (72, 8, (parked.map fun q => q.2.toNat).getD 0)]

/-! ### The debugger's mailbox -/

/-- The form of a command (R446). -/
def mailForm (op d a b c : Nat) (tag : BitVec 24) : Instr :=
  match op with
  | 2 => .step d a b c tag
  | 3 => .halt d a b c tag
  | 4 => .rdreg d a b c tag
  | 5 => .wrreg d a b c tag
  | 6 => .dump d a b c tag
  | _ => .resume d a b c tag
/-- A command word that R446 admits. -/
def mailFits (w : Nat) : Prop :=
  let op := w / 2 ^ 60
  let reg := w / 2 ^ 48 % 2 ^ 12
  1 ≤ op ∧ op ≤ 6 ∧ w / 2 ^ 32 % 2 ^ 8 = 0 ∧ (op ≠ 4 → op ≠ 5 → reg = 0) ∧
    (w / 2 ^ 43 % 2 ^ 5 ≠ 0 → op = 4 ∧ ∃ n, Src.ofCode reg = some (.v n) ∨ Src.ofCode reg = some (.b n)) ∧
    (op ≠ 3 → w / 2 ^ 40 % 2 ^ 3 = 0)
/-- Whether the STOP record of a token is still held for the mailbox (R304). -/
def recordHeld (s : State) (ctx tok : Nat) : Bool :=
  s.mboxHeld.any fun r => r.ctx == ctx && number r.bytes 0 1 == 1 && number r.bytes 28 4 == tok
/-- A halted path goes on, for one instruction or for good (R447, R448). -/
def freed (h : Path) (step : Bool) : Path :=
  { h.resumed with dtoken := 0, stepping := step, stepped := false, release := none }
/-- The fields of a REPLY (R444). -/
structure Reply (bs : List Byte) (s : State) (x : Group) (p : Nat) (m : MCmd) (st : Nat) (value : DWord) (pending : Bool) :
    Prop where
  size : bs.length = 64
  kind : number bs 0 1 = 2 ∧ number bs 1 1 = m.op % 256 ∧ number bs 26 1 = st % 256
  who : number bs 2 2 = x.ctx % 4096 + s.depth x.ctx % 8 * 4096 ∧ number bs 4 4 = x.who.toNat
  pc : number bs 8 8 = (x.path p).pc.toNat % 2 ^ 57 ∧ number bs 16 4 = (x.mask p).toNat
  flags : number bs 24 2 = (if pending then 2 ^ 12 else 0) + (if (x.path p).hdr then 2 ^ 7 else (x.path p).pos % 16 * 2 ^ 3) + p % 8
  rest : number bs 20 4 = 0 ∧ number bs 27 1 = 0 ∧ number bs 28 4 = m.tok % 2 ^ 32 ∧ number bs 32 8 = value.toNat ∧
    number bs 40 8 = m.tag % 2 ^ 64 ∧ number bs 48 16 = 0

end Sys2Proof.Claim

/-- R398, R399 and R348: sysr gives a word's value and a status; a status other than 0 comes with the value 0. -/
def Sys2Proof.Part.SystemWordsRead : Prop :=
  ∀ (s : State) (x : Group) (p d a : Nat),
    let i : Instr := .sysr d a
    let q := (x.sGet a).toNat
    let who := q / 2 ^ 32 % 2 ^ 12
    let at_ := q % 2 ^ 32
    let gives := fun (st v : Nat) => exec i s = .next (committed s
      (answered (s.modGroup x.uid fun y => y.sSet (d + 1) (BitVec.ofNat 64 st)) x p d v))
    let own := (s.parent x.ctx).isSome = false
    Controls i s x p →
    (2 ^ 44 ≤ q → gives 4 0) ∧
    (q < 2 ^ 44 →
      (s.ctx? who = none ∨ s.isUnder x.ctx who = false → gives 1 0) ∧
      ∀ k, s.ctx? who = some k → s.isUnder x.ctx who = true →
        (2 ^ 31 ≤ at_ → ¬ own → gives 2 0) ∧ (2 ^ 31 ≤ at_ → own → at_ % 8 ≠ 0 → gives 4 0) ∧
        (2 ^ 31 ≤ at_ → own → at_ % 8 = 0 → (devWordAt at_ = none → gives 2 0) ∧
          ∀ w, devWordAt at_ = some w → gives 0 (s.devWord w).toNat) ∧
        (at_ < 2 ^ 31 → at_ % 8 ≠ 0 → gives 4 0) ∧
        (at_ = 0 → gives 0 (k.parkth * 2 ^ 58 + k.slice * 2 ^ 48 + k.ebudget)) ∧
        (at_ = 8 → gives 0 (s.eff k.id * 2 ^ 32 + if k.ebudget = 2 ^ 32 - 1 then 2 ^ 32 - 1
          else k.ebudget - k.overrun - k.charge / 10 ^ 9)) ∧
        (at_ = 0x10 → gives 0 (min (s.heldFor k.id) 65535 * 2 ^ 16 + if k.hctlEn then 1 else 0)) ∧
        (at_ = 0x18 → gives 0 (k.t2 * 2 ^ 32 + k.t1)) ∧ (at_ = 0x20 → gives 0 0) ∧
        (debugWord at_ → gives 0 (smGet 0 k.dbg at_).toNat) ∧ (observeWord at_ → gives 0 (smGet 0 k.obs at_).toNat) ∧
        (at_ = 0x2028 → gives 0 ((if (smGet 0 k.obs 0x2028).getLsbD 63 then 2 ^ 63 else 0) +
          (if k.rplFull then 2 ^ 62 else 0) + k.rplNext)) ∧
        (at_ < 2 ^ 31 → at_ % 8 = 0 → at_ ∉ [0, 8, 0x10, 0x18, 0x20, 0x2028] → ¬ debugWord at_ → ¬ observeWord at_ → gives 2 0))

/-- R398, R399, R405, R429, R434 and R438: sysw sets the word, or gives the first status that applies and changes nothing. Clearing
RPLCTL.EN ends the numbers and clocks of the session, and keeps the records that are still held (log 38). -/
def Sys2Proof.Part.SystemWordsWrite : Prop :=
  ∀ (s : State) (x : Group) (p d a r : Nat),
    let q := (x.sGet a).toNat
    let v := (x.sGet r).toNat
    let who := q / 2 ^ 32 % 2 ^ 12
    let at_ := q % 2 ^ 32
    let i := wordForm d a r at_
    let refused := fun st => ends i s s x p d st
    let sets := fun (f : Context → Context) => ends i s (s.modCtx who f) x p d 0
    Controls i s x p → s.cmd? x p = none →
    (2 ^ 44 ≤ q → refused 4) ∧
    (q < 2 ^ 44 →
      (s.ctx? who = none ∨ s.isUnder x.ctx who = false → refused 1) ∧
      ∀ k, s.ctx? who = some k → s.isUnder x.ctx who = true →
        (2 ^ 31 ≤ at_ → (s.parent x.ctx).isSome = true → refused 2) ∧
        (2 ^ 31 ≤ at_ → (s.parent x.ctx).isSome = false → at_ % 8 = 0 →
          refused (if (devWordAt at_).isSome then 3 else 2)) ∧
        (at_ % 8 ≠ 0 → (2 ^ 31 ≤ at_ → (s.parent x.ctx).isSome = false) → refused 4) ∧
        (at_ < 2 ^ 31 → at_ % 8 = 0 → at_ ∉ [0, 8, 0x10, 0x18, 0x20, 0x2028] → ¬ debugWord at_ → ¬ observeWord at_ → refused 2) ∧
        (at_ = 0 ∨ at_ = 8 → refused 3) ∧
        (at_ = 0x10 →
          let bad := 2 ^ 32 ≤ v ∨ v / 2 % 2 ^ 15 ≠ 0 ∨ (v.testBit 0 = true ∧ k.desc.hq = 0)
          (bad → refused 4) ∧
          (¬ bad → finishes i s ((s.fixRoutes.modCtx who fun c => { c with hctlEn := v.testBit 0 }).deliverAll) x p d 0)) ∧
        (at_ = 0x18 →
          let t1 := v % 2 ^ 32
          let t2 := v / 2 ^ 32
          let bad := t1 = 0 ∨ 999999 < t1 ∨ t2 ≤ t1 ∨ 1000000 < t2
          (x.ctx = who → refused 3) ∧ (x.ctx ≠ who → bad → refused 4) ∧
          (x.ctx ≠ who → ¬ bad → sets fun c => { c with t1, t2 })) ∧
        (at_ = 0x20 →
          let cause := v / 2 ^ 8 % 2 ^ 8
          let bad := 2 ^ 16 ≤ v ∨ v / 2 ^ 6 % 4 ≠ 0 ∨ cause = 0 ∨ 0x7F < cause ∨ k.queues ≤ v % 64
          (bad → refused 4) ∧ (¬ bad → ∀ t, s.queueReset who (v % 64) cause = (t, []) → finishes i s t x p d 0)) ∧
        (debugWord at_ → (¬ debugFits at_ v → refused 4) ∧
          (debugFits at_ v → sets fun c => { c with dbg := smSet 0 c.dbg at_ (x.sGet r) })) ∧
        (observeWord at_ → (¬ observeFits k at_ v → refused 4) ∧
          (observeFits k at_ v → ∃ u, ends i s { s.modCtx who (fun c => { c with obs := smSet 0 c.obs at_ (x.sGet r) }) with samp := u }
            x p d 0)) ∧
        (at_ = 0x2028 →
          let was := (smGet 0 k.obs 0x2028).getLsbD 63
          (v / 2 ^ 12 % 2 ^ 50 ≠ 0 → refused 4) ∧
          (v / 2 ^ 12 % 2 ^ 50 = 0 → v.testBit 63 = was →
            sets fun c => { c with obs := smSet 0 c.obs 0x2028 (if was then 2 ^ 63 else 0) }) ∧
          (v / 2 ^ 12 % 2 ^ 50 = 0 → v.testBit 63 = true → was = false → sets fun c =>
            { c with obs := smSet 0 c.obs 0x2028 (2 ^ 63), rplNext := 1, rplFull := false }) ∧
          (v / 2 ^ 12 % 2 ^ 50 = 0 → v.testBit 63 = false → was = true → ends i s
            { s.modCtx who (fun c => { c with obs := smSet 0 c.obs 0x2028 0 }) with
              cache := s.cache.map fun m => { m with clock := 0, writer := 0 }
              leftLines := []
              groups := s.groups.map fun y => if y.ctx = who then { y with rnum := 0, gclk := 0, maxw := [] } else y } x p d 0)))

/-- R407, R409 to R413, R415 to R418: a command whose target is no descendant (for a snapshot, no child) gives 1; dfreeze sets
the mark, calls the ladders of the subtree, and ends once no core holds a group of it; dthaw clears the mark and overtakes a
dfreeze under way; dckpt.save of a
frozen subtree writes its image, once each pending launch's packet has been read (log 61), or gives its status; dckpt.load builds the subtree of an image; drevoke kills the work, then
removes the contexts and returns their holdings; of a command whose target has been removed meanwhile the status is TARGET (R410); a snapshot is opened for a frozen child with a descriptor that fits, and
closed. -/
def Sys2Proof.Part.SubtreeOrders : Prop :=
  ∀ (s : State) (x : Group) (p d c a l : Nat),
    let t := named x c
    let adr := x.sGet a
    (s.targetOk x.ctx t = false → s.cmd? x p = none →
      ∀ i ∈ [Instr.dfreeze d c, .dthaw d c, .dckptSave d c a l, .drevoke d c], Controls i s x p → ends i s s x p d 1) ∧
    (s.childOk x.ctx t = false → s.cmd? x p = none →
      ∀ i ∈ [Instr.dsnapOpen d c a, .dsnapClose d c], Controls i s x p → ends i s s x p d 1) ∧
    (s.targetOk x.ctx t = true → ClearForThaw s x p t → Controls (.dthaw d c) s x p → ∀ k, s.ctx? t = some k →
      let b := begun .thaw s x p t
      (k.frozen = false → commandEnds (.dthaw d c) s b x p d 3) ∧
      (k.frozen = true → ∃ z, (∀ k ∈ z, k.kind = .freeze → k.target = t → k.stage ≠ 0 → k.overtaken = true) ∧
        finishes (.dthaw d c) s
          { (b.fixRoutes.modCtx t fun k => { k with frozen := false }).thawAges t with cmds := z } x p d 0)) ∧
    (s.targetOk x.ctx t = true → Clear s x p t →
      (Controls (.dfreeze d c) s x p →
        let v := (begun .freeze s x p t).freeze t
        (resident v t → commandWaits (.dfreeze d c) s v) ∧ (¬ resident v t → commandEnds (.dfreeze d c) s v x p d 0)) ∧
      (Controls (.dckptSave d c a l) s x p →
        let i : Instr := .dckptSave d c a l
        let b := begun .save s x p t
        let v := (b.modCmd s.fresh fun k => { k with stage := 1 }).cleanTree t fun _ => true
        (s.isFrozen t = false → commandEnds i s b x p d 2) ∧
        (s.isFrozen t = true → (∃ q ∈ s.launches, s.isUnder t q.ctx = true ∧ q.read = false) → commandWaits i s b) ∧
        (s.isFrozen t = true → (∀ k ∈ s.copies, s.isUnder t k.ctx = false) → x.imageHolds = false →
          (∀ q ∈ s.launches, s.isUnder t q.ctx = true → q.read = true) →
          (adr.toNat % 64 ≠ 0 → commandEnds i s b x p d 0x106) ∧
          (adr.toNat % 64 = 0 →
            let r := v.image t
            let fits := r.2.length ≤ (x.sGet l).toNat
            let w := r.1.ctxWrite none x.ctx adr (if fits then r.2 else r.2.take 128)
            (∀ u e, w = (u, .error e) → commandEnds i s b x p d (6 + e.code % 16 * 2 ^ 8)) ∧
            (∀ u, fits → w = (u, .ok ()) → commandEnds i s u x p d 0) ∧
            (∀ u, ¬ fits → w = (u, .ok ()) → commandEnds i s { u with saves := s.saves, launchSaves := s.launchSaves } x p d 4)))) ∧
      (Controls (.drevoke d c) s x p →
        let i : Instr := .drevoke d c
        let v := (begun .revoke s x p t).freeze t
        (resident v t → commandWaits i s v) ∧
        (¬ resident v t → ∃ w, WorkGone s w t ∧ (w.treeBusy t = true → commandWaits i s w) ∧
          (w.treeBusy t = false → ∃ u, commandEnds i s u x p d 0 ∧ Removed s u t)) ∧
        (s.treeBusy t = false → ∃ w, commandEnds i s w x p d 0 ∧ Removed s w t))) ∧
    (∀ k, s.cmd? x p = some k →
      (s.targetOk x.ctx k.target = false → ∀ i ∈ [Instr.dfreeze d c, .dthaw d c, .dckptSave d c a l, .drevoke d c],
        Controls i s x p → commandEnds i s s x p d 1) ∧
      (s.targetOk x.ctx k.target = true → k.stage = 2 → Controls (.drevoke d c) s x p →
        (s.treeBusy k.target = true → exec (.drevoke d c) s = .next s) ∧
        (s.treeBusy k.target = false → ∃ w, commandEnds (.drevoke d c) s w x p d 0 ∧ Removed s w k.target))) ∧
    (Controls (.dckptLoad d a l) s x p → ClearForLoad s x p x.ctx →
      let i : Instr := .dckptLoad d a l
      let b := begun .load s x p x.ctx
      let room := (x.sGet l).toNat
      let end_ := fun (u : State) st low => commandEnds i s u x p d (st * 2 ^ 56 + low)
      (x.imageHolds = true → commandWaits i s b) ∧
      (x.imageHolds = false →
        (adr.toNat % 64 ≠ 0 → end_ b 6 0x100) ∧ (adr.toNat % 64 = 0 → room < 128 → end_ b 7 0) ∧
        (adr.toNat % 64 = 0 → 128 ≤ room →
          (∀ u e, b.ctxRead none x.ctx adr 128 .r = (u, .error e) → end_ u 6 (e.code % 16 * 2 ^ 8)) ∧
          ∀ u h, b.ctxRead none x.ctx adr 128 .r = (u, .ok h) → h.length = 128 →
            let len := number h 8 8
            (room < len ∨ len < 128 → end_ u 7 0) ∧
            (len ≤ room → 128 ≤ len →
              (∀ w e, u.ctxRead none x.ctx adr len .r = (w, .error e) → end_ w 6 (e.code % 16 * 2 ^ 8)) ∧
              ∀ w img, u.ctxRead none x.ctx adr len .r = (w, .ok img) →
                (w.loadImage img x.ctx = none → end_ w 7 0) ∧ ∀ z n, w.loadImage img x.ctx = some (z, n) → end_ z 0 n)))) ∧
    (s.childOk x.ctx t = true → Clear s x p t →
      (Controls (.dsnapClose d c) s x p → ∀ k, s.ctx? t = some k →
        let b := begun .snap s x p t
        (k.snap = none → commandEnds (.dsnapClose d c) s b x p d 8) ∧
        (k.snap ≠ none → commandEnds (.dsnapClose d c) s (b.modCtx t fun k => { k with snap := none }) x p d 0)) ∧
      (Controls (.dsnapOpen d c a) s x p →
        let i : Instr := .dsnapOpen d c a
        let b := begun .snap s x p t
        (s.isFrozen t = false → commandEnds i s b x p d 2) ∧ (s.isFrozen t = true → adr.toNat % 64 ≠ 0 → commandEnds i s b x p d 0x106) ∧
        (s.isFrozen t = true → adr.toNat % 64 = 0 → ∀ u bs, b.uniGet x p adr.toNat 64 = (u, .bytes bs) → bs.length = 64 →
          let fits := number bs 0 8 % 12288 = 0 ∧ number bs 8 4 ≠ 0 ∧ number bs 12 4 = 0 ∧ number bs 16 8 % 32 = 0 ∧ number bs 24 40 = 0
          (¬ fits → commandEnds i s u x p d 7) ∧
          (fits → ∀ k, u.ctx? t = some k → (k.snap ≠ none → commandEnds i s u x p d 8) ∧
            (k.snap = none → commandEnds i s (u.modCtx t fun k => { k with
              snap := some ⟨BitVec.ofNat 64 (number bs 0 8), number bs 8 4, BitVec.ofNat 64 (number bs 16 8), 0⟩ }) x p d 0)))))

/-- R414 and R415: the image of a subtree has a header, a directory and for each context, in the order of the subtree, the sections of
R414 with the bytes that the context's state gives; an image that loads builds its contexts below the issuer with what those
bytes say, its own mark set on the new root, and gives back their launches, records and saved cohorts. The state byte of a launch and
the length of a save image are free (log 22), records stand in bins where no bin is left of an earlier context of the number, and a saved cohort is found where its save image lies (log 63). -/
def Sys2Proof.Part.CheckpointImages : Prop :=
  (∀ (s : State) (t : Nat) (cs : List Context) (img : List Byte),
    cs = s.subtree t → img = (s.image t).2 → img.length < 2 ^ 32 → (cs.map (·.id)).Nodup →
    (∀ c ∈ cs, c.ranges.length ≤ 64) → (∀ l ∈ s.launches, ∀ w, l.walk = some w → w.counts.length = 8) →
    number img 0 4 = 1 ∧ number img 4 4 = cs.length ∧ number img 8 8 = img.length ∧ number img 20 2 = Config.thisChip.toNat ∧
    number img 22 106 = 0 ∧
    (∀ k, k < number img 16 4 → number img (136 + 16 * k) 4 % 64 = 0 ∧
      number img (136 + 16 * k) 4 + number img (140 + 16 * k) 4 ≤ img.length) ∧
    ∀ (i : Nat) (c : Context), cs[i]? = some c →
      let ls := s.launches.filter (·.ctx == c.id)
      let rs := recordsOf s c.id
      let saved := s.cohorts.filter fun k => k.ctx == c.id && !k.resident
      ContextBytes (section_ img 1 i) c (if c.id = t then 0xFFFFFFFF else (cs.findIdx? fun q => some q.id == c.parent).getD 0)
        (c.depth - s.depth t) (s.heldFor c.id) ∧
      section_ img 2 i = c.keys.flatMap (fun k => littleEndian 2 k.1 ++ littleEndian 2 Config.thisChip.toNat) ∧
      section_ img 3 i = (List.range c.counters).flatMap (fun j => littleEndian 8 (smGet 0 c.ev j).toNat) ∧
      (section_ img 4 i).length = 192 * ls.length ∧
      (∀ (j : Nat) (l : Launch), ls[j]? = some l → LaunchBytes (nth (section_ img 4 i) 192 j) l) ∧
      (section_ img 5 i).length = 80 * rs.length ∧
      (∀ j r, rs[j]? = some r → RecordBytes (nth (section_ img 5 i) 80 j) r.1 r.2.1 r.2.2.1 r.2.2.2) ∧
      (section_ img 6 i).length = 64 * saved.length ∧
      (∀ (j : Nat) (k : Cohort), saved[j]? = some k → (∃ g ∈ s.groups, g.coh = k.uid ∧ g.retired = false) →
        ∃ g ∈ s.groups, g.coh = k.uid ∧ g.retired = false ∧
          (∀ h ∈ s.groups, h.coh = k.uid → h.retired = false → g.slotBase.toNat ≤ h.slotBase.toNat) ∧
          Holds (nth (section_ img 6 i) 64 j) 64 [(0, 8, g.slotBase.toNat),
            (16, 1, (s.wgs.filter fun w => w.coh == k.uid && !w.retired).length), (17, 47, 0)]) ∧
      (c.snap = none → section_ img 7 i = []) ∧
      (∀ n, c.snap = some n → Holds (section_ img 7 i) 72
        [(0, 8, n.area.toNat), (8, 4, n.npages), (12, 4, 0), (16, 8, n.log.toNat), (24, 40, 0), (64, 8, n.next)]) ∧
      ObserveBytes (section_ img 8 i) c) ∧
  (∀ (w : State) (img : List Byte) (iss : Nat), number img 0 4 ≠ 1 → w.loadImage img iss = none) ∧
  ∀ (w z : State) (img : List Byte) (iss n : Nat), w.loadImage img iss = some (z, n) →
    ∃ made : Nat → Nat, made 0 = n ∧
      (∀ i j, i < number img 4 4 → j < number img 4 4 → made i = made j → i = j) ∧
      ∀ i, i < number img 4 4 → (∀ c ∈ w.contexts, c.id ≠ made i) ∧ ∃ k, z.ctx? (made i) = some k ∧
        let b := section_ img 1 i
        let o := section_ img 8 i
        let bint := number b 184 4 % 2 ^ 21
        k.parent = some (if i = 0 then iss else made (number b 0 4)) ∧
        k.desc = { descriptor ((b.drop 8).take 128) with bint } ∧ k.bint = bint ∧
        k.parkth * 2 ^ 58 + k.slice * 2 ^ 48 + k.ebudget = number b 136 8 ∧
        k.hctlEn = (number b 144 8).testBit 0 ∧ k.t1 = number b 152 4 ∧ k.t2 = number b 156 4 ∧
        k.frozen = (i == 0 || (number b 5 1).testBit 0) ∧
        k.share = number b 160 4 ∧ k.lines = number b 164 4 ∧ k.link = number b 168 4 ∧ k.store = number b 172 2 ∧
        k.queues = number b 174 1 ∧ k.hqcap = number b 176 4 ∧ k.counters = number b 180 4 ∧ k.adCount = number b 188 4 ∧
        k.adBase = BitVec.ofNat 64 (number b 192 8) ∧
        k.ranges = ((List.range 64).map fun j => (number b (208 + 16 * j) 8, number b (216 + 16 * j) 8)).filter (·.2 ≠ 0) ∧
        (∀ j, 4 * (j + 1) ≤ (section_ img 2 i).length → number (section_ img 2 i) (4 * j) 2 < 256 →
          ∃ e, (number (section_ img 2 i) (4 * j) 2, e) ∈ k.keys) ∧
        (∀ j, j < k.counters → 8 * (j + 1) ≤ (section_ img 3 i).length →
          (smGet 0 k.ev j).toNat = number (section_ img 3 i) (8 * j) 8) ∧
        k.lserial.toNat = number o 0 4 ∧ k.sserial.toNat = number o 4 4 ∧
        (∀ a ∈ debugAt, (smGet 0 k.dbg a.1).toNat = number o a.2 8) ∧ (∀ a ∈ observeAt, (smGet 0 k.obs a.1).toNat = number o a.2 8) ∧
        smGet 0 k.obs 0x2028 = 0 ∧ k.rplFull = false ∧ k.rplNext = 1 ∧
        (∀ j, 192 * (j + 1) ≤ (section_ img 4 i).length → let e := nth (section_ img 4 i) 192 j
          ∃ l ∈ z.launches, l.ctx = made i ∧ l.queue = number e 128 1 ∧ l.serial.toNat = number e 132 4 ∧
            (∀ q, q < 128 → l.raw.getD q 0 = e.getD q 0) ∧
            ∀ v, l.walk = some v → v.node.toNat = number e 136 8 ∧ ∀ q, q < 8 → v.counts.getD q 0 = number e (144 + 4 * q) 4) ∧
        (∀ j, 80 * (j + 1) ≤ (section_ img 5 i).length → let e := nth (section_ img 5 i) 80 j
          let kind := number e 64 2 % 2 ^ 15
          (kind ≠ 2 → (∀ q ∈ w.bins, ∀ h, h < number img 4 4 → q.ctx ≠ made h) → (∃ q ∈ z.bins, q.ctx = made i ∧ q.region = number e 66 2 ∧ ∃ r ∈ q.recs, recordBytes r = e.take 64) ∨
            ∃ q ∈ z.pool, q.ctx = made i ∧ q.region = number e 66 2 ∧ q.parked = none ∧ recordBytes q.rec_ = e.take 64) ∧
          (kind = 2 → (z.counter (made i) (number e 68 4)).toNat < number e 72 8 →
            ∃ q ∈ z.pool, q.ctx = made i ∧ q.region = number e 66 2 ∧
              q.parked = some (number e 68 4, BitVec.ofNat 64 (number e 72 8)) ∧ recordBytes q.rec_ = e.take 64)) ∧
        ∀ j, 64 * (j + 1) ≤ (section_ img 6 i).length → ∃ c ∈ z.cohorts, c.ctx = made i ∧ c.resident = false

/-- R443 to R449, R85 and R89: mbox waits for the group's earlier writes and sysws, gives 1 while the mailbox is not usable and
2 for a command word that is not admitted; otherwise it is accepted, and its command acts on the halted path of its token, or
is answered STALE: RESUME and STEP release the path once its STOP record is written,
RDREG answers with a register's or a latch's value, WRREG writes a register, and DUMP
writes the group's dump; HALT stops a path of the group that it names, leaves one that is HALTED, and is answered ABSENT for a path
that is FREE or PARKED or a group that is not there.
Fields of replies that concern no path are the model's (log 60). -/
def Obligations.DebuggerCommands : Prop :=
  (∀ (s : State) (x : Group) (p d a b c : Nat) (tag : BitVec 24),
    let w := (x.sGet a).toNat
    let op := w / 2 ^ 60
    let i := mailForm op d a b c tag
    let m : MCmd := { op, reg := w / 2 ^ 48 % 2 ^ 12, lane := w / 2 ^ 43 % 2 ^ 5, path := w / 2 ^ 40 % 2 ^ 3, tok := w % 2 ^ 32
                      b := x.sGet b, c := x.sGet c, tag := tag.toNat }
    Controls i s x p →
    (s.mboxHolds x p = true → exec i s = .next s) ∧
    (s.mboxHolds x p = false → ∀ u ok, (s.mboxFlush x.ctx).mboxUsable x.ctx = (u, ok) →
      (ok = false → finishes i s u x p d 1) ∧
      (ok = true → ¬ mailFits w → finishes i s u x p d 2) ∧
      (ok = true → mailFits w →
        let t := u.finish x.uid p d 0
        let goes := fun (v : State) => exec i s = .next (committed s v)
        (op ≠ 3 → t.tokenPath x.ctx m.tok = none → goes (t.reply x.ctx none m 1 0 false)) ∧
        (op = 3 → goes (t.haltCmd x.ctx m)) ∧
        (op = 3 → (∀ y ∈ t.groups, y.ctx = x.ctx → y.retired = false → y.who.toNat ≠ m.tok) → goes (t.reply x.ctx none m 3 0 false)) ∧
        (op = 3 → ∀ y, (t.groups.find? fun y => y.ctx == x.ctx && !y.retired && y.who.toNat == m.tok) = some y →
          ((y.path m.path).st = .free ∨ (y.path m.path).st = .parked → goes (t.reply x.ctx (some (y, m.path)) m 3 0 false)) ∧
          ((y.path m.path).st = .halted → goes t)) ∧
        (op ≠ 3 → ∀ y q, t.tokenPath x.ctx m.tok = some (y, q) →
          (op = 1 ∨ op = 2 → ∃ u, goes u ∧ ∃ z ∈ u.groups, z.uid = y.uid ∧ z.path q =
            if recordHeld t x.ctx (y.path q).dtoken then { y.path q with release := some (decide (op = 2)) }
            else freed (y.path q) (decide (op = 2))) ∧
          (op = 4 → ∀ n, Src.ofCode m.reg = some (.s n) → goes (t.reply y.ctx (some (y, q)) m 0 (y.sGet n) (y.pending (.s n)))) ∧
          (op = 4 → ∀ n, Src.ofCode m.reg = some (.v n) → n < y.win →
            goes (t.reply y.ctx (some (y, q)) m 0 ((t.laneReg y n m.lane).setWidth 64) (y.pending (.v (y.wb + n))))) ∧
          (op = 4 → ∀ n, Src.ofCode m.reg = some (.b n) →
            let h := y.path q
            let there := h.hdr = false ∧ latchWritten h.words h.pos n = true
            let waits := ∃ e ∈ h.dlatch, e.latch = n ∧ laneOn e.lanes m.lane = true
            (¬ there → goes (t.reply y.ctx (some (y, q)) m 2 0 false)) ∧
            (there → waits → goes (t.reply y.ctx (some (y, q)) m 0 0 true)) ∧
            (there → ¬ waits → goes (t.reply y.ctx (some (y, q)) m 0 ((smGet 0 h.latch (n * 32 + m.lane)).setWidth 64) false))) ∧
          (op = 4 → ∀ n, Src.ofCode m.reg = some (.m n) → goes (t.reply y.ctx (some (y, q)) m 0
            ((if n = 0 then y.mask q else y.mGet n).setWidth 64) (y.pending (.m n)))) ∧
          (op = 5 → ∀ n, Src.ofCode m.reg = some (.s n) → ∃ z, z.sGet n = (if n = 0 then 0 else m.b) ∧
            (∀ k, k ≠ n → z.sGet k = y.sGet k) ∧ z.m = y.m ∧ goes ((t.setGroup z).reply y.ctx (some (y, q)) m 0 0 false)) ∧
          (op = 5 → ∀ n, Src.ofCode m.reg = some (.m n) → n ≠ 0 → ∃ z,
            z.mGet n = (y.mGet n &&& ~~~(m.c.setWidth 32)) ||| (m.b.setWidth 32 &&& m.c.setWidth 32) ∧
            (∀ k, k ≠ n → z.mGet k = y.mGet k) ∧ z.s = y.s ∧ goes ((t.setGroup z).reply y.ctx (some (y, q)) m 0 0 false)) ∧
          (op = 5 → ∀ n, Src.ofCode m.reg = some (.v n) → n < y.win → y.rcq = [] → ∃ z,
            (∀ row h, h < 32 → z.rowGet row h = if row = y.wb + n ∧ m.c.getLsbD h = true then m.b.setWidth 32 else y.rowGet row h) ∧
            z.s = y.s ∧ z.m = y.m ∧ goes (((t.setGroup z).saveRows y.uid [n]).reply y.ctx (some (y, q)) m 0 0 false)) ∧
          (op = 6 → m.b.toNat % 64 ≠ 0 → goes (t.reply y.ctx (some (y, q)) m 4 m.b false)) ∧
          (op = 6 → m.b.toNat % 64 = 0 → ∀ v, t.ctxWrite none y.ctx m.b y.dump = (v, .ok ()) →
            goes (v.reply y.ctx (some (y, q)) m 0 0 false)))))) ∧
  (∀ (s : State) (x : Group) (p : Nat) (m : MCmd) (st : Nat) (v : DWord) (pending : Bool),
    ∃ bs, Reply bs s x p m st v pending ∧ s.reply x.ctx (some (x, p)) m st v pending = s.mboxPut x.ctx x.uid bs) ∧
  ∀ x : Group, x.dump.length = 1216 + 64 * x.rcq.length ∧ number x.dump 8 8 = x.kent.toNat ∧
    number x.dump 16 8 = x.slotBase.toNat ∧ number x.dump 24 4 = x.who.toNat ∧
    (x.rcq.length < 2 ^ 32 → number x.dump 28 4 = x.rcq.length)

namespace Sys2Proof.Claim

open Sys2Proof.Machine

/-! ### Records and ladders -/

/-- The 64 bytes of a trap record that has passed esc ancestors (R391). -/
structure Record (bs : List Byte) (r : TrapRec) (esc : Nat) : Prop where
  size : bs.length = 64
  cause : number bs 0 1 = r.cause % 2 ^ 8 ∧ number bs 1 1 = r.reason % 2 ^ 8
  flags : number bs 2 2 = esc % 8 * 2 ^ 13 + r.path % 8 * 2 ^ 10 + r.pos % 16 * 2 ^ 6 + (if r.hdr then 2 ^ 5 else 0) +
    if r.cow then 2 ^ 4 else 0
  who : number bs 4 2 = r.ctx % 2 ^ 12 + r.depth % 8 * 2 ^ 12 ∧ number bs 6 1 = r.sdep % 2 ^ 8 ∧ number bs 7 1 = 0 ∧
    number bs 8 4 = r.token % 2 ^ 32 ∧ number bs 12 4 = r.who.toNat
  at_ : number bs 16 8 = r.pc.toNat % 2 ^ 57 ∧ number bs 24 8 = r.addr.toNat ∧ number bs 32 8 = r.aux.toNat ∧
    number bs 40 8 = r.aux2.toNat ∧ number bs 48 16 = r.lanes.toNat

/-- A ring whose descriptor stands at an address of host memory is usable; and it has room for n more entries (R307, R467). -/
def hostField (s : State) (desc : DWord) (o n : Nat) : Nat :=
  number ((List.range 32).map fun i => s.hostByte (desc.toNat + i)) o n
def HostUsable (s : State) (desc : DWord) (rsize : Nat) : Prop :=
  4 ≤ hostField s desc 16 1 ∧ hostField s desc 16 1 ≤ 20 ∧ hostField s desc 17 1 = rsize ∧ hostField s desc 0 8 % 64 = 0
def HostRoom (s : State) (desc : DWord) (rsize n : Nat) : Prop :=
  HostUsable s desc rsize ∧ (2 ^ 32 + hostField s desc 12 4 - hostField s desc 8 4) % 2 ^ 32 + n ≤ 2 ^ hostField s desc 16 1
/-- A record has taken its route (R394). -/
def routed (t : State) (h : HubRec) (r : Route) : State :=
  { t with hub := t.hub.map fun k => if k.id = h.id then { k with way := some r } else k }
/-- Records in t's queue that the work of u and its descendants raised. -/
def standing (s : State) (t u : Nat) : Nat := (s.standing.filter fun r => r.queue == t && s.isUnder u r.ctx).length
/-- The climb of R393 from child u after esc ancestors that take no record: it ends where no ancestor is left, or at the first that
takes records. Each ancestor's queue is looked at in the state that the look at the one before has left. -/
inductive Climbs : State → Nat → Nat → State → Route → Prop
  | host (s : State) (u esc : Nat) : ((s.parent u).bind s.ctx?) = none → Climbs s u esc s ⟨none, u, esc⟩
  | stands (s t : State) (u esc : Nat) (k : Context) : ((s.parent u).bind s.ctx?) = some k → s.handlerOpen k = (t, true) →
      Climbs s u esc t ⟨some k.id, u, esc⟩
  | passes (s t v : State) (u esc : Nat) (k : Context) (r : Route) : ((s.parent u).bind s.ctx?) = some k →
      s.handlerOpen k = (t, false) → Climbs t k.id (esc + 1) v r → Climbs s u esc v r
/-- Groups of a cohort that have not retired. -/
def ofCohort (s : State) (c : Nat) : List Group := s.groups.filter fun g => g.coh == c && !g.retired

end Sys2Proof.Claim

/-- R304, R391, R393, R394 and R455: a record takes its 64 bytes to the nearest ancestor whose handler takes records, past those that
do not, which its ESCN counts, or to the host; one that has a way keeps it while that takes records. It
stands there once its context's earlier records have gone, the capacity granted to the child that it comes through allows it
and the ring has room, and waits in the hub until then; for the host's ring it joins what its function holds, which goes out in order,
a record as two entries with SEQ 0 (the model's choice, log 27).
That a record keeps the route it has taken is the model's reading (log 58), and so is the host's first entry (log 27). -/
def Obligations.RecordsGoUp : Prop :=
  (∀ (r : TrapRec) (esc : Nat), Record (r.bytes esc) r esc) ∧
  (∀ (s : State) (h : HubRec) (k : Context), h.way = none → s.parent h.rec_.ctx = some k.id → s.ctx? k.id = some k →
    ∀ t, s.handlerOpen k = (t, true) → s.route h = (t, ⟨some k.id, h.rec_.ctx, 0⟩)) ∧
  (∀ (s : State) (h : HubRec), h.way = none → (∀ k ∈ s.contexts, k.hctlEn = false ∨ s.isFrozen k.id = true ∨ k.desc.hq = 0) →
    (s.route h).1 = s ∧ (s.route h).2.target = none) ∧
  (∀ (s t : State) (h : HubRec) (r : Route), Climbs s h.rec_.ctx 0 t r → r.esc < 6 →
    (h.way = none → s.route h = (t, r)) ∧
    ∀ w k c u, h.way = some w → w.target = some k → s.ctx? k = some c →
      (s.handlerOpen c = (u, true) → s.route h = (u, w)) ∧
      (s.handlerOpen c = (s, false) → w.via ≠ noCtx → s.route h = (t, r))) ∧
  (∀ (s : State) (fn : Nat), s.hostDrain fn [] = s ∧ ∀ (f : Func) (e : List Byte) (rest : List (List Byte)), s.func? fn = some f →
    let parts := if e.length = 64 then [littleEndian 4 0 ++ (e.take 32).drop 4, e.drop 32] else [e]
    (¬ HostRoom s f.comp 5 parts.length → s.hostDrain fn (e :: rest) = s) ∧
    ∀ u, HostRoom s f.comp 5 parts.length → s.hostAppend f parts = some u → s.hostDrain fn (e :: rest) =
      (u.modFunc fn fun g => { g with
        held := rest, cmp := if e.length = 64 then g.cmp else BitVec.ofNat 32 (number e 0 4) }).hostDrain fn rest) ∧
  (∀ (s : State) (k : Nat), ∃ t, exec (.handlerRecord k) s = .next t) ∧
  ∀ (s : State) (h : HubRec),
    let i : Instr := .handlerRecord h.id
    let r := s.route h
    let t := routed r.1 h r.2
    let gone := fun (u : State) => exec i s = .next (committed s { u with hub := u.hub.filter (·.id != h.id) })
    let stays := fun (u : State) => exec i s = .next (committed s u)
    s.wq = [] → s.hostWq = [] → s.hub.find? (·.id == h.id) = some h →
    ((∃ k ∈ s.hub, k.id < h.id ∧ k.rec_.ctx = h.rec_.ctx) → exec i s = .next s) ∧
    ((∀ k ∈ s.hub, k.id < h.id → k.rec_.ctx ≠ h.rec_.ctx) →
      (r.2.target = none → ∀ f, t.func? (t.funcOf h.rec_.ctx) = some f →
        let es := f.held ++ [h.rec_.bytes r.2.esc]
        exec i s = .next (committed s (State.hostDrain (State.modFunc { t with hub := t.hub.filter (·.id != h.id) } f.fn
          fun g => { g with held := es }) f.fn es))) ∧
      ∀ q k, r.2.target = some q → t.ctx? r.2.via = some k →
        (k.hqcap ≤ standing t q r.2.via → stays t) ∧
        (standing t q r.2.via < k.hqcap → ∀ c, t.ctx? q = some c →
          let a := t.ringAppend q c.desc.hq 6 0 (h.rec_.bytes r.2.esc)
          (∀ u n, a = (u, .ok n) → gone { u with standing := u.standing ++ [⟨q, n, h.rec_.ctx, h.rec_.token⟩] }) ∧
          ∀ u, a = (u, .full) → stays u))

/-- R400 to R403, R436, R456, R464 and R468: a ladder takes its stages, Grace after T1 and Midnight after T2; a cohort that a
ladder wants is saved, its rows to their spill slots and its dirty lines written back (R214), once all its groups are at rest, or
halted by Grace, and have nothing outstanding, no lput of their workgroups among it (R119; log 66); Midnight kills every
cohort of the context that still has a group on the core, on all its cores, with one KILLED record for each, whose WHO is the core
number alone (log 59); and a ring whose
HEAD has advanced takes what waits for it.
What a save waits for (log 66), Grace before Midnight (log 67), what of an image stands in memory (log 17), and WHO and
the zero fields of KILLED (log 59), are the model's. -/
def Obligations.LaddersRun : Prop :=
  (∀ (s : State) (core ctx : Nat), s.wq = [] → s.hostWq = [] →
    exec (.dusk core ctx) s = .next (State.endLadders { s with
      ladders := s.ladders.map fun l => if l.core = core ∧ l.ctx = ctx then { l with stage := max l.stage 1 } else l }) ∧
    ∀ k l, s.ctx? ctx = some k → s.ladders.find? (fun l => l.core == core && l.ctx == ctx) = some l →
      (l.stage ≠ 1 ∨ s.ns.toNat < l.start + k.t1 * 1000 → exec (.grace core ctx) s = .next s) ∧
      (l.stage = 1 → l.start + k.t1 * 1000 ≤ s.ns.toNat → exec (.grace core ctx) s = .next { s with
        ladders := s.ladders.map fun l => if l.core = core ∧ l.ctx = ctx then { l with stage := max l.stage 2 } else l }) ∧
      (l.stage < 2 ∨ s.ns.toNat < l.start + k.t2 * 1000 → exec (.midnight core ctx) s = .next s) ∧
      (2 ≤ l.stage → l.start + k.t2 * 1000 ≤ s.ns.toNat →
        let gs := (s.cohorts.filter fun c => c.ctx == ctx && c.resident && (ofCohort s c.uid).any fun g => g.core == core).flatMap
          fun c => ofCohort s c.uid
        let cause := if l.withdraw then 0x83 else 0x80
        let t := (s.killGroups (gs.map (·.uid))).closeSessions gs cause
        exec (.midnight core ctx) s = .next (committed s (((gs.map (·.core)).eraseDups.foldl (fun u k => u.raise
          { TrapRec.empty with cause := 0x43, reason := cause, ctx, depth := u.depth ctx, who := BitVec.ofNat 32 k
                               aux := BitVec.ofNat 64 ((gs.filter (·.core == k)).length % 2 ^ 16) }) t).endLadders)))) ∧
  (∀ (s : State) (coh : Nat) (c : Cohort), s.wq = [] → s.hostWq = [] → s.cohort? coh = some c →
    let ready := c.resident = true ∧ s.duskWants c = true ∧
      ∀ g ∈ ofCohort s coh, ((∀ y ∈ g.paths, y.st ≠ .ready) ∨ s.graced g = true) ∧ (∀ o ∈ g.outs, o.poison ≠ 0) ∧ g.sbuf = [] ∧
        g.mpend = [] ∧ adBusy s g = false ∧ g.handler = none ∧ ∀ l ∈ s.lputs, ¬ (l.coh = g.coh ∧ l.wg = g.wg)
    (¬ ready → exec (.cohortEvict coh) s = .next s) ∧
    (ready → ∃ t : State, exec (.cohortEvict coh) s = .next t ∧ t.groups.length = s.groups.length ∧
      (∀ (i : Nat) (g : Group), s.groups[i]? = some g → ∃ y : Group, t.groups[i]? = some y ∧ y.v = g.v ∧ y.s = g.s ∧ y.m = g.m ∧ y.quads = g.quads ∧
        y.rcq = g.rcq ∧ ((∀ z ∈ ofCohort s coh, z.uid ≠ g.uid) → y = g) ∧
        ((∃ z ∈ ofCohort s coh, z.uid = g.uid) → y.resident = false ∧
          y.paths = g.paths.map fun w => { w with fetched := false })) ∧
      (∀ b ∈ t.cohorts, b.uid = coh → b.resident = false) ∧
      (∀ l ∈ t.l1, ∀ w ∈ l.writers, ∀ z ∈ ofCohort s coh, w.1 ≠ z.uid) ∧
      (s.traceHeld = [] → (∀ z ∈ ofCohort s coh, z.residentRows = []) → ∀ a, Memory.read t.mem a = Memory.read s.mem a) ∧
      ∀ g u full, s.traceHeld = [] → ofCohort s coh = [g] → s.group? g.uid = some g →
        (s.l1Back fun l => l.writers.any fun w => w.1 == g.uid).rowsOut g g.residentRows = (u, full) →
        t.mem = (committed s u).mem ∧ ∀ y ∈ t.groups, y.uid = g.uid → y.saved = full)) ∧
  ∀ s : State, s.wq = [] → s.hostWq = [] →
    (∀ h ctx, s.hub = [h] → (s.route h).2.target = some ctx →
      exec (.headAdvanceSeen (.handler ctx)) s = exec (.handlerRecord h.id) s) ∧
    (∀ r t n, s.mboxHeld = [r] → s.ringAppend r.ctx (s.mboxOf r.ctx) 6 0 r.bytes = (t, .ok n) →
      exec (.headAdvanceSeen (.mailbox r.ctx)) s = .next (committed s (State.releaseDue { t with mboxHeld := [] } r.ctx))) ∧
    (∀ r t n, s.replayHeld = [r] → s.ringAppend r.ctx (s.rplRing r.ctx) 5 0 r.bytes = (t, .ok n) →
      exec (.headAdvanceSeen (.replay r.ctx)) s = .next (committed s { t with replayHeld := [] })) ∧
    (∀ k c, s.copy? k = some c → c.moved = true ∨ c.failed ≠ none →
      exec (.headAdvanceSeen (.copies k)) s = exec (.copyComplete k) s) ∧
    ∀ fn f, s.func? fn = some f →
      exec (.headAdvanceSeen (.host fn)) s = .next (committed s (s.hostDrain fn f.held).deliverAll) ∧
      (s.hub = [] → f.held = [] ∨ ¬ HostRoom s f.comp 5 1 → exec (.headAdvanceSeen (.host fn)) s = .next s) ∧
      ∀ e t, f.held = [e] → e.length ≠ 64 → HostRoom s f.comp 5 1 → s.hostAppend f [e] = some t →
        exec (.headAdvanceSeen (.host fn)) s = .next (committed s (State.deliverAll
          { t with funcs := t.funcs.map fun g => if g.fn = fn then { g with held := [], cmp := BitVec.ofNat 32 (number e 0 4) } else g }))

namespace Sys2Proof.Claim

open Sys2Proof.Machine

/-! ### The device -/

def chanAt (s : State) (k : Nat) : Chan := smGet Chan.zero s.chans k
def coreAt (s : State) (k : Nat) : CoreWord := smGet CoreWord.zero s.coreWords k
/-- An uncorrectable sector counts on its channel, or an SRAM word on its core (R302, R454). -/
def channelUe (s : State) (line : Nat) : State :=
  let h := chanAt s (chanOf line)
  let h' : Chan := { h with ue := if h.ue < 65535 then h.ue + 1 else h.ue }
  { s with chans := smSet Chan.zero s.chans (chanOf line) h' }
def coreUe (s : State) (k : Nat) : State :=
  let w := coreAt s k
  let w' : CoreWord := { w with ue := if w.ue < 65535 then w.ue + 1 else w.ue }
  { s with coreWords := smSet CoreWord.zero s.coreWords k w' }
/-- A unit that is poisoned anew is not among those that a store still in the buffer was checked to heal (R229). -/
def struckAnew (s : State) (unit : Nat × Nat × Nat × Nat) : State :=
  let entry := fun e : SEntry => { e with heals := e.heals.filter (· != unit) }
  { s with groups := s.groups.map fun x => { x with sbuf := x.sbuf.map entry } }
/-- A sector is poisoned, and its notice due, once (R199, R202). -/
def poisons (s : State) (sec : Nat) : State :=
  if sec ∈ s.poison then s
  else { struckAnew s (0, 0, 0, sec) with poison := s.poison ++ [sec], notices := s.notices ++ [sec] }
/-- An uncorrectable sector of main memory; one whose newer bytes stand dirty in a cache keeps them, and is poisoned in main
memory alone, with one notice (R199, R202; log 68). -/
def strikes (s : State) (sec : Nat) : State :=
  channelUe (match s.stale.find? (·.sector == sec) with
    | some z =>
      if z.bad = true then s
      else { s with notices := if sec ∈ s.notices then s.notices else s.notices ++ [sec]
                    stale := s.stale.map fun z => if z.sector = sec then { z with bad := true } else z }
    | none => poisons s sec) (sec / 4)
/-- A sector is dirty in its slice, and a scrub skips it (R301). -/
abbrev Skips (s : State) (sec : Nat) : Prop := ∃ m ∈ s.cache, m.line = sec / 4 ∧ m.dirty.testBit (sec % 4) = true
/-- What a scrub does with what it finds in a sector (R301). -/
def scrubbed (s : State) (sec : Nat) (f : ScrubFind) : State :=
  if Skips s sec then s
  else match f with
    | .clean => s
    | .corrected =>
      let h := chanAt s (chanOf (sec / 4))
      let h' : Chan := { h with ce := if h.ce < 2 ^ 32 - 1 then h.ce + 1 else h.ce }
      { s with chans := smSet Chan.zero s.chans (chanOf (sec / 4)) h' }
    | .uncorrectable => strikes s sec
/-- An atom crosses its channel, as it is written or as main memory holds it: its sector on the pseudo-channel that the device's
map of addresses gives (log 21), or, in a ganged region, its two sectors, the lower on PC0 (R292, R298). -/
def crosses (s : State) (sec : Nat) (write : Bool) : State :=
  let h := chanAt s (chanOf (sec / 4))
  let lo := sec / 2 * 2
  let h' := if sec * 48 / 805306368 ∈ s.gang then (h.send 0 (s.cipher lo write)).send 1 (s.cipher (lo + 1) write)
    else h.send (Config.sectorHash sec % 2) (s.cipher sec write)
  { s with chans := smSet Chan.zero s.chans (chanOf (sec / 4)) h' }
/-- A scrub reads an atom that it does not skip whole, and writes it where it has corrected a symbol (R298, R300, R301). -/
def scrubs (s : State) (two : Bool) (atom : ScrubAtom) : State :=
  let takes := fun (sec : Nat) => if Skips s sec then false else true
  let first := takes atom.sector
  let second := two && takes (atom.sector + 1)
  let t := if first || second then crosses s atom.sector false else s
  if (first && atom.lo == .corrected) || (second && atom.hi == .corrected) then crosses t atom.sector true else t
/-- A sector is the next of a stack's pass (R301). -/
structure ScrubNext (s : State) (stack sec : Nat) : Prop where
  inside : stack < 12 ∧ chanOf (sec / 4) / 48 = stack ∧ sec * 48 < 1152 * 2 ^ 30
  least : (smGet ScrubWord.zero s.scrubs stack).at_ ≤ sec ∧
    ∀ q, (smGet ScrubWord.zero s.scrubs stack).at_ ≤ q → q < sec → chanOf (q / 4) / 48 ≠ stack
/-- A channel after a window of 2^20 beats, where it has carried one (R298). -/
def windowed (h : Chan) : Chan :=
  if h.beats < 2 ^ 20 then h else { h with togDbi := h.shDbi, togTm := h.shTm, shDbi := 0, shTm := 0, beats := 0, ended := true }

/-- A completion entry (R455). -/
def completion (seq : Word) (status : Nat) (value : DWord) : List Byte :=
  littleEndian 4 seq.toNat ++ littleEndian 4 (status % 2 ^ 16) ++ littleEndian 8 value.toNat ++ littleEndian 16 0
/-- A submission leaves its ring, HEAD advancing, and its completion is written, or held behind those that wait (R455, R456). -/
def completes (s : State) (f : Func) (acc : Option Word) (seq : Word) (status : Nat) (value : DWord) : State :=
  let t := match s.hostRing f.sub 6 with
    | none => s
    | some r => (s.hostPut (f.sub.toNat + 8) (littleEndian 4 (r.head + 1).toNat)).modFunc f.fn fun g =>
        { g with acc := acc.getD g.acc }
  let es := ((t.func? f.fn).getD f).held ++ [completion seq status value]
  (t.modFunc f.fn fun g => { g with held := es }).hostDrain f.fn es
/-- The SEQ that follows one: modulo 2^32, skipping 0 (R455). -/
def follows (acc seq : Word) : Prop := seq = if acc = 0xFFFFFFFF then 1 else acc + 1
/-- The 64 bytes of the oldest entry of a host ring. -/
def oldest (s : State) (r : Ring) : List Byte :=
  (List.range 64).map fun i => s.hostByte ((r.base + 64 * (r.head.toNat % 2 ^ r.log2n)) % 2 ^ 64 + i)
/-- The device takes the oldest submission of a function: its OS runs, no earlier one waits, and its ring is usable and holds
one, with these fields (R455, R467). -/
structure Takes (s : State) (fn : Nat) (f : Func) (e : Submission) : Prop where
  runs : s.boot.state = 1 ∧ s.hostCmd fn = none ∧ s.wq = [] ∧ s.hostWq = []
  func : s.func? fn = some f
  entry : HostUsable s f.sub 6 ∧ ∃ r, s.hostRing f.sub 6 = some r ∧ r.head ≠ r.tail ∧
    e.seq.toNat = number (oldest s r) 0 4 ∧ e.op = number (oldest s r) 4 2 ∧ e.queue = number (oldest s r) 6 2 ∧
    e.arg0.toNat = number (oldest s r) 8 8 ∧ e.arg1.toNat = number (oldest s r) 16 8
/-- One entry has gone into a host ring: its bytes stand at the slot that TAIL named, TAIL has advanced, and no other byte of
host memory has changed (R307, R455). -/
structure Appended (s t : State) (desc slot : Nat) (tail : Word) (bs : List Byte) : Prop where
  bytes : ∀ i, i < bs.length → t.hostByte (slot + i) = bs.getD i 0
  tail : ∀ i, i < 4 → t.hostByte (desc + 12 + i) = (littleEndian 4 (tail + 1).toNat).getD i 0
  others : ∀ a, ¬ (slot ≤ a ∧ a < slot + bs.length) → ¬ (desc + 12 ≤ a ∧ a < desc + 16) → t.hostByte a = s.hostByte a

end Sys2Proof.Claim

/-- R199, R202, R301, R302 and R454: an uncorrectable error in main memory or in a dirty line poisons its sector and counts on
its channel, and one in a core's SRAM marks its 8 bytes, or drops its line or segment, and counts on its core; a notice goes to
each context whose granted memory holds the sector; and a scrub goes on over its stack's sectors in ascending order, past those
that are dirty in their slice, correcting what can be corrected and poisoning what cannot. -/
def Sys2Proof.Part.ErrorsPoison : Prop :=
  ∀ s : State, s.wq = [] → s.hostWq = [] →
    (∀ sec, exec (.uncorrectableError (.main sec)) s = .next (if 1152 * 2 ^ 30 ≤ sec * 48 then s else strikes s sec)) ∧
    (∀ line sector, sector < 4 → (∀ m ∈ s.cache, m.line = line → m.present.testBit sector = false) →
      exec (.uncorrectableError (.cache line sector)) s = .next s) ∧
    (∀ line sector m, sector < 4 → s.cache.find? (fun m => m.line == line && m.present.testBit sector) = some m →
      (m.locked = true ∨ m.dirty.testBit sector = true →
        exec (.uncorrectableError (.cache line sector)) s = .next (channelUe (poisons s (4 * line + sector)) line)) ∧
      (m.locked = false → m.dirty.testBit sector = false → ∃ u : List MSLine,
        exec (.uncorrectableError (.cache line sector)) s = .next (channelUe { s with cache := u } line) ∧
        ∀ k ∈ u, k.line = line → k.present.testBit sector = false)) ∧
    (∀ core line sector, sector < 4 → (∀ l ∈ s.l1, l.core = core → l.line = line → l.present.testBit sector = false) →
      exec (.uncorrectableError (.l1 core line sector)) s = .next s) ∧
    (∀ core line sector l, sector < 4 →
      s.l1.find? (fun l => l.core == core && l.line == line && l.present.testBit sector) = some l →
      ∃ t, exec (.uncorrectableError (.l1 core line sector)) s = .next (coreUe t core) ∧
        t = { (if l.dirty.testBit sector then poisons s (4 * line + sector) else s) with l1 := t.l1, cache := t.cache } ∧
        (l.dirty.testBit sector = false → t.cache = s.cache) ∧
        (l.dirty.testBit sector = true → ∀ m ∈ t.cache, m.line = line → m.dirty.testBit sector = true) ∧
        ∀ m ∈ t.l1, m.core = core → m.line = line → m.present.testBit sector = false ∧ m.dirty.testBit sector = false) ∧
    (∀ coh w off k, s.wg? coh w = some k →
      (k.retired = true ∨ k.pages * 12288 ≤ off → exec (.uncorrectableError (.pinned coh w off)) s = .next s) ∧
      (k.retired = false → off < k.pages * 12288 → exec (.uncorrectableError (.pinned coh w off)) s =
        .next (coreUe ((if off / 8 ∈ k.badPin then s else struckAnew s (1, coh, w, off / 8)).modWg coh w fun k =>
          { k with badPin := off / 8 :: k.badPin.filter (· != off / 8) }) k.core)) ∧
      (k.retired = true ∨ k.accSize ≤ off → exec (.uncorrectableError (.acc coh w off)) s = .next s) ∧
      (k.retired = false → off < k.accSize → ∃ u : List Nat → List Nat, exec (.uncorrectableError (.acc coh w off)) s =
        .next (coreUe (s.modWg coh w fun k => { k with badAcc := u k.badAcc }) k.core) ∧
          ∀ old i, i ∈ u old ↔ i ∈ old ∨ i / 2 = off / 8)) ∧
    (∀ g row lane x, s.group? g = some x →
      (x.retired = true ∨ row < x.rlo ∨ x.rlo + x.nres ≤ row ∨ 32 ≤ lane → exec (.uncorrectableError (.row g row lane)) s = .next s) ∧
      (x.retired = false → x.rlo ≤ row → row < x.rlo + x.nres → lane < 32 → ∃ u : List Nat → List Nat, exec (.uncorrectableError (.row g row lane)) s =
        .next (coreUe (s.modGroup g fun x => { x with badRows := u x.badRows }) x.core) ∧
          ∀ old i, i ∈ u old ↔ i ∈ old ∨ i / 2 = (row * 32 + lane) / 2)) ∧
    (∀ k g, s.segs[k]? = some g →
      exec (.uncorrectableError (.adapter k)) s = .next (coreUe { s with segs := s.segs.eraseIdx k } g.core)) ∧
    (∀ sec, (sec ∉ s.notices → exec (.poisonNotice sec) s = .next s) ∧
      (sec ∈ s.notices →
        let told := s.contexts.filter fun c => s.grantHas c (sec / 256)
        ∃ t : State, exec (.poisonNotice sec) s = .next { s with notices := s.notices.filter (· != sec), fresh := t.fresh, hub := t.hub } ∧
          t.fresh = s.fresh + told.length ∧ ∃ rs : List HubRec, t.hub = s.hub ++ rs ∧ rs.length = told.length ∧
          ∀ (i : Nat) (c : Context), told[i]? = some c → ∃ h : HubRec, rs[i]? = some h ∧ h.rec_.cause = 0x42 ∧ h.rec_.ctx = c.id ∧
            h.rec_.addr = BitVec.ofNat 64 (sec * 48) ∧ h.rec_.who = 0 ∧ h.rec_.token = 0 ∧ h.way = none ∧
            h.rec_.reason = min (s.pagesTo 6 c.id (sec / 256)).length 255 ∧
            h.rec_.aux = BitVec.ofNat 64 (((s.pagesTo 6 c.id (sec / 256)).map fun q => q * 12288 + sec % 256 * 48).getD 0 0))) ∧
    ∀ stack sec lo hi, (¬ ScrubNext s stack sec → exec (.scrub stack ⟨sec, lo, hi⟩) s = .next s) ∧
      (ScrubNext s stack sec →
        let w := smGet ScrubWord.zero s.scrubs stack
        let two := sec * 48 / 805306368 ∈ s.gang ∧ sec % 2 = 0
        let s' := scrubs s two ⟨sec, lo, hi⟩
        let v := if two then scrubbed (scrubbed s' sec lo) (sec + 1) hi else scrubbed s' sec lo
        let n := if two then 2 else 1
        ∃ t, exec (.scrub stack ⟨sec, lo, hi⟩) s = .next t ∧ t = { v with scrubs := t.scrubs } ∧
          (∀ k, k ≠ stack → smGet ScrubWord.zero t.scrubs k = smGet ScrubWord.zero s.scrubs k) ∧
          smGet ScrubWord.zero t.scrubs stack =
            if w.next + n < 2 ^ 31 then ⟨w.passes, w.next + n, sec + n⟩ else ⟨w.passes + 1, 0, 0⟩)

/-- R293, R296 to R298, R302, R458 and R459: on the line codes the receiver recovers every byte and the sender drives the
cheaper of the two levels, the plain one on a tie; a sector drives the wires of its pseudo-channel and adds to both counters what
each code costs from those levels; a window of 2^20 beats latches the totals and the next refresh switches a channel to the
other code where that costs less by more than a sixteenth; ganging changes only where no context holds the region, whose bytes
are then zero; and a link counts its replays and losses. -/
def Sys2Proof.Part.StacksAndLinks : Prop :=
  (∀ (tm : Bool) (w : Wires) (prev d : Byte) (ds : List Byte),
    let b := beat tm w prev d
    let mask := if tm then prev else 0xFF
    let cost := fun c : Bool => ((List.range 8).filter fun i => ((if c then d ^^^ mask else d) ^^^ w.t).getLsbD i).length +
      if c = w.c then 0 else 1
    b.1 = ⟨if cost true < cost false then d ^^^ mask else d, decide (cost true < cost false)⟩ ∧
      b.2 = min (cost true) (cost false) ∧ receive tm prev b.1.t b.1.c = d ∧
      burst tm w [] = (w, 0) ∧ (burst tm w (d :: ds)).2 = (beat tm w 0 d).2 + (beats tm (beat tm w 0 d).1 d ds).2 ∧
      (burst tm w (d :: ds)).1 = (beats tm (beat tm w 0 d).1 d ds).1) ∧
  (∀ (h : Chan) (pc : Nat) (bs : List Byte), h.wires.length = 6 → pc < 2 →
    let t := h.send pc bs
    let groups := (List.range 3).map fun g => burst h.code (h.wires.getD (3 * pc + g) ⟨0, false⟩) (busBytes bs g)
    t.code = h.code ∧ t.switches = h.switches ∧ t.ue = h.ue ∧ t.ce = h.ce ∧ t.beats = (windowed h).beats + 16 ∧
      t.ended = (windowed h).ended ∧ t.togDbi = (windowed h).togDbi ∧ t.togTm = (windowed h).togTm ∧
      (∀ k, k < 6 → t.wires.getD k ⟨0, false⟩ =
        if k / 3 = pc then ((groups.map (·.1)).getD (k % 3) ⟨0, false⟩) else h.wires.getD k ⟨0, false⟩) ∧
      ∀ tm, (if tm then t.shTm else t.shDbi) = (if tm then (windowed h).shTm else (windowed h).shDbi) +
        BitVec.ofNat 32 (((List.range 3).map fun g =>
          (burst tm (h.wires.getD (3 * pc + g) ⟨0, false⟩) (busBytes bs g)).2).sum)) ∧
  ∀ s : State, s.wq = [] → s.hostWq = [] →
    (∀ stack chan, (12 ≤ stack ∨ 48 ≤ chan →
        exec (.refresh stack chan) s = .next s ∧ exec (.toggleWindowEnd stack chan) s = .next s) ∧
      (stack < 12 → chan < 48 →
        let k := stack * 48 + chan
        let h := windowed (chanAt s k)
        let cur := if h.code then h.togTm.toNat else h.togDbi.toNat
        let other := if h.code then h.togDbi.toNat else h.togTm.toNat
        (∃ t, exec (.toggleWindowEnd stack chan) s = .next t ∧ t = { s with chans := t.chans } ∧
          (∀ j, j ≠ k → chanAt t j = chanAt s j) ∧ chanAt t k = h) ∧
        ∃ t, exec (.refresh stack chan) s = .next t ∧ t = { s with chans := t.chans } ∧ (∀ j, j ≠ k → chanAt t j = chanAt s j) ∧
          chanAt t k = if h.ended = true ∧ other < cur - cur / 16 then
              { h with code := !h.code, switches := h.switches + 1, ended := false }
            else { h with ended := false })) ∧
    (∀ r on, (1536 ≤ r ∨ s.regionHeld r = true ∨ s.gang.contains r = on → exec (.gangingChange r on) s = .next s) ∧
      (r < 1536 → s.regionHeld r = false → s.gang.contains r ≠ on → ∃ t, exec (.gangingChange r on) s = .next t ∧
        (∀ q, q ∈ t.gang ↔ if q = r then on = true else q ∈ s.gang) ∧
        ∀ a, Memory.read t.mem a = if a / 805306368 = r then 0 else Memory.read s.mem a)) ∧
    ∀ l, let w := smGet LinkWord.zero s.links l
      (16 ≤ l → exec (.linkReplay l) s = .next s ∧ exec (.linkDown l) s = .next s ∧ ∀ p, exec (.linkTrained l p) s = .next s) ∧
      (l < 16 → ∃ (t u : SMap LinkWord) (v : Nat → SMap LinkWord), exec (.linkReplay l) s = .next { s with links := t } ∧ (∀ j, j ≠ l → smGet LinkWord.zero t j = smGet LinkWord.zero s.links j) ∧
        smGet LinkWord.zero t l = (if w.up then { w with retry := if w.retry < 2 ^ 24 - 1 then w.retry + 1 else w.retry } else w) ∧
        (w.up = false → exec (.linkDown l) s = .next s) ∧
        (w.up = true → exec (.linkDown l) s = .next (State.raise { s with links := u } { TrapRec.empty with cause := 0x42 }) ∧
          (∀ j, j ≠ l → smGet LinkWord.zero u j = smGet LinkWord.zero s.links j) ∧
          smGet LinkWord.zero u l = { w with up := false, peer := 0x7F
                                             downs := if w.downs < 2 ^ 32 - 1 then w.downs + 1 else w.downs }) ∧
        ∀ p, exec (.linkTrained l p) s = .next { s with links := v p } ∧
          (∀ j, j ≠ l → smGet LinkWord.zero (v p) j = smGet LinkWord.zero s.links j) ∧
          smGet LinkWord.zero (v p) l = if w.up then w else { w with up := true, peer := BitVec.ofNat 7 p })

/-- R330, R452, R455 to R457 and R405: the device takes a function's oldest submission; one whose SEQ does not follow is refused
and leaves ACC; nothing is taken from a ring that is not usable; a SYSR or SYSW acts as the function's context would, and a LAUNCH that a program could not make is refused;
each completes with its status; and a function-level reset clears ACC, CMP and what is held.
The status of a submission that is refused, and where rings stand at reset, are the model's choice (log 69). -/
def Obligations.HostSubmits : Prop :=
  (∀ (s : State) (fn : Nat) (f : Func) (e : Submission), Takes s fn f e →
    (¬ follows f.acc e.seq →
      (e.op = 2 → exec (.hostSysr fn) s = .next (committed s (completes s f none e.seq 0xFFFF 0))) ∧
      (e.op = 3 → exec (.hostSysw fn) s = .next (committed s (completes s f none e.seq 0xFFFF 0))) ∧
      (e.op ≠ 2 → e.op ≠ 3 → exec (.hostLaunch fn) s = .next (committed s (completes s f none e.seq 0xFFFF 0)))) ∧
    (follows f.acc e.seq →
      (e.op = 2 → ∀ st v, s.sysRead f.ctx e.arg0 = (st, v) →
        exec (.hostSysr fn) s = .next (committed s (completes s f (some e.seq) e.seq st v))) ∧
      (e.op = 3 → ∀ t st, s.sysWrite f.ctx e.arg0 e.arg1 = (t, st, []) →
        exec (.hostSysw fn) s = .next (committed s (completes t f (some e.seq) e.seq st 0))) ∧
      (e.op ≠ 2 → e.op ≠ 3 →
        let i : Instr := .hostLaunch fn
        let k := s.ctx? f.ctx
        let refused := e.op ≠ 1 ∨ (k.map (·.queues)).getD 0 ≤ e.queue ∨ e.arg0.toNat % 64 ≠ 0
        let end_ := fun (t : State) st => exec i s = .next (committed s (completes t f (some e.seq) e.seq st 0))
        (refused → end_ s 0xFFFF) ∧
        (¬ refused →
          (∀ t g, s.ctxRead none f.ctx e.arg0 128 .r = (t, .error g) → end_ t 0xFFFF) ∧
          ∀ t bs c, s.ctxRead none f.ctx e.arg0 128 .r = (t, .ok bs) → t.ctx? f.ctx = some c →
            (c.store ≤ stored t f.ctx → end_ t 1) ∧
            (stored t f.ctx < c.store → end_ { t.modCtx f.ctx (fun k => { k with lserial := k.lserial + 1 }) with
              fresh := t.fresh + 1
              launches := t.launches ++ [
                { uid := t.fresh, ctx := f.ctx, queue := e.queue, serial := c.lserial, addr := e.arg0, via := f.ctx, from_ := 0
                  bound := t.fresh, control := c.desc.ctlq.toNat.testBit e.queue, read := false, pkt := Packet.none, raw := []
                  walk := none, traced := (smGet 0 c.obs 0x2010).getLsbD 63 && (smGet 0 c.obs 0x2018).getLsbD e.queue }] } 0))))) ∧
  (∀ (s : State) (fn : Nat) (f : Func), s.boot.state = 1 → s.hostCmd fn = none → s.wq = [] → s.hostWq = [] →
    s.func? fn = some f → ¬ HostUsable s f.sub 6 →
    exec (.hostSysr fn) s = .next s ∧ exec (.hostSysw fn) s = .next s ∧ exec (.hostLaunch fn) s = .next s) ∧
  (∀ (s : State) (f : Func) (bs : List Byte), bs.length = 32 →
    (¬ HostRoom s f.comp 5 1 → s.hostAppend f [bs] = none) ∧
    ∀ r, HostRoom s f.comp 5 1 → s.hostRing f.comp 5 = some r →
      let slot := (r.base + 32 * (r.tail.toNat % 2 ^ r.log2n)) % 2 ^ 64
      slot + 32 ≤ f.comp.toNat + 12 ∨ f.comp.toNat + 16 ≤ slot →
      ∃ t, s.hostAppend f [bs] = some t ∧ Appended s t f.comp.toNat slot r.tail bs) ∧
  ∀ (s : State) (fn : Nat) (f : Func), s.wq = [] → s.hostWq = [] → s.func? fn = some f → (∀ z ∈ s.sessions, s.isUnder f.ctx z.ctx = false) →
    exec (.functionLevelReset fn) s = .next { s with
      cmds := s.cmds.filter fun c => !(c.g == 0 && c.p == fn && c.kind == .reset)
      funcs := s.funcs.map fun g => if g.fn = fn then { g with acc := 0, cmp := 0, held := f.held.filter (·.length == 64) } else g }

/-- R453 and R460 to R465: a function's window lists its capabilities, boot's alone in the recovery state; boot verifies the flash image, digest first, and runs it or comes up in recovery; a recovery image that
verifies goes to flash and restarts Dawn; a nonce asks for its report in the place of one that is being made, and the buffer is
valid once that is complete; a plan, at boot and after 24 hours of operation, counts, sets the margin, and takes each core of its
region through a slice boundary, one without a safe point to be withdrawn; and the clock moves by 100 MHz, no sooner than 1 ms
after it last moved and never beyond 3,300 MHz.
Digests and signatures are free (log 19), the second boot after a recovery image is the model's reading (log 75), and so
is the lowest clock (log 74), and where the capability entries stand (log 23). -/
def Obligations.DeviceLives : Prop :=
  ∀ s : State, s.wq = [] → s.hostWq = [] →
    let verdict := fun (bs : List Byte) => if Config.digestOk bs = false then 1 else if Config.signatureOk bs = false then 2 else 0
    let b := s.boot
    (∀ fn, let ks := if fn ≠ 0 then [3, 5] else if b.state = 2 ∨ b.state = 3 then [5] else [1, 2, 3, 4, 5, 6]
      let w := s.capList fn
      w.length = 16 * ks.length ∧ ∀ i, i < ks.length → number w (16 * i) 2 = ks.getD i 0 ∧ number w (16 * i + 2) 2 = 1 ∧
        number w (16 * i + 4) 4 = (if i + 1 = ks.length then 0 else 16 * (i + 1)) ∧ number w (16 * i + 8) 8 = capAddr (ks.getD i 0) ∧
        2 ^ 31 ≤ capAddr (ks.getD i 0) ∧ capAddr (ks.getD i 0) % 8 = 0) ∧
    (∀ fn off, (s.windowWord fn off).isSome = (s.capabilities fn).any fun k => capAddr k == off) ∧
    (b.state ≠ 0 → exec .boot s = .next s) ∧
    (b.state = 0 →
      let n := if Config.flashReadable s.steps then verdict b.flash else 3
      exec .boot s = .next { s with planAt := [], boot :=
        if n = 0 then { b with state := 1, fail := 0, imgver := Config.imageVersion b.flash } else { b with state := 2, fail := n } }) ∧
    (b.state ≠ 3 → exec .recoveryImage s = .next s) ∧
    (b.state = 3 →
      let n := verdict b.recovery
      exec .recoveryImage s = .next { s with boot :=
        if n = 0 then { b with state := 0, fail := 0, flash := b.recovery, recovery := [] }
        else { b with state := 2, fail := n, recovery := [] } }) ∧
    (∀ n, exec (.nonce n) s = .next { s with boot := { b with nonce := n, asked := true, valid := false } }) ∧
    s.attest = (if b.asked = true then
      { s with boot := { b with asked := false, report := Config.attestation b.nonce b.flash, valid := true } } else s) ∧
    let plans := fun r => b.state = 1 ∧ r < 96 ∧
      (smGet 0 s.planAt r = 0 ∨ smGet 0 s.planAt r - 1 + 24 * 3600 * 10 ^ 9 ≤ s.ns.toNat)
    (∀ r margin cores, ¬ plans r → exec (.replan r margin cores) s = .next s) ∧
    (∀ r margin cores, plans r → ∃ t, exec (.replan r margin cores) s = .next t ∧
      (∀ q, smGet ⟨0, 0⟩ t.ageing q = if q = r then ⟨(smGet ⟨0, 0⟩ s.ageing r).plans + 1, BitVec.ofNat 8 margin⟩
        else smGet ⟨0, 0⟩ s.ageing q) ∧
      (∀ q, smGet 0 t.planAt q = if q = r then s.ns.toNat + 1 else smGet 0 s.planAt q) ∧
      t = { s with ageing := t.ageing, planAt := t.planAt, coreWords := t.coreWords, ladders := t.ladders } ∧
      ∀ k, k / 8 = r → (s.coreGroups k = [] → ((coreAt t k).wdrn = true ↔ k ∈ cores ∨ (coreAt s k).wdrn = true)) ∧
        ∀ g ∈ s.coreGroups k, ∃ l ∈ t.ladders, l.core = k ∧ l.ctx = g.ctx ∧ (k ∈ cores → l.withdraw = true)) ∧
    let due := ∀ t, s.clockAt = some t → t + 1000000 ≤ s.ns.toNat
    (∀ down, ¬ due → exec (.clockThrottle down) s = .next s) ∧
    (due → exec (.clockThrottle true) s =
      .next (if 200 ≤ s.clockMhz then { s with clockMhz := s.clockMhz - 100, clockAt := some s.ns.toNat, nsRem := s.nsRem * (s.clockMhz - 100) / s.clockMhz } else s)) ∧
    (due → exec (.clockThrottle false) s =
      .next (if s.clockMhz + 100 ≤ 3300 then { s with clockMhz := s.clockMhz + 100, clockAt := some s.ns.toNat, nsRem := s.nsRem * (s.clockMhz + 100) / s.clockMhz } else s))

namespace Sys2Proof.Claim

open Sys2Proof.Machine

/-! ### Encoding, steps and stops -/

/-- A number stored at offset o of a record, n bytes long. -/
def field_at (bs : List Byte) (o n : Nat) : Nat := leNat ((bs.drop o).take n)

/-- The groups of a partition that may take its issue slot and are ready. -/
def contends (s : State) (core part : Nat) (g : Group) : Prop :=
  g ∈ s.groups ∧ g.core = core ∧ g.part = part ∧ g.resident = true ∧ g.retired = false ∧ g.active = true ∧ s.groupReady g = true
/-- The oldest of them; one whose clause ended with YIELD is the youngest at the next choice (R50, R351). -/
structure Oldest (s : State) (core part : Nat) (z : Group) : Prop where
  ready : contends s core part z
  first : ∀ g, contends s core part g → g ≠ z →
    (z.yielded = false ∧ g.yielded = true) ∨ (z.yielded = g.yielded ∧ z.startNo < g.startNo)
/-- A group whose path may be tried at an issue slot. -/
structure MayIssue (s : State) (x : Group) (p : Nat) : Prop where
  group : s.group? x.uid = some x
  runs : x.active = true ∧ x.resident = true ∧ x.retired = false ∧ x.handler = none ∧ s.graced x = false
  path : (x.path p).st = .ready ∧ (x.path p).fetched = true ∧ (x.path p).formAfter = false
/-- The next turn of s gives path p of group x the issue slot, in the state u: the oldest ready group of the partition's active
set takes it with the path whose words its clause buffer holds, and no closure of it goes first; a set of one group tries its
path whether or not it is held, and so is a held word tried again (R45, R180, R351). -/
def Slotted (s u : State) (x : Group) (p : Nat) : Prop :=
  ∃ v y q, s.tick.nextTurn = (some (.issue y.uid q), v) ∧ MayIssue v y q ∧
    let lone := (v.activeSet y.core y.part).length = 1
    (¬ lone ∧ v.pathReady y q = false ∧ u = v ∧ x = y ∧ p = q) ∨
    (∃ z, (lone ∧ z = y ∨ ¬ lone ∧ v.pathReady y q = true ∧ Oldest v y.core y.part z) ∧
      z.buffered = some p ∧ x = { z with yielded := false } ∧ u = v.clearYields y.core y.part ∧ u.closureReady x = false)
/-- Path p of group x stands in t at the word that issues next: a later word of its clause, or the first, once the clause wait
is over and no poison ends it (R47). -/
def Issues (s t : State) (x : Group) (p : Nat) : Prop :=
  ∃ u w, Slotted s u w p ∧
    (((w.path p).hdr = false ∧ x = w ∧ t = { u with issued := none }) ∨
      ((w.path p).hdr = true ∧ w.waitPoison p (hdrWait (w.path p).head.toNat) = none ∧ u.waitOver w p = true ∧
        x = w.modPath p Path.enter ∧ t = { u.setGroup x with issued := some ⟨x.uid, p⟩ }))

/-- The next turn of s lets a path's clause be fetched: one that the group's clause buffer does not hold (R180, R242). -/
structure Fetches (s t : State) (x : Group) (p : Nat) : Prop where
  turn : s.tick.nextTurn = (some (.issue x.uid p), t) ∨ s.tick.nextTurn = (some (.event (.clauseFetch x.uid p)), t)
  group : t.group? x.uid = some x
  runs : x.active = true ∧ x.resident = true ∧ x.retired = false ∧ x.handler = none ∧ t.graced x = false
  path : (x.path p).st = .ready ∧ ((x.path p).formAfter = true ∨ (x.path p).fetched = false)
/-- The path whose clause is fetched next: the next READY one after the last that issued, or, while the one that the buffer holds
is held before its clause, the next one after that (R45, R180). -/
def FetchedNext (t : State) (x : Group) (p : Nat) : Prop :=
  (x.buffered = none ∧ (x.readyFrom x.last).head? = some p) ∨
  ∃ b, x.buffered = some b ∧ (x.path b).hdr = true ∧ t.pathHeld x b = true ∧ (x.readyFrom b).find? (· != b) = some p
/-- Two states differ at most in which register rows stand in Twilight (R84). -/
def ButRows (a b : State) : Prop :=
  a = { b with groups := a.groups } ∧
    a.groups.map (fun g => { g with awake := none }) = b.groups.map fun g => { g with awake := none }
/-- No comparator hits the word (R439), and no replay log holds the path (R436). -/
def unmet (t : State) (x : Group) (p : Nat) : Prop := t.bpHit x p = none ∧ t.replayHolds x = false
/-- A word that only a control group may run (R63). -/
def system (w : Nat) : Bool := 0x380 ≤ opOf w && opOf w ≤ 0x38F

end Sys2Proof.Claim

/-- R42, R51 to R62: every well-formed instruction form has one 64-bit word, which the decoder reads back; and every word that
the decoder accepts is the word of the form that it reads, under an opcode that R60 assigns. No bit is dropped.
The printed word of mma.ad that its field table does not give is left to the table (log 15). -/
def Obligations.DecodeAndEncodeAgree : Prop :=
  (∀ i : Instr, Instr.wf i = true → Instr.isWord i = true →
    ∃ w, encode i = some w ∧ w < 2 ^ 64 ∧ decode w = some i ∧ decodeTableWord 64 w = some i) ∧
  ∀ w i, decode w = some i → Instr.wf i = true ∧ Instr.isWord i = true ∧ encode i = some w ∧ opAssigned (opOf w) = true

/-- The words that the manual writes out for some instructions of each family decode to those instructions, and words with an
unassigned opcode, variant or mod value, a non-zero unused field or a refused selector decode to none (R54, R62). -/
def Obligations.ExampleWordsDecode : Prop :=
  decode 0x1400800002613614 = some (.fma .rne ⟨Sys2Proof.FTy.f32, false, false, false, false⟩ .off (.v 2) (.s 3) (.s 4)) ∧
  decode 0x1A80651002800000 = some (.fcmp .lt ⟨Sys2Proof.FTy.f32, false, false, false, false⟩ (.m 1) (.v 2) (.imm 0)) ∧
  decode 0x0740004600000000 = some (.mov false false (.v 4) (.b 0)) ∧
  decode 0x1208004600803000 = some (.fmul .rne ⟨Sys2Proof.FTy.f32, true, false, false, false⟩ (.v 4) (.b 0) (.imm 3)) ∧
  decode 0x0018005003FF9000 = some (.iadd ⟨false, true, true⟩ (.v 5) (.v 3) (.imm (-7))) ∧
  decode 0x06D2652001617000 = some (.icmp .lt false true (.m 2) (.v 1) (.s 7)) ∧
  decode 0x08C2009009804000 = some (.shflx .w8 false (.v 9) (.v 9) (.imm 4)) ∧
  decode 0x20400070030000ED = some (.cvt .rz false .s32 .f32 (.v 7) (.v 3)) ∧
  decode 0x2210028000027000 = some (.quant .ts8 40 39 0) ∧
  decode 0x3208009004000000 = some (.frcp ⟨Sys2Proof.FTy.f32, true, false, false, false⟩ (.v 9) (.v 4)) ∧
  decode 0x4108002080060000 = some (.ld .b32 .gp false (.v 2) ⟨2, .v 1, 2, 0⟩) ∧
  decode 0x4567014260000040 = some (.atom .cas true .cx .ar (.v 20) ⟨9, .imm 0, 0, 0x40⟩) ∧
  decode 0x4D802002000001E0 = some (.accr 8 8 16 0) ∧
  decode 0x6060200000200006 = some (.mma false true 8 0 1 2 1) ∧
  decode 0x6280200000002200 = some (.adapply 8 17 0) ∧
  decode 0x7018000500000005 = some (.bra (.nz (.v 5)) 5) ∧
  decode 0x717E00060000000C = some (.call 62 6 12) ∧
  decode 0x8001000000000000 = some .dmodeOn ∧
  decode 0x82C0105180000000 = some (.evinc 4 5 6) ∧
  decode 0xE141100187000000 = some (.dckptLoad 4 6 7) ∧
  decode 0xE3C024A000000001 = some (.resume 9 10 0 0 1) ∧
  decode (0x02B * 2 ^ 54) = none ∧ decode (0x390 * 2 ^ 54) = none ∧ decode (0x045 * 2 ^ 54) = none ∧
  decode 0x0001005003FF9000 = none ∧ decode 0x0018005003FF9001 = none ∧ decode 0x7340000000000001 = none ∧
  decode 0x0740004800000000 = some (.mov false false (.v 4) (.imm 0)) ∧ decode 0x0740004608000000 = none

/-- R45, R47, R50, R64, R84, R180, R242, R314 and R351: when the path that issues next stands at a word that decodes, passes the
word checks and meets no comparator, a step runs exactly that instruction, or defers it, and then no path stands at issue. When
the next turn is an event, a step runs the event; a clause's fetch only where that path is the next to be fetched, and a closure
only where its group is the oldest ready one of the active set, nothing happening otherwise. Settling changes only what tells of
the issue: which path of the group went last, whether the group is the youngest, since when it waits, which of its rows are awake,
and, where the first word of a clause was held, the path back at its header.
Which turn is next is the model's own schedule (log 1), and resolve names the row of an mbox or sysw word (log 9). -/
def Obligations.StepsRunTheDecodedInstruction : Prop :=
  (∀ (s t : State) (x : Group) (p : Nat) (i : Instr), Claim.Issues s t x p → Claim.unmet t x p →
    let w := (x.path p).word.toNat
    let u : State := { t with cur := some ⟨x.uid, p⟩ }
    (Claim.system w = true → x.control = true) → decode w = some i → x.fits i = true →
    (∀ n ∈ latchReads i, latchWritten (x.path p).words (x.path p).pos n = true) →
      (x.defers p i = true → step s = settle u (exec (.defer (x.path p).word) u)) ∧
      (x.defers p i = false →
        step s = settle u (exec (resolve x i) u) ∧
        ((∀ d a v, i ≠ .sysw d a v) → (∀ d a b c n, i ≠ .resume d a b c n) → step s = settle u (exec i u)))) ∧
  (∀ (s t : State) (i : Instr), s.tick.nextTurn = (some (.event i), t) → Instr.isEvent i = true →
    (∀ g p, i ≠ .clauseFetch g p) → (∀ g, i ≠ .closureRun g) → step s = settle t (exec i t)) ∧
  (∀ (s t : State) (x : Group) (p : Nat), Claim.Fetches s t x p →
    (Claim.FetchedNext t x p → step s = settle t (exec (.clauseFetch x.uid p) t)) ∧
    (¬ Claim.FetchedNext t x p → step s = settle t (.next t))) ∧
  (∀ (s t : State) (x z : Group), s.tick.nextTurn = (some (.event (.closureRun x.uid)), t) → t.group? x.uid = some x →
    Claim.Oldest t x.core x.part z →
    (z = x → t.closureReady x = true →
      step s = settle (t.clearYields x.core x.part) (exec (.closureRun x.uid) (t.clearYields x.core x.part))) ∧
    (z.uid ≠ x.uid ∨ t.closureReady z = false → step s = settle t (.next t))) ∧
  ∀ (u v : State), ∃ w, settle u (.next v) = .next w ∧ w = { v with cur := none, issued := w.issued, groups := w.groups } ∧
    w.groups.length = v.groups.length ∧
    ∀ (i : Nat) (y z : Group), v.groups[i]? = some y → w.groups[i]? = some z →
      z = { y with last := z.last, yielded := z.yielded, waitSince := z.waitSince, paths := z.paths, awake := z.awake } ∧
      (y.awake = none → z.awake = none) ∧ (∀ rs, y.awake = some rs → ∃ q, z.awake = some q ∧ ∀ r ∈ rs, r ∈ q) ∧
      (u.cur = none → z = { y with awake := z.awake }) ∧
      ∀ c, u.cur = some c →
        (y.uid ≠ c.g → z = { y with awake := z.awake }) ∧
        (z.paths = y.paths ∨ (u.issued = u.cur ∧
          z.paths = (y.modPath c.p fun h => { h with hdr := true, pc := h.pc - 8 }).paths)) ∧
        ∀ x, u.group? c.g = some x → v.group? c.g ≠ none → held x c.p (.next v) = false → y.uid = c.g →
          z.paths = y.paths ∧ z.last = c.p ∧ ∀ q, z.awake = some q → ∀ r ∈ issuedRows x c.p, r ∈ q

/-- R62 to R65: the word at issue is checked before anything of it happens, PRIVILEGE first, then ILLEGAL_INSTRUCTION, a
register at or above W included, then ILLEGAL_LATCH; whatever the mask or guard, the path stops precisely with the first that
fails. -/
def Obligations.WordsAreChecked : Prop :=
  ∀ (s t : State) (x : Group) (p : Nat), s.cur = none → Claim.Issues s t x p → Claim.unmet t x p →
    let w := (x.path p).word.toNat
    let stops := fun (code : Nat) => ∃ u, step s = .next u ∧
      Claim.ButRows u { committed t (t.stopHere x.uid p (Cause.plain code (x.exec p))) with cur := none, issued := none }
    (Claim.system w = true → x.control = false → stops 0x03) ∧
    ((Claim.system w = true → x.control = true) →
      (decode w = none → stops 0x02) ∧
      ∀ i, decode w = some i →
        (x.fits i = false → stops 0x02) ∧
        (x.fits i = true → (∃ n ∈ latchReads i, latchWritten (x.path p).words (x.path p).pos n = false) → stops 0x04))

/-- Every step from a sound state that goes on leaves a sound state: memory stays in its canonical form, no write is left
waiting, and no path is left at issue.
Soundness is stated of the model's own form of memory and of its step (logs 1, 2). -/
def Obligations.StepsKeepTheInvariant : Prop :=
  ∀ s t : State, s.Inv → step s = .next t → t.Inv

/-- The state after reset is sound, and is as the manual gives it: before boot, with the root context at depth 0 and nothing
else at work, the host's ACC and CMP 0, no context's counters or serials moved, every link out of service, no error counted
and the clock at 3,300 MHz (R19, R302, R454 to R460, R465). What the manual gives no value for is not stated.
That an unlisted byte reads as the model's value is a choice (log 2). -/
def Obligations.ResetIsSound : Prop :=
  let s := State.reset
  s.Inv ∧ (∀ a, Memory.read s.mem a = Memory.unlisted) ∧ s.groups = [] ∧ s.wgs = [] ∧ s.cohorts = [] ∧ s.grids = [] ∧
  s.launches = [] ∧ s.bins = [] ∧ s.pool = [] ∧ s.copies = [] ∧ s.hub = [] ∧ s.ladders = [] ∧ s.sessions = [] ∧
  (∃ c, s.contexts = [c] ∧ c.id = 0 ∧ c.depth = 0 ∧ c.parent = none ∧ ∀ n, smGet 0 c.ev n = 0) ∧
  (∃ f, s.funcs = [f] ∧ f.fn = 0 ∧ f.ctx = 0 ∧ f.acc = 0 ∧ f.cmp = 0 ∧ f.held = []) ∧
  s.boot.state = 0 ∧ s.boot.fail = 0 ∧ s.boot.valid = false ∧ s.clockMhz = 3300 ∧
  (∀ l, smGet LinkWord.zero s.links l = ⟨false, 0x7F, 0, 0⟩) ∧
  (∀ k, (smGet CoreWord.zero s.coreWords k).ue = 0 ∧ (smGet CoreWord.zero s.coreWords k).ce = 0) ∧
  ∀ k, (smGet Chan.zero s.chans k).ue = 0 ∧ (smGet Chan.zero s.chans k).ce = 0

/-- R46, R388 to R391, R397 and R442: a precise stop parks the path at its PC, HDR and POS with its latches under a token of
its own, and sends one record; no register, other path, other group or byte of memory changes. Released, the path stands
where it stood, or past a trap or brk, and the word that a comparator or watch stopped is passed once; redirected, it stands at
the target's header with no latch. A debug stop keeps PC, HDR, POS and latches too
(R441, R445).
The value of a token is the model's own (log 80), and that the records of one step are written together is its reading
(log 109). -/
def Obligations.PreciseStops : Prop :=
  (∀ (s : State) (x : Group) (p : Nat) (c : Cause), s.group? x.uid = some x → p < x.paths.length →
    let t := s.raiseStop x.uid p c
    let y := x.path p
    ∃ b : BrMap,
      let z : Path := { y with
        st := .parked, stop := some ⟨c.code, s.fresh, c.load, c.after⟩, fetched := false, stepping := false, stepped := false, brmap := b }
      t.group? x.uid = some (x.setPath p z) ∧ (∀ g, g ≠ x.uid → t.group? g = s.group? g) ∧
      t.mem = s.mem ∧ t.wq = s.wq ∧
      (∃ h : HubRec, t.hub = s.hub ++ [h] ∧ h.way = none ∧ h.rec_ =
        { cause := c.code, reason := c.reason, ctx := x.ctx, depth := s.depth x.ctx, sdep := c.sdep, token := s.fresh
          who := x.who, pc := y.pc, path := p, pos := if y.hdr = true then 0 else y.pos, hdr := y.hdr, cow := c.cow
          addr := c.addr, aux := c.aux, aux2 := c.aux2, lanes := c.lanes }) ∧
      (c.after = false →
        z.resumed.st = .ready ∧ z.resumed.stop = none ∧ z.resumed.pc = y.pc ∧ z.resumed.hdr = y.hdr ∧ z.resumed.pos = y.pos ∧
        z.resumed.head = y.head ∧ z.resumed.latch = y.latch ∧ z.resumed.dlatch = y.dlatch ∧
        (z.resumed.skip = true ↔ y.hdr = false ∧ (c.code = 0x31 ∨ c.code = 0x32))) ∧
      (c.after = true → y.hdr = false → y.pos < hdrCount y.head.toNat →
        z.resumed.st = .ready ∧ z.resumed.stop = none ∧ z.resumed.pc = y.pc + 8 ∧ z.resumed.pos = y.pos + 1 ∧
        z.resumed.hdr = false ∧ z.resumed.latch = y.latch) ∧
      ∀ a, (z.redirected a).st = .ready ∧ (z.redirected a).stop = none ∧ (z.redirected a).pc = a ∧ (z.redirected a).hdr = true ∧
        (z.redirected a).latch = [] ∧ (z.redirected a).dlatch = []) ∧
  ∀ (s : State) (x : Group) (p : Nat) (d : DStop), s.group? x.uid = some x → p < x.paths.length →
    ∃ (u : State) (bs : List Byte) (b : BrMap) (tok : Nat),
      u.group? x.uid = some (x.setPath p { x.path p with brmap := b }) ∧ (∀ g, g ≠ x.uid → u.group? g = s.group? g) ∧
      u.mem = s.mem ∧ u.wq = s.wq ∧
      (∀ c, s.ctx? x.ctx = some c → tok = c.sserial.toNat ∧
        ∃ e, u.ctx? x.ctx = some e ∧ e.sserial = if c.sserial + 1 = 0 then 1 else c.sserial + 1) ∧
      bs.length = 64 ∧ number bs 0 1 = 1 ∧ number bs 1 1 = d.event % 256 ∧
      let t := s.haltPath x.uid p d
      let v := u.mboxPut x.ctx x.uid bs
      t.mem = v.mem ∧ t.wq = v.wq ∧ t.mboxHeld = v.mboxHeld ∧ (∀ g, g ≠ x.uid → t.group? g = v.group? g) ∧
      ∀ y, v.group? x.uid = some y → p < y.paths.length → ∃ k : Option Stop,
        t.group? x.uid = some (y.setPath p { y.path p with
          st := .halted, dtoken := tok, fetched := false, stepping := false, stepped := false, release := none, stop := k })

/-- R37, R42, R43, R45, R49 and R69: a word executes in the lanes of its path's mask, a guarded one in those of them where the
guard register, inverted or not, is 1, so that ?m0 guards nothing and ?!m0 lets no lane run; after it the path is at the next
8 bytes, still in its clause with its latches, or, after the last word, at the next header with none. -/
def Obligations.LanesAndPositions : Prop :=
  ∀ (x : Group) (p : Nat), let y := x.path p; let h := y.head.toNat
    (∀ l, l < 32 → (laneOn (x.exec p) l = true ↔ laneOn (x.mask p) l = true ∧
      (h.testBit (23 + y.pos) = true →
        ((if fld h 40 4 = 0 then laneOn (x.mask p) l else laneOn (x.mGet (fld h 40 4)) l) ^^ h.testBit 39) = true))) ∧
    (∀ l, l < 32 → (laneOn (x.mask p) l = true ↔ (x.quad (l / 4)).path = some p ∧ (x.quad (l / 4)).qm.getLsbD (l % 4) = true)) ∧
    (y.hdr = false → y.pos < fld h 53 4 →
      y.advance.pc = y.pc + 8 ∧ y.advance.pos = y.pos + 1 ∧ y.advance.hdr = false ∧ y.advance.head = y.head ∧
      y.advance.words = y.words ∧ y.advance.latch = y.latch ∧ y.advance.dlatch = y.dlatch) ∧
    (y.hdr = false → y.pos = fld h 53 4 →
      y.advance.pc = y.pc + 8 ∧ y.advance.hdr = true ∧ y.advance.latch = [] ∧ y.advance.dlatch = [] ∧ y.advance.fetched = false)

/-- R32, R54, R66 to R69 and R71: a v register or pair is read at the window's base in its lane, with the odd register high; an
s register whole or in its low half, s0 as zero; an m register as its word, m0 as the path's mask; a latch at its number; and an
immediate sign-extended to the width. -/
def Obligations.OperandsAreRead : Prop :=
  ∀ (s : State) (x : Group) (p l : Nat), l < 32 →
    (∀ n, (opI (.v n) false).val s x p l = (x.rowGet (x.wb + n) l).toNat ∧
      (opI (.v n) true).val s x p l = (x.rowGet (x.wb + n) l).toNat + 2 ^ 32 * (x.rowGet (x.wb + n + 1) l).toNat) ∧
    (∀ w, (opI (.s 0) w).val s x p l = 0) ∧
    (∀ n, n ≠ 0 → (opI (.s n) true).val s x p l = (smGet 0 x.s n).toNat ∧
      (opI (.s n) false).val s x p l = (smGet 0 x.s n).toNat % 2 ^ 32) ∧
    (opI (.m 0) false).val s x p l = (x.mask p).toNat ∧ (∀ n, n ≠ 0 → (opI (.m n) false).val s x p l = (x.mGet n).toNat) ∧
    (∀ n, (opI (.b n) false).val s x p l = (smGet 0 (x.path p).latch (n * 32 + l)).toNat) ∧
    (∀ (i : BitVec 11), (opI (.imm i) false).val s x p l = (i.signExtend 32).toNat ∧
      (opI (.imm i) true).val s x p l = (i.signExtend 64).toNat) ∧
    (∀ (n : Nat) (v : DWord), (x.sSet n v).sGet 0 = 0 ∧ (n ≠ 0 → (x.sSet n v).sGet n = v)) ∧
    (opI (.idn .lane) false).val s x p l = l ∧ (opI (.idn .quad) false).val s x p l = l / 4 ∧
    (opI (.idn .core) false).val s x p l = x.core ∧ (opI (.idn .region) false).val s x p l = x.core / 8 ∧
    (opI (.idn .ctx) false).val s x p l = x.ctx ∧ (opI (.idn .clk) false).val s x p l = s.cycle.toNat % 2 ^ 32 ∧
    (x.bin = false → (opI (.idn .group) false).val s x p l = x.gi ∧ (opI (.idn .wg) false).val s x p l = x.wg) ∧
    (x.bin = true → (opI (.idn .group) false).val s x p l = 0 ∧ (opI (.idn .wg) false).val s x p l = 0)

/-- R307 and R467: a ring's fields stand at their offsets; a record goes to the slot of TAIL; a ring counts as full when the
records between HEAD and TAIL fill it, so that a producer never writes over one that its consumer has not taken; and what does
not fit or cannot be used appends nothing. -/
def Obligations.RingsKeepTheirRecords : Prop :=
  (∀ bs : List Byte, let r := ringOf bs; let f := Claim.field_at bs
    r.base = f 0 8 ∧ r.head.toNat = f 8 4 ∧ r.tail.toNat = f 12 4 ∧ r.log2n = f 16 1 ∧ r.ctr = f 18 2 ∧ r.lost = f 20 4) ∧
  (∀ (r : Ring) (k : Nat), 4 ≤ r.log2n → r.log2n ≤ 20 → k ≤ 7 → r.used < 2 ^ r.log2n → ∀ j, j < r.used →
    r.slot k (r.head + BitVec.ofNat 32 j) ≠ r.slot k r.tail) ∧
  ∀ (s : State) (ctx : Nat) (desc : DWord) (k keep : Nat) (bs : List Byte),
    (∀ t c, s.ringRead ctx desc k = (t, .error c) → s.ringAppend ctx desc k keep bs = (t, .bad c)) ∧
    ∀ t r, s.ringRead ctx desc k = (t, .ok r) →
      (4 ≤ r.log2n ∧ r.log2n ≤ 20 ∧ r.base % 64 = 0) ∧
      (2 ^ r.log2n ≤ r.used + keep → s.ringAppend ctx desc k keep bs = (t, .full)) ∧
      (r.used + keep < 2 ^ r.log2n → ∀ u v w x y z, t.canWrite none ctx (pieces (desc + 12).toNat 4) = (u, .ok x) →
        u.ctxWrite none ctx (r.slot k r.tail) bs = (v, .ok y) →
        v.ctxWrite none ctx (desc + 12) (littleEndian 4 (r.tail + 1).toNat) = (w, .ok z) →
          s.ringAppend ctx desc k keep bs = (w.bumpCounter ctx r.ctr, .ok r.tail))

/-! ### Statements of several parts -/

/-- What `Part.IntegerArithmetic` and `Part.ByteDotProduct` say, of each of their forms. -/
def Obligations.IntegerForms : Prop := Part.IntegerArithmetic ∧ Part.ByteDotProduct

/-- What `Part.LogicAndShifts` and `Part.BitFields` say, of each of their forms. -/
def Obligations.BitForms : Prop := Part.LogicAndShifts ∧ Part.BitFields

/-- What `Part.CompareAndSelect` and `Part.MovesAndAddresses` say, of each of their forms.
The value kept from a suppressed destination is a free value (the model's choice, log 22). A uniform sel tests c over
the N bits of its form (log 14). -/
def Obligations.ComparesAndMoves : Prop := Part.CompareAndSelect ∧ Part.MovesAndAddresses

/-- What `Part.LaneExchanges` and `Part.VotesAndFolds` say, of each of their forms.
vote.eq of an m register compares its bits (the model's reading, log 77). -/
def Obligations.LaneExchangesAndFolds : Prop := Part.LaneExchanges ∧ Part.VotesAndFolds

/-- What `Part.LaneReads` and `Part.LaneWrites` say, of each of their forms.
When an lput takes effect is the schedule's choice, and that lget does not wait for its own destination is the model's
reading (log 25). -/
def Obligations.LanesOfOtherGroups : Prop := Part.LaneReads ∧ Part.LaneWrites

/-- What `Part.ExactFloatOperations` and `Part.GroupSums` say, of each of their forms. -/
def Obligations.ExactFloatsAndSums : Prop := Part.ExactFloatOperations ∧ Part.GroupSums

/-- What `Part.FloatArithmetic` and `Part.FloatComparison` say, of each of their forms.
That fdp2 adds its products first, and what IV follows beside a quiet NaN, is the model's choice (log 88). -/
def Obligations.FloatForms : Prop := Part.FloatArithmetic ∧ Part.FloatComparison

/-- What `Part.ConversionAndPacking`, `Part.QuantisedBlocks` and `Part.Quantising` say, of each of their forms.
A block whose small set no scale reaches takes s1 = 0xFE, the model's choice (log 89). -/
def Obligations.Conversions : Prop := Part.ConversionAndPacking ∧ Part.QuantisedBlocks ∧ Part.Quantising

/-- What `Part.TranscendentalIssue`, `Part.TranscendentalLandings`, `Part.RootsAndReciprocals` and `Part.TranscendentalSpecials` say, of each of their forms.
The bits of results without a stated value are free within their bounds (the model's choice, log 5). -/
def Obligations.Transcendentals : Prop := Part.TranscendentalIssue ∧ Part.TranscendentalLandings ∧ Part.RootsAndReciprocals ∧ Part.TranscendentalSpecials

/-- What `Part.LoadsIssue` and `Part.AtomicsIssue` say, of each of their forms.
When a request lands is the schedule's choice (log 3). -/
def Obligations.LoadsAndAtomicsIssue : Prop := Part.LoadsIssue ∧ Part.AtomicsIssue

/-- What `Part.LoadsLand` and `Part.AtomicSteps` say, of each of their forms.
That a load reads memory at its landing is the model's reading (log 3). -/
def Obligations.LoadsAndAtomicsLand : Prop := Part.LoadsLand ∧ Part.AtomicSteps

/-- What `Part.WritesIssue` and `Part.WritesArePerformed` say, of each of their forms.
When an entry is performed is the schedule's choice (log 3). One request of a release after another is performed in
ascending order (log 101). -/
def Obligations.WritesReachMemory : Prop := Part.WritesIssue ∧ Part.WritesArePerformed

/-- What `Part.TranslationTouchesLeavesOnly` and `Part.ComposedTranslations` say, of each of their forms. -/
def Obligations.Translations : Prop := Part.TranslationTouchesLeavesOnly ∧ Part.ComposedTranslations

/-- What `Part.FencesAndPrefetches` and `Part.FetchesComplete` say, of each of their forms.
That a fence whose scope holds no other agent waits for nothing, and any other for all that its scope names, is the
model's reading (log 30). -/
def Obligations.FencesAndFetches : Prop := Part.FencesAndPrefetches ∧ Part.FetchesComplete

/-- What `Part.AccumulatorForms` and `Part.AccumulatorReadsLand` say, of each of their forms.
That a tile offset out of range stops accw, accz and accr also where no lane executes is the model's reading (log 48). -/
def Obligations.AccumulatorRows : Prop := Part.AccumulatorForms ∧ Part.AccumulatorReadsLand

/-- What `Part.MatrixUpdatesIssue` and `Part.RowUpdates` say, of each of their forms.
That a signalling element of A beside a marked block of B sets no IV is the model's choice (log 103). -/
def Obligations.MatrixUpdates : Prop := Part.MatrixUpdatesIssue ∧ Part.RowUpdates

/-- What `Part.AdapterRows` and `Part.AdapterTableForms` say, of each of their forms.
That a present entry which is not valid counts as a miss is the model's reading (log 49). -/
def Obligations.AdapterTables : Prop := Part.AdapterRows ∧ Part.AdapterTableForms

/-- What `Part.AdapterApply` and `Part.AdapterFills` say, of each of their forms.
That a fill's lines are read one by one is the model's reading (log 46). -/
def Obligations.AdapterUpdates : Prop := Part.AdapterApply ∧ Part.AdapterFills

/-- What `Part.CallsAndReturns` and `Part.SpillsAndFills` say, of each of their forms.
That the handler moves its rows at one instant is the model's reading (log 45). -/
def Obligations.CallsAndTheirFrames : Prop := Part.CallsAndReturns ∧ Part.SpillsAndFills

/-- What `Part.OtherControlForms` and `Part.DeferringMode` say, of each of their forms.
That a region table whose count cannot be read gives an empty working set is the model's choice (log 96). -/
def Obligations.ModesAndOtherControl : Prop := Part.OtherControlForms ∧ Part.DeferringMode

/-- What `Part.InstructionsDefer` and `Part.ClosuresRun` say, of each of their forms.
Which free rows are taken (log 16), that a deferred store holds later accesses to its bytes (log 78), and that the latch
is deferred in the lanes of the path's mask, keeps the value for later readers and is the base of the next closure (log
24), are the model's. -/
def Obligations.DeferralAndClosures : Prop := Part.InstructionsDefer ∧ Part.ClosuresRun

/-- What `Part.LaunchesRun` and `Part.GraphsWalk` say, of each of their forms.
The order of two checks that meet is the model's reading (log 50). -/
def Obligations.LaunchesAndGraphs : Prop := Part.LaunchesRun ∧ Part.GraphsWalk

/-- What `Part.CohortsArePlaced` and `Part.GroupsEnter` say, of each of their forms.
Which of the cores that fit equally well is taken is the model's choice (log 52). -/
def Obligations.WorkIsPlaced : Prop := Part.CohortsArePlaced ∧ Part.GroupsEnter

/-- What `Part.CopiesAreAccepted` and `Part.BatchesAndReports` say, of each of their forms.
ADDR of a record whose operand is no address is the model's choice (log 110). -/
def Obligations.CopiesAndBatches : Prop := Part.CopiesAreAccepted ∧ Part.BatchesAndReports

/-- What `Part.BarriersCompletePhases` and `Part.CountersAndClocks` say, of each of their forms.
When an lput that a barrier waits for takes effect is the schedule's (log 25), and ADDR of a record whose operand is no
address is the model's choice (log 110). -/
def Obligations.BarriersAndCounters : Prop := Part.BarriersCompletePhases ∧ Part.CountersAndClocks

/-- What `Part.SubtreeOrders` and `Part.CheckpointImages` say, of each of their forms.
The order of statuses that meet (logs 61, 62), and dthaw against a drevoke (log 64), are the model's readings. -/
def Obligations.SubtreeCommands : Prop := Part.SubtreeOrders ∧ Part.CheckpointImages

/-- What `Part.SystemWordsRead` and `Part.SystemWordsWrite` say, of each of their forms.
The order of statuses that meet (log 55), and that records held when RPLCTL.EN is cleared are kept (log 38), are the
model's readings; the addresses of device words are free (log 23). -/
def Obligations.SystemWords : Prop := Part.SystemWordsRead ∧ Part.SystemWordsWrite

/-- What `Part.ErrorsPoison` and `Part.StacksAndLinks` say, of each of their forms.
The 8-byte unit of rows and accumulator words (log 72), the addressees of a notice (log 68), which transfers cross a
channel (log 21), and what counts as held (log 73) are the model's. -/
def Obligations.MemoryErrorsAndLinks : Prop := Part.ErrorsPoison ∧ Part.StacksAndLinks
end

