-- ==== Sys2Proof/Laws/Memory.lean ====
section
/-! SUPPORT. Sparse maps and memory: what a read gives after a write, and that every memory operation keeps the canonical
form. -/

namespace Sys2Proof.Machine

/-! ### Sparse maps -/

theorem smGet_smDel {β : Type} (d : β) (m : SMap β) (k j : Nat) :
    smGet d (smDel k m) j = if j = k then d else smGet d m j := by
  induction m with
  | nil => simp [smDel, smGet]
  | cons e m ih =>
    obtain ⟨i, y⟩ := e
    simp only [smDel, smGet]
    by_cases h : i = k
    · by_cases h' : j = k
      · subst h'; simpa [h] using ih
      · have : ¬ k = j := fun e => h' e.symm
        simp [h, h', ih, this]
    · by_cases h' : i = j
      · have : ¬ j = k := fun e => h (h'.trans e)
        simp [h', smGet, this]
      · simp [h, h', smGet, ih]

theorem smGet_smIns {β : Type} (d x : β) (m : SMap β) (k j : Nat) (h' : ∀ e ∈ m, e.1 ≠ k) : smGet d (smIns k x m) j = if j = k then x else smGet d m j := by
  induction m with
  | nil => simp [smIns, smGet, eq_comm]
  | cons e m ih =>
    obtain ⟨i, y⟩ := e
    have hi : i ≠ k := h' (i, y) (by simp)
    have hm := ih fun e he => h' e (by simp [he])
    simp only [smIns]
    split
    · simp only [smGet, hm]
      by_cases hj : i = j
      · have : ¬ j = k := fun e => hi (hj.trans e)
        simp [hj, this]
      · simp [hj]
    · simp only [smGet]
      by_cases hj : k = j
      · simp [hj]
      · have : ¬ j = k := fun e => hj e.symm
        simp [hj, this]

theorem smDel_none {β : Type} (m : SMap β) (k : Nat) : ∀ e ∈ smDel k m, e.1 ≠ k := by
  induction m with
  | nil => simp [smDel]
  | cons e m ih =>
    obtain ⟨i, y⟩ := e
    simp only [smDel]
    split
    · exact ih
    · intro e he
      rcases List.mem_cons.1 he with rfl | he
      · assumption
      · exact ih e he

/-- A read after a write: the value written at its key, and the old value at every other. -/
@[simp] theorem smGet_smSet {β : Type} [DecidableEq β] (d x : β) (m : SMap β) (k j : Nat) :
    smGet d (smSet d m k x) j = if j = k then x else smGet d m j := by
  simp only [smSet]
  split
  · next h => rw [smGet_smDel]; simp [h]
  · rw [smGet_smIns _ _ _ _ _ (smDel_none m k), smGet_smDel]
    split <;> simp_all

/-! ### Memory -/

@[simp] theorem Memory.read_write (m : List Host.Cell) (a b : Nat) (x : Byte) :
    Memory.read (Memory.write m a x) b = if b = a then x else Memory.read m b := by
  simp [Memory.read, Memory.write]

/-- What memory reads as after a list of writes: the last one to the address, or what it read before. -/
theorem Memory.read_writeAll (m : List Host.Cell) (ws : List Host.Cell) (a : Nat) :
    Memory.read (Memory.writeAll m ws) a = ((ws.reverse.find? (·.1 == a)).map (·.2)).getD (Memory.read m a) := by
  induction ws generalizing m with
  | nil => rfl
  | cons w ws ih =>
    obtain ⟨k, x⟩ := w
    rw [Memory.writeAll, ih, List.reverse_cons, List.find?_append]
    cases h : ws.reverse.find? (·.1 == a) with
    | some c => simp
    | none =>
      by_cases hk : k = a
      · simp [hk]
      · have : ¬ a = k := fun e => hk e.symm
        simp [hk, this]

/-- Addresses rise strictly from a bound on, and no entry is the unlisted value: the canonical form, as a recursion. -/
def Memory.wfFrom : Nat → List Host.Cell → Prop
  | _, [] => True
  | n, (a, b) :: rest => b ≠ Memory.unlisted ∧ n ≤ a ∧ Memory.wfFrom (a + 1) rest

theorem Memory.wf_iff (m : List Host.Cell) : Memory.wf m = true ↔ Memory.wfFrom 0 m := by
  have key : ∀ (m : List Host.Cell) (a : Nat) (b : Byte) (n : Nat), n ≤ a →
      (Memory.wf ((a, b) :: m) = true ↔ Memory.wfFrom n ((a, b) :: m)) := by
    intro m
    induction m with
    | nil => intro a b n h; simp [Memory.wf, Memory.wfFrom, h]
    | cons e m ih =>
      intro a b n h
      obtain ⟨a', b'⟩ := e
      by_cases hlt : a < a'
      · have := ih a' b' (a + 1) hlt
        simp only [Memory.wf, Memory.wfFrom, Bool.and_eq_true, decide_eq_true_eq, bne_iff_ne, ne_eq] at this ⊢
        rw [this]; simp [h, hlt]
      · simp only [Memory.wf, Memory.wfFrom, Bool.and_eq_true, decide_eq_true_eq, bne_iff_ne, ne_eq]
        constructor
        · rintro ⟨⟨_, hx⟩, _⟩; exact absurd hx hlt
        · rintro ⟨_, _, _, hx, _⟩; omega
  cases m with
  | nil => simp [Memory.wf, Memory.wfFrom]
  | cons e m => obtain ⟨a, b⟩ := e; exact key m a b 0 (Nat.zero_le _)

theorem Memory.wfFrom_mono {m : List Host.Cell} {n k : Nat} (h : Memory.wfFrom n m) (hk : k ≤ n) :
    Memory.wfFrom k m := by
  cases m with
  | nil => trivial
  | cons e m => obtain ⟨a, b⟩ := e; exact ⟨h.1, Nat.le_trans hk h.2.1, h.2.2⟩

theorem Memory.wfFrom_del {m : List Host.Cell} {n : Nat} (k : Nat) (h : Memory.wfFrom n m) :
    Memory.wfFrom n (smDel k m) := by
  induction m generalizing n with
  | nil => trivial
  | cons e m ih =>
    obtain ⟨a, b⟩ := e
    obtain ⟨hb, ha, hm⟩ := h
    simp only [smDel]
    split
    · exact Memory.wfFrom_mono (ih hm) (by omega)
    · exact ⟨hb, ha, ih hm⟩

theorem Memory.wfFrom_ins {m : List Host.Cell} {n k : Nat} {x : Byte} (h : Memory.wfFrom n m) (hk : n ≤ k)
    (hx : x ≠ Memory.unlisted) (hm : ∀ e ∈ m, e.1 ≠ k) : Memory.wfFrom n (smIns k x m) := by
  induction m generalizing n with
  | nil => exact ⟨hx, hk, trivial⟩
  | cons e m ih =>
    obtain ⟨a, b⟩ := e
    obtain ⟨hb, ha, hr⟩ := h
    simp only [smIns]
    split
    · next hlt => exact ⟨hb, ha, ih hr hlt fun e he => hm e (by simp [he])⟩
    · next hge =>
      have : a ≠ k := hm (a, b) (by simp)
      exact ⟨hx, hk, hb, by omega, hr⟩

/-- A write keeps the canonical form. -/
theorem Memory.wf_write {m : List Host.Cell} (a : Nat) (x : Byte) (h : Memory.wf m = true) :
    Memory.wf (Memory.write m a x) = true := by
  rw [Memory.wf_iff] at h ⊢
  simp only [Memory.write, smSet]
  split
  · exact Memory.wfFrom_del a h
  · next hx => exact Memory.wfFrom_ins (Memory.wfFrom_del a h) (Nat.zero_le _) hx (smDel_none m a)

/-- Writes in order keep the canonical form. -/
theorem Memory.wf_writeAll {m : List Host.Cell} (ws : List Host.Cell) (h : Memory.wf m = true) :
    Memory.wf (Memory.writeAll m ws) = true := by
  induction ws generalizing m with
  | nil => exact h
  | cons w ws ih => exact ih (Memory.wf_write w.1 w.2 h)

theorem Memory.wf_reset : Memory.wf State.reset.mem = true := rfl

theorem Memory.read_below {m : List Host.Cell} {n a : Nat} (h : Memory.wfFrom n m) (ha : a < n) :
    Memory.read m a = Memory.unlisted := by
  induction m generalizing n with
  | nil => rfl
  | cons e m ih =>
    obtain ⟨k, b⟩ := e
    have : k ≠ a := by have := h.2.1; omega
    simp only [Memory.read, smGet, this, if_false]
    exact ih h.2.2 (by have := h.2.1; omega)

/-- Memories in canonical form that read alike are equal data. -/
theorem Memory.ext {m m' : List Host.Cell} (h : Memory.wf m = true) (h' : Memory.wf m' = true)
    (hr : ∀ a, Memory.read m a = Memory.read m' a) : m = m' := by
  rw [Memory.wf_iff] at h h'
  have key : ∀ (m m' : List Host.Cell) (n n' : Nat), Memory.wfFrom n m → Memory.wfFrom n' m' →
      (∀ a, Memory.read m a = Memory.read m' a) → m = m' := by
    intro m
    induction m with
    | nil =>
      intro m' n n' _ h' hr
      cases m' with
      | nil => rfl
      | cons e m' =>
        obtain ⟨a, b⟩ := e
        have := hr a
        simp only [Memory.read, smGet, if_true] at this
        exact absurd this.symm h'.1
    | cons e m ih =>
      intro m' n n' h h' hr
      obtain ⟨a, b⟩ := e
      cases m' with
      | nil =>
        have := hr a
        simp only [Memory.read, smGet, if_true] at this
        exact absurd this h.1
      | cons e' m' =>
        obtain ⟨a', b'⟩ := e'
        have e1 := hr a
        have e2 := hr a'
        simp only [Memory.read, smGet, if_true] at e1 e2
        have haa : a = a' := by
          rcases Nat.lt_trichotomy a a' with hlt | heq | hgt
          · have hz : Memory.read m' a = Memory.unlisted := Memory.read_below h'.2.2 (by omega)
            have : a' ≠ a := by omega
            simp only [this, if_false] at e1
            exact absurd (e1.trans hz) h.1
          · exact heq
          · have hz : Memory.read m a' = Memory.unlisted := Memory.read_below h.2.2 (by omega)
            have : a ≠ a' := by omega
            simp only [this, if_false] at e2
            exact absurd (e2.symm.trans hz) h'.1
        subst haa
        simp only [if_true] at e1
        subst e1
        have : m = m' := by
          apply ih m' (a + 1) (a + 1) h.2.2 h'.2.2
          intro c
          by_cases hc : a = c
          · subst hc
            rw [Memory.read_below h.2.2 (by omega), Memory.read_below h'.2.2 (by omega)]
          · have := hr c
            simpa [Memory.read, smGet, hc] using this
        rw [this]
  exact key m m' 0 0 h h' hr

/-! ### Ending a step -/

/-- All that ending a step can do: the state with its gathered writes in memory, or a fault. -/
theorem commit_cases (s : State) (r : Res) :
    (∃ t, r = .next t ∧ commit s r = .next { t with mem := Memory.writeAll s.mem t.wq, wq := []
                                                    hostMem := Memory.writeAll s.hostMem t.hostWq, hostWq := [] }) ∨
    ∃ f, r = .fault f ∧ commit s r = .fault f := by
  cases r with
  | next t => exact .inl ⟨t, rfl, rfl⟩
  | fault f => exact .inr ⟨f, rfl, rfl⟩

/-- A step that ends keeps memory and host memory canonical and leaves no write waiting. -/
theorem commit_next {s t : State} {r : Res} (h : commit s r = .next t) (hm : Memory.wf s.mem = true)
    (hh : Memory.wf s.hostMem = true) :
    Memory.wf t.mem = true ∧ t.wq = [] ∧ Memory.wf t.hostMem = true ∧ t.hostWq = [] := by
  rcases commit_cases s r with ⟨u, rfl, hu⟩ | ⟨f, rfl, hf⟩
  · rw [hu] at h
    cases h
    exact ⟨Memory.wf_writeAll _ hm, rfl, Memory.wf_writeAll _ hh, rfl⟩
  · rw [hf] at h; cases h

/-- A result that gathered no write. -/
theorem commit_clean {s t : State} (h : t.wq = []) (hm : t.mem = s.mem) (hh : t.hostWq = []) (hn : t.hostMem = s.hostMem) :
    commit s (.next t) = .next t := by
  cases t
  simp only at h hm hh hn
  subst h hm hh hn
  rfl

end Sys2Proof.Machine
end

