-- ==== Sys2Proof/Laws/State.lean ====
section
/-! SUPPORT. What each update of a state or a group leaves in each field. -/

namespace Sys2Proof.Machine

/-! ### State.modGroup -/

@[simp] theorem State.modGroup_mem (s : State) (g : Nat) (f : Group → Group) : (s.modGroup g f).mem = s.mem := rfl
@[simp] theorem State.modGroup_wq (s : State) (g : Nat) (f : Group → Group) : (s.modGroup g f).wq = s.wq := rfl
@[simp] theorem State.modGroup_hostMem (s : State) (g : Nat) (f : Group → Group) : (s.modGroup g f).hostMem = s.hostMem := rfl
@[simp] theorem State.modGroup_hostWq (s : State) (g : Nat) (f : Group → Group) : (s.modGroup g f).hostWq = s.hostWq := rfl
@[simp] theorem State.modGroup_blkKey (s : State) (g : Nat) (f : Group → Group) : (s.modGroup g f).blkKey = s.blkKey := rfl
@[simp] theorem State.modGroup_stale (s : State) (g : Nat) (f : Group → Group) : (s.modGroup g f).stale = s.stale := rfl
@[simp] theorem State.modGroup_keyInst (s : State) (g : Nat) (f : Group → Group) : (s.modGroup g f).keyInst = s.keyInst := rfl
@[simp] theorem State.modGroup_keyMaker (s : State) (g : Nat) (f : Group → Group) : (s.modGroup g f).keyMaker = s.keyMaker := rfl
@[simp] theorem State.modGroup_nextInst (s : State) (g : Nat) (f : Group → Group) : (s.modGroup g f).nextInst = s.nextInst := rfl
@[simp] theorem State.modGroup_poison (s : State) (g : Nat) (f : Group → Group) : (s.modGroup g f).poison = s.poison := rfl
@[simp] theorem State.modGroup_notices (s : State) (g : Nat) (f : Group → Group) : (s.modGroup g f).notices = s.notices := rfl
@[simp] theorem State.modGroup_lputs (s : State) (g : Nat) (f : Group → Group) : (s.modGroup g f).lputs = s.lputs := rfl
@[simp] theorem State.modGroup_wgs (s : State) (g : Nat) (f : Group → Group) : (s.modGroup g f).wgs = s.wgs := rfl
@[simp] theorem State.modGroup_cohorts (s : State) (g : Nat) (f : Group → Group) : (s.modGroup g f).cohorts = s.cohorts := rfl
@[simp] theorem State.modGroup_grids (s : State) (g : Nat) (f : Group → Group) : (s.modGroup g f).grids = s.grids := rfl
@[simp] theorem State.modGroup_launches (s : State) (g : Nat) (f : Group → Group) : (s.modGroup g f).launches = s.launches := rfl
@[simp] theorem State.modGroup_bins (s : State) (g : Nat) (f : Group → Group) : (s.modGroup g f).bins = s.bins := rfl
@[simp] theorem State.modGroup_pool (s : State) (g : Nat) (f : Group → Group) : (s.modGroup g f).pool = s.pool := rfl
@[simp] theorem State.modGroup_contexts (s : State) (g : Nat) (f : Group → Group) : (s.modGroup g f).contexts = s.contexts := rfl
@[simp] theorem State.modGroup_hub (s : State) (g : Nat) (f : Group → Group) : (s.modGroup g f).hub = s.hub := rfl
@[simp] theorem State.modGroup_standing (s : State) (g : Nat) (f : Group → Group) : (s.modGroup g f).standing = s.standing := rfl
@[simp] theorem State.modGroup_cmds (s : State) (g : Nat) (f : Group → Group) : (s.modGroup g f).cmds = s.cmds := rfl
@[simp] theorem State.modGroup_saves (s : State) (g : Nat) (f : Group → Group) : (s.modGroup g f).saves = s.saves := rfl
@[simp] theorem State.modGroup_launchSaves (s : State) (g : Nat) (f : Group → Group) : (s.modGroup g f).launchSaves = s.launchSaves := rfl
@[simp] theorem State.modGroup_mboxHeld (s : State) (g : Nat) (f : Group → Group) : (s.modGroup g f).mboxHeld = s.mboxHeld := rfl
@[simp] theorem State.modGroup_traceHeld (s : State) (g : Nat) (f : Group → Group) : (s.modGroup g f).traceHeld = s.traceHeld := rfl
@[simp] theorem State.modGroup_replayHeld (s : State) (g : Nat) (f : Group → Group) : (s.modGroup g f).replayHeld = s.replayHeld := rfl
@[simp] theorem State.modGroup_sessions (s : State) (g : Nat) (f : Group → Group) : (s.modGroup g f).sessions = s.sessions := rfl
@[simp] theorem State.modGroup_ladders (s : State) (g : Nat) (f : Group → Group) : (s.modGroup g f).ladders = s.ladders := rfl
@[simp] theorem State.modGroup_copies (s : State) (g : Nat) (f : Group → Group) : (s.modGroup g f).copies = s.copies := rfl
@[simp] theorem State.modGroup_bprefs (s : State) (g : Nat) (f : Group → Group) : (s.modGroup g f).bprefs = s.bprefs := rfl
@[simp] theorem State.modGroup_segs (s : State) (g : Nat) (f : Group → Group) : (s.modGroup g f).segs = s.segs := rfl
@[simp] theorem State.modGroup_fills (s : State) (g : Nat) (f : Group → Group) : (s.modGroup g f).fills = s.fills := rfl
@[simp] theorem State.modGroup_flat (s : State) (g : Nat) (f : Group → Group) : (s.modGroup g f).flat = s.flat := rfl
@[simp] theorem State.modGroup_icache (s : State) (g : Nat) (f : Group → Group) : (s.modGroup g f).icache = s.icache := rfl
@[simp] theorem State.modGroup_l1 (s : State) (g : Nat) (f : Group → Group) : (s.modGroup g f).l1 = s.l1 := rfl
@[simp] theorem State.modGroup_cache (s : State) (g : Nat) (f : Group → Group) : (s.modGroup g f).cache = s.cache := rfl
@[simp] theorem State.modGroup_bankQ (s : State) (g : Nat) (f : Group → Group) : (s.modGroup g f).bankQ = s.bankQ := rfl
@[simp] theorem State.modGroup_banks (s : State) (g : Nat) (f : Group → Group) : (s.modGroup g f).banks = s.banks := rfl
@[simp] theorem State.modGroup_bankLast (s : State) (g : Nat) (f : Group → Group) : (s.modGroup g f).bankLast = s.bankLast := rfl
@[simp] theorem State.modGroup_leftLines (s : State) (g : Nat) (f : Group → Group) : (s.modGroup g f).leftLines = s.leftLines := rfl
@[simp] theorem State.modGroup_chans (s : State) (g : Nat) (f : Group → Group) : (s.modGroup g f).chans = s.chans := rfl
@[simp] theorem State.modGroup_scrubs (s : State) (g : Nat) (f : Group → Group) : (s.modGroup g f).scrubs = s.scrubs := rfl
@[simp] theorem State.modGroup_gang (s : State) (g : Nat) (f : Group → Group) : (s.modGroup g f).gang = s.gang := rfl
@[simp] theorem State.modGroup_coreWords (s : State) (g : Nat) (f : Group → Group) : (s.modGroup g f).coreWords = s.coreWords := rfl
@[simp] theorem State.modGroup_actmax (s : State) (g : Nat) (f : Group → Group) : (s.modGroup g f).actmax = s.actmax := rfl
@[simp] theorem State.modGroup_coreSince (s : State) (g : Nat) (f : Group → Group) : (s.modGroup g f).coreSince = s.coreSince := rfl
@[simp] theorem State.modGroup_links (s : State) (g : Nat) (f : Group → Group) : (s.modGroup g f).links = s.links := rfl
@[simp] theorem State.modGroup_ageing (s : State) (g : Nat) (f : Group → Group) : (s.modGroup g f).ageing = s.ageing := rfl
@[simp] theorem State.modGroup_planAt (s : State) (g : Nat) (f : Group → Group) : (s.modGroup g f).planAt = s.planAt := rfl
@[simp] theorem State.modGroup_funcs (s : State) (g : Nat) (f : Group → Group) : (s.modGroup g f).funcs = s.funcs := rfl
@[simp] theorem State.modGroup_boot (s : State) (g : Nat) (f : Group → Group) : (s.modGroup g f).boot = s.boot := rfl
@[simp] theorem State.modGroup_clockMhz (s : State) (g : Nat) (f : Group → Group) : (s.modGroup g f).clockMhz = s.clockMhz := rfl
@[simp] theorem State.modGroup_clockAt (s : State) (g : Nat) (f : Group → Group) : (s.modGroup g f).clockAt = s.clockAt := rfl
@[simp] theorem State.modGroup_cycle (s : State) (g : Nat) (f : Group → Group) : (s.modGroup g f).cycle = s.cycle := rfl
@[simp] theorem State.modGroup_ns (s : State) (g : Nat) (f : Group → Group) : (s.modGroup g f).ns = s.ns := rfl
@[simp] theorem State.modGroup_nsRem (s : State) (g : Nat) (f : Group → Group) : (s.modGroup g f).nsRem = s.nsRem := rfl
@[simp] theorem State.modGroup_samp (s : State) (g : Nat) (f : Group → Group) : (s.modGroup g f).samp = s.samp := rfl
@[simp] theorem State.modGroup_sampRot (s : State) (g : Nat) (f : Group → Group) : (s.modGroup g f).sampRot = s.sampRot := rfl
@[simp] theorem State.modGroup_tickAt (s : State) (g : Nat) (f : Group → Group) : (s.modGroup g f).tickAt = s.tickAt := rfl
@[simp] theorem State.modGroup_windowAt (s : State) (g : Nat) (f : Group → Group) : (s.modGroup g f).windowAt = s.windowAt := rfl
@[simp] theorem State.modGroup_fresh (s : State) (g : Nat) (f : Group → Group) : (s.modGroup g f).fresh = s.fresh := rfl
@[simp] theorem State.modGroup_free (s : State) (g : Nat) (f : Group → Group) : (s.modGroup g f).free = s.free := rfl
@[simp] theorem State.modGroup_steps (s : State) (g : Nat) (f : Group → Group) : (s.modGroup g f).steps = s.steps := rfl
@[simp] theorem State.modGroup_cur (s : State) (g : Nat) (f : Group → Group) : (s.modGroup g f).cur = s.cur := rfl
@[simp] theorem State.modGroup_issued (s : State) (g : Nat) (f : Group → Group) : (s.modGroup g f).issued = s.issued := rfl
@[simp] theorem State.modGroup_sched (s : State) (g : Nat) (f : Group → Group) : (s.modGroup g f).sched = s.sched := rfl

/-! ### State.setGroup -/

@[simp] theorem State.setGroup_mem (s : State) (y : Group) : (s.setGroup y).mem = s.mem := rfl
@[simp] theorem State.setGroup_wq (s : State) (y : Group) : (s.setGroup y).wq = s.wq := rfl
@[simp] theorem State.setGroup_hostMem (s : State) (y : Group) : (s.setGroup y).hostMem = s.hostMem := rfl
@[simp] theorem State.setGroup_hostWq (s : State) (y : Group) : (s.setGroup y).hostWq = s.hostWq := rfl
@[simp] theorem State.setGroup_blkKey (s : State) (y : Group) : (s.setGroup y).blkKey = s.blkKey := rfl
@[simp] theorem State.setGroup_stale (s : State) (y : Group) : (s.setGroup y).stale = s.stale := rfl
@[simp] theorem State.setGroup_keyInst (s : State) (y : Group) : (s.setGroup y).keyInst = s.keyInst := rfl
@[simp] theorem State.setGroup_keyMaker (s : State) (y : Group) : (s.setGroup y).keyMaker = s.keyMaker := rfl
@[simp] theorem State.setGroup_nextInst (s : State) (y : Group) : (s.setGroup y).nextInst = s.nextInst := rfl
@[simp] theorem State.setGroup_poison (s : State) (y : Group) : (s.setGroup y).poison = s.poison := rfl
@[simp] theorem State.setGroup_notices (s : State) (y : Group) : (s.setGroup y).notices = s.notices := rfl
@[simp] theorem State.setGroup_lputs (s : State) (y : Group) : (s.setGroup y).lputs = s.lputs := rfl
@[simp] theorem State.setGroup_wgs (s : State) (y : Group) : (s.setGroup y).wgs = s.wgs := rfl
@[simp] theorem State.setGroup_cohorts (s : State) (y : Group) : (s.setGroup y).cohorts = s.cohorts := rfl
@[simp] theorem State.setGroup_grids (s : State) (y : Group) : (s.setGroup y).grids = s.grids := rfl
@[simp] theorem State.setGroup_launches (s : State) (y : Group) : (s.setGroup y).launches = s.launches := rfl
@[simp] theorem State.setGroup_bins (s : State) (y : Group) : (s.setGroup y).bins = s.bins := rfl
@[simp] theorem State.setGroup_pool (s : State) (y : Group) : (s.setGroup y).pool = s.pool := rfl
@[simp] theorem State.setGroup_contexts (s : State) (y : Group) : (s.setGroup y).contexts = s.contexts := rfl
@[simp] theorem State.setGroup_hub (s : State) (y : Group) : (s.setGroup y).hub = s.hub := rfl
@[simp] theorem State.setGroup_standing (s : State) (y : Group) : (s.setGroup y).standing = s.standing := rfl
@[simp] theorem State.setGroup_cmds (s : State) (y : Group) : (s.setGroup y).cmds = s.cmds := rfl
@[simp] theorem State.setGroup_saves (s : State) (y : Group) : (s.setGroup y).saves = s.saves := rfl
@[simp] theorem State.setGroup_launchSaves (s : State) (y : Group) : (s.setGroup y).launchSaves = s.launchSaves := rfl
@[simp] theorem State.setGroup_mboxHeld (s : State) (y : Group) : (s.setGroup y).mboxHeld = s.mboxHeld := rfl
@[simp] theorem State.setGroup_traceHeld (s : State) (y : Group) : (s.setGroup y).traceHeld = s.traceHeld := rfl
@[simp] theorem State.setGroup_replayHeld (s : State) (y : Group) : (s.setGroup y).replayHeld = s.replayHeld := rfl
@[simp] theorem State.setGroup_sessions (s : State) (y : Group) : (s.setGroup y).sessions = s.sessions := rfl
@[simp] theorem State.setGroup_ladders (s : State) (y : Group) : (s.setGroup y).ladders = s.ladders := rfl
@[simp] theorem State.setGroup_copies (s : State) (y : Group) : (s.setGroup y).copies = s.copies := rfl
@[simp] theorem State.setGroup_bprefs (s : State) (y : Group) : (s.setGroup y).bprefs = s.bprefs := rfl
@[simp] theorem State.setGroup_segs (s : State) (y : Group) : (s.setGroup y).segs = s.segs := rfl
@[simp] theorem State.setGroup_fills (s : State) (y : Group) : (s.setGroup y).fills = s.fills := rfl
@[simp] theorem State.setGroup_flat (s : State) (y : Group) : (s.setGroup y).flat = s.flat := rfl
@[simp] theorem State.setGroup_icache (s : State) (y : Group) : (s.setGroup y).icache = s.icache := rfl
@[simp] theorem State.setGroup_l1 (s : State) (y : Group) : (s.setGroup y).l1 = s.l1 := rfl
@[simp] theorem State.setGroup_cache (s : State) (y : Group) : (s.setGroup y).cache = s.cache := rfl
@[simp] theorem State.setGroup_bankQ (s : State) (y : Group) : (s.setGroup y).bankQ = s.bankQ := rfl
@[simp] theorem State.setGroup_banks (s : State) (y : Group) : (s.setGroup y).banks = s.banks := rfl
@[simp] theorem State.setGroup_bankLast (s : State) (y : Group) : (s.setGroup y).bankLast = s.bankLast := rfl
@[simp] theorem State.setGroup_leftLines (s : State) (y : Group) : (s.setGroup y).leftLines = s.leftLines := rfl
@[simp] theorem State.setGroup_chans (s : State) (y : Group) : (s.setGroup y).chans = s.chans := rfl
@[simp] theorem State.setGroup_scrubs (s : State) (y : Group) : (s.setGroup y).scrubs = s.scrubs := rfl
@[simp] theorem State.setGroup_gang (s : State) (y : Group) : (s.setGroup y).gang = s.gang := rfl
@[simp] theorem State.setGroup_coreWords (s : State) (y : Group) : (s.setGroup y).coreWords = s.coreWords := rfl
@[simp] theorem State.setGroup_actmax (s : State) (y : Group) : (s.setGroup y).actmax = s.actmax := rfl
@[simp] theorem State.setGroup_coreSince (s : State) (y : Group) : (s.setGroup y).coreSince = s.coreSince := rfl
@[simp] theorem State.setGroup_links (s : State) (y : Group) : (s.setGroup y).links = s.links := rfl
@[simp] theorem State.setGroup_ageing (s : State) (y : Group) : (s.setGroup y).ageing = s.ageing := rfl
@[simp] theorem State.setGroup_planAt (s : State) (y : Group) : (s.setGroup y).planAt = s.planAt := rfl
@[simp] theorem State.setGroup_funcs (s : State) (y : Group) : (s.setGroup y).funcs = s.funcs := rfl
@[simp] theorem State.setGroup_boot (s : State) (y : Group) : (s.setGroup y).boot = s.boot := rfl
@[simp] theorem State.setGroup_clockMhz (s : State) (y : Group) : (s.setGroup y).clockMhz = s.clockMhz := rfl
@[simp] theorem State.setGroup_clockAt (s : State) (y : Group) : (s.setGroup y).clockAt = s.clockAt := rfl
@[simp] theorem State.setGroup_cycle (s : State) (y : Group) : (s.setGroup y).cycle = s.cycle := rfl
@[simp] theorem State.setGroup_ns (s : State) (y : Group) : (s.setGroup y).ns = s.ns := rfl
@[simp] theorem State.setGroup_nsRem (s : State) (y : Group) : (s.setGroup y).nsRem = s.nsRem := rfl
@[simp] theorem State.setGroup_samp (s : State) (y : Group) : (s.setGroup y).samp = s.samp := rfl
@[simp] theorem State.setGroup_sampRot (s : State) (y : Group) : (s.setGroup y).sampRot = s.sampRot := rfl
@[simp] theorem State.setGroup_tickAt (s : State) (y : Group) : (s.setGroup y).tickAt = s.tickAt := rfl
@[simp] theorem State.setGroup_windowAt (s : State) (y : Group) : (s.setGroup y).windowAt = s.windowAt := rfl
@[simp] theorem State.setGroup_fresh (s : State) (y : Group) : (s.setGroup y).fresh = s.fresh := rfl
@[simp] theorem State.setGroup_free (s : State) (y : Group) : (s.setGroup y).free = s.free := rfl
@[simp] theorem State.setGroup_steps (s : State) (y : Group) : (s.setGroup y).steps = s.steps := rfl
@[simp] theorem State.setGroup_cur (s : State) (y : Group) : (s.setGroup y).cur = s.cur := rfl
@[simp] theorem State.setGroup_issued (s : State) (y : Group) : (s.setGroup y).issued = s.issued := rfl
@[simp] theorem State.setGroup_sched (s : State) (y : Group) : (s.setGroup y).sched = s.sched := rfl

/-! ### State.modWg -/

@[simp] theorem State.modWg_mem (s : State) (c w : Nat) (f : Workgroup → Workgroup) : (s.modWg c w f).mem = s.mem := rfl
@[simp] theorem State.modWg_wq (s : State) (c w : Nat) (f : Workgroup → Workgroup) : (s.modWg c w f).wq = s.wq := rfl
@[simp] theorem State.modWg_hostMem (s : State) (c w : Nat) (f : Workgroup → Workgroup) : (s.modWg c w f).hostMem = s.hostMem := rfl
@[simp] theorem State.modWg_hostWq (s : State) (c w : Nat) (f : Workgroup → Workgroup) : (s.modWg c w f).hostWq = s.hostWq := rfl
@[simp] theorem State.modWg_blkKey (s : State) (c w : Nat) (f : Workgroup → Workgroup) : (s.modWg c w f).blkKey = s.blkKey := rfl
@[simp] theorem State.modWg_stale (s : State) (c w : Nat) (f : Workgroup → Workgroup) : (s.modWg c w f).stale = s.stale := rfl
@[simp] theorem State.modWg_keyInst (s : State) (c w : Nat) (f : Workgroup → Workgroup) : (s.modWg c w f).keyInst = s.keyInst := rfl
@[simp] theorem State.modWg_keyMaker (s : State) (c w : Nat) (f : Workgroup → Workgroup) : (s.modWg c w f).keyMaker = s.keyMaker := rfl
@[simp] theorem State.modWg_nextInst (s : State) (c w : Nat) (f : Workgroup → Workgroup) : (s.modWg c w f).nextInst = s.nextInst := rfl
@[simp] theorem State.modWg_poison (s : State) (c w : Nat) (f : Workgroup → Workgroup) : (s.modWg c w f).poison = s.poison := rfl
@[simp] theorem State.modWg_notices (s : State) (c w : Nat) (f : Workgroup → Workgroup) : (s.modWg c w f).notices = s.notices := rfl
@[simp] theorem State.modWg_groups (s : State) (c w : Nat) (f : Workgroup → Workgroup) : (s.modWg c w f).groups = s.groups := rfl
@[simp] theorem State.modWg_lputs (s : State) (c w : Nat) (f : Workgroup → Workgroup) : (s.modWg c w f).lputs = s.lputs := rfl
@[simp] theorem State.modWg_cohorts (s : State) (c w : Nat) (f : Workgroup → Workgroup) : (s.modWg c w f).cohorts = s.cohorts := rfl
@[simp] theorem State.modWg_grids (s : State) (c w : Nat) (f : Workgroup → Workgroup) : (s.modWg c w f).grids = s.grids := rfl
@[simp] theorem State.modWg_launches (s : State) (c w : Nat) (f : Workgroup → Workgroup) : (s.modWg c w f).launches = s.launches := rfl
@[simp] theorem State.modWg_bins (s : State) (c w : Nat) (f : Workgroup → Workgroup) : (s.modWg c w f).bins = s.bins := rfl
@[simp] theorem State.modWg_pool (s : State) (c w : Nat) (f : Workgroup → Workgroup) : (s.modWg c w f).pool = s.pool := rfl
@[simp] theorem State.modWg_contexts (s : State) (c w : Nat) (f : Workgroup → Workgroup) : (s.modWg c w f).contexts = s.contexts := rfl
@[simp] theorem State.modWg_hub (s : State) (c w : Nat) (f : Workgroup → Workgroup) : (s.modWg c w f).hub = s.hub := rfl
@[simp] theorem State.modWg_standing (s : State) (c w : Nat) (f : Workgroup → Workgroup) : (s.modWg c w f).standing = s.standing := rfl
@[simp] theorem State.modWg_cmds (s : State) (c w : Nat) (f : Workgroup → Workgroup) : (s.modWg c w f).cmds = s.cmds := rfl
@[simp] theorem State.modWg_saves (s : State) (c w : Nat) (f : Workgroup → Workgroup) : (s.modWg c w f).saves = s.saves := rfl
@[simp] theorem State.modWg_launchSaves (s : State) (c w : Nat) (f : Workgroup → Workgroup) : (s.modWg c w f).launchSaves = s.launchSaves := rfl
@[simp] theorem State.modWg_mboxHeld (s : State) (c w : Nat) (f : Workgroup → Workgroup) : (s.modWg c w f).mboxHeld = s.mboxHeld := rfl
@[simp] theorem State.modWg_traceHeld (s : State) (c w : Nat) (f : Workgroup → Workgroup) : (s.modWg c w f).traceHeld = s.traceHeld := rfl
@[simp] theorem State.modWg_replayHeld (s : State) (c w : Nat) (f : Workgroup → Workgroup) : (s.modWg c w f).replayHeld = s.replayHeld := rfl
@[simp] theorem State.modWg_sessions (s : State) (c w : Nat) (f : Workgroup → Workgroup) : (s.modWg c w f).sessions = s.sessions := rfl
@[simp] theorem State.modWg_ladders (s : State) (c w : Nat) (f : Workgroup → Workgroup) : (s.modWg c w f).ladders = s.ladders := rfl
@[simp] theorem State.modWg_copies (s : State) (c w : Nat) (f : Workgroup → Workgroup) : (s.modWg c w f).copies = s.copies := rfl
@[simp] theorem State.modWg_bprefs (s : State) (c w : Nat) (f : Workgroup → Workgroup) : (s.modWg c w f).bprefs = s.bprefs := rfl
@[simp] theorem State.modWg_segs (s : State) (c w : Nat) (f : Workgroup → Workgroup) : (s.modWg c w f).segs = s.segs := rfl
@[simp] theorem State.modWg_fills (s : State) (c w : Nat) (f : Workgroup → Workgroup) : (s.modWg c w f).fills = s.fills := rfl
@[simp] theorem State.modWg_flat (s : State) (c w : Nat) (f : Workgroup → Workgroup) : (s.modWg c w f).flat = s.flat := rfl
@[simp] theorem State.modWg_icache (s : State) (c w : Nat) (f : Workgroup → Workgroup) : (s.modWg c w f).icache = s.icache := rfl
@[simp] theorem State.modWg_l1 (s : State) (c w : Nat) (f : Workgroup → Workgroup) : (s.modWg c w f).l1 = s.l1 := rfl
@[simp] theorem State.modWg_cache (s : State) (c w : Nat) (f : Workgroup → Workgroup) : (s.modWg c w f).cache = s.cache := rfl
@[simp] theorem State.modWg_bankQ (s : State) (c w : Nat) (f : Workgroup → Workgroup) : (s.modWg c w f).bankQ = s.bankQ := rfl
@[simp] theorem State.modWg_banks (s : State) (c w : Nat) (f : Workgroup → Workgroup) : (s.modWg c w f).banks = s.banks := rfl
@[simp] theorem State.modWg_bankLast (s : State) (c w : Nat) (f : Workgroup → Workgroup) : (s.modWg c w f).bankLast = s.bankLast := rfl
@[simp] theorem State.modWg_leftLines (s : State) (c w : Nat) (f : Workgroup → Workgroup) : (s.modWg c w f).leftLines = s.leftLines := rfl
@[simp] theorem State.modWg_chans (s : State) (c w : Nat) (f : Workgroup → Workgroup) : (s.modWg c w f).chans = s.chans := rfl
@[simp] theorem State.modWg_scrubs (s : State) (c w : Nat) (f : Workgroup → Workgroup) : (s.modWg c w f).scrubs = s.scrubs := rfl
@[simp] theorem State.modWg_gang (s : State) (c w : Nat) (f : Workgroup → Workgroup) : (s.modWg c w f).gang = s.gang := rfl
@[simp] theorem State.modWg_coreWords (s : State) (c w : Nat) (f : Workgroup → Workgroup) : (s.modWg c w f).coreWords = s.coreWords := rfl
@[simp] theorem State.modWg_actmax (s : State) (c w : Nat) (f : Workgroup → Workgroup) : (s.modWg c w f).actmax = s.actmax := rfl
@[simp] theorem State.modWg_coreSince (s : State) (c w : Nat) (f : Workgroup → Workgroup) : (s.modWg c w f).coreSince = s.coreSince := rfl
@[simp] theorem State.modWg_links (s : State) (c w : Nat) (f : Workgroup → Workgroup) : (s.modWg c w f).links = s.links := rfl
@[simp] theorem State.modWg_ageing (s : State) (c w : Nat) (f : Workgroup → Workgroup) : (s.modWg c w f).ageing = s.ageing := rfl
@[simp] theorem State.modWg_planAt (s : State) (c w : Nat) (f : Workgroup → Workgroup) : (s.modWg c w f).planAt = s.planAt := rfl
@[simp] theorem State.modWg_funcs (s : State) (c w : Nat) (f : Workgroup → Workgroup) : (s.modWg c w f).funcs = s.funcs := rfl
@[simp] theorem State.modWg_boot (s : State) (c w : Nat) (f : Workgroup → Workgroup) : (s.modWg c w f).boot = s.boot := rfl
@[simp] theorem State.modWg_clockMhz (s : State) (c w : Nat) (f : Workgroup → Workgroup) : (s.modWg c w f).clockMhz = s.clockMhz := rfl
@[simp] theorem State.modWg_clockAt (s : State) (c w : Nat) (f : Workgroup → Workgroup) : (s.modWg c w f).clockAt = s.clockAt := rfl
@[simp] theorem State.modWg_cycle (s : State) (c w : Nat) (f : Workgroup → Workgroup) : (s.modWg c w f).cycle = s.cycle := rfl
@[simp] theorem State.modWg_ns (s : State) (c w : Nat) (f : Workgroup → Workgroup) : (s.modWg c w f).ns = s.ns := rfl
@[simp] theorem State.modWg_nsRem (s : State) (c w : Nat) (f : Workgroup → Workgroup) : (s.modWg c w f).nsRem = s.nsRem := rfl
@[simp] theorem State.modWg_samp (s : State) (c w : Nat) (f : Workgroup → Workgroup) : (s.modWg c w f).samp = s.samp := rfl
@[simp] theorem State.modWg_sampRot (s : State) (c w : Nat) (f : Workgroup → Workgroup) : (s.modWg c w f).sampRot = s.sampRot := rfl
@[simp] theorem State.modWg_tickAt (s : State) (c w : Nat) (f : Workgroup → Workgroup) : (s.modWg c w f).tickAt = s.tickAt := rfl
@[simp] theorem State.modWg_windowAt (s : State) (c w : Nat) (f : Workgroup → Workgroup) : (s.modWg c w f).windowAt = s.windowAt := rfl
@[simp] theorem State.modWg_fresh (s : State) (c w : Nat) (f : Workgroup → Workgroup) : (s.modWg c w f).fresh = s.fresh := rfl
@[simp] theorem State.modWg_free (s : State) (c w : Nat) (f : Workgroup → Workgroup) : (s.modWg c w f).free = s.free := rfl
@[simp] theorem State.modWg_steps (s : State) (c w : Nat) (f : Workgroup → Workgroup) : (s.modWg c w f).steps = s.steps := rfl
@[simp] theorem State.modWg_cur (s : State) (c w : Nat) (f : Workgroup → Workgroup) : (s.modWg c w f).cur = s.cur := rfl
@[simp] theorem State.modWg_issued (s : State) (c w : Nat) (f : Workgroup → Workgroup) : (s.modWg c w f).issued = s.issued := rfl
@[simp] theorem State.modWg_sched (s : State) (c w : Nat) (f : Workgroup → Workgroup) : (s.modWg c w f).sched = s.sched := rfl

/-! ### State.modCtx -/

@[simp] theorem State.modCtx_mem (s : State) (c : Nat) (f : Context → Context) : (s.modCtx c f).mem = s.mem := rfl
@[simp] theorem State.modCtx_wq (s : State) (c : Nat) (f : Context → Context) : (s.modCtx c f).wq = s.wq := rfl
@[simp] theorem State.modCtx_hostMem (s : State) (c : Nat) (f : Context → Context) : (s.modCtx c f).hostMem = s.hostMem := rfl
@[simp] theorem State.modCtx_hostWq (s : State) (c : Nat) (f : Context → Context) : (s.modCtx c f).hostWq = s.hostWq := rfl
@[simp] theorem State.modCtx_blkKey (s : State) (c : Nat) (f : Context → Context) : (s.modCtx c f).blkKey = s.blkKey := rfl
@[simp] theorem State.modCtx_stale (s : State) (c : Nat) (f : Context → Context) : (s.modCtx c f).stale = s.stale := rfl
@[simp] theorem State.modCtx_keyInst (s : State) (c : Nat) (f : Context → Context) : (s.modCtx c f).keyInst = s.keyInst := rfl
@[simp] theorem State.modCtx_keyMaker (s : State) (c : Nat) (f : Context → Context) : (s.modCtx c f).keyMaker = s.keyMaker := rfl
@[simp] theorem State.modCtx_nextInst (s : State) (c : Nat) (f : Context → Context) : (s.modCtx c f).nextInst = s.nextInst := rfl
@[simp] theorem State.modCtx_poison (s : State) (c : Nat) (f : Context → Context) : (s.modCtx c f).poison = s.poison := rfl
@[simp] theorem State.modCtx_notices (s : State) (c : Nat) (f : Context → Context) : (s.modCtx c f).notices = s.notices := rfl
@[simp] theorem State.modCtx_groups (s : State) (c : Nat) (f : Context → Context) : (s.modCtx c f).groups = s.groups := rfl
@[simp] theorem State.modCtx_lputs (s : State) (c : Nat) (f : Context → Context) : (s.modCtx c f).lputs = s.lputs := rfl
@[simp] theorem State.modCtx_wgs (s : State) (c : Nat) (f : Context → Context) : (s.modCtx c f).wgs = s.wgs := rfl
@[simp] theorem State.modCtx_cohorts (s : State) (c : Nat) (f : Context → Context) : (s.modCtx c f).cohorts = s.cohorts := rfl
@[simp] theorem State.modCtx_grids (s : State) (c : Nat) (f : Context → Context) : (s.modCtx c f).grids = s.grids := rfl
@[simp] theorem State.modCtx_launches (s : State) (c : Nat) (f : Context → Context) : (s.modCtx c f).launches = s.launches := rfl
@[simp] theorem State.modCtx_bins (s : State) (c : Nat) (f : Context → Context) : (s.modCtx c f).bins = s.bins := rfl
@[simp] theorem State.modCtx_pool (s : State) (c : Nat) (f : Context → Context) : (s.modCtx c f).pool = s.pool := rfl
@[simp] theorem State.modCtx_hub (s : State) (c : Nat) (f : Context → Context) : (s.modCtx c f).hub = s.hub := rfl
@[simp] theorem State.modCtx_standing (s : State) (c : Nat) (f : Context → Context) : (s.modCtx c f).standing = s.standing := rfl
@[simp] theorem State.modCtx_cmds (s : State) (c : Nat) (f : Context → Context) : (s.modCtx c f).cmds = s.cmds := rfl
@[simp] theorem State.modCtx_saves (s : State) (c : Nat) (f : Context → Context) : (s.modCtx c f).saves = s.saves := rfl
@[simp] theorem State.modCtx_launchSaves (s : State) (c : Nat) (f : Context → Context) : (s.modCtx c f).launchSaves = s.launchSaves := rfl
@[simp] theorem State.modCtx_mboxHeld (s : State) (c : Nat) (f : Context → Context) : (s.modCtx c f).mboxHeld = s.mboxHeld := rfl
@[simp] theorem State.modCtx_traceHeld (s : State) (c : Nat) (f : Context → Context) : (s.modCtx c f).traceHeld = s.traceHeld := rfl
@[simp] theorem State.modCtx_replayHeld (s : State) (c : Nat) (f : Context → Context) : (s.modCtx c f).replayHeld = s.replayHeld := rfl
@[simp] theorem State.modCtx_sessions (s : State) (c : Nat) (f : Context → Context) : (s.modCtx c f).sessions = s.sessions := rfl
@[simp] theorem State.modCtx_ladders (s : State) (c : Nat) (f : Context → Context) : (s.modCtx c f).ladders = s.ladders := rfl
@[simp] theorem State.modCtx_copies (s : State) (c : Nat) (f : Context → Context) : (s.modCtx c f).copies = s.copies := rfl
@[simp] theorem State.modCtx_bprefs (s : State) (c : Nat) (f : Context → Context) : (s.modCtx c f).bprefs = s.bprefs := rfl
@[simp] theorem State.modCtx_segs (s : State) (c : Nat) (f : Context → Context) : (s.modCtx c f).segs = s.segs := rfl
@[simp] theorem State.modCtx_fills (s : State) (c : Nat) (f : Context → Context) : (s.modCtx c f).fills = s.fills := rfl
@[simp] theorem State.modCtx_flat (s : State) (c : Nat) (f : Context → Context) : (s.modCtx c f).flat = s.flat := rfl
@[simp] theorem State.modCtx_icache (s : State) (c : Nat) (f : Context → Context) : (s.modCtx c f).icache = s.icache := rfl
@[simp] theorem State.modCtx_l1 (s : State) (c : Nat) (f : Context → Context) : (s.modCtx c f).l1 = s.l1 := rfl
@[simp] theorem State.modCtx_cache (s : State) (c : Nat) (f : Context → Context) : (s.modCtx c f).cache = s.cache := rfl
@[simp] theorem State.modCtx_bankQ (s : State) (c : Nat) (f : Context → Context) : (s.modCtx c f).bankQ = s.bankQ := rfl
@[simp] theorem State.modCtx_banks (s : State) (c : Nat) (f : Context → Context) : (s.modCtx c f).banks = s.banks := rfl
@[simp] theorem State.modCtx_bankLast (s : State) (c : Nat) (f : Context → Context) : (s.modCtx c f).bankLast = s.bankLast := rfl
@[simp] theorem State.modCtx_leftLines (s : State) (c : Nat) (f : Context → Context) : (s.modCtx c f).leftLines = s.leftLines := rfl
@[simp] theorem State.modCtx_chans (s : State) (c : Nat) (f : Context → Context) : (s.modCtx c f).chans = s.chans := rfl
@[simp] theorem State.modCtx_scrubs (s : State) (c : Nat) (f : Context → Context) : (s.modCtx c f).scrubs = s.scrubs := rfl
@[simp] theorem State.modCtx_gang (s : State) (c : Nat) (f : Context → Context) : (s.modCtx c f).gang = s.gang := rfl
@[simp] theorem State.modCtx_coreWords (s : State) (c : Nat) (f : Context → Context) : (s.modCtx c f).coreWords = s.coreWords := rfl
@[simp] theorem State.modCtx_actmax (s : State) (c : Nat) (f : Context → Context) : (s.modCtx c f).actmax = s.actmax := rfl
@[simp] theorem State.modCtx_coreSince (s : State) (c : Nat) (f : Context → Context) : (s.modCtx c f).coreSince = s.coreSince := rfl
@[simp] theorem State.modCtx_links (s : State) (c : Nat) (f : Context → Context) : (s.modCtx c f).links = s.links := rfl
@[simp] theorem State.modCtx_ageing (s : State) (c : Nat) (f : Context → Context) : (s.modCtx c f).ageing = s.ageing := rfl
@[simp] theorem State.modCtx_planAt (s : State) (c : Nat) (f : Context → Context) : (s.modCtx c f).planAt = s.planAt := rfl
@[simp] theorem State.modCtx_funcs (s : State) (c : Nat) (f : Context → Context) : (s.modCtx c f).funcs = s.funcs := rfl
@[simp] theorem State.modCtx_boot (s : State) (c : Nat) (f : Context → Context) : (s.modCtx c f).boot = s.boot := rfl
@[simp] theorem State.modCtx_clockMhz (s : State) (c : Nat) (f : Context → Context) : (s.modCtx c f).clockMhz = s.clockMhz := rfl
@[simp] theorem State.modCtx_clockAt (s : State) (c : Nat) (f : Context → Context) : (s.modCtx c f).clockAt = s.clockAt := rfl
@[simp] theorem State.modCtx_cycle (s : State) (c : Nat) (f : Context → Context) : (s.modCtx c f).cycle = s.cycle := rfl
@[simp] theorem State.modCtx_ns (s : State) (c : Nat) (f : Context → Context) : (s.modCtx c f).ns = s.ns := rfl
@[simp] theorem State.modCtx_nsRem (s : State) (c : Nat) (f : Context → Context) : (s.modCtx c f).nsRem = s.nsRem := rfl
@[simp] theorem State.modCtx_samp (s : State) (c : Nat) (f : Context → Context) : (s.modCtx c f).samp = s.samp := rfl
@[simp] theorem State.modCtx_sampRot (s : State) (c : Nat) (f : Context → Context) : (s.modCtx c f).sampRot = s.sampRot := rfl
@[simp] theorem State.modCtx_tickAt (s : State) (c : Nat) (f : Context → Context) : (s.modCtx c f).tickAt = s.tickAt := rfl
@[simp] theorem State.modCtx_windowAt (s : State) (c : Nat) (f : Context → Context) : (s.modCtx c f).windowAt = s.windowAt := rfl
@[simp] theorem State.modCtx_fresh (s : State) (c : Nat) (f : Context → Context) : (s.modCtx c f).fresh = s.fresh := rfl
@[simp] theorem State.modCtx_free (s : State) (c : Nat) (f : Context → Context) : (s.modCtx c f).free = s.free := rfl
@[simp] theorem State.modCtx_steps (s : State) (c : Nat) (f : Context → Context) : (s.modCtx c f).steps = s.steps := rfl
@[simp] theorem State.modCtx_cur (s : State) (c : Nat) (f : Context → Context) : (s.modCtx c f).cur = s.cur := rfl
@[simp] theorem State.modCtx_issued (s : State) (c : Nat) (f : Context → Context) : (s.modCtx c f).issued = s.issued := rfl
@[simp] theorem State.modCtx_sched (s : State) (c : Nat) (f : Context → Context) : (s.modCtx c f).sched = s.sched := rfl

/-! ### State.put -/

@[simp] theorem State.put_mem (s : State) (a : Nat) (bs : List Byte) : (s.put a bs).mem = s.mem := rfl
@[simp] theorem State.put_hostMem (s : State) (a : Nat) (bs : List Byte) : (s.put a bs).hostMem = s.hostMem := rfl
@[simp] theorem State.put_hostWq (s : State) (a : Nat) (bs : List Byte) : (s.put a bs).hostWq = s.hostWq := rfl
@[simp] theorem State.put_blkKey (s : State) (a : Nat) (bs : List Byte) : (s.put a bs).blkKey = s.blkKey := rfl
@[simp] theorem State.put_stale (s : State) (a : Nat) (bs : List Byte) : (s.put a bs).stale = s.stale := rfl
@[simp] theorem State.put_keyInst (s : State) (a : Nat) (bs : List Byte) : (s.put a bs).keyInst = s.keyInst := rfl
@[simp] theorem State.put_keyMaker (s : State) (a : Nat) (bs : List Byte) : (s.put a bs).keyMaker = s.keyMaker := rfl
@[simp] theorem State.put_nextInst (s : State) (a : Nat) (bs : List Byte) : (s.put a bs).nextInst = s.nextInst := rfl
@[simp] theorem State.put_poison (s : State) (a : Nat) (bs : List Byte) : (s.put a bs).poison = s.poison := rfl
@[simp] theorem State.put_notices (s : State) (a : Nat) (bs : List Byte) : (s.put a bs).notices = s.notices := rfl
@[simp] theorem State.put_groups (s : State) (a : Nat) (bs : List Byte) : (s.put a bs).groups = s.groups := rfl
@[simp] theorem State.put_lputs (s : State) (a : Nat) (bs : List Byte) : (s.put a bs).lputs = s.lputs := rfl
@[simp] theorem State.put_wgs (s : State) (a : Nat) (bs : List Byte) : (s.put a bs).wgs = s.wgs := rfl
@[simp] theorem State.put_cohorts (s : State) (a : Nat) (bs : List Byte) : (s.put a bs).cohorts = s.cohorts := rfl
@[simp] theorem State.put_grids (s : State) (a : Nat) (bs : List Byte) : (s.put a bs).grids = s.grids := rfl
@[simp] theorem State.put_launches (s : State) (a : Nat) (bs : List Byte) : (s.put a bs).launches = s.launches := rfl
@[simp] theorem State.put_bins (s : State) (a : Nat) (bs : List Byte) : (s.put a bs).bins = s.bins := rfl
@[simp] theorem State.put_pool (s : State) (a : Nat) (bs : List Byte) : (s.put a bs).pool = s.pool := rfl
@[simp] theorem State.put_contexts (s : State) (a : Nat) (bs : List Byte) : (s.put a bs).contexts = s.contexts := rfl
@[simp] theorem State.put_hub (s : State) (a : Nat) (bs : List Byte) : (s.put a bs).hub = s.hub := rfl
@[simp] theorem State.put_standing (s : State) (a : Nat) (bs : List Byte) : (s.put a bs).standing = s.standing := rfl
@[simp] theorem State.put_cmds (s : State) (a : Nat) (bs : List Byte) : (s.put a bs).cmds = s.cmds := rfl
@[simp] theorem State.put_saves (s : State) (a : Nat) (bs : List Byte) : (s.put a bs).saves = s.saves := rfl
@[simp] theorem State.put_launchSaves (s : State) (a : Nat) (bs : List Byte) : (s.put a bs).launchSaves = s.launchSaves := rfl
@[simp] theorem State.put_mboxHeld (s : State) (a : Nat) (bs : List Byte) : (s.put a bs).mboxHeld = s.mboxHeld := rfl
@[simp] theorem State.put_traceHeld (s : State) (a : Nat) (bs : List Byte) : (s.put a bs).traceHeld = s.traceHeld := rfl
@[simp] theorem State.put_replayHeld (s : State) (a : Nat) (bs : List Byte) : (s.put a bs).replayHeld = s.replayHeld := rfl
@[simp] theorem State.put_sessions (s : State) (a : Nat) (bs : List Byte) : (s.put a bs).sessions = s.sessions := rfl
@[simp] theorem State.put_ladders (s : State) (a : Nat) (bs : List Byte) : (s.put a bs).ladders = s.ladders := rfl
@[simp] theorem State.put_copies (s : State) (a : Nat) (bs : List Byte) : (s.put a bs).copies = s.copies := rfl
@[simp] theorem State.put_bprefs (s : State) (a : Nat) (bs : List Byte) : (s.put a bs).bprefs = s.bprefs := rfl
@[simp] theorem State.put_segs (s : State) (a : Nat) (bs : List Byte) : (s.put a bs).segs = s.segs := rfl
@[simp] theorem State.put_fills (s : State) (a : Nat) (bs : List Byte) : (s.put a bs).fills = s.fills := rfl
@[simp] theorem State.put_flat (s : State) (a : Nat) (bs : List Byte) : (s.put a bs).flat = s.flat := rfl
@[simp] theorem State.put_icache (s : State) (a : Nat) (bs : List Byte) : (s.put a bs).icache = s.icache := rfl
@[simp] theorem State.put_l1 (s : State) (a : Nat) (bs : List Byte) : (s.put a bs).l1 = s.l1 := rfl
@[simp] theorem State.put_cache (s : State) (a : Nat) (bs : List Byte) : (s.put a bs).cache = s.cache := rfl
@[simp] theorem State.put_bankQ (s : State) (a : Nat) (bs : List Byte) : (s.put a bs).bankQ = s.bankQ := rfl
@[simp] theorem State.put_banks (s : State) (a : Nat) (bs : List Byte) : (s.put a bs).banks = s.banks := rfl
@[simp] theorem State.put_bankLast (s : State) (a : Nat) (bs : List Byte) : (s.put a bs).bankLast = s.bankLast := rfl
@[simp] theorem State.put_leftLines (s : State) (a : Nat) (bs : List Byte) : (s.put a bs).leftLines = s.leftLines := rfl
@[simp] theorem State.put_chans (s : State) (a : Nat) (bs : List Byte) : (s.put a bs).chans = s.chans := rfl
@[simp] theorem State.put_scrubs (s : State) (a : Nat) (bs : List Byte) : (s.put a bs).scrubs = s.scrubs := rfl
@[simp] theorem State.put_gang (s : State) (a : Nat) (bs : List Byte) : (s.put a bs).gang = s.gang := rfl
@[simp] theorem State.put_coreWords (s : State) (a : Nat) (bs : List Byte) : (s.put a bs).coreWords = s.coreWords := rfl
@[simp] theorem State.put_actmax (s : State) (a : Nat) (bs : List Byte) : (s.put a bs).actmax = s.actmax := rfl
@[simp] theorem State.put_coreSince (s : State) (a : Nat) (bs : List Byte) : (s.put a bs).coreSince = s.coreSince := rfl
@[simp] theorem State.put_links (s : State) (a : Nat) (bs : List Byte) : (s.put a bs).links = s.links := rfl
@[simp] theorem State.put_ageing (s : State) (a : Nat) (bs : List Byte) : (s.put a bs).ageing = s.ageing := rfl
@[simp] theorem State.put_planAt (s : State) (a : Nat) (bs : List Byte) : (s.put a bs).planAt = s.planAt := rfl
@[simp] theorem State.put_funcs (s : State) (a : Nat) (bs : List Byte) : (s.put a bs).funcs = s.funcs := rfl
@[simp] theorem State.put_boot (s : State) (a : Nat) (bs : List Byte) : (s.put a bs).boot = s.boot := rfl
@[simp] theorem State.put_clockMhz (s : State) (a : Nat) (bs : List Byte) : (s.put a bs).clockMhz = s.clockMhz := rfl
@[simp] theorem State.put_clockAt (s : State) (a : Nat) (bs : List Byte) : (s.put a bs).clockAt = s.clockAt := rfl
@[simp] theorem State.put_cycle (s : State) (a : Nat) (bs : List Byte) : (s.put a bs).cycle = s.cycle := rfl
@[simp] theorem State.put_ns (s : State) (a : Nat) (bs : List Byte) : (s.put a bs).ns = s.ns := rfl
@[simp] theorem State.put_nsRem (s : State) (a : Nat) (bs : List Byte) : (s.put a bs).nsRem = s.nsRem := rfl
@[simp] theorem State.put_samp (s : State) (a : Nat) (bs : List Byte) : (s.put a bs).samp = s.samp := rfl
@[simp] theorem State.put_sampRot (s : State) (a : Nat) (bs : List Byte) : (s.put a bs).sampRot = s.sampRot := rfl
@[simp] theorem State.put_tickAt (s : State) (a : Nat) (bs : List Byte) : (s.put a bs).tickAt = s.tickAt := rfl
@[simp] theorem State.put_windowAt (s : State) (a : Nat) (bs : List Byte) : (s.put a bs).windowAt = s.windowAt := rfl
@[simp] theorem State.put_fresh (s : State) (a : Nat) (bs : List Byte) : (s.put a bs).fresh = s.fresh := rfl
@[simp] theorem State.put_free (s : State) (a : Nat) (bs : List Byte) : (s.put a bs).free = s.free := rfl
@[simp] theorem State.put_steps (s : State) (a : Nat) (bs : List Byte) : (s.put a bs).steps = s.steps := rfl
@[simp] theorem State.put_cur (s : State) (a : Nat) (bs : List Byte) : (s.put a bs).cur = s.cur := rfl
@[simp] theorem State.put_issued (s : State) (a : Nat) (bs : List Byte) : (s.put a bs).issued = s.issued := rfl
@[simp] theorem State.put_sched (s : State) (a : Nat) (bs : List Byte) : (s.put a bs).sched = s.sched := rfl

/-! ### Group.setPath -/

@[simp] theorem Group.setPath_uid (x : Group) (p : Nat) (y : Path) : (x.setPath p y).uid = x.uid := rfl
@[simp] theorem Group.setPath_ctx (x : Group) (p : Nat) (y : Path) : (x.setPath p y).ctx = x.ctx := rfl
@[simp] theorem Group.setPath_grid (x : Group) (p : Nat) (y : Path) : (x.setPath p y).grid = x.grid := rfl
@[simp] theorem Group.setPath_coh (x : Group) (p : Nat) (y : Path) : (x.setPath p y).coh = x.coh := rfl
@[simp] theorem Group.setPath_wg (x : Group) (p : Nat) (y : Path) : (x.setPath p y).wg = x.wg := rfl
@[simp] theorem Group.setPath_gi (x : Group) (p : Nat) (y : Path) : (x.setPath p y).gi = x.gi := rfl
@[simp] theorem Group.setPath_idCoh (x : Group) (p : Nat) (y : Path) : (x.setPath p y).idCoh = x.idCoh := rfl
@[simp] theorem Group.setPath_idGrid (x : Group) (p : Nat) (y : Path) : (x.setPath p y).idGrid = x.idGrid := rfl
@[simp] theorem Group.setPath_bin (x : Group) (p : Nat) (y : Path) : (x.setPath p y).bin = x.bin := rfl
@[simp] theorem Group.setPath_core (x : Group) (p : Nat) (y : Path) : (x.setPath p y).core = x.core := rfl
@[simp] theorem Group.setPath_part (x : Group) (p : Nat) (y : Path) : (x.setPath p y).part = x.part := rfl
@[simp] theorem Group.setPath_startNo (x : Group) (p : Nat) (y : Path) : (x.setPath p y).startNo = x.startNo := rfl
@[simp] theorem Group.setPath_active (x : Group) (p : Nat) (y : Path) : (x.setPath p y).active = x.active := rfl
@[simp] theorem Group.setPath_resident (x : Group) (p : Nat) (y : Path) : (x.setPath p y).resident = x.resident := rfl
@[simp] theorem Group.setPath_saved (x : Group) (p : Nat) (y : Path) : (x.setPath p y).saved = x.saved := rfl
@[simp] theorem Group.setPath_retired (x : Group) (p : Nat) (y : Path) : (x.setPath p y).retired = x.retired := rfl
@[simp] theorem Group.setPath_control (x : Group) (p : Nat) (y : Path) : (x.setPath p y).control = x.control := rfl
@[simp] theorem Group.setPath_yielded (x : Group) (p : Nat) (y : Path) : (x.setPath p y).yielded = x.yielded := rfl
@[simp] theorem Group.setPath_win (x : Group) (p : Nat) (y : Path) : (x.setPath p y).win = x.win := rfl
@[simp] theorem Group.setPath_nres (x : Group) (p : Nat) (y : Path) : (x.setPath p y).nres = x.nres := rfl
@[simp] theorem Group.setPath_wb (x : Group) (p : Nat) (y : Path) : (x.setPath p y).wb = x.wb := rfl
@[simp] theorem Group.setPath_rlo (x : Group) (p : Nat) (y : Path) : (x.setPath p y).rlo = x.rlo := rfl
@[simp] theorem Group.setPath_slot (x : Group) (p : Nat) (y : Path) : (x.setPath p y).slot = x.slot := rfl
@[simp] theorem Group.setPath_slotBase (x : Group) (p : Nat) (y : Path) : (x.setPath p y).slotBase = x.slotBase := rfl
@[simp] theorem Group.setPath_kent (x : Group) (p : Nat) (y : Path) : (x.setPath p y).kent = x.kent := rfl
@[simp] theorem Group.setPath_v (x : Group) (p : Nat) (y : Path) : (x.setPath p y).v = x.v := rfl
@[simp] theorem Group.setPath_s (x : Group) (p : Nat) (y : Path) : (x.setPath p y).s = x.s := rfl
@[simp] theorem Group.setPath_m (x : Group) (p : Nat) (y : Path) : (x.setPath p y).m = x.m := rfl
@[simp] theorem Group.setPath_d (x : Group) (p : Nat) (y : Path) : (x.setPath p y).d = x.d := rfl
@[simp] theorem Group.setPath_defer (x : Group) (p : Nat) (y : Path) : (x.setPath p y).defer = x.defer := rfl
@[simp] theorem Group.setPath_fl (x : Group) (p : Nat) (y : Path) : (x.setPath p y).fl = x.fl := rfl
@[simp] theorem Group.setPath_quads (x : Group) (p : Nat) (y : Path) : (x.setPath p y).quads = x.quads := rfl
@[simp] theorem Group.setPath_last (x : Group) (p : Nat) (y : Path) : (x.setPath p y).last = x.last := rfl
@[simp] theorem Group.setPath_rcq (x : Group) (p : Nat) (y : Path) : (x.setPath p y).rcq = x.rcq := rfl
@[simp] theorem Group.setPath_outs (x : Group) (p : Nat) (y : Path) : (x.setPath p y).outs = x.outs := rfl
@[simp] theorem Group.setPath_sbuf (x : Group) (p : Nat) (y : Path) : (x.setPath p y).sbuf = x.sbuf := rfl
@[simp] theorem Group.setPath_ws (x : Group) (p : Nat) (y : Path) : (x.setPath p y).ws = x.ws := rfl
@[simp] theorem Group.setPath_nb (x : Group) (p : Nat) (y : Path) : (x.setPath p y).nb = x.nb := rfl
@[simp] theorem Group.setPath_unb (x : Group) (p : Nat) (y : Path) : (x.setPath p y).unb = x.unb := rfl
@[simp] theorem Group.setPath_unbFails (x : Group) (p : Nat) (y : Path) : (x.setPath p y).unbFails = x.unbFails := rfl
@[simp] theorem Group.setPath_batches (x : Group) (p : Nat) (y : Path) : (x.setPath p y).batches = x.batches := rfl
@[simp] theorem Group.setPath_report (x : Group) (p : Nat) (y : Path) : (x.setPath p y).report = x.report := rfl
@[simp] theorem Group.setPath_doneBatch (x : Group) (p : Nat) (y : Path) : (x.setPath p y).doneBatch = x.doneBatch := rfl
@[simp] theorem Group.setPath_alatch (x : Group) (p : Nat) (y : Path) : (x.setPath p y).alatch = x.alatch := rfl
@[simp] theorem Group.setPath_subs (x : Group) (p : Nat) (y : Path) : (x.setPath p y).subs = x.subs := rfl
@[simp] theorem Group.setPath_mpend (x : Group) (p : Nat) (y : Path) : (x.setPath p y).mpend = x.mpend := rfl
@[simp] theorem Group.setPath_ad (x : Group) (p : Nat) (y : Path) : (x.setPath p y).ad = x.ad := rfl
@[simp] theorem Group.setPath_applies (x : Group) (p : Nat) (y : Path) : (x.setPath p y).applies = x.applies := rfl
@[simp] theorem Group.setPath_wv (x : Group) (p : Nat) (y : Path) : (x.setPath p y).wv = x.wv := rfl
@[simp] theorem Group.setPath_wt (x : Group) (p : Nat) (y : Path) : (x.setPath p y).wt = x.wt := rfl
@[simp] theorem Group.setPath_barc (x : Group) (p : Nat) (y : Path) : (x.setPath p y).barc = x.barc := rfl
@[simp] theorem Group.setPath_rnum (x : Group) (p : Nat) (y : Path) : (x.setPath p y).rnum = x.rnum := rfl
@[simp] theorem Group.setPath_gclk (x : Group) (p : Nat) (y : Path) : (x.setPath p y).gclk = x.gclk := rfl
@[simp] theorem Group.setPath_maxw (x : Group) (p : Nat) (y : Path) : (x.setPath p y).maxw = x.maxw := rfl
@[simp] theorem Group.setPath_badRows (x : Group) (p : Nat) (y : Path) : (x.setPath p y).badRows = x.badRows := rfl
@[simp] theorem Group.setPath_awake (x : Group) (p : Nat) (y : Path) : (x.setPath p y).awake = x.awake := rfl
@[simp] theorem Group.setPath_handler (x : Group) (p : Nat) (y : Path) : (x.setPath p y).handler = x.handler := rfl
@[simp] theorem Group.setPath_waitSince (x : Group) (p : Nat) (y : Path) : (x.setPath p y).waitSince = x.waitSince := rfl

/-! ### Group.modPath -/

@[simp] theorem Group.modPath_uid (x : Group) (p : Nat) (f : Path → Path) : (x.modPath p f).uid = x.uid := rfl
@[simp] theorem Group.modPath_ctx (x : Group) (p : Nat) (f : Path → Path) : (x.modPath p f).ctx = x.ctx := rfl
@[simp] theorem Group.modPath_grid (x : Group) (p : Nat) (f : Path → Path) : (x.modPath p f).grid = x.grid := rfl
@[simp] theorem Group.modPath_coh (x : Group) (p : Nat) (f : Path → Path) : (x.modPath p f).coh = x.coh := rfl
@[simp] theorem Group.modPath_wg (x : Group) (p : Nat) (f : Path → Path) : (x.modPath p f).wg = x.wg := rfl
@[simp] theorem Group.modPath_gi (x : Group) (p : Nat) (f : Path → Path) : (x.modPath p f).gi = x.gi := rfl
@[simp] theorem Group.modPath_idCoh (x : Group) (p : Nat) (f : Path → Path) : (x.modPath p f).idCoh = x.idCoh := rfl
@[simp] theorem Group.modPath_idGrid (x : Group) (p : Nat) (f : Path → Path) : (x.modPath p f).idGrid = x.idGrid := rfl
@[simp] theorem Group.modPath_bin (x : Group) (p : Nat) (f : Path → Path) : (x.modPath p f).bin = x.bin := rfl
@[simp] theorem Group.modPath_core (x : Group) (p : Nat) (f : Path → Path) : (x.modPath p f).core = x.core := rfl
@[simp] theorem Group.modPath_part (x : Group) (p : Nat) (f : Path → Path) : (x.modPath p f).part = x.part := rfl
@[simp] theorem Group.modPath_startNo (x : Group) (p : Nat) (f : Path → Path) : (x.modPath p f).startNo = x.startNo := rfl
@[simp] theorem Group.modPath_active (x : Group) (p : Nat) (f : Path → Path) : (x.modPath p f).active = x.active := rfl
@[simp] theorem Group.modPath_resident (x : Group) (p : Nat) (f : Path → Path) : (x.modPath p f).resident = x.resident := rfl
@[simp] theorem Group.modPath_saved (x : Group) (p : Nat) (f : Path → Path) : (x.modPath p f).saved = x.saved := rfl
@[simp] theorem Group.modPath_retired (x : Group) (p : Nat) (f : Path → Path) : (x.modPath p f).retired = x.retired := rfl
@[simp] theorem Group.modPath_control (x : Group) (p : Nat) (f : Path → Path) : (x.modPath p f).control = x.control := rfl
@[simp] theorem Group.modPath_yielded (x : Group) (p : Nat) (f : Path → Path) : (x.modPath p f).yielded = x.yielded := rfl
@[simp] theorem Group.modPath_win (x : Group) (p : Nat) (f : Path → Path) : (x.modPath p f).win = x.win := rfl
@[simp] theorem Group.modPath_nres (x : Group) (p : Nat) (f : Path → Path) : (x.modPath p f).nres = x.nres := rfl
@[simp] theorem Group.modPath_wb (x : Group) (p : Nat) (f : Path → Path) : (x.modPath p f).wb = x.wb := rfl
@[simp] theorem Group.modPath_rlo (x : Group) (p : Nat) (f : Path → Path) : (x.modPath p f).rlo = x.rlo := rfl
@[simp] theorem Group.modPath_slot (x : Group) (p : Nat) (f : Path → Path) : (x.modPath p f).slot = x.slot := rfl
@[simp] theorem Group.modPath_slotBase (x : Group) (p : Nat) (f : Path → Path) : (x.modPath p f).slotBase = x.slotBase := rfl
@[simp] theorem Group.modPath_kent (x : Group) (p : Nat) (f : Path → Path) : (x.modPath p f).kent = x.kent := rfl
@[simp] theorem Group.modPath_v (x : Group) (p : Nat) (f : Path → Path) : (x.modPath p f).v = x.v := rfl
@[simp] theorem Group.modPath_s (x : Group) (p : Nat) (f : Path → Path) : (x.modPath p f).s = x.s := rfl
@[simp] theorem Group.modPath_m (x : Group) (p : Nat) (f : Path → Path) : (x.modPath p f).m = x.m := rfl
@[simp] theorem Group.modPath_d (x : Group) (p : Nat) (f : Path → Path) : (x.modPath p f).d = x.d := rfl
@[simp] theorem Group.modPath_defer (x : Group) (p : Nat) (f : Path → Path) : (x.modPath p f).defer = x.defer := rfl
@[simp] theorem Group.modPath_fl (x : Group) (p : Nat) (f : Path → Path) : (x.modPath p f).fl = x.fl := rfl
@[simp] theorem Group.modPath_quads (x : Group) (p : Nat) (f : Path → Path) : (x.modPath p f).quads = x.quads := rfl
@[simp] theorem Group.modPath_last (x : Group) (p : Nat) (f : Path → Path) : (x.modPath p f).last = x.last := rfl
@[simp] theorem Group.modPath_rcq (x : Group) (p : Nat) (f : Path → Path) : (x.modPath p f).rcq = x.rcq := rfl
@[simp] theorem Group.modPath_outs (x : Group) (p : Nat) (f : Path → Path) : (x.modPath p f).outs = x.outs := rfl
@[simp] theorem Group.modPath_sbuf (x : Group) (p : Nat) (f : Path → Path) : (x.modPath p f).sbuf = x.sbuf := rfl
@[simp] theorem Group.modPath_ws (x : Group) (p : Nat) (f : Path → Path) : (x.modPath p f).ws = x.ws := rfl
@[simp] theorem Group.modPath_nb (x : Group) (p : Nat) (f : Path → Path) : (x.modPath p f).nb = x.nb := rfl
@[simp] theorem Group.modPath_unb (x : Group) (p : Nat) (f : Path → Path) : (x.modPath p f).unb = x.unb := rfl
@[simp] theorem Group.modPath_unbFails (x : Group) (p : Nat) (f : Path → Path) : (x.modPath p f).unbFails = x.unbFails := rfl
@[simp] theorem Group.modPath_batches (x : Group) (p : Nat) (f : Path → Path) : (x.modPath p f).batches = x.batches := rfl
@[simp] theorem Group.modPath_report (x : Group) (p : Nat) (f : Path → Path) : (x.modPath p f).report = x.report := rfl
@[simp] theorem Group.modPath_doneBatch (x : Group) (p : Nat) (f : Path → Path) : (x.modPath p f).doneBatch = x.doneBatch := rfl
@[simp] theorem Group.modPath_alatch (x : Group) (p : Nat) (f : Path → Path) : (x.modPath p f).alatch = x.alatch := rfl
@[simp] theorem Group.modPath_subs (x : Group) (p : Nat) (f : Path → Path) : (x.modPath p f).subs = x.subs := rfl
@[simp] theorem Group.modPath_mpend (x : Group) (p : Nat) (f : Path → Path) : (x.modPath p f).mpend = x.mpend := rfl
@[simp] theorem Group.modPath_ad (x : Group) (p : Nat) (f : Path → Path) : (x.modPath p f).ad = x.ad := rfl
@[simp] theorem Group.modPath_applies (x : Group) (p : Nat) (f : Path → Path) : (x.modPath p f).applies = x.applies := rfl
@[simp] theorem Group.modPath_wv (x : Group) (p : Nat) (f : Path → Path) : (x.modPath p f).wv = x.wv := rfl
@[simp] theorem Group.modPath_wt (x : Group) (p : Nat) (f : Path → Path) : (x.modPath p f).wt = x.wt := rfl
@[simp] theorem Group.modPath_barc (x : Group) (p : Nat) (f : Path → Path) : (x.modPath p f).barc = x.barc := rfl
@[simp] theorem Group.modPath_rnum (x : Group) (p : Nat) (f : Path → Path) : (x.modPath p f).rnum = x.rnum := rfl
@[simp] theorem Group.modPath_gclk (x : Group) (p : Nat) (f : Path → Path) : (x.modPath p f).gclk = x.gclk := rfl
@[simp] theorem Group.modPath_maxw (x : Group) (p : Nat) (f : Path → Path) : (x.modPath p f).maxw = x.maxw := rfl
@[simp] theorem Group.modPath_badRows (x : Group) (p : Nat) (f : Path → Path) : (x.modPath p f).badRows = x.badRows := rfl
@[simp] theorem Group.modPath_awake (x : Group) (p : Nat) (f : Path → Path) : (x.modPath p f).awake = x.awake := rfl
@[simp] theorem Group.modPath_handler (x : Group) (p : Nat) (f : Path → Path) : (x.modPath p f).handler = x.handler := rfl
@[simp] theorem Group.modPath_waitSince (x : Group) (p : Nat) (f : Path → Path) : (x.modPath p f).waitSince = x.waitSince := rfl

/-! ### Group.setQuad -/

@[simp] theorem Group.setQuad_uid (x : Group) (q : Nat) (y : Quad) : (x.setQuad q y).uid = x.uid := rfl
@[simp] theorem Group.setQuad_ctx (x : Group) (q : Nat) (y : Quad) : (x.setQuad q y).ctx = x.ctx := rfl
@[simp] theorem Group.setQuad_grid (x : Group) (q : Nat) (y : Quad) : (x.setQuad q y).grid = x.grid := rfl
@[simp] theorem Group.setQuad_coh (x : Group) (q : Nat) (y : Quad) : (x.setQuad q y).coh = x.coh := rfl
@[simp] theorem Group.setQuad_wg (x : Group) (q : Nat) (y : Quad) : (x.setQuad q y).wg = x.wg := rfl
@[simp] theorem Group.setQuad_gi (x : Group) (q : Nat) (y : Quad) : (x.setQuad q y).gi = x.gi := rfl
@[simp] theorem Group.setQuad_idCoh (x : Group) (q : Nat) (y : Quad) : (x.setQuad q y).idCoh = x.idCoh := rfl
@[simp] theorem Group.setQuad_idGrid (x : Group) (q : Nat) (y : Quad) : (x.setQuad q y).idGrid = x.idGrid := rfl
@[simp] theorem Group.setQuad_bin (x : Group) (q : Nat) (y : Quad) : (x.setQuad q y).bin = x.bin := rfl
@[simp] theorem Group.setQuad_core (x : Group) (q : Nat) (y : Quad) : (x.setQuad q y).core = x.core := rfl
@[simp] theorem Group.setQuad_part (x : Group) (q : Nat) (y : Quad) : (x.setQuad q y).part = x.part := rfl
@[simp] theorem Group.setQuad_startNo (x : Group) (q : Nat) (y : Quad) : (x.setQuad q y).startNo = x.startNo := rfl
@[simp] theorem Group.setQuad_active (x : Group) (q : Nat) (y : Quad) : (x.setQuad q y).active = x.active := rfl
@[simp] theorem Group.setQuad_resident (x : Group) (q : Nat) (y : Quad) : (x.setQuad q y).resident = x.resident := rfl
@[simp] theorem Group.setQuad_saved (x : Group) (q : Nat) (y : Quad) : (x.setQuad q y).saved = x.saved := rfl
@[simp] theorem Group.setQuad_retired (x : Group) (q : Nat) (y : Quad) : (x.setQuad q y).retired = x.retired := rfl
@[simp] theorem Group.setQuad_control (x : Group) (q : Nat) (y : Quad) : (x.setQuad q y).control = x.control := rfl
@[simp] theorem Group.setQuad_yielded (x : Group) (q : Nat) (y : Quad) : (x.setQuad q y).yielded = x.yielded := rfl
@[simp] theorem Group.setQuad_win (x : Group) (q : Nat) (y : Quad) : (x.setQuad q y).win = x.win := rfl
@[simp] theorem Group.setQuad_nres (x : Group) (q : Nat) (y : Quad) : (x.setQuad q y).nres = x.nres := rfl
@[simp] theorem Group.setQuad_wb (x : Group) (q : Nat) (y : Quad) : (x.setQuad q y).wb = x.wb := rfl
@[simp] theorem Group.setQuad_rlo (x : Group) (q : Nat) (y : Quad) : (x.setQuad q y).rlo = x.rlo := rfl
@[simp] theorem Group.setQuad_slot (x : Group) (q : Nat) (y : Quad) : (x.setQuad q y).slot = x.slot := rfl
@[simp] theorem Group.setQuad_slotBase (x : Group) (q : Nat) (y : Quad) : (x.setQuad q y).slotBase = x.slotBase := rfl
@[simp] theorem Group.setQuad_kent (x : Group) (q : Nat) (y : Quad) : (x.setQuad q y).kent = x.kent := rfl
@[simp] theorem Group.setQuad_v (x : Group) (q : Nat) (y : Quad) : (x.setQuad q y).v = x.v := rfl
@[simp] theorem Group.setQuad_s (x : Group) (q : Nat) (y : Quad) : (x.setQuad q y).s = x.s := rfl
@[simp] theorem Group.setQuad_m (x : Group) (q : Nat) (y : Quad) : (x.setQuad q y).m = x.m := rfl
@[simp] theorem Group.setQuad_d (x : Group) (q : Nat) (y : Quad) : (x.setQuad q y).d = x.d := rfl
@[simp] theorem Group.setQuad_defer (x : Group) (q : Nat) (y : Quad) : (x.setQuad q y).defer = x.defer := rfl
@[simp] theorem Group.setQuad_fl (x : Group) (q : Nat) (y : Quad) : (x.setQuad q y).fl = x.fl := rfl
@[simp] theorem Group.setQuad_paths (x : Group) (q : Nat) (y : Quad) : (x.setQuad q y).paths = x.paths := rfl
@[simp] theorem Group.setQuad_last (x : Group) (q : Nat) (y : Quad) : (x.setQuad q y).last = x.last := rfl
@[simp] theorem Group.setQuad_rcq (x : Group) (q : Nat) (y : Quad) : (x.setQuad q y).rcq = x.rcq := rfl
@[simp] theorem Group.setQuad_outs (x : Group) (q : Nat) (y : Quad) : (x.setQuad q y).outs = x.outs := rfl
@[simp] theorem Group.setQuad_sbuf (x : Group) (q : Nat) (y : Quad) : (x.setQuad q y).sbuf = x.sbuf := rfl
@[simp] theorem Group.setQuad_ws (x : Group) (q : Nat) (y : Quad) : (x.setQuad q y).ws = x.ws := rfl
@[simp] theorem Group.setQuad_nb (x : Group) (q : Nat) (y : Quad) : (x.setQuad q y).nb = x.nb := rfl
@[simp] theorem Group.setQuad_unb (x : Group) (q : Nat) (y : Quad) : (x.setQuad q y).unb = x.unb := rfl
@[simp] theorem Group.setQuad_unbFails (x : Group) (q : Nat) (y : Quad) : (x.setQuad q y).unbFails = x.unbFails := rfl
@[simp] theorem Group.setQuad_batches (x : Group) (q : Nat) (y : Quad) : (x.setQuad q y).batches = x.batches := rfl
@[simp] theorem Group.setQuad_report (x : Group) (q : Nat) (y : Quad) : (x.setQuad q y).report = x.report := rfl
@[simp] theorem Group.setQuad_doneBatch (x : Group) (q : Nat) (y : Quad) : (x.setQuad q y).doneBatch = x.doneBatch := rfl
@[simp] theorem Group.setQuad_alatch (x : Group) (q : Nat) (y : Quad) : (x.setQuad q y).alatch = x.alatch := rfl
@[simp] theorem Group.setQuad_subs (x : Group) (q : Nat) (y : Quad) : (x.setQuad q y).subs = x.subs := rfl
@[simp] theorem Group.setQuad_mpend (x : Group) (q : Nat) (y : Quad) : (x.setQuad q y).mpend = x.mpend := rfl
@[simp] theorem Group.setQuad_ad (x : Group) (q : Nat) (y : Quad) : (x.setQuad q y).ad = x.ad := rfl
@[simp] theorem Group.setQuad_applies (x : Group) (q : Nat) (y : Quad) : (x.setQuad q y).applies = x.applies := rfl
@[simp] theorem Group.setQuad_wv (x : Group) (q : Nat) (y : Quad) : (x.setQuad q y).wv = x.wv := rfl
@[simp] theorem Group.setQuad_wt (x : Group) (q : Nat) (y : Quad) : (x.setQuad q y).wt = x.wt := rfl
@[simp] theorem Group.setQuad_barc (x : Group) (q : Nat) (y : Quad) : (x.setQuad q y).barc = x.barc := rfl
@[simp] theorem Group.setQuad_rnum (x : Group) (q : Nat) (y : Quad) : (x.setQuad q y).rnum = x.rnum := rfl
@[simp] theorem Group.setQuad_gclk (x : Group) (q : Nat) (y : Quad) : (x.setQuad q y).gclk = x.gclk := rfl
@[simp] theorem Group.setQuad_maxw (x : Group) (q : Nat) (y : Quad) : (x.setQuad q y).maxw = x.maxw := rfl
@[simp] theorem Group.setQuad_badRows (x : Group) (q : Nat) (y : Quad) : (x.setQuad q y).badRows = x.badRows := rfl
@[simp] theorem Group.setQuad_awake (x : Group) (q : Nat) (y : Quad) : (x.setQuad q y).awake = x.awake := rfl
@[simp] theorem Group.setQuad_handler (x : Group) (q : Nat) (y : Quad) : (x.setQuad q y).handler = x.handler := rfl
@[simp] theorem Group.setQuad_waitSince (x : Group) (q : Nat) (y : Quad) : (x.setQuad q y).waitSince = x.waitSince := rfl

/-! ### Group.rowSet -/

@[simp] theorem Group.rowSet_uid (x : Group) (row lane : Nat) (w : Word) : (x.rowSet row lane w).uid = x.uid := rfl
@[simp] theorem Group.rowSet_ctx (x : Group) (row lane : Nat) (w : Word) : (x.rowSet row lane w).ctx = x.ctx := rfl
@[simp] theorem Group.rowSet_grid (x : Group) (row lane : Nat) (w : Word) : (x.rowSet row lane w).grid = x.grid := rfl
@[simp] theorem Group.rowSet_coh (x : Group) (row lane : Nat) (w : Word) : (x.rowSet row lane w).coh = x.coh := rfl
@[simp] theorem Group.rowSet_wg (x : Group) (row lane : Nat) (w : Word) : (x.rowSet row lane w).wg = x.wg := rfl
@[simp] theorem Group.rowSet_gi (x : Group) (row lane : Nat) (w : Word) : (x.rowSet row lane w).gi = x.gi := rfl
@[simp] theorem Group.rowSet_idCoh (x : Group) (row lane : Nat) (w : Word) : (x.rowSet row lane w).idCoh = x.idCoh := rfl
@[simp] theorem Group.rowSet_idGrid (x : Group) (row lane : Nat) (w : Word) : (x.rowSet row lane w).idGrid = x.idGrid := rfl
@[simp] theorem Group.rowSet_bin (x : Group) (row lane : Nat) (w : Word) : (x.rowSet row lane w).bin = x.bin := rfl
@[simp] theorem Group.rowSet_core (x : Group) (row lane : Nat) (w : Word) : (x.rowSet row lane w).core = x.core := rfl
@[simp] theorem Group.rowSet_part (x : Group) (row lane : Nat) (w : Word) : (x.rowSet row lane w).part = x.part := rfl
@[simp] theorem Group.rowSet_startNo (x : Group) (row lane : Nat) (w : Word) : (x.rowSet row lane w).startNo = x.startNo := rfl
@[simp] theorem Group.rowSet_active (x : Group) (row lane : Nat) (w : Word) : (x.rowSet row lane w).active = x.active := rfl
@[simp] theorem Group.rowSet_resident (x : Group) (row lane : Nat) (w : Word) : (x.rowSet row lane w).resident = x.resident := rfl
@[simp] theorem Group.rowSet_saved (x : Group) (row lane : Nat) (w : Word) : (x.rowSet row lane w).saved = x.saved := rfl
@[simp] theorem Group.rowSet_retired (x : Group) (row lane : Nat) (w : Word) : (x.rowSet row lane w).retired = x.retired := rfl
@[simp] theorem Group.rowSet_control (x : Group) (row lane : Nat) (w : Word) : (x.rowSet row lane w).control = x.control := rfl
@[simp] theorem Group.rowSet_yielded (x : Group) (row lane : Nat) (w : Word) : (x.rowSet row lane w).yielded = x.yielded := rfl
@[simp] theorem Group.rowSet_win (x : Group) (row lane : Nat) (w : Word) : (x.rowSet row lane w).win = x.win := rfl
@[simp] theorem Group.rowSet_nres (x : Group) (row lane : Nat) (w : Word) : (x.rowSet row lane w).nres = x.nres := rfl
@[simp] theorem Group.rowSet_wb (x : Group) (row lane : Nat) (w : Word) : (x.rowSet row lane w).wb = x.wb := rfl
@[simp] theorem Group.rowSet_rlo (x : Group) (row lane : Nat) (w : Word) : (x.rowSet row lane w).rlo = x.rlo := rfl
@[simp] theorem Group.rowSet_slot (x : Group) (row lane : Nat) (w : Word) : (x.rowSet row lane w).slot = x.slot := rfl
@[simp] theorem Group.rowSet_slotBase (x : Group) (row lane : Nat) (w : Word) : (x.rowSet row lane w).slotBase = x.slotBase := rfl
@[simp] theorem Group.rowSet_kent (x : Group) (row lane : Nat) (w : Word) : (x.rowSet row lane w).kent = x.kent := rfl
@[simp] theorem Group.rowSet_s (x : Group) (row lane : Nat) (w : Word) : (x.rowSet row lane w).s = x.s := rfl
@[simp] theorem Group.rowSet_m (x : Group) (row lane : Nat) (w : Word) : (x.rowSet row lane w).m = x.m := rfl
@[simp] theorem Group.rowSet_d (x : Group) (row lane : Nat) (w : Word) : (x.rowSet row lane w).d = x.d := rfl
@[simp] theorem Group.rowSet_defer (x : Group) (row lane : Nat) (w : Word) : (x.rowSet row lane w).defer = x.defer := rfl
@[simp] theorem Group.rowSet_fl (x : Group) (row lane : Nat) (w : Word) : (x.rowSet row lane w).fl = x.fl := rfl
@[simp] theorem Group.rowSet_quads (x : Group) (row lane : Nat) (w : Word) : (x.rowSet row lane w).quads = x.quads := rfl
@[simp] theorem Group.rowSet_paths (x : Group) (row lane : Nat) (w : Word) : (x.rowSet row lane w).paths = x.paths := rfl
@[simp] theorem Group.rowSet_last (x : Group) (row lane : Nat) (w : Word) : (x.rowSet row lane w).last = x.last := rfl
@[simp] theorem Group.rowSet_rcq (x : Group) (row lane : Nat) (w : Word) : (x.rowSet row lane w).rcq = x.rcq := rfl
@[simp] theorem Group.rowSet_outs (x : Group) (row lane : Nat) (w : Word) : (x.rowSet row lane w).outs = x.outs := rfl
@[simp] theorem Group.rowSet_sbuf (x : Group) (row lane : Nat) (w : Word) : (x.rowSet row lane w).sbuf = x.sbuf := rfl
@[simp] theorem Group.rowSet_ws (x : Group) (row lane : Nat) (w : Word) : (x.rowSet row lane w).ws = x.ws := rfl
@[simp] theorem Group.rowSet_nb (x : Group) (row lane : Nat) (w : Word) : (x.rowSet row lane w).nb = x.nb := rfl
@[simp] theorem Group.rowSet_unb (x : Group) (row lane : Nat) (w : Word) : (x.rowSet row lane w).unb = x.unb := rfl
@[simp] theorem Group.rowSet_unbFails (x : Group) (row lane : Nat) (w : Word) : (x.rowSet row lane w).unbFails = x.unbFails := rfl
@[simp] theorem Group.rowSet_batches (x : Group) (row lane : Nat) (w : Word) : (x.rowSet row lane w).batches = x.batches := rfl
@[simp] theorem Group.rowSet_report (x : Group) (row lane : Nat) (w : Word) : (x.rowSet row lane w).report = x.report := rfl
@[simp] theorem Group.rowSet_doneBatch (x : Group) (row lane : Nat) (w : Word) : (x.rowSet row lane w).doneBatch = x.doneBatch := rfl
@[simp] theorem Group.rowSet_alatch (x : Group) (row lane : Nat) (w : Word) : (x.rowSet row lane w).alatch = x.alatch := rfl
@[simp] theorem Group.rowSet_subs (x : Group) (row lane : Nat) (w : Word) : (x.rowSet row lane w).subs = x.subs := rfl
@[simp] theorem Group.rowSet_mpend (x : Group) (row lane : Nat) (w : Word) : (x.rowSet row lane w).mpend = x.mpend := rfl
@[simp] theorem Group.rowSet_ad (x : Group) (row lane : Nat) (w : Word) : (x.rowSet row lane w).ad = x.ad := rfl
@[simp] theorem Group.rowSet_applies (x : Group) (row lane : Nat) (w : Word) : (x.rowSet row lane w).applies = x.applies := rfl
@[simp] theorem Group.rowSet_wv (x : Group) (row lane : Nat) (w : Word) : (x.rowSet row lane w).wv = x.wv := rfl
@[simp] theorem Group.rowSet_wt (x : Group) (row lane : Nat) (w : Word) : (x.rowSet row lane w).wt = x.wt := rfl
@[simp] theorem Group.rowSet_barc (x : Group) (row lane : Nat) (w : Word) : (x.rowSet row lane w).barc = x.barc := rfl
@[simp] theorem Group.rowSet_rnum (x : Group) (row lane : Nat) (w : Word) : (x.rowSet row lane w).rnum = x.rnum := rfl
@[simp] theorem Group.rowSet_gclk (x : Group) (row lane : Nat) (w : Word) : (x.rowSet row lane w).gclk = x.gclk := rfl
@[simp] theorem Group.rowSet_maxw (x : Group) (row lane : Nat) (w : Word) : (x.rowSet row lane w).maxw = x.maxw := rfl
@[simp] theorem Group.rowSet_awake (x : Group) (row lane : Nat) (w : Word) : (x.rowSet row lane w).awake = x.awake := rfl
@[simp] theorem Group.rowSet_handler (x : Group) (row lane : Nat) (w : Word) : (x.rowSet row lane w).handler = x.handler := rfl
@[simp] theorem Group.rowSet_waitSince (x : Group) (row lane : Nat) (w : Word) : (x.rowSet row lane w).waitSince = x.waitSince := rfl

/-! ### Group.sSet -/

@[simp] theorem Group.sSet_uid (x : Group) (n : Nat) (w : DWord) : (x.sSet n w).uid = x.uid := by unfold Group.sSet; split <;> rfl
@[simp] theorem Group.sSet_ctx (x : Group) (n : Nat) (w : DWord) : (x.sSet n w).ctx = x.ctx := by unfold Group.sSet; split <;> rfl
@[simp] theorem Group.sSet_grid (x : Group) (n : Nat) (w : DWord) : (x.sSet n w).grid = x.grid := by unfold Group.sSet; split <;> rfl
@[simp] theorem Group.sSet_coh (x : Group) (n : Nat) (w : DWord) : (x.sSet n w).coh = x.coh := by unfold Group.sSet; split <;> rfl
@[simp] theorem Group.sSet_wg (x : Group) (n : Nat) (w : DWord) : (x.sSet n w).wg = x.wg := by unfold Group.sSet; split <;> rfl
@[simp] theorem Group.sSet_gi (x : Group) (n : Nat) (w : DWord) : (x.sSet n w).gi = x.gi := by unfold Group.sSet; split <;> rfl
@[simp] theorem Group.sSet_idCoh (x : Group) (n : Nat) (w : DWord) : (x.sSet n w).idCoh = x.idCoh := by unfold Group.sSet; split <;> rfl
@[simp] theorem Group.sSet_idGrid (x : Group) (n : Nat) (w : DWord) : (x.sSet n w).idGrid = x.idGrid := by unfold Group.sSet; split <;> rfl
@[simp] theorem Group.sSet_bin (x : Group) (n : Nat) (w : DWord) : (x.sSet n w).bin = x.bin := by unfold Group.sSet; split <;> rfl
@[simp] theorem Group.sSet_core (x : Group) (n : Nat) (w : DWord) : (x.sSet n w).core = x.core := by unfold Group.sSet; split <;> rfl
@[simp] theorem Group.sSet_part (x : Group) (n : Nat) (w : DWord) : (x.sSet n w).part = x.part := by unfold Group.sSet; split <;> rfl
@[simp] theorem Group.sSet_startNo (x : Group) (n : Nat) (w : DWord) : (x.sSet n w).startNo = x.startNo := by unfold Group.sSet; split <;> rfl
@[simp] theorem Group.sSet_active (x : Group) (n : Nat) (w : DWord) : (x.sSet n w).active = x.active := by unfold Group.sSet; split <;> rfl
@[simp] theorem Group.sSet_resident (x : Group) (n : Nat) (w : DWord) : (x.sSet n w).resident = x.resident := by unfold Group.sSet; split <;> rfl
@[simp] theorem Group.sSet_saved (x : Group) (n : Nat) (w : DWord) : (x.sSet n w).saved = x.saved := by unfold Group.sSet; split <;> rfl
@[simp] theorem Group.sSet_retired (x : Group) (n : Nat) (w : DWord) : (x.sSet n w).retired = x.retired := by unfold Group.sSet; split <;> rfl
@[simp] theorem Group.sSet_control (x : Group) (n : Nat) (w : DWord) : (x.sSet n w).control = x.control := by unfold Group.sSet; split <;> rfl
@[simp] theorem Group.sSet_yielded (x : Group) (n : Nat) (w : DWord) : (x.sSet n w).yielded = x.yielded := by unfold Group.sSet; split <;> rfl
@[simp] theorem Group.sSet_win (x : Group) (n : Nat) (w : DWord) : (x.sSet n w).win = x.win := by unfold Group.sSet; split <;> rfl
@[simp] theorem Group.sSet_nres (x : Group) (n : Nat) (w : DWord) : (x.sSet n w).nres = x.nres := by unfold Group.sSet; split <;> rfl
@[simp] theorem Group.sSet_wb (x : Group) (n : Nat) (w : DWord) : (x.sSet n w).wb = x.wb := by unfold Group.sSet; split <;> rfl
@[simp] theorem Group.sSet_rlo (x : Group) (n : Nat) (w : DWord) : (x.sSet n w).rlo = x.rlo := by unfold Group.sSet; split <;> rfl
@[simp] theorem Group.sSet_slot (x : Group) (n : Nat) (w : DWord) : (x.sSet n w).slot = x.slot := by unfold Group.sSet; split <;> rfl
@[simp] theorem Group.sSet_slotBase (x : Group) (n : Nat) (w : DWord) : (x.sSet n w).slotBase = x.slotBase := by unfold Group.sSet; split <;> rfl
@[simp] theorem Group.sSet_kent (x : Group) (n : Nat) (w : DWord) : (x.sSet n w).kent = x.kent := by unfold Group.sSet; split <;> rfl
@[simp] theorem Group.sSet_v (x : Group) (n : Nat) (w : DWord) : (x.sSet n w).v = x.v := by unfold Group.sSet; split <;> rfl
@[simp] theorem Group.sSet_m (x : Group) (n : Nat) (w : DWord) : (x.sSet n w).m = x.m := by unfold Group.sSet; split <;> rfl
@[simp] theorem Group.sSet_d (x : Group) (n : Nat) (w : DWord) : (x.sSet n w).d = x.d := by unfold Group.sSet; split <;> rfl
@[simp] theorem Group.sSet_defer (x : Group) (n : Nat) (w : DWord) : (x.sSet n w).defer = x.defer := by unfold Group.sSet; split <;> rfl
@[simp] theorem Group.sSet_fl (x : Group) (n : Nat) (w : DWord) : (x.sSet n w).fl = x.fl := by unfold Group.sSet; split <;> rfl
@[simp] theorem Group.sSet_quads (x : Group) (n : Nat) (w : DWord) : (x.sSet n w).quads = x.quads := by unfold Group.sSet; split <;> rfl
@[simp] theorem Group.sSet_paths (x : Group) (n : Nat) (w : DWord) : (x.sSet n w).paths = x.paths := by unfold Group.sSet; split <;> rfl
@[simp] theorem Group.sSet_last (x : Group) (n : Nat) (w : DWord) : (x.sSet n w).last = x.last := by unfold Group.sSet; split <;> rfl
@[simp] theorem Group.sSet_rcq (x : Group) (n : Nat) (w : DWord) : (x.sSet n w).rcq = x.rcq := by unfold Group.sSet; split <;> rfl
@[simp] theorem Group.sSet_outs (x : Group) (n : Nat) (w : DWord) : (x.sSet n w).outs = x.outs := by unfold Group.sSet; split <;> rfl
@[simp] theorem Group.sSet_sbuf (x : Group) (n : Nat) (w : DWord) : (x.sSet n w).sbuf = x.sbuf := by unfold Group.sSet; split <;> rfl
@[simp] theorem Group.sSet_ws (x : Group) (n : Nat) (w : DWord) : (x.sSet n w).ws = x.ws := by unfold Group.sSet; split <;> rfl
@[simp] theorem Group.sSet_nb (x : Group) (n : Nat) (w : DWord) : (x.sSet n w).nb = x.nb := by unfold Group.sSet; split <;> rfl
@[simp] theorem Group.sSet_unb (x : Group) (n : Nat) (w : DWord) : (x.sSet n w).unb = x.unb := by unfold Group.sSet; split <;> rfl
@[simp] theorem Group.sSet_unbFails (x : Group) (n : Nat) (w : DWord) : (x.sSet n w).unbFails = x.unbFails := by unfold Group.sSet; split <;> rfl
@[simp] theorem Group.sSet_batches (x : Group) (n : Nat) (w : DWord) : (x.sSet n w).batches = x.batches := by unfold Group.sSet; split <;> rfl
@[simp] theorem Group.sSet_report (x : Group) (n : Nat) (w : DWord) : (x.sSet n w).report = x.report := by unfold Group.sSet; split <;> rfl
@[simp] theorem Group.sSet_doneBatch (x : Group) (n : Nat) (w : DWord) : (x.sSet n w).doneBatch = x.doneBatch := by unfold Group.sSet; split <;> rfl
@[simp] theorem Group.sSet_alatch (x : Group) (n : Nat) (w : DWord) : (x.sSet n w).alatch = x.alatch := by unfold Group.sSet; split <;> rfl
@[simp] theorem Group.sSet_subs (x : Group) (n : Nat) (w : DWord) : (x.sSet n w).subs = x.subs := by unfold Group.sSet; split <;> rfl
@[simp] theorem Group.sSet_mpend (x : Group) (n : Nat) (w : DWord) : (x.sSet n w).mpend = x.mpend := by unfold Group.sSet; split <;> rfl
@[simp] theorem Group.sSet_ad (x : Group) (n : Nat) (w : DWord) : (x.sSet n w).ad = x.ad := by unfold Group.sSet; split <;> rfl
@[simp] theorem Group.sSet_applies (x : Group) (n : Nat) (w : DWord) : (x.sSet n w).applies = x.applies := by unfold Group.sSet; split <;> rfl
@[simp] theorem Group.sSet_wv (x : Group) (n : Nat) (w : DWord) : (x.sSet n w).wv = x.wv := by unfold Group.sSet; split <;> rfl
@[simp] theorem Group.sSet_wt (x : Group) (n : Nat) (w : DWord) : (x.sSet n w).wt = x.wt := by unfold Group.sSet; split <;> rfl
@[simp] theorem Group.sSet_barc (x : Group) (n : Nat) (w : DWord) : (x.sSet n w).barc = x.barc := by unfold Group.sSet; split <;> rfl
@[simp] theorem Group.sSet_rnum (x : Group) (n : Nat) (w : DWord) : (x.sSet n w).rnum = x.rnum := by unfold Group.sSet; split <;> rfl
@[simp] theorem Group.sSet_gclk (x : Group) (n : Nat) (w : DWord) : (x.sSet n w).gclk = x.gclk := by unfold Group.sSet; split <;> rfl
@[simp] theorem Group.sSet_maxw (x : Group) (n : Nat) (w : DWord) : (x.sSet n w).maxw = x.maxw := by unfold Group.sSet; split <;> rfl
@[simp] theorem Group.sSet_badRows (x : Group) (n : Nat) (w : DWord) : (x.sSet n w).badRows = x.badRows := by unfold Group.sSet; split <;> rfl
@[simp] theorem Group.sSet_awake (x : Group) (n : Nat) (w : DWord) : (x.sSet n w).awake = x.awake := by unfold Group.sSet; split <;> rfl
@[simp] theorem Group.sSet_handler (x : Group) (n : Nat) (w : DWord) : (x.sSet n w).handler = x.handler := by unfold Group.sSet; split <;> rfl
@[simp] theorem Group.sSet_waitSince (x : Group) (n : Nat) (w : DWord) : (x.sSet n w).waitSince = x.waitSince := by unfold Group.sSet; split <;> rfl

/-! ### Group.mSet -/

@[simp] theorem Group.mSet_uid (x : Group) (n : Nat) (w : Word) : (x.mSet n w).uid = x.uid := by unfold Group.mSet; split <;> rfl
@[simp] theorem Group.mSet_ctx (x : Group) (n : Nat) (w : Word) : (x.mSet n w).ctx = x.ctx := by unfold Group.mSet; split <;> rfl
@[simp] theorem Group.mSet_grid (x : Group) (n : Nat) (w : Word) : (x.mSet n w).grid = x.grid := by unfold Group.mSet; split <;> rfl
@[simp] theorem Group.mSet_coh (x : Group) (n : Nat) (w : Word) : (x.mSet n w).coh = x.coh := by unfold Group.mSet; split <;> rfl
@[simp] theorem Group.mSet_wg (x : Group) (n : Nat) (w : Word) : (x.mSet n w).wg = x.wg := by unfold Group.mSet; split <;> rfl
@[simp] theorem Group.mSet_gi (x : Group) (n : Nat) (w : Word) : (x.mSet n w).gi = x.gi := by unfold Group.mSet; split <;> rfl
@[simp] theorem Group.mSet_idCoh (x : Group) (n : Nat) (w : Word) : (x.mSet n w).idCoh = x.idCoh := by unfold Group.mSet; split <;> rfl
@[simp] theorem Group.mSet_idGrid (x : Group) (n : Nat) (w : Word) : (x.mSet n w).idGrid = x.idGrid := by unfold Group.mSet; split <;> rfl
@[simp] theorem Group.mSet_bin (x : Group) (n : Nat) (w : Word) : (x.mSet n w).bin = x.bin := by unfold Group.mSet; split <;> rfl
@[simp] theorem Group.mSet_core (x : Group) (n : Nat) (w : Word) : (x.mSet n w).core = x.core := by unfold Group.mSet; split <;> rfl
@[simp] theorem Group.mSet_part (x : Group) (n : Nat) (w : Word) : (x.mSet n w).part = x.part := by unfold Group.mSet; split <;> rfl
@[simp] theorem Group.mSet_startNo (x : Group) (n : Nat) (w : Word) : (x.mSet n w).startNo = x.startNo := by unfold Group.mSet; split <;> rfl
@[simp] theorem Group.mSet_active (x : Group) (n : Nat) (w : Word) : (x.mSet n w).active = x.active := by unfold Group.mSet; split <;> rfl
@[simp] theorem Group.mSet_resident (x : Group) (n : Nat) (w : Word) : (x.mSet n w).resident = x.resident := by unfold Group.mSet; split <;> rfl
@[simp] theorem Group.mSet_saved (x : Group) (n : Nat) (w : Word) : (x.mSet n w).saved = x.saved := by unfold Group.mSet; split <;> rfl
@[simp] theorem Group.mSet_retired (x : Group) (n : Nat) (w : Word) : (x.mSet n w).retired = x.retired := by unfold Group.mSet; split <;> rfl
@[simp] theorem Group.mSet_control (x : Group) (n : Nat) (w : Word) : (x.mSet n w).control = x.control := by unfold Group.mSet; split <;> rfl
@[simp] theorem Group.mSet_yielded (x : Group) (n : Nat) (w : Word) : (x.mSet n w).yielded = x.yielded := by unfold Group.mSet; split <;> rfl
@[simp] theorem Group.mSet_win (x : Group) (n : Nat) (w : Word) : (x.mSet n w).win = x.win := by unfold Group.mSet; split <;> rfl
@[simp] theorem Group.mSet_nres (x : Group) (n : Nat) (w : Word) : (x.mSet n w).nres = x.nres := by unfold Group.mSet; split <;> rfl
@[simp] theorem Group.mSet_wb (x : Group) (n : Nat) (w : Word) : (x.mSet n w).wb = x.wb := by unfold Group.mSet; split <;> rfl
@[simp] theorem Group.mSet_rlo (x : Group) (n : Nat) (w : Word) : (x.mSet n w).rlo = x.rlo := by unfold Group.mSet; split <;> rfl
@[simp] theorem Group.mSet_slot (x : Group) (n : Nat) (w : Word) : (x.mSet n w).slot = x.slot := by unfold Group.mSet; split <;> rfl
@[simp] theorem Group.mSet_slotBase (x : Group) (n : Nat) (w : Word) : (x.mSet n w).slotBase = x.slotBase := by unfold Group.mSet; split <;> rfl
@[simp] theorem Group.mSet_kent (x : Group) (n : Nat) (w : Word) : (x.mSet n w).kent = x.kent := by unfold Group.mSet; split <;> rfl
@[simp] theorem Group.mSet_v (x : Group) (n : Nat) (w : Word) : (x.mSet n w).v = x.v := by unfold Group.mSet; split <;> rfl
@[simp] theorem Group.mSet_s (x : Group) (n : Nat) (w : Word) : (x.mSet n w).s = x.s := by unfold Group.mSet; split <;> rfl
@[simp] theorem Group.mSet_d (x : Group) (n : Nat) (w : Word) : (x.mSet n w).d = x.d := by unfold Group.mSet; split <;> rfl
@[simp] theorem Group.mSet_defer (x : Group) (n : Nat) (w : Word) : (x.mSet n w).defer = x.defer := by unfold Group.mSet; split <;> rfl
@[simp] theorem Group.mSet_fl (x : Group) (n : Nat) (w : Word) : (x.mSet n w).fl = x.fl := by unfold Group.mSet; split <;> rfl
@[simp] theorem Group.mSet_quads (x : Group) (n : Nat) (w : Word) : (x.mSet n w).quads = x.quads := by unfold Group.mSet; split <;> rfl
@[simp] theorem Group.mSet_paths (x : Group) (n : Nat) (w : Word) : (x.mSet n w).paths = x.paths := by unfold Group.mSet; split <;> rfl
@[simp] theorem Group.mSet_last (x : Group) (n : Nat) (w : Word) : (x.mSet n w).last = x.last := by unfold Group.mSet; split <;> rfl
@[simp] theorem Group.mSet_rcq (x : Group) (n : Nat) (w : Word) : (x.mSet n w).rcq = x.rcq := by unfold Group.mSet; split <;> rfl
@[simp] theorem Group.mSet_outs (x : Group) (n : Nat) (w : Word) : (x.mSet n w).outs = x.outs := by unfold Group.mSet; split <;> rfl
@[simp] theorem Group.mSet_sbuf (x : Group) (n : Nat) (w : Word) : (x.mSet n w).sbuf = x.sbuf := by unfold Group.mSet; split <;> rfl
@[simp] theorem Group.mSet_ws (x : Group) (n : Nat) (w : Word) : (x.mSet n w).ws = x.ws := by unfold Group.mSet; split <;> rfl
@[simp] theorem Group.mSet_nb (x : Group) (n : Nat) (w : Word) : (x.mSet n w).nb = x.nb := by unfold Group.mSet; split <;> rfl
@[simp] theorem Group.mSet_unb (x : Group) (n : Nat) (w : Word) : (x.mSet n w).unb = x.unb := by unfold Group.mSet; split <;> rfl
@[simp] theorem Group.mSet_unbFails (x : Group) (n : Nat) (w : Word) : (x.mSet n w).unbFails = x.unbFails := by unfold Group.mSet; split <;> rfl
@[simp] theorem Group.mSet_batches (x : Group) (n : Nat) (w : Word) : (x.mSet n w).batches = x.batches := by unfold Group.mSet; split <;> rfl
@[simp] theorem Group.mSet_report (x : Group) (n : Nat) (w : Word) : (x.mSet n w).report = x.report := by unfold Group.mSet; split <;> rfl
@[simp] theorem Group.mSet_doneBatch (x : Group) (n : Nat) (w : Word) : (x.mSet n w).doneBatch = x.doneBatch := by unfold Group.mSet; split <;> rfl
@[simp] theorem Group.mSet_alatch (x : Group) (n : Nat) (w : Word) : (x.mSet n w).alatch = x.alatch := by unfold Group.mSet; split <;> rfl
@[simp] theorem Group.mSet_subs (x : Group) (n : Nat) (w : Word) : (x.mSet n w).subs = x.subs := by unfold Group.mSet; split <;> rfl
@[simp] theorem Group.mSet_mpend (x : Group) (n : Nat) (w : Word) : (x.mSet n w).mpend = x.mpend := by unfold Group.mSet; split <;> rfl
@[simp] theorem Group.mSet_ad (x : Group) (n : Nat) (w : Word) : (x.mSet n w).ad = x.ad := by unfold Group.mSet; split <;> rfl
@[simp] theorem Group.mSet_applies (x : Group) (n : Nat) (w : Word) : (x.mSet n w).applies = x.applies := by unfold Group.mSet; split <;> rfl
@[simp] theorem Group.mSet_wv (x : Group) (n : Nat) (w : Word) : (x.mSet n w).wv = x.wv := by unfold Group.mSet; split <;> rfl
@[simp] theorem Group.mSet_wt (x : Group) (n : Nat) (w : Word) : (x.mSet n w).wt = x.wt := by unfold Group.mSet; split <;> rfl
@[simp] theorem Group.mSet_barc (x : Group) (n : Nat) (w : Word) : (x.mSet n w).barc = x.barc := by unfold Group.mSet; split <;> rfl
@[simp] theorem Group.mSet_rnum (x : Group) (n : Nat) (w : Word) : (x.mSet n w).rnum = x.rnum := by unfold Group.mSet; split <;> rfl
@[simp] theorem Group.mSet_gclk (x : Group) (n : Nat) (w : Word) : (x.mSet n w).gclk = x.gclk := by unfold Group.mSet; split <;> rfl
@[simp] theorem Group.mSet_maxw (x : Group) (n : Nat) (w : Word) : (x.mSet n w).maxw = x.maxw := by unfold Group.mSet; split <;> rfl
@[simp] theorem Group.mSet_badRows (x : Group) (n : Nat) (w : Word) : (x.mSet n w).badRows = x.badRows := by unfold Group.mSet; split <;> rfl
@[simp] theorem Group.mSet_awake (x : Group) (n : Nat) (w : Word) : (x.mSet n w).awake = x.awake := by unfold Group.mSet; split <;> rfl
@[simp] theorem Group.mSet_handler (x : Group) (n : Nat) (w : Word) : (x.mSet n w).handler = x.handler := by unfold Group.mSet; split <;> rfl
@[simp] theorem Group.mSet_waitSince (x : Group) (n : Nat) (w : Word) : (x.mSet n w).waitSince = x.waitSince := by unfold Group.mSet; split <;> rfl

end Sys2Proof.Machine
end

