-- ==== Sys2Proof/Laws/Registers.lean ====
section
/-! SUPPORT. What a register reads as after a write (R66 to R69, R73), and what each form of result does to a group. -/

namespace Sys2Proof.Machine

/-! ### Lanes -/

theorem mem_lanesOf {e : Word} {l : Nat} : l ∈ lanesOf e ↔ l < 32 ∧ laneOn e l = true := by
  simp [lanesOf, List.mem_filter]

theorem nodup_lanesOf (e : Word) : (lanesOf e).Nodup := List.Pairwise.filter _ List.nodup_range

theorem lanesOf_zero : lanesOf 0 = [] := by decide

theorem lane_key {r r' l l' : Nat} (h : l < 32) (h' : l' < 32) : r * 32 + l = r' * 32 + l' ↔ r = r' ∧ l = l' := by
  omega

/-! ### Vector registers -/

theorem Group.rowGet_rowSet (x : Group) (r r' l l' : Nat) (w : Word) (h : l < 32) (h' : l' < 32) :
    (x.rowSet r l w).rowGet r' l' = if r' = r ∧ l' = l then w else x.rowGet r' l' := by
  simp only [Group.rowGet, Group.rowSet, smGet_smSet, lane_key h' h]

theorem Group.vGet_rowSet (x : Group) (r l k l' : Nat) (w : Word) (h : l < 32) (h' : l' < 32) :
    (x.rowSet r l w).vGet k l' = if x.wb + k = r ∧ l' = l then w else x.vGet k l' := by
  simp only [Group.vGet, Group.rowSet_wb, Group.rowGet_rowSet _ _ _ _ _ _ h h']

/-! ### Scalar and mask registers -/

@[simp] theorem Group.sGet_sSet (x : Group) (n k : Nat) (w : DWord) :
    (x.sSet n w).sGet k = if k = 0 then 0 else if k = n then w else x.sGet k := by
  unfold Group.sSet Group.sGet
  by_cases hk : k = 0
  · simp [hk]
  · by_cases hn : n = 0
    · have : ¬ k = n := fun e => hk (e.trans hn)
      simp [hk, hn]
    · simp only [hk, hn, if_false, smGet_smSet]

@[simp] theorem Group.sGet_zero (x : Group) : x.sGet 0 = 0 := rfl

@[simp] theorem Group.mGet_mSet (x : Group) (n k : Nat) (w : Word) :
    (x.mSet n w).mGet k = if n ≠ 0 ∧ k = n then w else x.mGet k := by
  unfold Group.mSet Group.mGet
  split <;> simp_all

@[simp] theorem Group.mGet_sSet (x : Group) (n k : Nat) (w : DWord) : (x.sSet n w).mGet k = x.mGet k := by
  unfold Group.mGet; simp
@[simp] theorem Group.sGet_mSet (x : Group) (n k : Nat) (w : Word) : (x.mSet n w).sGet k = x.sGet k := by
  unfold Group.sGet; simp
@[simp] theorem Group.rowGet_sSet (x : Group) (n r l : Nat) (w : DWord) : (x.sSet n w).rowGet r l = x.rowGet r l := by
  unfold Group.rowGet; simp
@[simp] theorem Group.rowGet_mSet (x : Group) (n r l : Nat) (w : Word) : (x.mSet n w).rowGet r l = x.rowGet r l := by
  unfold Group.rowGet; simp
@[simp] theorem Group.sGet_rowSet (x : Group) (r l n : Nat) (w : Word) : (x.rowSet r l w).sGet n = x.sGet n := rfl
@[simp] theorem Group.mGet_rowSet (x : Group) (r l n : Nat) (w : Word) : (x.rowSet r l w).mGet n = x.mGet n := rfl

/-! ### Paths and quads -/

theorem Group.path_setPath (x : Group) (p q : Nat) (y : Path) (h : p < x.paths.length) :
    (x.setPath p y).path q = if q = p then y else x.path q := by
  simp only [Group.path, Group.setPath, List.getD_eq_getElem?_getD, List.getElem?_set]
  by_cases hq : p = q
  · subst hq; simp [h]
  · have : ¬ q = p := fun e => hq e.symm
    simp [hq, this]

theorem Group.path_modPath (x : Group) (p q : Nat) (f : Path → Path) (h : p < x.paths.length) :
    (x.modPath p f).path q = if q = p then f (x.path p) else x.path q := by
  rw [Group.modPath, Group.path_setPath _ _ _ _ h]

@[simp] theorem Group.paths_modPath (x : Group) (p : Nat) (f : Path → Path) :
    (x.modPath p f).paths = x.paths.set p (f (x.path p)) := rfl

/-! ### Results (R36, R68, R69) -/

theorem Group.vPut_frame (x : Group) (n : Nat) (wide : Bool) (l r : Nat) :
    x.vPut n wide l r = { x with v := (x.vPut n wide l r).v, badRows := (x.vPut n wide l r).badRows } := by
  unfold Group.vPut; cases wide <;> rfl

theorem Group.rowGet_vPut (x : Group) (n : Nat) (wide : Bool) (l r row l' : Nat) (h : l < 32) (h' : l' < 32) :
    (x.vPut n wide l r).rowGet row l' =
      if l' = l ∧ row = x.wb + n then BitVec.ofNat 32 r
      else if l' = l ∧ wide = true ∧ row = x.wb + n + 1 then BitVec.ofNat 32 (r / 2 ^ 32) else x.rowGet row l' := by
  unfold Group.vPut Group.vSet
  cases wide
  · simp only [Bool.false_eq_true, if_false, false_and, and_false]
    rw [Group.rowGet_rowSet _ _ _ _ _ _ h h']
    congr 1; simp [and_comm]
  · simp only [if_true, true_and]
    rw [Group.rowGet_rowSet _ _ _ _ _ _ h h', Group.rowGet_rowSet _ _ _ _ _ _ h h']
    simp only [Group.rowSet_wb]
    by_cases hl : l' = l
    · by_cases h1 : row = x.wb + n
      · simp [hl, h1]
      · have e : (row = x.wb + (n + 1)) = (row = x.wb + n + 1) := by rw [Nat.add_assoc]
        simp [hl, h1, e]
    · simp [hl]

theorem Group.foldl_vPut (ls : List Nat) (x : Group) (n : Nat) (wide : Bool) (r : Nat → Nat) (hl : ∀ l ∈ ls, l < 32)
    (hn : ls.Nodup) :
    let y := ls.foldl (fun x l => x.vPut n wide l (r l)) x
    y = { x with v := y.v, badRows := y.badRows } ∧
    ∀ row l, l < 32 → y.rowGet row l =
      if l ∈ ls ∧ row = x.wb + n then BitVec.ofNat 32 (r l)
      else if l ∈ ls ∧ wide = true ∧ row = x.wb + n + 1 then BitVec.ofNat 32 (r l / 2 ^ 32) else x.rowGet row l := by
  induction ls generalizing x with
  | nil => exact ⟨rfl, fun row l _ => by simp⟩
  | cons k ls ih =>
    have hk : k < 32 := hl k (by simp)
    have hn' := List.nodup_cons.1 hn
    obtain ⟨h1, h2⟩ := ih (x.vPut n wide k (r k)) (fun l h => hl l (by simp [h])) hn'.2
    have hf := Group.vPut_frame x n wide k (r k)
    have hwb : (x.vPut n wide k (r k)).wb = x.wb := by rw [hf]
    simp only [List.foldl_cons]
    refine ⟨?_, fun row l h => ?_⟩
    · rw [h1, hf]
    · rw [h2 row l h, hwb, Group.rowGet_vPut _ _ _ _ _ _ _ hk h]
      by_cases hlk : l = k
      · subst hlk
        simp [hn'.1]
      · simp [hlk]

/-- A vector result: the destination's lanes that execute hold it, and every other lane and register is as before. -/
theorem Group.putDst_v (x : Group) (n : Nat) (wide sign : Bool) (e : Word) (r : Nat → Nat) :
    let y := x.putDst (.v n) wide sign e r
    y = { x with v := y.v, badRows := y.badRows } ∧
    ∀ row l, l < 32 → y.rowGet row l =
      if laneOn e l = true ∧ row = x.wb + n then BitVec.ofNat 32 (r l)
      else if laneOn e l = true ∧ wide = true ∧ row = x.wb + n + 1 then BitVec.ofNat 32 (r l / 2 ^ 32)
      else x.rowGet row l := by
  have h := Group.foldl_vPut (lanesOf e) x n wide r (fun l h => (mem_lanesOf.1 h).1) (nodup_lanesOf e)
  refine ⟨h.1, fun row l hl => ?_⟩
  have := h.2 row l hl
  simp only [mem_lanesOf, hl, true_and] at this
  exact this

/-- A uniform result: the s register holds it when a lane executes. -/
theorem Group.putDst_s (x : Group) (n : Nat) (wide sign : Bool) (e : Word) (r : Nat → Nat) :
    x.putDst (.s n) wide sign e r = if e = 0 then x else x.sSet n (sExtend wide sign (r 0)) := rfl

/-- A suppressed result changes no register. -/
theorem Group.putDst_off (x : Group) (wide sign : Bool) (e : Word) (r : Nat → Nat) :
    x.putDst .off wide sign e r = x := rfl

theorem getLsbD_setBit (w : Word) (i j : Nat) (b : Bool) (hi : i < 32) (hj : j < 32) :
    (setBit w i b).getLsbD j = if j = i then b else w.getLsbD j := by
  have e : ((1#32 <<< i).getLsbD j) = decide (j = i) := by
    simp only [BitVec.getLsbD_shiftLeft, hj, decide_true, Bool.true_and, BitVec.getLsbD_one]
    by_cases h : j = i
    · subst h; simp
    · simp [h]; omega
  unfold setBit
  by_cases h : j = i
  · subst h; cases b <;> simp [hj]
  · cases b <;> simp only [if_true, if_false, Bool.false_eq_true, BitVec.getLsbD_or, BitVec.getLsbD_and, BitVec.getLsbD_not, e, h, hj, decide_true, decide_false, Bool.or_false, Bool.not_false, Bool.and_true]

theorem getLsbD_foldl_setBit (ls : List Nat) (w : Word) (f : Nat → Bool) (hl : ∀ l ∈ ls, l < 32) (hn : ls.Nodup) (j : Nat)
    (hj : j < 32) : (ls.foldl (fun m l => setBit m l (f l)) w).getLsbD j = if j ∈ ls then f j else w.getLsbD j := by
  induction ls generalizing w with
  | nil => simp
  | cons k ls ih =>
    have hn' := List.nodup_cons.1 hn
    rw [List.foldl_cons, ih _ (fun l h => hl l (by simp [h])) hn'.2, getLsbD_setBit _ _ _ _ (hl k (by simp)) hj]
    by_cases h : j = k
    · subst h; simp [hn'.1]
    · simp [h]

/-- A mask result: the bits of the lanes that execute hold it. -/
theorem Group.putDst_m (x : Group) (n : Nat) (wide sign : Bool) (e : Word) (r : Nat → Nat) :
    let y := x.putDst (.m n) wide sign e r
    y = { x with m := y.m } ∧ ∀ k j, j < 32 → (y.mGet k).getLsbD j =
      if k = n ∧ n ≠ 0 ∧ laneOn e j = true then r j % 2 == 1 else (x.mGet k).getLsbD j := by
  refine ⟨?_, fun k j hj => ?_⟩
  · simp only [Group.putDst]; unfold Group.mSet; split <;> rfl
  · simp only [Group.putDst, Group.mGet_mSet]
    by_cases h : n ≠ 0 ∧ k = n
    · rw [if_pos h]
      obtain ⟨h0, rfl⟩ := h
      rw [getLsbD_foldl_setBit _ _ _ (fun l h => (mem_lanesOf.1 h).1) (nodup_lanesOf e) _ hj]
      simp [mem_lanesOf, hj, h0]
    · rw [if_neg h]
      have : ¬ (k = n ∧ n ≠ 0 ∧ laneOn e j = true) := fun q => h ⟨q.2.1, q.1⟩
      rw [if_neg this]

end Sys2Proof.Machine
end

