-- ==== Sys2Proof/Laws/Group.lean ====
section
/-! SUPPORT. Looking a group up after an update, and when `haltStepped` changes nothing. -/

namespace Sys2Proof.Machine

theorem find?_map_key {α : Type} (key : α → Nat) (l : List α) (g h : Nat) (f : α → α) (hf : ∀ x, key x = g → key (f x) = g) :
    (l.map fun x => if key x == g then f x else x).find? (key · == h) =
      if h = g then (l.find? (key · == h)).map f else l.find? (key · == h) := by
  induction l with
  | nil => simp
  | cons x l ih =>
    simp only [List.map_cons, List.find?_cons, ih]
    by_cases hx : key x = g
    · have hfx := hf x hx
      by_cases hh : h = g
      · subst hh; simp [hx, hfx]
      · have : (g == h) = false := by simpa using fun e => hh e.symm
        simp [hx, hfx, hh, this]
    · by_cases hh : h = g
      · subst hh
        have : (key x == h) = false := by simpa using hx
        simp [this]
      · simp [hx, hh]

theorem State.group?_modGroup (s : State) (g h : Nat) (f : Group → Group) (hf : ∀ x, x.uid = g → (f x).uid = g) :
    (s.modGroup g f).group? h = if h = g then (s.group? h).map f else s.group? h :=
  find?_map_key Group.uid s.groups g h f hf

theorem State.group?_setGroup (s : State) (y : Group) (h : Nat) :
    (s.setGroup y).group? h = if h = y.uid then (s.group? h).map fun _ => y else s.group? h :=
  s.group?_modGroup y.uid h _ fun _ _ => rfl

theorem State.group?_uid {s : State} {g : Nat} {x : Group} (h : s.group? g = some x) : x.uid = g := by
  have := List.find?_some h
  simpa using this

theorem State.haltStepped_eq (s : State) (g : Nat) (h : ∀ x, s.group? g = some x → ∀ q, (x.path q).stepped = false) :
    s.haltStepped g = s := by
  unfold State.haltStepped
  split
  · rfl
  · rename_i x hx
    simp [h x hx]

theorem Path.advance_stepped (y : Path) : y.advance.stepped = y.stepping := by
  unfold Path.advance Path.endClause; split <;> rfl
theorem Path.advance_stepping (y : Path) : y.advance.stepping = y.stepping := by
  unfold Path.advance Path.endClause; split <;> rfl

/-- Leaving a word does not halt a group in which no STEP is in force. -/
theorem State.haltStepped_setGroup (s : State) (y : Group) (h : ∀ q, (y.path q).stepped = false) :
    (s.setGroup y).haltStepped y.uid = s.setGroup y := by
  refine State.haltStepped_eq _ _ fun z hz => ?_
  rw [State.group?_setGroup, if_pos rfl] at hz
  obtain ⟨_, _, rfl⟩ := Option.map_eq_some_iff.1 hz
  exact h

theorem State.retire_eq (s : State) (x : Group) (p : Nat) (hp : p < x.paths.length) (h : (x.path p).stepping = false)
    (hs : ∀ q, (x.path q).stepped = false) : s.retire x p = s.setGroup (x.modPath p Path.advance) := by
  unfold State.retire
  refine State.haltStepped_setGroup s (x.modPath p Path.advance) fun q => ?_
  rw [Group.path_modPath _ _ _ _ hp]
  split
  · rw [Path.advance_stepped, h]
  · exact hs q

end Sys2Proof.Machine
end

