-- ==== Sys2Proof/Laws/Issue.lean ====
section
/-! SUPPORT. What the shared gates of issue do: an instruction that nothing holds runs in its executing lanes (R37, R87). -/

namespace Sys2Proof.Machine

theorem withIssue_at {s : State} {x : Group} {p : Nat} (h : AtIssue s x p) (f : Group → Nat → Res) :
    withIssue s f = f x p := by
  simp [withIssue, h.cur, h.group]

theorem withIssue_cases (s : State) (f : Group → Nat → Res) :
    (withIssue s f = .fault .noIssuer ∧ ∀ g p x, s.cur = some ⟨g, p⟩ → s.group? g ≠ some x) ∨
    ∃ x p, s.cur = some ⟨x.uid, p⟩ ∧ s.group? x.uid = some x ∧ withIssue s f = f x p := by
  unfold withIssue
  match hc : s.cur with
  | none => exact .inl ⟨rfl, by simp⟩
  | some i =>
    match hg : s.group? i.g with
    | none =>
      refine .inl ⟨by simp [hg], fun g p x hc' hx => ?_⟩
      cases hc'; simp_all
    | some x =>
      have hu := State.group?_uid hg
      exact .inr ⟨x, i.p, by rw [hu], by rw [hu]; exact hg, by simp [hg]⟩

theorem Group.poisonOf_none {x : Group} {r : Reg} (h : x.pending r = false) : x.poisonOf r = none := by
  unfold Group.poisonOf
  rw [List.find?_eq_none]
  intro o ho hc
  simp only [Bool.and_eq_true] at hc
  have : x.pending r = true := by
    unfold Group.pending
    rw [Bool.or_eq_true, List.any_eq_true]
    exact .inl ⟨o, ho, by simpa using ⟨by simpa using hc.1.2, by simpa using hc.2⟩⟩
  simp [h] at this

theorem Group.gate_go {x : Group} {rs : List Reg} (h : ∀ r ∈ rs, x.pending r = false) : x.gate rs = .go := by
  unfold Group.gate
  have h1 : rs.findSome? x.poisonOf = none := List.findSome?_eq_none_iff.2 fun r hr => Group.poisonOf_none (h r hr)
  have h2 : rs.any x.pending = false := by
    rw [List.any_eq_false]; intro r hr; simp [h r hr]
  rw [h1, h2]; rfl

/-- An instruction is held, stopped by poison, or allowed: the three answers of the gate. -/
theorem gated_go {s : State} {x : Group} {p : Nat} {srcs : List (Src × Bool)} {more : Group → List Reg}
    {f : Group → Nat → Word → Res} (h : AtIssue s x p) (hu : Unheld x p srcs (more x)) :
    gated s srcs more f = f x p (x.exec p) := by
  unfold gated
  rw [withIssue_at h]
  simp only [Group.gate_go hu.ready, hu.sound]
  have : srcs.any (fun a => (x.path p).awaitsLatch a.1) = false := by
    rw [List.any_eq_false]; intro a ha; simp [hu.latches a ha]
  simp [this]

theorem once_go {s : State} {x : Group} {p : Nat} {srcs : List (Src × Bool)} {more : Group → List Reg}
    {f : Group → Nat → Word → Res} (h : AtIssue s x p) (hu : Unheld x p srcs (more x)) (he : x.exec p ≠ 0) :
    once s srcs more f = f x p (x.exec p) := by
  unfold once
  rw [gated_go h hu, if_neg he]

theorem once_skip {s : State} {x : Group} {p : Nat} {srcs : List (Src × Bool)} {more : Group → List Reg}
    {f : Group → Nat → Word → Res} (h : AtIssue s x p) (hu : Unheld x p srcs (more x)) (he : x.exec p = 0) :
    once s srcs more f = .next (s.setGroup (x.modPath p Path.advance)) := by
  unfold once
  rw [gated_go h hu, if_pos he, State.retire_eq _ _ _ h.path h.stepping h.stepped]

theorem commit_setGroup {s : State} (h : s.wq = []) (hh : s.hostWq = []) (y : Group) :
    commit s (.next (s.setGroup y)) = .next (s.setGroup y) := commit_clean h rfl hh rfl

/-- Moving the issuing path past its word, the rest of the group as it is. -/
theorem AtIssue.retire {s : State} {x : Group} {p : Nat} (h : AtIssue s x p) :
    s.retire x p = s.setGroup (x.modPath p Path.advance) := State.retire_eq _ _ _ h.path h.stepping h.stepped

end Sys2Proof.Machine
end

