-- ==== Sys2Proof/Laws/Alu.lean ====
section
/-! SUPPORT. What an ALU form does when nothing holds it: its result, its latch, its flags, and nothing else (R36 to R38). -/

namespace Sys2Proof.Machine

@[simp] theorem FFlags.or_none (f : FFlags) : f.or .none = f := by cases f; simp [FFlags.or, FFlags.none]

theorem smGet_foldl_smSet (ls : List Nat) (m : SMap Word) (k j : Nat) (f : Nat → Word) (hl : ∀ l ∈ ls, l < 32) (hj : j < 32)
    (q : Nat) : smGet 0 (ls.foldl (fun m l => smSet 0 m (k * 32 + l) (f l)) m) (q * 32 + j) =
      if q = k ∧ j ∈ ls then f j else smGet 0 m (q * 32 + j) := by
  induction ls generalizing m with
  | nil => simp
  | cons a ls ih =>
    rw [List.foldl_cons, ih _ fun l h => hl l (by simp [h])]
    have ha := hl a (by simp)
    simp only [smGet_smSet, lane_key hj ha]
    by_cases hq : q = k
    · by_cases h1 : j ∈ ls
      · simp [hq, h1]
      · by_cases h2 : j = a
        · subst h2; simp [hq]
        · simp [hq, h1, h2]
    · simp [hq]

/-- What `putLatch` leaves in a latch. -/
theorem Path.latch_putLatch (y : Path) (uniform : Bool) (e : Word) (r : Nat → Nat) (k l : Nat) (hl : l < 32) :
    smGet 0 (y.putLatch uniform e r).latch (k * 32 + l) =
      if k = y.pos % 8 ∧ e ≠ 0 ∧ (uniform = true ∨ laneOn e l = true) then BitVec.ofNat 32 (r (if uniform then 0 else l))
      else smGet 0 y.latch (k * 32 + l) := by
  unfold Path.putLatch
  by_cases he : e = 0
  · simp [he]
  · simp only [he, if_false, ne_eq, not_false_eq_true, true_and]
    rw [smGet_foldl_smSet _ _ _ _ (fun l => BitVec.ofNat 32 (r (if uniform then 0 else l))) ?_ hl]
    · cases uniform <;> simp [mem_lanesOf, hl]
    · intro l h; cases uniform
      · exact (mem_lanesOf.1 (by simpa using h)).1
      · simpa using h

theorem Path.dlatch_putLatch (y : Path) (uniform : Bool) (e : Word) (r : Nat → Nat) :
    (y.putLatch uniform e r).dlatch =
      if e = 0 then y.dlatch else y.keepDeferred (y.pos % 8) (if uniform then 0xFFFFFFFF else e) := by
  unfold Path.putLatch; split <;> rfl

theorem Path.putLatch_frame (y : Path) (uniform : Bool) (e : Word) (r : Nat → Nat) :
    y.putLatch uniform e r =
      { y with latch := (y.putLatch uniform e r).latch, dlatch := (y.putLatch uniform e r).dlatch } := by
  unfold Path.putLatch; split <;> rfl

theorem Group.latched_of {x x' : Group} {p : Nat} {e : Word} {uniform : Bool} {r : Nat → Nat} (hp : p < x.paths.length)
    (hx : x'.paths = x.paths) :
    Latched x (x'.modPath p fun y => (y.putLatch uniform e r).advance) p e uniform r := by
  have hp' : p < x'.paths.length := by rw [hx]; exact hp
  have hpath : ∀ q, x'.path q = x.path q := fun q => by unfold Group.path; rw [hx]
  have key : (x'.modPath p fun y => (y.putLatch uniform e r).advance).path p =
      ((x.path p).putLatch uniform e r).advance := by
    rw [Group.path_modPath _ _ _ _ hp', if_pos rfl, hpath]
  have hfr := Path.putLatch_frame (x.path p) uniform e r
  have hpos : ((x.path p).putLatch uniform e r).pos = (x.path p).pos := by rw [hfr]
  have hhead : ((x.path p).putLatch uniform e r).head = (x.path p).head := by rw [hfr]
  refine ⟨?_, fun k l hl => ?_, ?_, fun q hq => ?_, ?_⟩
  · rw [key]
    unfold Path.advance
    rw [hpos, hhead]
    split
    · rw [hfr]
    · unfold Path.endClause Path.fall Path.header
      rw [hfr]
  · rw [key]
    unfold Path.advance
    rw [hpos, hhead]
    by_cases h : (x.path p).pos < hdrCount (x.path p).head.toNat
    · rw [if_pos h, if_neg (by omega)]
      exact Path.latch_putLatch _ _ _ _ _ _ hl
    · rw [if_neg h, if_pos (by omega)]; rfl
  · rw [key]
    unfold Path.advance
    rw [hpos, hhead]
    by_cases h : (x.path p).pos < hdrCount (x.path p).head.toNat
    · rw [if_pos h, if_neg (by omega)]
      exact Path.dlatch_putLatch _ _ _ _
    · rw [if_neg h, if_pos (by omega)]; rfl
  · rw [Group.path_modPath _ _ _ _ hp', if_neg hq, hpath]
  · rw [Group.paths_modPath, List.length_set, hx]

theorem Group.mem_badRows_rowSet (x : Group) (r l k : Nat) (w : Word) :
    k ∈ (x.rowSet r l w).badRows ↔ k ∈ x.badRows ∧ k ≠ r * 32 + l := by
  simp [Group.rowSet, List.mem_filter]

theorem Group.mem_badRows_vPut (x : Group) (n : Nat) (wide : Bool) (l r k : Nat) :
    k ∈ (x.vPut n wide l r).badRows ↔
      k ∈ x.badRows ∧ k ≠ (x.wb + n) * 32 + l ∧ (wide = true → k ≠ (x.wb + n + 1) * 32 + l) := by
  unfold Group.vPut Group.vSet
  cases wide
  · simp [Group.mem_badRows_rowSet]
  · simp only [if_true, Group.mem_badRows_rowSet, Group.rowSet_wb, Nat.add_assoc, true_imp_iff, and_assoc]

theorem Group.mem_badRows_foldl (ls : List Nat) (x : Group) (n : Nat) (wide : Bool) (r : Nat → Nat) (hl : ∀ l ∈ ls, l < 32)
    (row j : Nat) (hj : j < 32) : row * 32 + j ∈ (ls.foldl (fun x l => x.vPut n wide l (r l)) x).badRows ↔
      row * 32 + j ∈ x.badRows ∧ ¬ (j ∈ ls ∧ (row = x.wb + n ∨ (wide = true ∧ row = x.wb + n + 1))) := by
  induction ls generalizing x with
  | nil => simp
  | cons a ls ih =>
    have ha := hl a (by simp)
    have hwb : (x.vPut n wide a (r a)).wb = x.wb := by rw [Group.vPut_frame]
    rw [List.foldl_cons, ih _ (fun l h => hl l (by simp [h])), hwb, Group.mem_badRows_vPut]
    simp only [ne_eq, lane_key hj ha, List.mem_cons]
    constructor
    · rintro ⟨⟨h1, h2, h3⟩, h4⟩
      refine ⟨h1, ?_⟩
      rintro ⟨rfl | hm, h5⟩
      · rcases h5 with h5 | ⟨h5, h6⟩
        · exact h2 ⟨h5, rfl⟩
        · exact h3 h5 ⟨h6, rfl⟩
      · exact h4 ⟨hm, h5⟩
    · rintro ⟨h1, h2⟩
      exact ⟨⟨h1, fun h => h2 ⟨.inl h.2, .inl h.1⟩, fun hw h => h2 ⟨.inl h.2, .inr ⟨hw, h.1⟩⟩⟩,
        fun h => h2 ⟨.inr h.1, h.2⟩⟩

theorem Group.putDst_frame (x : Group) (d : Dst) (wide sign : Bool) (e : Word) (r : Nat → Nat) :
    ∃ v st m b, x.putDst d wide sign e r = { x with v := v, s := st, m := m, badRows := b } := by
  cases d with
  | v n => exact ⟨_, _, _, _, (x.putDst_v n wide sign e r).1⟩
  | s n =>
    simp only [Group.putDst_s]
    split
    · exact ⟨_, _, _, _, rfl⟩
    · unfold Group.sSet; split <;> exact ⟨_, _, _, _, rfl⟩
  | m n => simp only [Group.putDst]; unfold Group.mSet; split <;> exact ⟨_, _, _, _, rfl⟩
  | off => exact ⟨_, _, _, _, rfl⟩

/-- `putDst` writes the result and nothing else. -/
theorem Group.wrote_putDst (x : Group) (d : Dst) (wide sign : Bool) (e : Word) (r : Nat → Nat) :
    Wrote x (x.putDst d wide sign e r) e d wide sign r := by
  cases d with
  | v n =>
    have hv := (x.putDst_v n wide sign e r).2
    have hs : ∀ k, (x.putDst (.v n) wide sign e r).sGet k = x.sGet k := fun k => by
      rw [(x.putDst_v n wide sign e r).1]; rfl
    have hm : ∀ k, (x.putDst (.v n) wide sign e r).mGet k = x.mGet k := fun k => by
      rw [(x.putDst_v n wide sign e r).1]; rfl
    refine ⟨?_, ?_, ?_, ?_, fun k => by simp [hs], fun k l _ => by simp [hm]⟩
    · rintro n' l h hl ho; cases h
      rw [hv _ _ hl, if_pos ⟨ho, rfl⟩]
    · rintro n' l h hl ho hw; cases h
      rw [hv _ _ hl, if_neg (by omega), if_pos ⟨ho, hw, rfl⟩]
    · intro row l hl hh
      rw [hv _ _ hl, if_neg fun h => hh ⟨n, rfl, h.1, .inl h.2⟩, if_neg fun h => hh ⟨n, rfl, h.1, .inr h.2⟩]
    · intro row l hl
      show row * 32 + l ∈ ((lanesOf e).foldl (fun x l => x.vPut n wide l (r l)) x).badRows ↔ _
      rw [Group.mem_badRows_foldl _ _ _ _ _ (fun l h => (mem_lanesOf.1 h).1) _ _ hl]
      have : hitsRow x e (.v n) wide row l ↔ l ∈ lanesOf e ∧ (row = x.wb + n ∨ (wide = true ∧ row = x.wb + n + 1)) := by
        constructor
        · rintro ⟨n', h, ho, h2⟩; cases h; exact ⟨mem_lanesOf.2 ⟨hl, ho⟩, h2⟩
        · rintro ⟨h1, h2⟩; exact ⟨n, rfl, (mem_lanesOf.1 h1).2, h2⟩
      rw [this]
  | s n =>
    have hv : ∀ row l, (x.putDst (.s n) wide sign e r).rowGet row l = x.rowGet row l := fun row l => by
      rw [Group.putDst_s]; split <;> simp
    have hb : (x.putDst (.s n) wide sign e r).badRows = x.badRows := by
      rw [Group.putDst_s]; split
      · rfl
      · unfold Group.sSet; split <;> rfl
    refine ⟨nofun, nofun, fun row l _ _ => hv row l, fun row l _ => ?_, fun k => ?_,
      fun k l _ => ?_⟩
    · rw [hb]
      exact ⟨fun h => ⟨h, by rintro ⟨_, h, _⟩; cases h⟩, And.left⟩
    · rw [Group.putDst_s]
      by_cases he : e = 0
      · rw [if_pos he, if_neg fun h => h.2.2 he]
      · rw [if_neg he, Group.sGet_sSet]
        by_cases hk : k = 0
        · subst hk; simp
        · by_cases hn : k = n
          · subst hn; simp only [hk, if_false, if_true, ne_eq, not_false_eq_true, he, and_self]
          · have : ¬ n = k := fun h => hn h.symm
            simp [hk, hn, this]
    · have : (x.putDst (.s n) wide sign e r).mGet k = x.mGet k := by rw [Group.putDst_s]; split <;> simp
      simp [this]
  | m n =>
    obtain ⟨h1, h2⟩ := x.putDst_m n wide sign e r
    have hv : ∀ row l, (x.putDst (.m n) wide sign e r).rowGet row l = x.rowGet row l := fun row l => by rw [h1]; rfl
    have hs : ∀ k, (x.putDst (.m n) wide sign e r).sGet k = x.sGet k := fun k => by rw [h1]; rfl
    have hb : (x.putDst (.m n) wide sign e r).badRows = x.badRows := by rw [h1]
    refine ⟨nofun, nofun, fun row l _ _ => hv row l, fun row l _ => ?_,
      fun k => by simp [hs], fun k l hl => ?_⟩
    · rw [hb]
      exact ⟨fun h => ⟨h, by rintro ⟨_, h, _⟩; cases h⟩, And.left⟩
    · rw [h2 k l hl]
      by_cases hk : k = n
      · subst hk
        by_cases h0 : k = 0
        · simp [h0]
        · by_cases ho : laneOn e l = true
          · simp only [h0, ho, ne_eq, not_false_eq_true, and_self, if_true]; rfl
          · simp [ho]
      · have : ¬ n = k := fun h => hk h.symm
        simp [hk, this]
  | off =>
    refine ⟨nofun, nofun, fun row l _ _ => rfl, fun row l _ => ?_, fun k => by simp [Group.putDst],
      fun k l _ => by simp [Group.putDst]⟩
    exact ⟨fun h => ⟨h, by rintro ⟨_, h, _⟩; cases h⟩, And.left⟩

theorem Wrote.of_regs {x y z : Group} {e : Word} {d : Dst} {wide sign : Bool} {r : Nat → Nat} (h : Wrote x y e d wide sign r)
    (hv : z.v = y.v) (hs : z.s = y.s) (hm : z.m = y.m) (hb : z.badRows = y.badRows) : Wrote x z e d wide sign r := by
  have h1 : ∀ row l, z.rowGet row l = y.rowGet row l := fun row l => by unfold Group.rowGet; rw [hv]
  have h2 : ∀ k, z.sGet k = y.sGet k := fun k => by unfold Group.sGet; rw [hs]
  have h3 : ∀ k, z.mGet k = y.mGet k := fun k => by unfold Group.mGet; rw [hm]
  refine ⟨fun n l a b c => ?_, fun n l a b c w => ?_, fun row l a b => ?_, fun row l a => ?_, fun k => ?_, fun k l a => ?_⟩
  · rw [h1]; exact h.low n l a b c
  · rw [h1]; exact h.high n l a b c w
  · rw [h1]; exact h.rows row l a b
  · rw [hb]; exact h.struck row l a
  · rw [h2]; exact h.scalar k
  · rw [h3]; exact h.mask k l a

/-- An ALU form that nothing holds completes with its result. -/
theorem aluIssue_computes {a : Alu} {s : State} {x : Group} {p : Nat} (h : AtIssue s x p)
    (hu : Unheld x p a.reads (x.dstRegs a.d a.dwide)) (ht : a.trans = false)
    (ho : (a.old && decide (a.d = .off)) = false) :
    Computes (commit s (aluIssue a s)) s x p a.d a.dwide a.dsign (fun l => (a.result s x p (x.exec p) l).1)
      (aluFlags a.d.isS (x.exec p) x.helpers (a.result s x p (x.exec p))) := by
  obtain ⟨v, st, m, b, hf⟩ := x.putDst_frame a.d a.dwide a.dsign (x.exec p) fun l => (a.result s x p (x.exec p) l).1
  have ha : a.apply s x p (x.exec p) = Group.modPath { x with
      v := v, s := st, m := m, badRows := b
      fl := x.fl.or (aluFlags a.d.isS (x.exec p) x.helpers (a.result s x p (x.exec p))) } p
      fun y => (y.putLatch a.d.isS (x.exec p) fun l => (a.result s x p (x.exec p) l).1).advance := by
    simp only [Alu.apply, hf]
  have hw := x.wrote_putDst a.d a.dwide a.dsign (x.exec p) fun l => (a.result s x p (x.exec p) l).1
  rw [hf] at hw
  unfold aluIssue
  rw [gated_go h hu]
  simp only [ht, ho, Bool.false_eq_true, if_false]
  have hl' := Group.latched_of (x := x) (x' := { x with
      v := v, s := st, m := m, badRows := b
      fl := x.fl.or (aluFlags a.d.isS (x.exec p) x.helpers (a.result s x p (x.exec p))) }) (p := p) (e := x.exec p)
      (uniform := a.d.isS) (r := fun l => (a.result s x p (x.exec p) l).1) h.path rfl
  rw [← ha] at hl'
  have hst : ∀ q, ((a.apply s x p (x.exec p)).path q).stepped = false := fun q => by
    by_cases hq : q = p
    · rw [hq, hl'.path]; exact (Path.advance_stepped _).trans h.stepping
    · rw [hl'.others q hq]; exact h.stepped q
  have huid : (a.apply s x p (x.exec p)).uid = x.uid := by rw [ha]; rfl
  have hhs := State.haltStepped_setGroup s _ hst
  rw [huid] at hhs
  rw [hhs, commit_setGroup h.writes h.host]
  refine ⟨_, rfl, ?_, ?_, hl', fun _ => rfl⟩
  · rw [ha]; rfl
  · exact hw.of_regs (by rw [ha]; rfl) (by rw [ha]; rfl) (by rw [ha]; rfl) (by rw [ha]; rfl)

theorem Alu.flags_none {u : Bool} {e h : Word} {r : Nat → Nat × FFlags} (hr : ∀ l, (r l).2 = .none) :
    aluFlags u e h r = .none := by
  unfold aluFlags
  split
  · split <;> simp [hr]
  · generalize lanesOf (e &&& ~~~h) = ls
    induction ls with
    | nil => rfl
    | cons a ls ih => simp [hr]

/-- A form without flags that does not read its destination. -/
theorem aluIssue_int {a : Alu} {s : State} {x : Group} {p : Nat} {r : Nat → Nat} (h : AtIssue s x p)
    (hu : Unheld x p a.reads (x.dstRegs a.d a.dwide)) (ht : a.trans = false)
    (ho : a.old = false) (hr : ∀ l, a.result s x p (x.exec p) l = (r l, .none)) :
    Computes (commit s (aluIssue a s)) s x p a.d a.dwide a.dsign r .none := by
  have hc := aluIssue_computes h hu ht (by rw [ho]; rfl)
  rw [Alu.flags_none fun l => by rw [hr]] at hc
  have : (fun l => (a.result s x p (x.exec p) l).1) = r := funext fun l => by rw [hr]
  rwa [this] at hc

end Sys2Proof.Machine
end

