-- ==== Sys2Proof/Laws/PerInstr.lean ====
section
/-! SUPPORT. What holds of every instruction as syntax: a form has a word exactly if it is one of the encoded forms (R51,
R60), the events of the table having none. -/

namespace Sys2Proof.Laws.HasWord

/-- The encoder gives a word for an instruction form and for no event. -/
def Statement (i : Instr) : Prop := (encode i).isSome = Instr.isWord i

theorem iadd (mo : IMod) (d : Dst) (a b : Src) : Statement (.iadd mo d a b) := rfl
theorem isub (mo : IMod) (d : Dst) (a b : Src) : Statement (.isub mo d a b) := rfl
theorem imul (mo : IMod) (d : Dst) (a b : Src) : Statement (.imul mo d a b) := rfl
theorem imulh (wide signed : Bool) (d : Dst) (a b : Src) : Statement (.imulh wide signed d a b) := rfl
theorem imad (mo : IMod) (d : Dst) (a b c : Src) : Statement (.imad mo d a b c) := rfl
theorem iabs (mo : IMod) (d : Dst) (a : Src) : Statement (.iabs mo d a) := rfl
theorem ineg (mo : IMod) (d : Dst) (a : Src) : Statement (.ineg mo d a) := rfl
theorem imin (wide signed : Bool) (d : Dst) (a b : Src) : Statement (.imin wide signed d a b) := rfl
theorem imax (wide signed : Bool) (d : Dst) (a b : Src) : Statement (.imax wide signed d a b) := rfl
theorem idp4 (signed sat : Bool) (d : Dst) (a b c : Src) : Statement (.idp4 signed sat d a b c) := rfl
theorem and (wide : Bool) (d : Dst) (a b : Src) : Statement (.and wide d a b) := rfl
theorem or (wide : Bool) (d : Dst) (a b : Src) : Statement (.or wide d a b) := rfl
theorem xor (wide : Bool) (d : Dst) (a b : Src) : Statement (.xor wide d a b) := rfl
theorem andn (wide : Bool) (d : Dst) (a b : Src) : Statement (.andn wide d a b) := rfl
theorem orn (wide : Bool) (d : Dst) (a b : Src) : Statement (.orn wide d a b) := rfl
theorem shl (wide : Bool) (d : Dst) (a b : Src) : Statement (.shl wide d a b) := rfl
theorem shr (wide : Bool) (d : Dst) (a b : Src) : Statement (.shr wide d a b) := rfl
theorem sar (wide : Bool) (d : Dst) (a b : Src) : Statement (.sar wide d a b) := rfl
theorem rot (wide : Bool) (d : Dst) (a b : Src) : Statement (.rot wide d a b) := rfl
theorem shf (left wide : Bool) (d : Dst) (a b c : Src) : Statement (.shf left wide d a b c) := rfl
theorem bfx (wide signed : Bool) (d : Dst) (a b c : Src) : Statement (.bfx wide signed d a b c) := rfl
theorem bfi (wide : Bool) (d : Dst) (a b c : Src) : Statement (.bfi wide d a b c) := rfl
theorem popc (wide : Bool) (d : Dst) (a : Src) : Statement (.popc wide d a) := rfl
theorem clz (wide : Bool) (d : Dst) (a : Src) : Statement (.clz wide d a) := rfl
theorem ctz (wide : Bool) (d : Dst) (a : Src) : Statement (.ctz wide d a) := rfl
theorem brev (wide : Bool) (d : Dst) (a : Src) : Statement (.brev wide d a) := rfl
theorem perm (d : Dst) (a b c : Src) : Statement (.perm d a b c) := rfl
theorem icmp (cc : ICond) (wide signed : Bool) (d : Dst) (a b : Src) : Statement (.icmp cc wide signed d a b) := rfl
theorem sel (wide : Bool) (d : Dst) (a b c : Src) : Statement (.sel wide d a b c) := rfl
theorem mov (wide signed : Bool) (d : Dst) (a : Src) : Statement (.mov wide signed d a) := rfl
theorem movGetv (d : Dst) (i : IdName) : Statement (.movGetv d i) := rfl
theorem movi (wide signed : Bool) (d : Dst) (i : BitVec 24) : Statement (.movi wide signed d i) := rfl
theorem moviH1 (wide signed : Bool) (d : Dst) (i : BitVec 24) : Statement (.moviH1 wide signed d i) := rfl
theorem moviH2 (signed : Bool) (d : Dst) (i : BitVec 24) : Statement (.moviH2 signed d i) := rfl
theorem lea (wide : Bool) (d : Dst) (mem : MemOp) : Statement (.lea wide d mem) := rfl
theorem qxch (pat : QPat) (wide : Bool) (d : Dst) (a : Src) : Statement (.qxch pat wide d a) := rfl
theorem qbc (wide : Bool) (d : Dst) (a b : Src) : Statement (.qbc wide d a b) := rfl
theorem shfl (w : ShW) (wide : Bool) (d : Dst) (a b : Src) : Statement (.shfl w wide d a b) := rfl
theorem shflx (w : ShW) (wide : Bool) (d : Dst) (a b : Src) : Statement (.shflx w wide d a b) := rfl
theorem shflup (w : ShW) (wide : Bool) (d : Dst) (a b : Src) : Statement (.shflup w wide d a b) := rfl
theorem shfldn (w : ShW) (wide : Bool) (d : Dst) (a b : Src) : Statement (.shfldn w wide d a b) := rfl
theorem vote (op : VoteOp) (d : Dst) (a : Src) : Statement (.vote op d a) := rfl
theorem gred (op : RedOp) (wide signed : Bool) (d : Dst) (a : Src) : Statement (.gred op wide signed d a) := rfl
theorem gscan (op : RedOp) (ex wide signed : Bool) (d : Dst) (a : Src) : Statement (.gscan op ex wide signed d a) := rfl
theorem lget (wide : Bool) (d a : Nat) (b : Src) : Statement (.lget wide d a b) := rfl
theorem lgetLanding (g k : Nat) : Statement (.lgetLanding g k) := rfl
theorem lput (wide : Bool) (a : Nat) (b c : Src) : Statement (.lput wide a b c) := rfl
theorem fadd (rm : Rm) (fm : FMod) (d : Dst) (a b : Src) : Statement (.fadd rm fm d a b) := rfl
theorem fmul (rm : Rm) (fm : FMod) (d : Dst) (a b : Src) : Statement (.fmul rm fm d a b) := rfl
theorem fma (rm : Rm) (fm : FMod) (d : Dst) (a b c : Src) : Statement (.fma rm fm d a b c) := rfl
theorem fdp2 (rm : Rm) (fm : FMod) (d : Dst) (a b c : Src) : Statement (.fdp2 rm fm d a b c) := rfl
theorem frnd (rm : Rm) (fm : FMod) (d : Dst) (a : Src) : Statement (.frnd rm fm d a) := rfl
theorem fcmp (cc : FCond) (fm : FMod) (d : Dst) (a b : Src) : Statement (.fcmp cc fm d a b) := rfl
theorem fmin (fm : FMod) (d : Dst) (a b : Src) : Statement (.fmin fm d a b) := rfl
theorem fmax (fm : FMod) (d : Dst) (a b : Src) : Statement (.fmax fm d a b) := rfl
theorem cvt (rm : Rm) (sat : Bool) (dt sf : CTy) (d : Dst) (a : Src) : Statement (.cvt rm sat dt sf d a) := rfl
theorem quant (f : TsFmt) (d sp a : Nat) : Statement (.quant f d sp a) := rfl
theorem dequant (f : TsFmt) (d a sp : Nat) : Statement (.dequant f d a sp) := rfl
theorem fpack (f : PkFmt) (rm : Rm) (d : Dst) (a b c : Src) : Statement (.fpack f rm d a b c) := rfl
theorem fpackFlags (d : Dst) (a : Src) : Statement (.fpackFlags d a) := rfl
theorem fsqrt (rm : Rm) (fm : FMod) (d : Dst) (a : Src) : Statement (.fsqrt rm fm d a) := rfl
theorem frcp (fm : FMod) (d : Dst) (a : Src) : Statement (.frcp fm d a) := rfl
theorem frsq (fm : FMod) (d : Dst) (a : Src) : Statement (.frsq fm d a) := rfl
theorem fex2 (fm : FMod) (d : Dst) (a : Src) : Statement (.fex2 fm d a) := rfl
theorem flg2 (fm : FMod) (d : Dst) (a : Src) : Statement (.flg2 fm d a) := rfl
theorem fsin (fm : FMod) (d : Dst) (a : Src) : Statement (.fsin fm d a) := rfl
theorem fcos (fm : FMod) (d : Dst) (a : Src) : Statement (.fcos fm d a) := rfl
theorem ftanh (fm : FMod) (d : Dst) (a : Src) : Statement (.ftanh fm d a) := rfl
theorem transcendentalLanding (g k : Nat) : Statement (.transcendentalLanding g k) := rfl
theorem ld (ty : LdTy) (sc : Scope) (acq : Bool) (d : Dst) (mem : MemOp) : Statement (.ld ty sc acq d mem) := rfl
theorem loadLanding (g k : Nat) : Statement (.loadLanding g k) := rfl
theorem st (ty : StTy) (sc : Scope) (rel : Bool) (x : Src) (mem : MemOp) : Statement (.st ty sc rel x mem) := rfl
theorem atom (op : AtOp) (wide : Bool) (sc : Scope) (o : Order) (d : Dst) (mem : MemOp) : Statement (.atom op wide sc o d mem) := rfl
theorem red (op : AtOp) (wide : Bool) (sc : Scope) (rel : Bool) (x : Src) (mem : MemOp) : Statement (.red op wide sc rel x mem) := rfl
theorem fence (sc : Scope) (o : Order) : Statement (.fence sc o) := rfl
theorem bpref (x : Nat) (mem : MemOp) : Statement (.bpref x mem) := rfl
theorem bprefDone (k : Nat) : Statement (.bprefDone k) := rfl
theorem cflush (sc : Scope) (mem : MemOp) : Statement (.cflush sc mem) := rfl
theorem cinv (sc : Scope) (mem : MemOp) : Statement (.cinv sc mem) := rfl
theorem ipref (n : Nat) (mem : MemOp) : Statement (.ipref n mem) := rfl
theorem clauseFetch (g p : Nat) : Statement (.clauseFetch g p) := rfl
theorem instructionFill (core line : Nat) : Statement (.instructionFill core line) := rfl
theorem accw (o a n c : Nat) : Statement (.accw o a n c) := rfl
theorem accr (o a n c : Nat) : Statement (.accr o a n c) := rfl
theorem accrLanding (g k : Nat) : Statement (.accrLanding g k) := rfl
theorem accz (o n c : Nat) : Statement (.accz o n c) := rfl
theorem mfmt (d b : Nat) (k : BitVec 9) : Statement (.mfmt d b k) := rfl
theorem mma (reuse z : Bool) (o a d h j : Nat) : Statement (.mma reuse z o a d h j) := rfl
theorem mmaAd (reuse z : Bool) (o a d h j i : Nat) : Statement (.mmaAd reuse z o a d h j i) := rfl
theorem mmaUpdate (g k : Nat) : Statement (.mmaUpdate g k) := rfl
theorem sopen (d r w h : Nat) : Statement (.sopen d r w h) := rfl
theorem sadv (h n : Nat) : Statement (.sadv h n) := rfl
theorem sclose (h : Nat) : Statement (.sclose h) := rfl
theorem sstat (d h : Nat) : Statement (.sstat d h) := rfl
theorem slotFetch (g h j : Nat) : Statement (.slotFetch g h j) := rfl
theorem adbind (b n : Nat) : Statement (.adbind b n) := rfl
theorem adfetchP (x : Nat) : Statement (.adfetchP x) := rfl
theorem adfetchQ (x : Nat) : Statement (.adfetchQ x) := rfl
theorem adapply (o i n : Nat) : Statement (.adapply o i n) := rfl
theorem adstat (sel : AdSel) (clr : Bool) (d : Nat) : Statement (.adstat sel clr d) := rfl
theorem adstatLanding (g k : Nat) : Statement (.adstatLanding g k) := rfl
theorem adinvId (x : Nat) : Statement (.adinvId x) := rfl
theorem adinvGen (x : Nat) : Statement (.adinvGen x) := rfl
theorem adinvAll : Statement (.adinvAll) := rfl
theorem adapterFill (k : Nat) : Statement (.adapterFill k) := rfl
theorem bra (c : BrCond) (off : BitVec 32) : Statement (.bra c off) := rfl
theorem brp (np : Bool) (x : Src) (off : BitVec 32) : Statement (.brp np x off) := rfl
theorem mjoin (off : BitVec 32) : Statement (.mjoin off) := rfl
theorem join : Statement (.join) := rfl
theorem regang : Statement (.regang) := rfl
theorem call (l f8 : Nat) (off : BitVec 32) : Statement (.call l f8 off) := rfl
theorem calli (l t f8 : Nat) : Statement (.calli l t f8) := rfl
theorem ret (t f8 : Nat) : Statement (.ret t f8) := rfl
theorem exit : Statement (.exit) := rfl
theorem suspend (c v e p : Nat) : Statement (.suspend c v e p) := rfl
theorem yield : Statement (.yield) := rfl
theorem trap (code : BitVec 24) : Statement (.trap code) := rfl
theorem brk (code : BitVec 24) : Statement (.brk code) := rfl
theorem nop : Statement (.nop) := rfl
theorem rgn (i : BitVec 24) : Statement (.rgn i) := rfl
theorem spill (g : Nat) : Statement (.spill g) := rfl
theorem fill (g : Nat) : Statement (.fill g) := rfl
theorem deferCapacity (g : Nat) : Statement (.deferCapacity g) := rfl
theorem dmodeOn : Statement (.dmodeOn) := rfl
theorem dmodeOff : Statement (.dmodeOff) := rfl
theorem drain : Statement (.drain) := rfl
theorem defer (w : DWord) : Statement (.defer w) := rfl
theorem closureRun (g : Nat) : Statement (.closureRun g) := rfl
theorem spawn (e p : Nat) : Statement (.spawn e p) := rfl
theorem binTimer (region bin : Nat) : Statement (.binTimer region bin) := rfl
theorem launch (d p q : Nat) : Statement (.launch d p q) := rfl
theorem launchChild (d p q : Nat) : Statement (.launchChild d p q) := rfl
theorem launchPacketRead (l : Nat) : Statement (.launchPacketRead l) := rfl
theorem graphNode (l : Nat) : Statement (.graphNode l) := rfl
theorem gridComplete (l : Nat) : Statement (.gridComplete l) := rfl
theorem dispatchStep : Statement (.dispatchStep) := rfl
theorem ageStep (ctx : Nat) : Statement (.ageStep ctx) := rfl
theorem serviceTick : Statement (.serviceTick) := rfl
theorem energyWindow : Statement (.energyWindow) := rfl
theorem actmaxUpdate (region : Nat) (temp : Int) : Statement (.actmaxUpdate region temp) := rfl
theorem activeSetSwap (core part : Nat) : Statement (.activeSetSwap core part) := rfl
theorem cpy (d a : Nat) : Statement (.cpy d a) := rfl
theorem cpyl (d a : Nat) : Statement (.cpyl d a) := rfl
theorem copyComplete (k : Nat) : Statement (.copyComplete k) := rfl
theorem cbatch (d : Nat) : Statement (.cbatch d) := rfl
theorem cwait (d : Dst) (n : Src) : Statement (.cwait d n) := rfl
theorem bar : Statement (.bar) := rfl
theorem barc : Statement (.barc) := rfl
theorem arrive : Statement (.arrive) := rfl
theorem evinc (d c v : Nat) : Statement (.evinc d c v) := rfl
theorem evincI (d c : Nat) (n : BitVec 24) : Statement (.evincI d c n) := rfl
theorem evset (d c v : Nat) : Statement (.evset d c v) := rfl
theorem evrd (d c : Nat) : Statement (.evrd d c) := rfl
theorem clk (d : Nat) : Statement (.clk d) := rfl
theorem clkNs (d : Nat) : Statement (.clkNs d) := rfl
theorem dcreate (d p : Nat) : Statement (.dcreate d p) := rfl
theorem dgrant (d c v kind : Nat) : Statement (.dgrant d c v kind) := rfl
theorem dtake (d c v kind : Nat) : Statement (.dtake d c v kind) := rfl
theorem dfreeze (d c : Nat) : Statement (.dfreeze d c) := rfl
theorem dthaw (d c : Nat) : Statement (.dthaw d c) := rfl
theorem dckptSave (d c a l : Nat) : Statement (.dckptSave d c a l) := rfl
theorem dckptLoad (d a l : Nat) : Statement (.dckptLoad d a l) := rfl
theorem drevoke (d c : Nat) : Statement (.drevoke d c) := rfl
theorem dsnapOpen (d c a : Nat) : Statement (.dsnapOpen d c a) := rfl
theorem dsnapClose (d c : Nat) : Statement (.dsnapClose d c) := rfl
theorem xinv (a l : Nat) : Statement (.xinv a l) := rfl
theorem xinvAll : Statement (.xinvAll) := rfl
theorem keygen (d : Nat) : Statement (.keygen d) := rfl
theorem keykill (d x : Nat) : Statement (.keykill d x) := rfl
theorem hqpop (d : Nat) : Statement (.hqpop d) := rfl
theorem hqdoneResume (d r : Nat) : Statement (.hqdoneResume d r) := rfl
theorem hqdoneKill (d r : Nat) : Statement (.hqdoneKill d r) := rfl
theorem hqdoneRedirect (d r m : Nat) : Statement (.hqdoneRedirect d r m) := rfl
theorem sysr (d a : Nat) : Statement (.sysr d a) := rfl
theorem sysw (d a v : Nat) : Statement (.sysw d a v) := rfl
theorem hctl (d a v : Nat) : Statement (.hctl d a v) := rfl
theorem qreset (d a v : Nat) : Statement (.qreset d a v) := rfl
theorem debugWordWrite (d a v : Nat) : Statement (.debugWordWrite d a v) := rfl
theorem resume (d a b c : Nat) (tag : BitVec 24) : Statement (.resume d a b c tag) := rfl
theorem step (d a b c : Nat) (tag : BitVec 24) : Statement (.step d a b c tag) := rfl
theorem halt (d a b c : Nat) (tag : BitVec 24) : Statement (.halt d a b c tag) := rfl
theorem rdreg (d a b c : Nat) (tag : BitVec 24) : Statement (.rdreg d a b c tag) := rfl
theorem wrreg (d a b c : Nat) (tag : BitVec 24) : Statement (.wrreg d a b c tag) := rfl
theorem dump (d a b c : Nat) (tag : BitVec 24) : Statement (.dump d a b c tag) := rfl
theorem handlerRecord (k : Nat) : Statement (.handlerRecord k) := rfl
theorem headAdvanceSeen (r : RingRef) : Statement (.headAdvanceSeen r) := rfl
theorem dusk (core ctx : Nat) : Statement (.dusk core ctx) := rfl
theorem cohortEvict (coh : Nat) : Statement (.cohortEvict coh) := rfl
theorem grace (core ctx : Nat) : Statement (.grace core ctx) := rfl
theorem midnight (core ctx : Nat) : Statement (.midnight core ctx) := rfl
theorem uncorrectableError (at_ : ErrSite) : Statement (.uncorrectableError at_) := rfl
theorem poisonNotice (sector : Nat) : Statement (.poisonNotice sector) := rfl
theorem scrub (stack : Nat) (atom : ScrubAtom) : Statement (.scrub stack atom) := rfl
theorem refresh (stack chan : Nat) : Statement (.refresh stack chan) := rfl
theorem toggleWindowEnd (stack chan : Nat) : Statement (.toggleWindowEnd stack chan) := rfl
theorem gangingChange (region : Nat) (ganged : Bool) : Statement (.gangingChange region ganged) := rfl
theorem linkReplay (l : Nat) : Statement (.linkReplay l) := rfl
theorem linkDown (l : Nat) : Statement (.linkDown l) := rfl
theorem hostLaunch (fn : Nat) : Statement (.hostLaunch fn) := rfl
theorem hostSysr (fn : Nat) : Statement (.hostSysr fn) := rfl
theorem hostSysw (fn : Nat) : Statement (.hostSysw fn) := rfl
theorem functionLevelReset (fn : Nat) : Statement (.functionLevelReset fn) := rfl
theorem boot : Statement (.boot) := rfl
theorem recoveryImage : Statement (.recoveryImage) := rfl
theorem nonce (n : DWord) : Statement (.nonce n) := rfl
theorem replan (region margin : Nat) (unsafeCores : List Nat) : Statement (.replan region margin unsafeCores) := rfl
theorem clockThrottle (down : Bool) : Statement (.clockThrottle down) := rfl
theorem sample (core part : Nat) : Statement (.sample core part) := rfl
theorem traceFlush (l : Nat) : Statement (.traceFlush l) := rfl
theorem rplctl (d a v : Nat) : Statement (.rplctl d a v) := rfl
theorem writePerformed (g k : Nat) : Statement (.writePerformed g k) := rfl
theorem linkTrained (l peer : Nat) : Statement (.linkTrained l peer) := rfl

end Sys2Proof.Laws.HasWord
end

