-- ==== Sys2Proof/Tests/Slice0.lean ====
section
/-! SUPPORT. Tests: ill-formed terms that each check refuses, words written out from the manual's encodings, single steps on
small states with results from the manual, and states that meet the hypotheses of the statements. -/

namespace Sys2Proof.Tests

set_option Elab.async false

open Sys2Proof.Machine

/-! ### Small states -/

/-- A control group of the root, number 1, whose path 0 stands at a word, all lanes live. -/
def grp (w : Nat) : Group := oneGroup 1 (BitVec.ofNat 64 (w % 2 ^ 64))
/-- The state with that group alone, its path at issue. -/
def at_ (w : Nat) : State := { State.reset.withFetchWord 64 w with cur := some ⟨1, 0⟩, sched := [] }
/-- The same group with changes made to it. -/
def with_ (w : Nat) (f : Group → Group) : State := (at_ w).modGroup 1 f

theorem at_issue (w : Nat) : AtIssue (at_ w) (grp w) 0 where
  cur := rfl
  group := rfl
  path := by simp [grp, oneGroup]
  stepping := rfl
  stepped := by intro q; rcases q with _|_|_|_|_|_|_|_|q <;> rfl
  writes := rfl
  host := rfl

theorem unheld {x : Group} {p : Nat} (h : x.outs = []) (hr : x.rcq = []) (hb : x.badRows = []) (hd : (x.path p).dlatch = [])
    (srcs : List (Src × Bool)) (dsts : List Reg) : Unheld x p srcs dsts where
  ready := by intro r _; simp [Group.pending, h, hr]
  sound := by simp [Group.badLanes, hb, maskOf]
  latches := by
    intro a _
    cases a.1 <;> simp [Path.awaitsLatch, hd]

theorem runs (w : Nat) (srcs : List (Src × Bool)) (d : Dst) (wide : Bool) :
    Claim.Runs (at_ w) (grp w) 0 srcs d wide where
  issue := at_issue w
  free := unheld rfl rfl rfl rfl _ _

/-! ### Ill-formed terms (R53, R54) -/

/-- A term of each integer or bit form with an operand that the form refuses. -/
theorem test_ill_formed_integer : ∀ i ∈ ([
    .iadd ⟨true, false, false⟩ (.v 1) (.v 2) (.v 4), .isub ⟨true, false, false⟩ (.v 2) (.v 3) (.v 4),
    .imul ⟨false, false, false⟩ (.s 1) (.v 2) (.s 3), .imulh true false (.v 2) (.b 1) (.v 4),
    .imad ⟨false, false, false⟩ (.v 1) (.v 2) (.v 3) (.m 1), .iabs ⟨false, false, false⟩ (.m 1) (.v 1),
    .ineg ⟨false, false, false⟩ (.v 1536) (.v 1), .imin false false (.v 1) (.idn .lane) (.v 2), .imax false false (.s 64) (.s 1) (.s 2),
    .idp4 false false (.v 1) (.v 2) (.v 3) (.b 8), .and false (.v 1) (.v 2) (.s 64), .or true (.v 2) (.v 4) (.v 5),
    .xor false (.m 0) (.v 1) (.v 2), .andn false (.v 1) (.m 1) (.v 2), .orn true (.off) (.v 1) (.v 2),
    .shl true (.v 3) (.v 2) (.v 1), .shr false (.s 1) (.s 2) (.b 0), .sar true (.v 2) (.v 4) (.m 1), .rot false (.v 1) (.v 1536) (.v 1),
    .shf true true (.v 2) (.v 4) (.v 5) (.v 1), .bfx true false (.v 2) (.v 5) (.v 1) (.v 1), .bfi true (.v 2) (.v 4) (.v 5) (.v 1),
    .popc true (.v 2) (.v 3), .clz false (.m 1) (.v 2), .ctz true (.v 2) (.b 1), .brev false (.v 1) (.m 2),
    .perm (.v 1) (.v 2) (.v 3) (.idn .lane)] : List Instr), Instr.wf i = false := by decide

theorem test_ill_formed_moves : ∀ i ∈ ([
    .icmp .eq false false (.v 1) (.v 2) (.v 3), .icmp .eq false false (.m 16) (.v 2) (.v 3), .sel false (.v 1) (.v 2) (.v 3) (.v 4),
    .sel false (.s 1) (.s 2) (.s 3) (.m 1), .mov true false (.m 1) (.v 2), .mov true false (.v 2) (.m 1), .mov false false (.s 1) (.v 1),
    .movGetv (.s 1) .lane, .movGetv (.m 1) .ctx, .movi false false (.m 1) 0, .moviH1 false false (.v 1) 0x100,
    .moviH2 false (.v 2) 0x10000, .moviH2 false (.v 1) 0, .lea true (.v 3) ⟨0, .imm 0, 0, 0⟩, .lea false (.s 1) ⟨0, .v 1, 0, 0⟩,
    .lea false (.v 1) ⟨64, .imm 0, 0, 0⟩, .lea false (.v 1) ⟨0, .imm 0, 4, 0⟩] : List Instr), Instr.wf i = false := by decide

theorem test_ill_formed_lanes : ∀ i ∈ ([
    .qxch .x1 false (.s 1) (.v 2), .qbc true (.v 2) (.v 3) (.v 1), .shfl .w32 false (.v 1) (.m 1) (.v 2), .shflx .w32 true (.v 2) (.v 4) (.m 1),
    .shflup .w32 false (.m 1) (.v 1) (.v 1), .shfldn .w32 true (.v 1) (.v 2) (.v 1), .vote .any (.m 16) (.v 1), .vote .any (.v 1) (.idn .lane),
    .gred .add true false (.v 1) (.v 2), .gscan .add false false false (.s 1) (.v 2), .lget true 3 4 (.v 1), .lget false 1 1536 (.v 1),
    .lput true 3 (.v 1) (.v 2), .lput false 1 (.m 1) (.v 1)] : List Instr), Instr.wf i = false := by decide

theorem test_ill_formed_floats : ∀ i ∈ ([
    .fadd .rne ⟨Sys2Proof.FTy.f32, false, false, false, false⟩ (.m 1) (.v 1) (.v 2), .fma .rne ⟨Sys2Proof.FTy.f32, false, false, false, false⟩ (.v 1) (.v 1) (.v 2) (.m 1),
    .fdp2 .rne ⟨Sys2Proof.FTy.f32, false, false, false, false⟩ (.v 1) (.v 1) (.v 2) (.v 3), .fdp2 .rne ⟨Sys2Proof.FTy.f16, false, false, false, false⟩ (.v 1) (.imm 1) (.v 2) (.v 3),
    .frnd .rne ⟨Sys2Proof.FTy.f32, false, false, true, false⟩ (.v 1) (.v 2), .fcmp .eq ⟨Sys2Proof.FTy.f32, false, false, false, false⟩ (.v 1) (.v 1) (.v 2),
    .cvt .rne true .s32 .f32 (.v 1) (.v 2), .cvt .rne false .s64 .f32 (.v 1) (.v 2), .quant .ts8 40 45 0, .quant .ts12 1530 0 1, .dequant .ts4 1510 0 1,
    .fpack .f16 .rne (.v 1) (.v 2) (.v 3) (.v 4), .fpackFlags (.m 1) (.imm 0), .fpackFlags (.s 1) (.v 1),
    .fsqrt .rne ⟨Sys2Proof.FTy.f32, false, false, false, false⟩ (.s 1) (.s 2), .frcp ⟨Sys2Proof.FTy.f16, false, false, false, false⟩ (.v 1) (.v 2)] : List Instr),
    Instr.wf i = false := by decide

theorem test_ill_formed_memory : ∀ i ∈ ([
    .ld .b64 .gp false (.v 3) ⟨0, .imm 0, 0, 0⟩, .ld .b128 .gp false (.v 2) ⟨0, .imm 0, 0, 0⟩, .ld .b128 .gp false (.s 2) ⟨0, .imm 0, 0, 0⟩,
    .ld .b32 .gp false .off ⟨0, .imm 0, 0, 0⟩, .ld .b32 .gp false (.v 1) ⟨0, .m 1, 0, 0⟩, .st .b128 .gp false (.v 2) ⟨0, .imm 0, 0, 0⟩,
    .st .b64 .gp false (.v 3) ⟨0, .imm 0, 0, 0⟩, .st .b32 .gp false (.m 1) ⟨0, .imm 0, 0, 0⟩, .atom .cas false .gp .rlx (.v 1) ⟨0, .imm 0, 0, 0⟩,
    .atom .cas true .gp .rlx (.v 2) ⟨0, .imm 0, 0, 0⟩, .atom .cas true .gp .rlx (.s 63) ⟨0, .imm 0, 0, 0⟩,
    .atom .add true .gp .rlx (.v 1) ⟨0, .imm 0, 0, 0⟩, .red .exch false .gp false (.v 1) ⟨0, .imm 0, 0, 0⟩,
    .red .cas false .gp false (.v 1) ⟨0, .imm 0, 0, 0⟩, .bpref 64 ⟨0, .imm 0, 0, 0⟩, .bpref 1 ⟨0, .v 1, 0, 0⟩, .cflush .gp ⟨64, .imm 0, 0, 0⟩,
    .cinv .gp ⟨0, .idn .lane, 0, 0⟩, .ipref 0 ⟨0, .imm 0, 0, 0⟩, .ipref 9 ⟨0, .imm 0, 0, 0⟩, .accw 1 0 17 0, .accr 1 0 1 32, .accz 64 1 0,
    .accw 1 1535 2 0] : List Instr), Instr.wf i = false := by decide

theorem test_ill_formed_units : ∀ i ∈ ([
    .mfmt 8 0 0, .mma false false 1 1536 0 0 0, .mma false false 1 0 0 4 0, .mma false false 1 0 0 0 8, .mmaAd false false 1 0 0 0 0 1536,
    .sopen 1 1 0 0, .sopen 1 1 9 0, .sopen 1 1 1 4, .sadv 4 1, .sadv 0 0, .sclose 4, .sstat 1 4, .adbind 64 0, .adfetchP 64, .adfetchQ 64,
    .adapply 1 1536 1, .adstat .m false 64, .adinvId 64, .adinvGen 64] : List Instr), Instr.wf i = false := by decide

theorem test_ill_formed_control : ∀ i ∈ ([
    .bra (.m 16) 0, .bra (.nz (.m 1)) 0, .bra (.z (.imm 1)) 0, .brp false (.b 1) 0, .call 1 0 0, .call 1 193 0, .calli 64 1 1, .ret 1 0,
    .suspend 1 1 1 1523, .spawn 1 1523, .launch 1 1 64, .launchChild 64 1 1, .cpy 1 0, .cpyl 1 61, .cbatch 64, .cwait (.v 1) (.s 1),
    .cwait (.s 1) (.v 1), .evinc 64 1 1, .evset 1 64 1, .evincI 1 64 0, .evrd 64 1, .clk 64, .clkNs 64] : List Instr), Instr.wf i = false := by
  decide

theorem test_ill_formed_system : ∀ i ∈ ([
    .dcreate 64 1, .dgrant 1 1 1 11, .dtake 1 1 1 11, .dfreeze 64 1, .dthaw 1 64, .drevoke 64 1, .dsnapClose 1 64, .dckptSave 1 1 1 64,
    .dckptLoad 1 64 1, .dsnapOpen 1 1 64, .xinv 64 1, .keygen 64, .hqpop 64, .keykill 1 64, .hqdoneResume 64 1, .hqdoneKill 1 64,
    .hqdoneRedirect 1 1 64, .sysr 0 1, .sysr 63 1, .sysw 1 64 1, .hctl 64 1 1, .qreset 64 1 1, .debugWordWrite 1 1 64, .rplctl 1 64 1,
    .resume 1 64 1 1 0, .step 64 1 1 1 0, .halt 64 1 1 1 0, .rdreg 64 1 1 1 0, .wrreg 64 1 1 1 0, .dump 64 1 1 1 0] : List Instr),
    Instr.wf i = false := by decide

/-! ### Words (R51 to R60) -/

/-- Words of integer arithmetic (R95). -/
theorem test_decode_integer :
    decode 0x0018005003FF9000 = some (.iadd ⟨false, true, true⟩ (.v 5) (.v 3) (.imm (-7))) ∧
    decode 0x0060004002006000 = some (.isub ⟨true, false, false⟩ (.v 4) (.v 2) (.v 6)) ∧
    decode 0x0088619618803000 = some (.imul ⟨false, false, true⟩ (.s 9) (.s 8) (.imm 3)) ∧
    decode 0x00F000800A00C000 = some (.imulh true true (.v 8) (.v 10) (.v 12)) ∧
    decode 0x0110001002603614 = some (.imad ⟨false, true, false⟩ (.v 1) (.v 2) (.b 3) (.s 4)) ∧
    decode 0x0158007008000000 = some (.iabs ⟨false, true, true⟩ (.v 7) (.v 8)) ∧
    decode 0x01B0006008000000 = some (.ineg ⟨true, true, false⟩ (.v 6) (.v 8)) ∧
    decode 0x01D0001002003000 = some (.imin false true (.v 1) (.v 2) (.v 3)) ∧
    decode 0x0220611612613000 = some (.imax true false (.s 1) (.s 2) (.s 3)) ∧
    decode 0x0258001002003004 = some (.idp4 true true (.v 1) (.v 2) (.v 3) (.v 4)) := by decide

/-- Words of logic, shifts and bit fields (R95). -/
theorem test_decode_bits_a :
    decode 0x02A0002004006000 = some (.and true (.v 2) (.v 4) (.v 6)) ∧
    decode 0x02C0002004601000 = some (.or false (.v 2) (.v 4) (.b 1)) ∧
    decode 0x0300002004FFF000 = some (.xor false (.v 2) (.v 4) (.imm (-1))) ∧
    decode 0x0340800004005000 = some (.andn false .off (.v 4) (.v 5)) ∧
    decode 0x0380612614615000 = some (.orn false (.s 2) (.s 4) (.s 5)) ∧
    decode 0x03E0002004007000 = some (.shl true (.v 2) (.v 4) (.v 7)) ∧
    decode 0x040000200481F000 = some (.shr false (.v 2) (.v 4) (.imm 31)) ∧
    decode 0x0440002004005000 = some (.sar false (.v 2) (.v 4) (.v 5)) ∧
    decode 0x0480002004005000 = some (.rot false (.v 2) (.v 4) (.v 5)) ∧
    decode 0x04C1001002003004 = some (.shf true false (.v 1) (.v 2) (.v 3) (.v 4)) ∧
    decode 0x04C0001002003004 = some (.shf false false (.v 1) (.v 2) (.v 3) (.v 4)) ∧
    decode 0x0510001002003808 = some (.bfx false true (.v 1) (.v 2) (.v 3) (.imm 8)) := by decide

/-- Words of logic, shifts and bit fields (R95). -/
theorem test_decode_bits_b :
    decode 0x0560002004006009 = some (.bfi true (.v 2) (.v 4) (.v 6) (.v 9)) ∧
    decode 0x0580001002000000 = some (.popc false (.v 1) (.v 2)) ∧
    decode 0x05E0002004000000 = some (.clz true (.v 2) (.v 4)) ∧
    decode 0x0600001002000000 = some (.ctz false (.v 1) (.v 2)) ∧
    decode 0x0640001002000000 = some (.brev false (.v 1) (.v 2)) ∧
    decode 0x0680001002003614 = some (.perm (.v 1) (.v 2) (.v 3) (.s 4)) := by decide

/-- Words of comparing, selecting and moving (R95, R106 to R111). -/
theorem test_decode_moves :
    decode 0x06D2652001617000 = some (.icmp .lt false true (.m 2) (.v 1) (.s 7)) ∧
    decode 0x06E5612611617000 = some (.icmp .ge true false (.s 2) (.s 1) (.s 7)) ∧
    decode 0x0700001002003654 = some (.sel false (.v 1) (.v 2) (.v 3) (.m 4)) ∧
    decode 0x0770613614000000 = some (.mov true true (.s 3) (.s 4)) ∧
    decode 0x0741003660000000 = some (.movGetv (.v 3) .lane) ∧
    decode 0x0741613669000000 = some (.movGetv (.s 3) .clk) ∧
    decode 0x0780006000345678 = some (.movi false false (.v 6) 0x345678) ∧
    decode 0x0781006000000012 = some (.moviH1 false false (.v 6) 0x12) ∧
    decode 0x07A2006000001234 = some (.moviH2 false (.v 6) 0x1234) ∧
    decode 0x07E06150984FFFF8 = some (.lea true (.s 5) ⟨2, .s 3, 3, -8⟩) := by decide

/-- Words of the lane exchanges (R113). -/
theorem test_decode_lanes :
    decode 0x0803001002000000 = some (.qxch .r1 false (.v 1) (.v 2)) ∧
    decode 0x0860002004007000 = some (.qbc true (.v 2) (.v 4) (.v 7)) ∧
    decode 0x0881001002003000 = some (.shfl .w16 false (.v 1) (.v 2) (.v 3)) ∧
    decode 0x08C2009009804000 = some (.shflx .w8 false (.v 9) (.v 9) (.imm 4)) ∧
    decode 0x0903001002801000 = some (.shflup .w4 false (.v 1) (.v 2) (.imm 1)) ∧
    decode 0x0944001002801000 = some (.shfldn .w2 false (.v 1) (.v 2) (.imm 1)) ∧
    decode 0x0982611652000000 = some (.vote .ballot (.s 1) (.m 2)) ∧
    decode 0x09D1001002000000 = some (.gred .min false true (.v 1) (.v 2)) ∧
    decode 0x0A28002004000000 = some (.gscan .add true true false (.v 2) (.v 4)) ∧
    decode 0x0A60002004007000 = some (.lget true 2 4 (.v 7)) ∧
    decode 0x0A80000004007009 = some (.lput false 4 (.v 7) (.v 9)) := by decide

/-- Words of floating point, conversion and packing (R143, R153, R156, R159). -/
theorem test_decode_floats_a :
    decode 0x1100001002003000 = some (.fadd .rna ⟨Sys2Proof.FTy.f32, false, false, false, false⟩ (.v 1) (.v 2) (.v 3)) ∧
    decode 0x1253001002003000 = some (.fmul .rz ⟨Sys2Proof.FTy.f16, false, false, true, true⟩ (.v 1) (.v 2) (.v 3)) ∧
    decode 0x1400800002613614 = some (.fma .rne ⟨Sys2Proof.FTy.f32, false, false, false, false⟩ .off (.v 2) (.s 3) (.s 4)) ∧
    decode 0x1693001002003004 = some (.fdp2 .rup ⟨Sys2Proof.FTy.f16, false, false, true, true⟩ (.v 1) (.v 2) (.v 3) (.v 4)) ∧
    decode 0x18E4001002000000 = some (.frnd .rdn ⟨Sys2Proof.FTy.bf16, false, true, false, false⟩ (.v 1) (.v 2)) ∧
    decode 0x1BC0651002800000 = some (.fcmp .nan ⟨Sys2Proof.FTy.f32, false, false, false, false⟩ (.m 1) (.v 2) (.imm 0)) ∧
    decode 0x1C00001002003000 = some (.fmin ⟨Sys2Proof.FTy.f32, false, false, false, false⟩ (.v 1) (.v 2) (.v 3)) ∧
    decode 0x1C40001002003000 = some (.fmax ⟨Sys2Proof.FTy.f32, false, false, false, false⟩ (.v 1) (.v 2) (.v 3)) ∧
    decode 0x20400070030000ED = some (.cvt .rz false .s32 .f32 (.v 7) (.v 3)) ∧
    decode 0x202000700300020D = some (.cvt .rne true .e4m3 .f32 (.v 7) (.v 3)) ∧
    decode 0x2210028000027000 = some (.quant .ts8 40 39 0) ∧
    decode 0x2260028002027000 = some (.dequant .ts12 40 2 39) := by decide

/-- Words of floating point, conversion and packing (R143, R153, R156, R159). -/
theorem test_decode_floats_b :
    decode 0x2291001002003004 = some (.fpack .e4m3 .rz (.v 1) (.v 2) (.v 3) (.v 4)) ∧
    decode 0x22B861781F000000 = some (.fpackFlags (.s 7) (.imm 0x1F)) := by decide

/-- Words of the transcendental forms (R143, R150). -/
theorem test_decode_transcendentals :
    decode 0x3050001002000000 = some (.fsqrt .rz ⟨Sys2Proof.FTy.f16, false, false, false, false⟩ (.v 1) (.v 2)) ∧
    decode 0x3208009004000000 = some (.frcp ⟨Sys2Proof.FTy.f32, true, false, false, false⟩ (.v 9) (.v 4)) ∧
    decode 0x3240001002000000 = some (.frsq ⟨Sys2Proof.FTy.f32, false, false, false, false⟩ (.v 1) (.v 2)) ∧
    decode 0x3280001002000000 = some (.fex2 ⟨Sys2Proof.FTy.f32, false, false, false, false⟩ (.v 1) (.v 2)) ∧
    decode 0x32C0001002000000 = some (.flg2 ⟨Sys2Proof.FTy.f32, false, false, false, false⟩ (.v 1) (.v 2)) ∧
    decode 0x3300001002000000 = some (.fsin ⟨Sys2Proof.FTy.f32, false, false, false, false⟩ (.v 1) (.v 2)) ∧
    decode 0x3340001002000000 = some (.fcos ⟨Sys2Proof.FTy.f32, false, false, false, false⟩ (.v 1) (.v 2)) ∧
    decode 0x3380001002000000 = some (.ftanh ⟨Sys2Proof.FTy.f32, false, false, false, false⟩ (.v 1) (.v 2)) := by decide

/-- Words of the memory forms (R230 to R251). -/
theorem test_decode_memory_a :
    decode 0x4108002080060000 = some (.ld .b32 .gp false (.v 2) ⟨2, .v 1, 2, 0⟩) ∧
    decode 0x41A20040A0008000 = some (.ld .b128 .cx true (.v 4) ⟨2, .imm 0, 0, -32768⟩) ∧
    decode 0x431C003120000000 = some (.st .b32 .co true (.v 3) ⟨4, .imm 0, 0, 0⟩) ∧
    decode 0x4200613120000001 = some (.st .b8 .qd false (.s 3) ⟨4, .imm 0, 0, 1⟩) ∧
    decode 0x45080031401E0000 = some (.atom .exch false .gp .rlx (.v 3) ⟨5, .v 7, 2, 0⟩) ∧
    decode 0x4567014260000040 = some (.atom .cas true .cx .ar (.v 20) ⟨9, .imm 0, 0, 0x40⟩) ∧
    decode 0x4990009180060008 = some (.red .mins false .wg false (.v 9) ⟨6, .v 1, 2, 8⟩) ∧
    decode 0x4C24000000000000 = some (.fence .cx .rel) ∧
    decode 0x4C406190A0000000 = some (.bpref 9 ⟨2, .imm 0, 0, 0⟩) ∧
    decode 0x4C808020A0000180 = some (.ipref 2 ⟨2, .imm 0, 0, 0x180⟩) ∧
    decode 0x4CE8000080040000 = some (.cflush .sy ⟨2, .v 1, 0, 0⟩) ∧
    decode 0x4D20000080040000 = some (.cinv .cx ⟨2, .v 1, 0, 0⟩) := by decide

/-- Words of the memory forms (R230 to R251). -/
theorem test_decode_memory_b :
    decode 0x4D402000C0000062 = some (.accw 8 3 4 2) ∧
    decode 0x4D802002000001E0 = some (.accr 8 8 16 0) ∧
    decode 0x4DC020000000001F = some (.accz 8 1 31) := by decide

/-- Words of the matrix and adapter forms (R255 to R268, R282). -/
theorem test_decode_matrix_a :
    decode 0x60000C0000200001 = some (.mfmt 1 3 1) ∧
    decode 0x6060200000200006 = some (.mma false true 8 0 1 2 1) ∧
    decode 0x605820040020221F = some (.mmaAd true false 8 16 1 3 7 17) ∧
    decode 0x60801C000900000B = some (.sopen 7 9 2 3) ∧
    decode 0x60C000000000001D = some (.sadv 1 8) ∧
    decode 0x6100000000000002 = some (.sclose 2) ∧
    decode 0x61401C0000000002 = some (.sstat 7 2) ∧
    decode 0x6200100005000000 = some (.adbind 4 5) ∧
    decode 0x6240100000000000 = some (.adfetchP 4) ∧
    decode 0x6241100000000000 = some (.adfetchQ 4) ∧
    decode 0x6280200003002200 = some (.adapply 8 17 3) ∧
    decode 0x62D1500000000000 = some (.adstat .f true 20) := by decide

/-- Words of the matrix and adapter forms (R255 to R268, R282). -/
theorem test_decode_matrix_b :
    decode 0x6300100000000000 = some (.adinvId 4) ∧
    decode 0x6301100000000000 = some (.adinvGen 4) ∧
    decode 0x6302000000000000 = some (.adinvAll) := by decide

/-- Words of the control forms (R171 to R179, R81). -/
theorem test_decode_control_a :
    decode 0x70000000FFFFFFFE = some (.bra .al (-2)) ∧
    decode 0x7008100000000005 = some (.bra (.m 1) 5) ∧
    decode 0x7010F00000000005 = some (.bra (.nm 15) 5) ∧
    decode 0x7018000500000005 = some (.bra (.nz (.v 5)) 5) ∧
    decode 0x7020061500000005 = some (.bra (.z (.s 5)) 5) ∧
    decode 0x7040000800000002 = some (.brp false (.v 8) 2) ∧
    decode 0x7048061800000002 = some (.brp true (.s 8) 2) ∧
    decode 0x7080000000000003 = some (.mjoin 3) ∧
    decode 0x70C0000000000000 = some (.join) ∧
    decode 0x7100000000000000 = some (.regang) ∧
    decode 0x717E00060000000C = some (.call 62 6 12) ∧
    decode 0x718064E614806000 = some (.calli 62 4 6) := by decide

/-- Words of the control forms (R171 to R179, R81). -/
theorem test_decode_control_b :
    decode 0x71C000064E806000 = some (.ret 62 6) ∧
    decode 0x7200000000000000 = some (.exit) ∧
    decode 0x7240004146000014 = some (.suspend 4 5 6 20) ∧
    decode 0x7280000000000000 = some (.yield) ∧
    decode 0x72C000000000002A = some (.trap 0x2A) ∧
    decode 0x730000000000002B = some (.brk 0x2B) ∧
    decode 0x7340000000000000 = some (.nop) ∧
    decode 0x7380000000000007 = some (.rgn 7) := by decide

/-- Words of the queue and counter forms (R310 to R428). -/
theorem test_decode_queues_a :
    decode 0x8001000000000000 = some (.dmodeOn) ∧
    decode 0x8000000000000000 = some (.dmodeOff) ∧
    decode 0x8040000000000000 = some (.drain) ∧
    decode 0x8080100500000000 = some (.spawn 4 20) ∧
    decode 0x80C01C0008000003 = some (.launch 7 8 3) ∧
    decode 0x80C11C000800003F = some (.launchChild 7 8 63) ∧
    decode 0x81001C0014000000 = some (.cpy 7 20) ∧
    decode 0x81401C003C000000 = some (.cpyl 7 60) ∧
    decode 0x8180617000000000 = some (.cbatch 7) ∧
    decode 0x81C061A619000000 = some (.cwait (.s 10) (.s 9)) ∧
    decode 0x81C0800803000000 = some (.cwait .off (.imm 3)) ∧
    decode 0x8200000000000000 = some (.bar) := by decide

/-- Words of the queue and counter forms (R310 to R428). -/
theorem test_decode_queues_b :
    decode 0x8240000000000000 = some (.barc) ∧
    decode 0x8280000000000000 = some (.arrive) ∧
    decode 0x82C0105180000000 = some (.evinc 4 5 6) ∧
    decode 0x82C1105000000001 = some (.evincI 4 5 1) ∧
    decode 0x8300105000000000 = some (.evrd 4 5) ∧
    decode 0x8340105180000000 = some (.evset 4 5 6) ∧
    decode 0x8380617000000000 = some (.clk 7) ∧
    decode 0x8381617000000000 = some (.clkNs 7) := by decide

/-- Words of the system forms (R379 to R446). -/
theorem test_decode_system_a :
    decode 0xE000105000000000 = some (.dcreate 4 5) ∧
    decode 0xE04010518000000A = some (.dgrant 4 5 6 10) ∧
    decode 0xE080105180000001 = some (.dtake 4 5 6 1) ∧
    decode 0xE0C0105000000000 = some (.dfreeze 4 5) ∧
    decode 0xE100105000000000 = some (.dthaw 4 5) ∧
    decode 0xE140105187000000 = some (.dckptSave 4 5 6 7) ∧
    decode 0xE141100187000000 = some (.dckptLoad 4 6 7) ∧
    decode 0xE180105000000000 = some (.drevoke 4 5) ∧
    decode 0xE1C0105180000000 = some (.dsnapOpen 4 5 6) ∧
    decode 0xE1C1105000000000 = some (.dsnapClose 4 5) ∧
    decode 0xE20000A2C0000000 = some (.xinv 10 11) ∧
    decode 0xE201000000000000 = some (.xinvAll) := by decide

/-- Words of the system forms (R379 to R446). -/
theorem test_decode_system_b :
    decode 0xE2400C0000000000 = some (.keygen 3) ∧
    decode 0xE2800C4000000000 = some (.keykill 3 4) ∧
    decode 0xE2C0100000000000 = some (.hqpop 4) ∧
    decode 0xE300105000000000 = some (.hqdoneResume 4 5) ∧
    decode 0xE300105000000001 = some (.hqdoneKill 4 5) ∧
    decode 0xE300105180000002 = some (.hqdoneRedirect 4 5 6) ∧
    decode 0xE340105000000000 = some (.sysr 4 5) ∧
    decode 0xE380187200000000 = some (.sysw 6 7 8) ∧
    decode 0xE3C024A000000001 = some (.resume 9 10 0 0 1) := by decide

/-! ### Helpers for states that meet the hypotheses of the statements -/

/-- One group at issue, the rest of the state as f makes it. -/
def put (x : Group) (f : State → State := id) : State := f { at_ 0 with groups := [x] }
/-- Root tables that map addresses 0 to 50331647, readable, writable and executable, to pages 4096 on (R372). -/
def tables : List Host.Cell :=
  [(0, 1), (7, 0x80), (512, 2), (519, 0x80), (1024, 3), (1031, 0x80), (1536, 4), (1543, 0x80), (2048, 5), (2055, 0x80),
   (2561, 0x10), (2567, 0xF0)]
/-- The same state with those tables and bytes placed from mapped addresses on. -/
def mapped (x : Group) (bytes : List Host.Cell := []) (f : State → State := id) : State :=
  put x fun s => f { s with mem := tables ++ bytes.map fun c => (50331648 + c.1, c.2) }
/-- The same with HOME 3, whose lines enter no cache (R191). -/
def uncached (s : State) : State := { s with mem := s.mem.map fun c => if c.1 = 2567 then (2567, 0xFC) else c }
/-- Consecutive bytes. -/
def bytesAt (a : Nat) (bs : List Byte) : List Host.Cell := (bs.zipIdx a).filterMap fun b => if b.1 = 0 then none else some (b.2, b.1)
/-- The group with no lane executing: its word is guarded by m1, which is 0. -/
def idle : Group := (grp 0).modPath 0 fun y => { y with head := BitVec.ofNat 64 (oneHeader 0 + 2 ^ 40 + 2 ^ 23) }
/-- The group with s registers. -/
def regs (ks : SMap DWord) : Group := { grp 0 with s := ks }

theorem issue_of {s : State} {x : Group} (hc : s.cur = some ⟨x.uid, 0⟩) (hg : s.group? x.uid = some x) (hp : 0 < x.paths.length)
    (hs : (x.path 0).stepping = false) (ha : x.paths.all (fun y => !y.stepped) = true) (hw : s.wq = []) (hh : s.hostWq = [] := by rfl) :
    AtIssue s x 0 where
  cur := hc
  group := hg
  path := hp
  stepping := hs
  stepped := by
    intro q
    by_cases hq : q < x.paths.length
    · have h := List.all_eq_true.mp ha (x.path q) (by simp [Group.path, List.getD_eq_getElem?_getD, List.getElem?_eq_getElem hq])
      simpa using h
    · simp [Group.path, List.getD_eq_getElem?_getD, List.getElem?_eq_none (Nat.le_of_not_lt hq), Path.freePath]
  writes := hw
  host := hh
theorem issue {s : State} {x : Group} (hc : s.cur = some ⟨x.uid, 0⟩) (hg : s.group? x.uid = some x) (hp : 0 < x.paths.length)
    (ha : x.paths.all (fun y => !y.stepping && !y.stepped) = true) (hw : s.wq = []) (hh : s.hostWq = [] := by rfl) :
    AtIssue s x 0 := by
  refine issue_of hc hg hp ?_ (List.all_eq_true.mpr fun y hy => ?_) hw hh
  · have h := List.all_eq_true.mp ha (x.path 0) (by simp [Group.path, List.getD_eq_getElem?_getD, List.getElem?_eq_getElem hp])
    simp at h; exact h.1
  · have h := List.all_eq_true.mp ha y hy
    simp at h; simp [h.2]

/-- A read or write that succeeds. -/
def isOk {ε α : Type} (r : State × Except ε α) : Bool := match r.2 with
  | .ok _ => true
  | .error _ => false
theorem ok_of {ε α : Type} {r : State × Except ε α} (h : isOk r = true) : ∃ t a, r = (t, .ok a) := by
  obtain ⟨t, e⟩ := r
  cases e with
  | ok a => exact ⟨t, a, rfl⟩
  | error e => simp [isOk] at h
theorem error_of {ε α : Type} {r : State × Except ε α} (h : isOk r = false) : ∃ t e, r = (t, .error e) := by
  obtain ⟨t, e⟩ := r
  cases e with
  | ok a => simp [isOk] at h
  | error e => exact ⟨t, e, rfl⟩

theorem passes_of {f : MemForm} {s : State} {x : Group} (h1 : x.exec 0 ≠ 0) (h2 : x.acqHeld 0 s.fresh = false)
    (h3 : ((Claim.checks f s x 0).2.all fun c => match c.res with
      | .ok _ => true
      | .error _ => false) = true)
    (h4 : ((Claim.checks f s x 0).1.watchMatch x.ctx f.n f.rd f.wr (Claim.checks f s x 0).2).isNone = true)
    (h5 : ((f.rd || f.wr) && (Claim.checks f s x 0).1.rplWaits x 0 ((Claim.checks f s x 0).2.map fun c =>
      { lane := c.lane, va := c.va, place := c.res.toOption, x := 0, y := 0 : LaneAcc })) = false) :
    ∃ t as, Claim.Passes f s x 0 t as := by
  refine ⟨_, _, rfl, h1, h2, ?_, rfl, .inr (by simpa using h4), fun h => ?_⟩
  · intro c hc
    have := List.all_eq_true.mp h3 c hc
    revert this
    cases c.res <;> simp
  · have h' : (f.rd || f.wr) = true := by simpa using h
    rwa [h', Bool.true_and] at h5
/-- A read or write that succeeds with an answer that f accepts. -/
def okWith {ε α : Type} (r : State × Except ε α) (f : State → α → Bool) : Bool := match r.2 with
  | .ok a => f r.1 a
  | .error _ => false
theorem ok_with {ε α : Type} {r : State × Except ε α} {f : State → α → Bool} (h : okWith r f = true) :
    ∃ t a, r = (t, .ok a) ∧ f t a = true := by
  obtain ⟨t, e⟩ := r
  cases e with
  | ok a => exact ⟨t, a, rfl, h⟩
  | error e => simp [okWith] at h
theorem some_with {α : Type} {o : Option α} {f : α → Bool} (h : o.any f = true) : ∃ a, o = some a ∧ f a = true := by
  cases o with
  | none => simp at h
  | some a => exact ⟨a, rfl, h⟩
/-! ### Statements about results at issue -/

theorem witness_IntegerForms :
    (Claim.Runs (at_ 0) (grp 0) 0 [(.v 3, false)] (.v 5) false ∧ (Instr.iabs ⟨false, true, true⟩ (.v 5) (.v 3)).wf = true) ∧
    (Claim.Runs (at_ 0) (grp 0) 0 [(.v 2, true), (.s 3, true)] (.v 4) true ∧
      (Instr.iadd ⟨true, true, true⟩ (.v 4) (.v 2) (.s 3)).wf = true ∧ (Instr.imulh true true (.v 4) (.v 2) (.s 3)).wf = true) ∧
    (Claim.Runs (at_ 0) (grp 0) 0 [(.s 1, false), (.imm 7, false)] (.s 0) false ∧
      (Instr.isub ⟨false, false, false⟩ (.s 0) (.s 1) (.imm 7)).wf = true) ∧
    Claim.Runs (at_ 0) (grp 0) 0 [(.v 2, false), (.b 3, false), (.s 4, false)] .off false ∧
      (Instr.imad ⟨false, true, false⟩ .off (.v 2) (.b 3) (.s 4)).wf = true ∧
      (Instr.idp4 true true .off (.v 2) (.b 3) (.s 4)).wf = true :=
  ⟨⟨runs _ _ _ _, by decide⟩, ⟨runs _ _ _ _, by decide⟩, ⟨runs _ _ _ _, by decide⟩, runs _ _ _ _, by decide⟩

theorem witness_BitForms :
    (Claim.Runs (at_ 0) (grp 0) 0 [(.v 2, true), (.v 4, true)] (.v 6) true ∧ (Instr.andn true (.v 6) (.v 2) (.v 4)).wf = true) ∧
    (Claim.Runs (at_ 0) (grp 0) 0 [(.v 2, true), (.v 5, false)] (.v 6) true ∧ (Instr.rot true (.v 6) (.v 2) (.v 5)).wf = true) ∧
    (Claim.Runs (at_ 0) (grp 0) 0 [(.s 2, false), (.s 3, false), (.imm 32, false)] (.s 1) false ∧
      (Instr.shf true false (.s 1) (.s 2) (.s 3) (.imm 32)).wf = true ∧ (Instr.bfx false true (.s 1) (.s 2) (.s 3) (.imm 32)).wf = true ∧
      (Instr.bfi false (.s 1) (.s 2) (.s 3) (.imm 32)).wf = true ∧ (Instr.perm (.s 1) (.s 2) (.s 3) (.imm 32)).wf = true) ∧
    Claim.Runs (at_ 0) (grp 0) 0 [(.v 2, true)] .off true ∧ (Instr.clz true .off (.v 2)).wf = true :=
  ⟨⟨runs _ _ _ _, by decide⟩, ⟨runs _ _ _ _, by decide⟩, ⟨runs _ _ _ _, by decide⟩, runs _ _ _ _, by decide⟩

theorem witness_ComparesAndMoves :
    (Claim.Runs (at_ 0) (grp 0) 0 [(.v 1, false), (.s 7, false)] (.m 15) false ∧ (Instr.icmp .lt false true (.m 15) (.v 1) (.s 7)).wf = true) ∧
    (Claim.Runs (at_ 0) (grp 0) 0 [(.s 1, false), (.s 7, false)] (.s 2) true ∧ (Instr.icmp .ge false false (.s 2) (.s 1) (.s 7)).wf = true) ∧
    (Claim.Runs (at_ 0) (grp 0) 0 [(.v 1, false), (.v 2, false), (.m 0, false)] (.v 3) false ∧
      (Instr.sel false (.v 3) (.v 1) (.v 2) (.m 0)).wf = true) ∧
    (Claim.Runs (at_ 0) (grp 0) 0 [(.s 1, true), (.s 2, true), (.s 3, true)] (.s 4) true ∧
      (Instr.sel true (.s 4) (.s 1) (.s 2) (.s 3)).wf = true) ∧
    (Claim.Runs (at_ 0) (grp 0) 0 [(.m 3, false)] (.v 4) false ∧ (Instr.mov false false (.v 4) (.m 3)).wf = true) ∧
    (Claim.Runs (at_ 0) (grp 0) 0 [(.idn .lane, false)] (.v 4) false ∧ (Instr.movGetv (.v 4) .lane).wf = true) ∧
    (Claim.Runs (at_ 0) (grp 0) 0 [] .off false ∧ (Instr.moviH1 false true .off 0xFF).wf = true ∧ (Instr.movi false true .off 0x800000).wf = true) ∧
    (Claim.Runs (at_ 0) (grp 0) 0 [] (.v 2) true ∧ (Instr.moviH2 false (.v 2) 0xFFFF).wf = true) ∧
    Claim.Runs (at_ 0) (grp 0) 0 [(.s 63, true), (.v 1, false)] (.v 2) true ∧ (Instr.lea true (.v 2) ⟨63, .v 1, 3, -1⟩).wf = true :=
  ⟨⟨runs _ _ _ _, by decide⟩, ⟨runs _ _ _ _, by decide⟩, ⟨runs _ _ _ _, by decide⟩, ⟨runs _ _ _ _, by decide⟩, ⟨runs _ _ _ _, by decide⟩,
    ⟨runs _ _ _ _, by decide⟩, ⟨runs _ _ _ _, by decide⟩, ⟨runs _ _ _ _, by decide⟩, runs _ _ _ _, by decide⟩

theorem witness_LaneExchangesAndFolds :
    (Claim.Runs (at_ 0) (grp 0) 0 [(.v 2, true)] (.v 4) true ∧ (Instr.qxch .r1 true (.v 4) (.v 2)).wf = true ∧
      (Instr.gred .min true true (.v 4) (.v 2)).wf = true ∧ (Instr.gscan .add true true true (.v 4) (.v 2)).wf = true) ∧
    (Claim.Runs (at_ 0) (grp 0) 0 [(.v 2, false), (.imm 31, false)] (.v 4) false ∧ (Instr.shfldn .w2 false (.v 4) (.v 2) (.imm 31)).wf = true ∧
      (Instr.qbc false (.v 4) (.v 2) (.imm 31)).wf = true) ∧
    Claim.Runs (at_ 0) (grp 0) 0 [(.m 15, false)] (.s 63) false ∧ (Instr.vote .ballot (.s 63) (.m 15)).wf = true :=
  ⟨⟨runs _ _ _ _, by decide⟩, ⟨runs _ _ _ _, by decide⟩, runs _ _ _ _, by decide⟩

/-- An lget of v5 from v4 in lanes 0 and 1. -/
def lgetOne : Out :=
  { id := 7, inst := 7, path := 0, pc := 8, op := .lget false, regs := [.v 5], lanes := 3, accs := [⟨0, 0, none, 4, 31⟩, ⟨1, 0, none, 4, 0⟩]
    agent := 0, hist := [], acq := false, rel := false, scope := .qd, alone := false, bytes := 0, fl := .none, discard := [], whole := [], poison := 0
    poisonVa := 0, rpl := none }

theorem witness_LanesOfOtherGroups :
    (AtIssue (at_ 0) (grp 0) 0 ∧ Unheld (grp 0) 0 [(.v 7, false)] ((grp 0).dstRegs (.v 2) true) ∧ (grp 0).exec 0 ≠ 0) ∧
    (AtIssue (put idle) idle 0 ∧ Unheld idle 0 [(.v 7, false)] (idle.dstRegs (.v 2) true) ∧ idle.exec 0 = 0) ∧
    (let x : Group := { grp 0 with outs := [lgetOne] }
     let s := put x
     s.wq = [] ∧ s.group? 1 = some x ∧ x.outs.find? (·.id == 7) = some lgetOne ∧ lgetOne.op = .lget false ∧
      lgetOne.regs = x.dstRegs (.v 5) false ∧ lgetOne.discard = [] ∧ lgetOne.accs.map (·.lane) = lanesOf lgetOne.lanes ∧
      ∀ c ∈ lgetOne.accs, s.targetPending x.coh x.wg c.x c.y false (some (1, 7)) = false) ∧
    (let o : Out := { lgetOne with accs := [⟨0, 0, none, 4, 5⟩, ⟨1, 0, none, 4, 0⟩] }
     let x : Group := { grp 0 with outs := [o, { lgetOne with id := 8 }] }
     o.regs = x.dstRegs (.v 5) false ∧ (put x).group? 1 = some x ∧ x.outs.find? (·.id == 7) = some o ∧
      ∃ c ∈ o.accs, (put x).targetPending x.coh x.wg c.x c.y false (some (1, 7)) = true) ∧
    (AtIssue (at_ 0) (grp 0) 0 ∧ Unheld (grp 0) 0 [(.v 7, false), (.v 9, false)] [] ∧ (Instr.lput false 4 (.v 7) (.v 9)).wf = true) ∧
    (let q : LPut := { id := 7, coh := 1, wg := 0, reg := 4, wide := true, lanes := [(0, 3), (31, 2 ^ 32 + 1)] }
     let s := put (grp 0) fun s => { s with lputs := [q] }
     s.lputs.find? (·.id == 7) = some q ∧ (∀ l ∈ q.lanes, s.targetPending q.coh q.wg l.1 q.reg q.wide none = false) ∧
      (∀ y ∈ s.groups, y.saved = true → y.resident = true) ∧ s.group? 1 = some (grp 0) ∧ (s.laneTarget 1 0 31).isSome = true) :=
  ⟨⟨at_issue 0, unheld rfl rfl rfl rfl _ _, by decide⟩, ⟨issue rfl rfl (by decide) (by decide) rfl, unheld rfl rfl rfl rfl _ _, by decide⟩,
    by decide, by decide, ⟨at_issue 0, unheld rfl rfl rfl rfl _ _, by decide⟩, by decide⟩

theorem witness_RoundingToAFormat : Machine.fp16 ∈ [fp32, fp16, bfp16, fpE4m3, fpE5m2] ∧ (1 : Nat) ≠ 0 ∧ (65536 : Nat) ≠ 0 := ⟨by simp, by decide⟩

theorem witness_ExactFloatsAndSums :
    FV.isNan (.nan true) = true ∧
    (∃ v ∈ [(FV.inf false, FV.zero false), (.fin false 1 0, .fin false 1 0)].map fun q => (fmulX q.1 q.2).1, v.isNan = true) ∧
    (let ps := [(FV.inf false, FV.fin false 1 0), (.inf true, .fin false 1 0)].map fun q => (fmulX q.1 q.2).1
     (∀ v ∈ ps, v.isNan = false) ∧ FV.inf false ∈ ps ∧ FV.inf true ∈ ps) ∧
    (let ps := [(FV.inf true, FV.fin false 1 0)].map fun q => (fmulX q.1 q.2).1
     (∀ v ∈ ps, v.isNan = false) ∧ FV.inf true ∈ ps ∧ FV.inf false ∉ ps) ∧
    (let ps := [(FV.fin true 3 0, FV.fin false 1 (-1))].map fun q => (fmulX q.1 q.2).1
     (∀ v ∈ ps, v.isNan = false) ∧ ∀ b, FV.inf b ∉ ps) := by decide

theorem witness_FloatForms :
    (Claim.Runs (at_ 0) (grp 0) 0 [(.v 2, false)] (.v 4) false ∧
      (Instr.frnd .rdn ⟨Sys2Proof.FTy.bf16, true, true, false, false⟩ (.v 4) (.v 2)).wf = true) ∧
    (Claim.Runs (at_ 0) (grp 0) 0 [(.s 2, false), (.imm 3, false)] (.s 4) false ∧
      (Instr.fadd .rna ⟨Sys2Proof.FTy.f16, true, true, true, true⟩ (.s 4) (.s 2) (.imm 3)).wf = true) ∧
    (Claim.Runs (at_ 0) (grp 0) 0 [(.v 2, false), (.v 3, false), (.v 5, false)] .off false ∧
      (Instr.fdp2 .rup ⟨Sys2Proof.FTy.f16, true, true, true, true⟩ .off (.v 2) (.v 3) (.v 5)).wf = true) ∧
    (Claim.Runs (at_ 0) (grp 0) 0 [(.v 2, false), (.imm 0, false)] (.m 1) false ∧
      (Instr.fcmp .nan ⟨Sys2Proof.FTy.f32, false, false, false, false⟩ (.m 1) (.v 2) (.imm 0)).wf = true) ∧
    Claim.Runs (at_ 0) (grp 0) 0 [(.s 2, false), (.s 1, false)] (.s 63) true ∧
      (Instr.fcmp .nan ⟨Sys2Proof.FTy.f32, false, false, false, false⟩ (.s 63) (.s 2) (.s 1)).wf = true :=
  ⟨⟨runs _ _ _ _, by decide⟩, ⟨runs _ _ _ _, by decide⟩, ⟨runs _ _ _ _, by decide⟩, ⟨runs _ _ _ _, by decide⟩, runs _ _ _ _, by decide⟩

theorem witness_Conversions :
    (Claim.Runs (at_ 0) (grp 0) 0 [(.v 2, true)] (.v 4) false ∧ (Instr.cvt .rz true .s8 .s64 (.v 4) (.v 2)).wf = true) ∧
    (Claim.Runs (at_ 0) (grp 0) 0 [(.v 2, false), (.v 3, false), (.v 5, false)] (.v 4) false ∧ PkFmt.narrow .e5m2 = true ∧
      (Instr.fpack .e5m2 .rz (.v 4) (.v 2) (.v 3) (.v 5)).wf = true) ∧
    (Claim.Runs (at_ 0) (grp 0) 0 [(.v 2, false), (.v 3, false)] (.v 4) false ∧ PkFmt.narrow .f16 = false ∧
      (Instr.fpack .f16 .rz (.v 4) (.v 2) (.v 3) (.v 0)).wf = true) ∧
    AtIssue (at_ 0) (grp 0) 0 ∧
    (Unheld (grp 0) 0 (Claim.block 0 32) ((grp 0).rows 40 8 ++ (grp 0).rows 39 1) ∧ (Instr.quant .ts8 40 39 0).wf = true) ∧
    Unheld (grp 0) 0 (Claim.block 0 12 ++ Claim.block 39 1) ((grp 0).rows 40 32) ∧ (Instr.dequant .ts12 40 0 39).wf = true :=
  ⟨⟨runs _ _ _ _, by decide⟩, ⟨runs _ _ _ _, by decide⟩, ⟨runs _ _ _ _, by decide⟩, at_issue 0,
    ⟨unheld rfl rfl rfl rfl _ _, by decide⟩, unheld rfl rfl rfl rfl _ _, by decide⟩

/-- A NaN among zeros, zeros alone, and a 1.0 beside an infinity and values too small for the larger scale. -/
theorem witness_QuantisedBlocks :
    (let xs := 0x7FC00000 :: List.replicate 31 0
     xs.length = 32 ∧ ∃ i < 32, (fval fp32 (xs.getD i 0)).isNan = true) ∧
    (let xs := List.replicate 32 0
     xs.length = 32 ∧ ∀ i < 32, (fval fp32 (xs.getD i 0)).isZero = true) ∧
    (let xs := [0x3F800000, 0x7F800000] ++ List.replicate 30 1
     xs.length = 32 ∧ (xs.any fun w => (fval fp32 w).isInf) = true ∧ (∀ i < 32, (fval fp32 (xs.getD i 0)).isNan = false) ∧
      (∃ i < 32, (fval fp32 (xs.getD i 0)).isZero = false) ∧ ∃ i < 32, ∃ q, Claim.rat (fval fp32 (xs.getD i 0)) = some q) ∧
    0xFF08 < 2 ^ 16 ∧ 0xFFF < 2 ^ Claim.widthOf .ts12 ∧ 0xFF08 / 256 = 0xFF :=
  ⟨⟨rfl, 0, by decide, by decide⟩, ⟨rfl, by decide⟩, ⟨rfl, by decide, by decide, ⟨0, by decide, by decide⟩, 0, by decide, _, rfl⟩, by decide⟩

/-- 1.0, whose exponential, logarithm, root and reciprocal all exist. -/
theorem witness_TranscendentalBounds :
    fp32 ∈ [fp32, fp16, bfp16] ∧ 0x3F800000 < 2 ^ 32 ∧ fval fp32 0x3F800000 = .fin false 0x800000 (-23) ∧ 0x800000 ≠ 0 ∧
    (let r : ℝ := (0x800000 : ℕ) * 2 ^ (-23 : ℤ)
     1 / 2 ^ 128 < r ∧ -150 ≤ r ∧ r < 128 ∧ 0 < r) := by
  refine ⟨by simp, by decide, by decide, by decide, ?_⟩
  norm_num

theorem witness_StickyFlags :
    (AtIssue (at_ 0) (grp 0) 0 ∧ Unheld (grp 0) 0 [(.imm 31, true)] ((grp 0).dstRegs (.s 7) false) ∧
      (Instr.fpackFlags (.s 7) (.imm 31)).wf = true ∧ (grp 0).exec 0 ≠ 0 ∧ (grp 0).rcq = [] ∧
      (grp 0).mpend = [] ∧ ∀ o ∈ (grp 0).outs, o.op ≠ .trans) ∧
    AtIssue (put idle) idle 0 ∧ Unheld idle 0 [(.imm 31, true)] (idle.dstRegs (.s 7) false) ∧ idle.exec 0 = 0 :=
  ⟨⟨at_issue 0, unheld rfl rfl rfl rfl _ _, by decide, by decide, rfl, rfl, by decide⟩,
    issue rfl rfl (by decide) (by decide) rfl, unheld rfl rfl rfl rfl _ _, by decide⟩

/-- A transcendental of v5 in lane 31. -/
def transOne : Out := { lgetOne with op := .trans, lanes := 0x80000000, accs := [⟨31, 0, none, 0x3F800000, 0⟩] }

theorem witness_Transcendentals :
    (AtIssue (at_ 0) (grp 0) 0 ∧ Unheld (grp 0) 0 [(.v 4, false)] ((grp 0).dstRegs (.v 9) false) ∧ (grp 0).exec 0 ≠ 0 ∧
      (Instr.fsqrt .rz ⟨Sys2Proof.FTy.f16, true, true, false, false⟩ (.v 9) (.v 4)).wf = true ∧
      (Instr.ftanh ⟨Sys2Proof.FTy.f32, true, true, false, false⟩ (.v 9) (.v 4)).wf = true) ∧
    (let x : Group := { grp 0 with outs := [transOne] }
     let s := put x
     s.wq = [] ∧ s.group? 1 = some x ∧ x.outs.find? (·.id == 7) = some transOne ∧ transOne.op = .trans ∧ Dst.vOnly false (.v 5) = true ∧
      transOne.regs = x.dstRegs (.v 5) false ∧ transOne.discard = [] ∧ transOne.accs.map (·.lane) = lanesOf transOne.lanes) ∧
    fp32 ∈ [fp32, fp16, bfp16] ∧ fval fp32 0x7FC00000 = .nan false ∧ fval fp32 0x7F800000 = .inf false ∧ fval fp32 0x80000000 = .fin true 0 (-149) ∧
    fval fp32 0x3F800000 = .fin false 0x800000 (-23) ∧ fval fp32 0x43000000 = .fin false 0x800000 (-16) :=
  ⟨⟨at_issue 0, unheld rfl rfl rfl rfl _ _, by decide, by decide, by decide⟩, by decide, by simp, by decide⟩


/-! ### Statements about memory -/

/-- A mapped group whose s2 is an address. -/
def ptr (a : Nat) : Group := regs [(2, BitVec.ofNat 64 a)]
theorem mapped_issue (x : Group) (bs : List Host.Cell) (h : x.uid = 1) (hp : 0 < x.paths.length)
    (ha : x.paths.all (fun y => !y.stepping && !y.stepped) = true) : AtIssue (mapped x bs) x 0 :=
  issue (by rw [h]; rfl) (by simp [State.group?, mapped, put]) hp ha rfl

theorem witness_LoadsAndAtomicsIssue :
    (AtIssue (put idle) idle 0 ∧ Unheld idle 0 (Claim.memSrcs (ldForm .b64 (.v 4) ⟨2, .s 0, 0, 8⟩)) (ldRegs .b64 (.v 4) idle) ∧
      Unheld idle 0 (Claim.memSrcs (atomForm .cas true (.v 4) ⟨2, .s 0, 0, 8⟩)) (atomRegs .cas true (.v 4) idle) ∧ idle.exec 0 = 0) ∧
    (let x := ptr 65528
     AtIssue (mapped x) x 0 ∧
      (let f := ldForm .b64 (.s 4) ⟨2, .s 0, 0, 8⟩
       Unheld x 0 (Claim.memSrcs f) (ldRegs .b64 (.s 4) x) ∧ (Instr.ld .b64 .cx true (.s 4) ⟨2, .s 0, 0, 8⟩).wf = true ∧
        ∃ t as, Claim.Passes f (mapped x) x 0 t as) ∧
      (let f := atomForm .cas true (.v 4) ⟨2, .s 0, 0, -8⟩
       Unheld x 0 (Claim.memSrcs f) (atomRegs .cas true (.v 4) x) ∧ (Instr.atom .cas true .cx .ar (.v 4) ⟨2, .s 0, 0, -8⟩).wf = true ∧
        ∃ t as, Claim.Passes f (mapped x) x 0 t as)) :=
  ⟨⟨issue rfl rfl (by decide) (by decide) rfl, unheld rfl rfl rfl rfl _ _, unheld rfl rfl rfl rfl _ _, by decide⟩,
    mapped_issue _ _ rfl (by decide) (by decide),
    ⟨unheld rfl rfl rfl rfl _ _, by decide, passes_of (by decide) (by decide) (by decide +kernel) (by decide +kernel) (by decide +kernel)⟩,
    unheld rfl rfl rfl rfl _ _, by decide, passes_of (by decide) (by decide) (by decide +kernel) (by decide +kernel) (by decide +kernel)⟩

/-- A store of two bytes in lanes 0 and 31, at bytes that meet. -/
def storeOne : SEntry :=
  { id := 7, op := .st, accs := [⟨0, 0, some (.phys 50331744 0 0 0), 0x1FF, 0⟩, ⟨31, 1, some (.phys 50331745 0 0 0), 0x2FF, 0⟩]
    bytes := 2, agent := 0, hist := [], rel := true, scope := .wg, alone := false, waits := none, deferred := false, heals := []
    via := [], rpl := none }

theorem witness_WritesReachMemory :
    (AtIssue (put idle) idle 0 ∧ idle.exec 0 = 0) ∧
    (let x := ptr 65535
     let m : MemOp := ⟨2, .s 0, 0, -65535⟩
     AtIssue (mapped x) x 0 ∧
      ((Instr.st .b128 .wg true (.v 4) m).wf = true ∧ Unheld x 0 (Claim.memSrcs (stForm 16 (.v 4) m)) [] ∧
        ∃ t as, Claim.Passes (stForm 16 (.v 4) m) (mapped x) x 0 t as) ∧
      ((Instr.red .maxu true .wg true (.s 2) m).wf = true ∧ Unheld x 0 (Claim.memSrcs (redForm 8 (.s 2) m)) [] ∧
        ∃ t as, Claim.Passes (redForm 8 (.s 2) m) (mapped x) x 0 t as) ∧
      (Instr.cflush .sy m).wf = true ∧ (Instr.cinv .cx m).wf = true ∧ Unheld x 0 (Claim.memSrcs (cleanForm m)) [] ∧
        ∃ t as, Claim.Passes (cleanForm m) (mapped x) x 0 t as) ∧
    (let x : Group := { grp 0 with sbuf := [storeOne] }
     let s := put x
     (s.wq = [] ∧ s.hostWq = [] ∧ s.group? 1 = some x ∧ x.sbuf.find? (·.id == 7) = some storeOne ∧ s.writeReady x storeOne = true ∧
      storeOne.op = .st ∧ storeOne.rpl = none) ∧
      ∀ a ∈ storeOne.accs, ∃ pa h key inst, a.place = some (.phys pa h key inst) ∧ s.placeLive (.phys pa h key inst) = true ∧
        ∀ i, i < storeOne.bytes → smGet 0 s.blkKey ((pa + i) / 16) = inst ∧ s.poisoned (pa + i) = false) ∧
    (let e : SEntry := { storeOne with op := .red .add false, bytes := 4 }
     let x : Group := { grp 0 with sbuf := [e] }
     let s := put x
     x.sbuf.find? (·.id == 7) = some e ∧ s.writeReady x e = true ∧
      ∀ a ∈ e.accs, ∃ pa h key inst, a.place = some (.phys pa h key inst) ∧ s.placeLive (.phys pa h key inst) = true ∧
        ∀ i, i < e.bytes → smGet 0 s.blkKey ((pa + i) / 16) = inst ∧ s.poisoned (pa + i) = false) ∧
    (∀ wide ∈ [false, true],
      let e : SEntry := { storeOne with op := .clean true wide, accs := [⟨0, 0, some (.phys 50331744 0 0 0), 0, 0⟩] }
      let x : Group := { grp 0 with sbuf := [e] }
      let m : MSLine := { line := 262144, present := 15, dirty := 1, locked := false, ctx := 0, key := 0, used := 0, via := [], clock := 0, writer := 0 }
      let s := put x fun s => { s with cache := [m] }
      x.sbuf.find? (·.id == 7) = some e ∧ s.writeReady x e = true ∧ s.placeLive (.phys 50331744 0 0 0) = true ∧
        s.cache.find? (·.line == 50331744 / 192) = some m) ∧
    (let e : SEntry := { storeOne with accs := [⟨0, 0, some (.phys 50331744 0 3 5), 1, 0⟩] }
     let x : Group := { grp 0 with sbuf := [e] }
     (put x).group? 1 = some x ∧ x.sbuf.find? (·.id == 7) = some e ∧ (put x).writeReady x e = true ∧
      ∃ a ∈ e.accs, ∃ q, a.place = some q ∧ (put x).placeLive q = false) := by
  refine ⟨⟨issue rfl rfl (by decide) (by decide) rfl, by decide⟩, ⟨mapped_issue _ _ rfl (by decide) (by decide),
    ⟨by decide, unheld rfl rfl rfl rfl _ _, passes_of (by decide) (by decide) (by decide +kernel) (by decide +kernel) (by decide +kernel)⟩,
    ⟨by decide, unheld rfl rfl rfl rfl _ _, passes_of (by decide) (by decide) (by decide +kernel) (by decide +kernel) (by decide +kernel)⟩,
    by decide, by decide, unheld rfl rfl rfl rfl _ _,
    passes_of (by decide) (by decide) (by decide +kernel) (by decide +kernel) (by decide +kernel)⟩,
    ⟨by decide +kernel, ?_⟩, ⟨rfl, by decide +kernel, ?_⟩, by decide +kernel,
    ⟨rfl, rfl, by decide +kernel, _, List.mem_singleton.mpr rfl, _, rfl, by decide⟩⟩ <;>
  · intro a ha
    simp only [storeOne, List.mem_cons, List.not_mem_nil, or_false] at ha
    rcases ha with rfl | rfl <;> exact ⟨_, _, _, _, rfl, by decide, by decide⟩

theorem witness_FailedAccessesStop :
    (let x := ptr 65528
     let m : MemOp := ⟨2, .s 0, 0, 0⟩
     let all := fun f => Unheld x 0 (Claim.memSrcs f) (f.regs x) ∧
       (∀ k ∈ (Claim.checks f (put x) x 0).2, k.code ≠ 0xFF) ∧ ∃ c, checkCause (Claim.checks f (put x) x 0).2 = some c
     AtIssue (put x) x 0 ∧ x.exec 0 ≠ 0 ∧ x.acqHeld 0 (put x).fresh = false ∧ all (ldForm .b64 (.v 4) m) ∧ all (stForm 8 (.v 4) m) ∧
      all (atomForm .add true (.v 4) m) ∧ all (redForm 8 (.v 4) m) ∧ all (cleanForm m)) := by
  refine ⟨issue rfl rfl (by decide) (by decide) rfl, by decide, by decide, ?_, ?_, ?_, ?_, ?_⟩ <;>
    exact ⟨unheld rfl rfl rfl rfl _ _, by decide +kernel, Option.isSome_iff_exists.mp (by decide +kernel)⟩

/-- A load of v5 in lanes 0 and 31, and one of s5. -/
def loadOne : Out := { lgetOne with op := .load .s16, bytes := 2, lanes := 0x80000001, accs := [⟨0, 0, some (.phys 50331744 0 0 0), 0, 0⟩,
  ⟨31, 1, some (.phys 50331776 0 0 0), 0, 0⟩] }
def loadUni : Out := { loadOne with regs := [.s 5], lanes := 0xFFFFFFFF, accs := [⟨0, 0, some (.phys 50331744 0 0 0), 0, 0⟩] }

theorem witness_LoadsAndAtomicsLand :
    (∀ o ∈ [loadOne, loadUni], ∀ es ∈ [[], [{ storeOne with id := 6, rel := false }]],
      let x : Group := { grp 0 with outs := [o], sbuf := es }
      let s := put x
      s.wq = [] ∧ s.hostWq = [] ∧ s.group? 1 = some x ∧ x.outs.find? (·.id == 7) = some o ∧ o.op = .load .s16 ∧ s.readReady x o = true ∧
        (∀ a ∈ o.accs, (s.readLane x o a).2 = false ∧ a.lane < 32) ∧ (o.accs.map (·.lane)).Nodup ∧
        (o.regs = x.rows 5 1 ∨ (o.regs = [.s 5] ∧ o.accs.length = 1))) ∧
    (let x : Group := { grp 0 with outs := [{ loadOne with id := 6 }, loadOne] }
     x.outs.find? (·.id == 7) = some loadOne ∧ (put x).readReady x loadOne = false) ∧
    (∀ pa ∈ [50331744, 50331772],
      let c : LaneAcc := ⟨0, 0, some (.phys pa 0 0 0), 0, 0⟩
      c.place = some (.phys pa 0 0 0) ∧ ∀ i, i < 4 → smGet 0 (at_ 0).blkKey ((pa + i) / 16) = 0) ∧
    (let o : Out := { loadOne with op := .atom .add false, bytes := 4, rel := true, scope := .cx }
     let x : Group := { grp 0 with outs := [o] }
     let s := put x
     s.group? 1 = some x ∧ x.outs.find? (·.id == 7) = some o ∧ s.readReady x o = true ∧ (o.accs.map (·.lane)).Nodup ∧
      ∀ a ∈ o.accs, ∀ q ∈ a.place, ∀ i, i < o.bytes → s.placeBad (q.add i) = false) := by decide +kernel

theorem witness_Translations :
    ∀ acc ∈ [Acc.r, .w, .x], ∃ t f, (mapped (grp 0)).translate (some 0) 0 65536 acc = (t, .ok f) ∧
      f.leaves.all (fun l => match (mapped (grp 0)).instOf l.2 with
        | none => true
        | some i => smGet 0 (mapped (grp 0)).blkKey ((l.1 + 5) / 16) == i && smGet 0 (mapped (grp 0)).blkKey ((l.1 + 6) / 16) == i) =
        true := by
  intro acc h
  exact ok_with (f := fun _ f => f.leaves.all fun l => match (mapped (grp 0)).instOf l.2 with
        | none => true
        | some i => smGet 0 (mapped (grp 0)).blkKey ((l.1 + 5) / 16) == i && smGet 0 (mapped (grp 0)).blkKey ((l.1 + 6) / 16) == i)
    ((by decide +kernel : ∀ acc ∈ [Acc.r, .w, .x], okWith ((mapped (grp 0)).translate (some 0) 0 65536 acc) _ = true) acc h)

/-- Address 65536 of those tables, which their last node's first entry maps with 4,096 pages. -/
def wordAt (n : Nat) : Nat := Claim.entryAt (mapped (grp 0)) 0 n
theorem witness_ComposedTranslations :
    Claim.Rooted (mapped (grp 0)) 0 ∧ (mapped (grp 0)).flatHit (some 0) 0 5 = none ∧
    (∃ ls, Claim.Composes (mapped (grp 0)) 0 65536 (.ok (ls, 50397184)) ∧ (∀ l ∈ ls.tail, l.home ≠ 1) ∧
      (∀ e, ¬ Claim.Refused (mapped (grp 0)) ls .w e)) ∧
    (∃ e, Claim.Composes (mapped (grp 0)) 0 (2 ^ 57) (.error e)) ∧
    (let s := ((mapped (grp 0)).translate (some 0) 0 65536 .w).1
     ∃ f, s.flatHit (some 0) 0 5 = some f ∧ ((s.grantFail f 5 65536).isNone && f.w) = true) := by
  have hc : (mapped (grp 0)).ctx? 0 = some ((mapped (grp 0)).ctx? 0).get! := by decide
  have hx : ((mapped (grp 0)).ctx? 0).get!.parent = none := by decide
  have hn : ∀ n, n < 4096 → Claim.Entry (mapped (grp 0)) ((mapped (grp 0)).ctx? 0).get! 65536 n (.ok (wordAt n)) :=
    fun n h => .physical _ _ _ hx (by omega) (by unfold memBytes; omega)
  have h5 : Claim.Stage (mapped (grp 0)) ((mapped (grp 0)).ctx? 0).get! 65536 5 2560 (.ok (wordAt 2560, 5)) :=
    .leaf _ _ _ _ _ (hn 2560 (by decide)) (by decide +kernel) (by decide +kernel) (by decide) (by decide) (by decide +kernel)
      (by decide +kernel) (by decide +kernel)
  have h4 : ∀ k, k < 5 → Claim.Stage (mapped (grp 0)) ((mapped (grp 0)).ctx? 0).get! 65536 k (512 * k) (.ok (wordAt 2560, 5)) := by
    have step : ∀ k, k < 5 → Claim.Stage (mapped (grp 0)) ((mapped (grp 0)).ctx? 0).get! 65536 (k + 1) (512 * (k + 1)) (.ok (wordAt 2560, 5)) →
        Claim.Stage (mapped (grp 0)) ((mapped (grp 0)).ctx? 0).get! 65536 k (512 * k) (.ok (wordAt 2560, 5)) := by
      intro k hk h
      have hz : 65536 / 12288 / 2 ^ (42 - 6 * k) % 64 = 0 := by
        have : k = 0 ∨ k = 1 ∨ k = 2 ∨ k = 3 ∨ k = 4 := by omega
        rcases this with rfl | rfl | rfl | rfl | rfl <;> decide
      have hw : wordAt (512 * k) % 2 ^ 48 * 512 = 512 * (k + 1) ∧ (wordAt (512 * k)).testBit 63 = true ∧
          wordAt (512 * k) / 2 ^ 60 % 8 = 0 ∧ wordAt (512 * k) / 2 ^ 48 % 2 ^ 12 = 0 := by
        have : k = 0 ∨ k = 1 ∨ k = 2 ∨ k = 3 ∨ k = 4 := by omega
        rcases this with rfl | rfl | rfl | rfl | rfl <;> decide +kernel
      refine .pointer _ _ _ _ (wordAt (512 * k)) _ ?_ hw.2.1 hw.2.2.1 (by omega) hw.2.2.2 (by rw [hw.1]; exact h)
      rw [hz]; exact hn _ (by omega)
    intro k hk
    have : k = 0 ∨ k = 1 ∨ k = 2 ∨ k = 3 ∨ k = 4 := by omega
    have s4 := step 4 (by decide) h5
    have s3 := step 3 (by decide) s4
    have s2 := step 2 (by decide) s3
    have s1 := step 1 (by decide) s2
    rcases this with rfl | rfl | rfl | rfl | rfl
    · exact step 0 (by decide) s1
    all_goals assumption
  refine ⟨rfl, by decide +kernel, ?_, ⟨_, .high _ _ _ hc (by decide)⟩, ?_⟩
  · have h := Claim.Composes.root 0 65536 _ (wordAt 2560) 5 hc (by decide) (h4 0 (by decide)) (by decide +kernel) hx
    rw [if_neg (by decide +kernel), if_neg (by decide +kernel)] at h
    refine ⟨_, h, by simp, ?_⟩
    rintro e (⟨pre, l, post, hl, -, hd, -⟩ | ⟨-, pre, l, post, hl, -, he, -⟩)
    all_goals
      have : l ∈ [Claim.level ((mapped (grp 0)).ctx? 0).get! 65536 (wordAt 2560) 5] := by rw [hl]; simp
      rw [List.mem_singleton] at this; subst this
    · rcases hd with h | h
      · revert h; decide +kernel
      · exact absurd h.1 (by decide +kernel)
    · exact absurd he.1 (by decide +kernel)
  · exact some_with (by decide +kernel)

/-- A path at its header, and one inside its clause whose words are to be fetched again. -/
def fetcher (f : Path → Path) : Group := (grp 0).modPath 0 fun y => f { y with st := .ready, fetched := false }

/-- The line of address 0 with a clause of one word at address 8. -/
def lineOfWords : ICLine :=
  { id := 9, core := 0, line := 262144, key := 0, inst := 0, via := [], used := 0
    bytes := List.replicate 15 0 ++ [0xA0] ++ [0x00, 0x90, 0xFF, 0x03, 0x50, 0x00, 0x18, 0x00] ++ List.replicate 168 0 }
def wordsOf (r : State × Fetched) : List DWord := match r.2 with
  | .words ws => ws
  | _ => []
theorem words_of {r : State × Fetched} (h : (wordsOf r).isEmpty = false) : ∃ t ws, r = (t, .words ws) := by
  obtain ⟨t, f⟩ := r
  cases f <;> simp_all [wordsOf]
theorem words_are {r : State × Fetched} {ws : List DWord} (h : wordsOf r = ws) (hw : ws ≠ []) : r = (r.1, .words ws) := by
  obtain ⟨t, f⟩ := r
  cases f <;> simp_all [wordsOf]

theorem witness_FencesAndFetches :
    (AtIssue (put idle) idle 0 ∧ Unheld idle 0 [] [] ∧ Unheld idle 0 [(.s 2, true), (.s 0, false), (.s 1, true)] [] ∧ idle.exec 0 = 0) ∧
    (let x : Group := { ptr 65528 with s := [(1, 0x8000000000000000), (2, 65528)] }
     AtIssue (put x) x 0 ∧ x.exec 0 ≠ 0 ∧ x.rcq = [] ∧ x.poisonFor 0 (fun _ => true) true = none ∧
      x.readsBefore 0 (put x).fresh = false ∧ x.writesBefore 0 (put x).fresh false = false ∧
      (put x).banksDone ((put x).bankMarks x.ctx) = true ∧
      (Instr.bpref 1 ⟨2, .s 0, 0, 0⟩).wf = true ∧ (Instr.ipref 8 ⟨2, .s 0, 0, 0⟩).wf = true ∧
      ((x.sGet 1).getLsbD 63 = true → (x.sGet 1).toNat / 2 ^ 40 % 2 ^ 16 < (((put x).ctx? x.ctx).map (·.counters)).getD 0)) ∧
    (let x : Group := { grp 0 with sbuf := [storeOne] }
     let s := put x fun s => { s with fresh := 9, bankQ := [⟨0, 1, true, 262144⟩], banks := [(bankKey 262144 0, (1, 0))] }
     AtIssue s x 0 ∧ Unheld x 0 [] [] ∧ x.exec 0 ≠ 0 ∧ x.rcq = [] ∧ x.poisonFor 0 (fun _ => true) true = none ∧
      x.writesBefore 0 9 false = true ∧ (grp 0).writesBefore 0 9 false = false ∧
      s.banksDone (s.bankMarks x.ctx) = false) ∧
    (let b : Bpref := { id := 7, ctx := 0, core := 0, lo := 1, hi := 2, ctr := some 0 }
     (put (grp 0) fun s => { s with bprefs := [b] }).bprefs.find? (·.id == b.id) = some b) ∧
    (let x := fetcher fun y => { y with hdr := true, pc := 8 }
     let s := mapped x [] fun s => { s with icache := [lineOfWords] }
     s.wq = [] ∧ s.group? 1 = some x ∧ (x.path 0).st = .ready ∧ s.fetchHolds x 0 = false ∧
      (x.path 0).formAfter = false ∧ (x.path 0).hdr = true ∧ (x.path 0).pc.toNat % 8 = 0 ∧
      ∃ t u hd ws, s.fetchWords x.core x.ctx 8 1 = (t, .words [hd]) ∧
        t.fetchWords x.core x.ctx 8 (hdrCount hd.toNat + 2) = (u, .words (hd :: ws)) ∧ hdrOk hd.toNat = true ∧
        clauseOk hd.toNat 0 (ws.map (·.toNat)) = true ∧ x.active = true ∧ ∃ v, u.entryOk x 8 = (v, some true)) ∧
    (let x := fetcher fun y => { y with pc := 16, words := [] }
     let s := mapped x [] fun s => { s with icache := [lineOfWords] }
     s.group? 1 = some x ∧ s.fetchHolds x 0 = false ∧ (x.path 0).hdr = false ∧ (x.path 0).fetched = false ∧
      ∃ t ws, s.fetchWords x.core x.ctx (x.path 0).pc (hdrCount (x.path 0).head.toNat + 1 - (x.path 0).pos) = (t, .words ws)) := by
  refine ⟨⟨issue rfl rfl (by decide) (by decide) rfl, unheld rfl rfl rfl rfl _ _, unheld rfl rfl rfl rfl _ _, by decide⟩,
    ⟨issue rfl rfl (by decide) (by decide) rfl, by decide +kernel⟩,
    ⟨issue rfl rfl (by decide) (by decide) rfl, unheld rfl rfl rfl rfl _ _, by decide, rfl, by decide, by decide, by decide,
      by simp [State.banksDone, State.bankMarks, smGet, put, at_, grp, show (oneGroup 1 0#64).ctx = 0 from rfl]⟩, by decide +kernel,
    ⟨rfl, rfl, rfl, by decide +kernel, rfl, rfl, rfl,
      _, _, 0xA000000000000000, [0x0018005003FF9000], words_are (by decide +kernel) (by decide),
      words_are (by decide +kernel) (by decide), by decide +kernel, by decide +kernel, by decide,
      _, Prod.ext rfl (by decide +kernel)⟩,
    ⟨rfl, by decide +kernel, rfl, rfl, words_of (by decide +kernel)⟩⟩

/-! ### Statements about accumulators, matrices, streams and adapters -/

/-- A pending update of row 31 at offset 4096, and the group with it. -/
def pend (u : MUpd) : MPend := ⟨7, 7, 4096, 31, u⟩
def pending (u : MUpd) : Group := { grp 0 with mpend := [pend u] }
/-- 32-bit floating sources without scales, and scaled ones: descriptors of R254. -/
def descPlain : BitVec 512 := BitVec.ofNat 512 (0x0E + 2 ^ 64 * 0x0E + 2 ^ 96 * 2048)
def descScaled : BitVec 512 := BitVec.ofNat 512 (0x12 + 2 ^ 8 * 5 + 2 ^ 16 * 16 + 2 ^ 64 * 0x12 + 2 ^ 72 * 5 + 2 ^ 80 * 2048 + 2 ^ 96 * 2304)
/-- A valid entry: rank 4, P of type 0x0E, Q of type 0x0D, one slice of each, generation 5. -/
def entryOne : List Byte := List.replicate 20 0 ++ [5, 0, 0, 0, 0, 0x0E, 0x0D, 1, 0, 1, 0, 128]
def segOne (k : SegKind) (g : Word) : Seg :=
  { core := 0, ctx := 0, id := 3, kind := k, gen := g, bytes := if k = .entry then entryOne else List.replicate 512 0
    prefetched := false, used := 0, keys := [] }

theorem valid_plain (a win : Nat) (h : a + 16 ≤ win) (n : Option Nat) (hn : n = none ∨ n = some 2112) :
    Claim.FormatValid descPlain a win n where
  cls := ⟨(32, [0x14, 0x0F, 0x0E]), by decide, by decide +kernel, by decide +kernel⟩
  ablen := by decide +kernel
  bblen := by decide +kernel
  scales := fun h => absurd h (by decide +kernel)
  noScales := fun _ => by decide +kernel
  elements := by
    have : Claim.elementRegs (Claim.entry descPlain 0 0 5) = 16 := by decide +kernel
    omega
  noBScales := fun _ => by decide +kernel
  reserved := by decide +kernel
  areas := by
    rintro _ rfl
    rcases hn with h | h
    · exact absurd h (by simp)
    · obtain rfl := Option.some.inj h
      decide +kernel
theorem valid_scaled : Claim.FormatValid descScaled 1518 1536 (some 2368) where
  cls := ⟨(128, [0x12]), by decide, by decide +kernel, by decide +kernel⟩
  ablen := by decide +kernel
  bblen := by decide +kernel
  scales := fun _ => by decide +kernel
  noScales := fun h => absurd (by decide +kernel) h
  elements := by decide +kernel
  noBScales := fun h => absurd (by decide +kernel) h
  reserved := by decide +kernel
  areas := by
    rintro _ h
    obtain rfl := Option.some.inj h
    decide +kernel
theorem not_valid (a w : Nat) (n : Option Nat) : ¬ Claim.FormatValid 0 a w n := by
  rintro ⟨⟨c, hc, h, -⟩, -⟩
  have : Claim.entry 0 0 0 5 = 0 := by decide +kernel
  rw [this] at h
  revert c
  decide

theorem witness_AccumulatorRows :
    (let x := regs [(2, 4190208), (3, 4194304)]
     AtIssue (put x) x 0 ∧ Unheld x 0 ((.s 2, true) :: (List.range 16).map fun i => (.v (1520 + i), false)) [] ∧
      Unheld x 0 [(.s 2, true)] (x.rows 1520 16) ∧ (Instr.accw 2 1520 16 16).wf = true ∧ (Instr.accz 3 1 31).wf = true ∧
      ¬ Claim.outOfRange (put x) x (x.sGet 2).toNat 4096 ∧ Claim.outOfRange (put x) x (x.sGet 3).toNat 4096 ∧ x.exec 0 ≠ 0) ∧
    (let o : Out := { lgetOne with op := .accr 4096 2 30, regs := [.v 5, .v 6], lanes := 0x80000000 }
     let x : Group := { grp 0 with outs := [o] }
     let s := put x
     s.group? 1 = some x ∧ x.outs.find? (·.id == 7) = some o ∧ o.regs = x.rows 5 2 ∧ o.lanes = maskOf [31] ∧ o.poison = 0 ∧
      ∃ w, s.wg? x.coh x.wg = some w ∧ ∀ i, i < 2 → (4096 + 128 * 31 + 4 * (30 + i)) / 4 ∉ w.badAcc) := by
  refine ⟨⟨issue rfl rfl (by decide) (by decide) rfl, unheld rfl rfl rfl rfl _ _, unheld rfl rfl rfl rfl _ _, by unfold Claim.outOfRange; decide⟩,
    rfl, rfl, rfl, by decide, rfl, ?_⟩
  exact ⟨_, rfl, by decide⟩

theorem witness_MatrixUpdates :
    (∀ u ∈ [MUpd.write 31 [1], .zero 0 32, .mma true [0x3F800000] [] descPlain [], .apply 3 0 entryOne (List.replicate 512 0),
        .comp 3 0 [0x3F803F80] [] descPlain (some entryOne) (some []) true],
      let x := pending u
      let s := put x
      s.wq = [] ∧ s.group? 1 = some x ∧ x.mpend.find? (·.id == 7) = some (pend u) ∧ (pend u).ready = true ∧
        (∀ b ∈ (pend u).blocks, x.rowFree 7 b 31 = true) ∧ ((s.wg? x.coh x.wg).map (·.retired)) = some false) ∧
    (Claim.depth (Claim.entry descPlain 0 0 5) = Claim.depth (Claim.entry descPlain 64 0 5) ∧
      Claim.depth (Claim.entry descPlain 0 0 5) = Claim.depth (Claim.number entryOne 25 1 % 32)) ∧
    (let sub : Sub := { Sub.closed with isOpen := true, stride := 2112, count := 9, w := 2, p := 7
                                        slots := [.failed 3 64 255, .landed (List.replicate 2112 0) [0]] }
     let x : Group := { regs [(2, 4186112), (3, 1)] with d := [(1, descPlain)], subs := [sub, Sub.closed], v := [(288, 3)] }
     AtIssue (put x) x 0 ∧ ((x.mpend.filter MPend.isMma).map (·.inst)).eraseDups.length < 4 ∧
      (¬ Claim.FormatValid (x.dGet 0) 1520 x.win (some 2112) ∧ ¬ (x.alatch = none ∧ Claim.FormatValid (x.dGet 0) 1520 x.win none) ∧
        Unheld x 0 [(.s 2, true)] []) ∧
      Claim.FormatValid (x.dGet 1) 1520 x.win none ∧ Claim.FormatValid (x.dGet 1) 1520 x.win (some 2112) ∧
      (Instr.mma true true 2 1520 1 0 0).wf = true ∧ (Instr.mmaAd true true 2 1520 1 0 1 9).wf = true ∧
      Unheld x 0 ([(.s 2, true), (.v 9, false)] ++ (Claim.capturedRegs (x.dGet 1) 1520).map fun r => (.v r, false)) [] ∧
      ¬ Claim.outOfRange (put x) x (x.sGet 2).toNat 8192 ∧ Claim.outOfRange (put x) x (x.sGet 3).toNat 4096 ∧
      (x.sub 1).isOpen = false ∧ (x.sub 0).isOpen = true ∧ (x.sub 0).slots[0]? = some (.failed 3 64 255) ∧
      (x.sub 0).slots[1]? = some (.landed (List.replicate 2112 0) [0]) ∧ (x.sub 0).p + 1 < (x.sub 0).count) ∧
    Claim.struck (put (grp 0) fun s => { s with wgs := s.wgs.map fun w => { w with badAcc := [1795] } }) (grp 0) 4096 24 32 := by
  refine ⟨by decide +kernel, by decide +kernel, ⟨issue rfl rfl (by decide) (by decide) rfl, by decide,
    ⟨not_valid _ _ _, fun h => not_valid _ _ _ h.2, unheld rfl rfl rfl rfl _ _⟩, ?_⟩,
    ⟨by simp [grp, oneGroup, Group.start], _, rfl, 3, by decide, by decide⟩⟩
  exact ⟨valid_plain _ _ (by decide) _ (.inl rfl), valid_plain _ _ (by decide) _ (.inr rfl), by decide, by decide,
    unheld rfl rfl rfl rfl _ _, by unfold Claim.outOfRange; decide +kernel⟩

theorem readsNow_of {n : Nat} {m : MemOp} {s : State} {x : Group} {q : Place} (h1 : x.exec 0 ≠ 0) (h2 : x.acqHeld 0 s.fresh = false)
    (h3 : ((Claim.checks (Claim.readForm n m) s x 0).2.all fun c => match c.res with
      | .ok _ => true
      | .error _ => false) = true)
    (h4 : ((Claim.checks (Claim.readForm n m) s x 0).1.watchMatch x.ctx n false false (Claim.checks (Claim.readForm n m) s x 0).2) = none)
    (h5 : ((Claim.checks (Claim.readForm n m) s x 0).2.head?.bind fun c => c.res.toOption) = some q) (h6 : x.sbuf = [])
    (h8 : x.outs = [])
    (h7 : ∀ i, i < n → (Claim.checks (Claim.readForm n m) s x 0).1.owned x.uid (Claim.checks (Claim.readForm n m) s x 0).1.fresh (q.add i) = false ∧
      (Claim.checks (Claim.readForm n m) s x 0).1.placeBad (q.add i) = false) :
    Claim.ReadsNow n m s x 0 (Claim.checks (Claim.readForm n m) s x 0).1 q where
  passes := by
    refine ⟨_, ⟨rfl, h1, h2, ?_, rfl, .inr h4, fun h => by simp [Claim.readForm] at h⟩, ?_⟩
    · intro c hc
      have := List.all_eq_true.mp h3 c hc
      revert this
      cases c.res <;> simp
    · rw [← h5]
      cases h : (Claim.checks (Claim.readForm n m) s x 0).2 <;> simp
  written := by simp [h6]
  read := by simp [h8]
  order := by simp [Group.orderedBehind, h6, h8]
  owned := h7

theorem witness_FormatsAndStreams :
    (AtIssue (put idle) idle 0 ∧ Unheld idle 0 [(.s 2, true)] (idle.srcRegs (.s 4) true) ∧ idle.exec 0 = 0) ∧
    (let x := ptr 65536
     let m : MemOp := ⟨2, .imm 0, 0, BitVec.ofInt 16 (64 * (-1))⟩
     AtIssue (mapped x) x 0 ∧ Unheld x 0 [(.s 2, true)] (x.srcRegs (.s 4) true) ∧ x.exec 0 ≠ 0 ∧
      (∃ t q, Claim.ReadsNow 64 m (mapped x) x 0 t q) ∧ ∃ t q, Claim.ReadsNow 64 ⟨2, .imm 0, 0, 0⟩ (mapped x) x 0 t q) ∧
    (let sub : Sub := { Sub.closed with isOpen := true, stride := 2112, count := 9, w := 2, p := 7, bound := 1
                                        slots := [.fetching [] [], .failed 3 64 255] }
     let x : Group := { grp 0 with subs := [sub, Sub.closed] }
     AtIssue (put x) x 0 ∧ (x.sub 1).isOpen = false ∧ (x.sub 0).isOpen = true ∧ (put x).wq = [] ∧ (put x).group? 1 = some x ∧
      x.resident = true ∧ (x.sub 0).slots[0]? = some (.fetching [] []) ∧
      (∃ t e, (put x).ctxRead (some x.core) x.ctx ((x.sub 0).baseVa + BitVec.ofNat 64 (7 * 2112)) (min 2112 (192 - 14784 % 192)) .r = (t, .error e)) ∧
      ∃ t b, (mapped x).ctxRead (some x.core) x.ctx ((x.sub 0).baseVa + BitVec.ofNat 64 (7 * 2112)) (min 2112 (192 - 14784 % 192)) .r = (t, .ok b)) := by
  refine ⟨⟨issue rfl rfl (by decide) (by decide) rfl, unheld rfl rfl rfl rfl _ _, by decide⟩,
    ⟨mapped_issue _ _ rfl (by decide) (by decide), unheld rfl rfl rfl rfl _ _, by decide, ?_, ?_⟩,
    issue rfl rfl (by decide) (by decide) rfl, rfl, rfl, rfl, rfl, rfl, rfl, error_of (by decide +kernel), ok_of (by decide +kernel)⟩
  · exact ⟨_, .phys (50331648 + 65472) 0 0 0, readsNow_of (by decide) (by decide) (by decide +kernel) (by decide +kernel)
      (by decide +kernel) rfl rfl (by decide +kernel)⟩
  · exact ⟨_, .phys (50331648 + 65536) 0 0 0, readsNow_of (by decide) (by decide) (by decide +kernel) (by decide +kernel)
      (by decide +kernel) rfl rfl (by decide +kernel)⟩

theorem entry_valid : Claim.EntryValid entryOne where
  valid := by decide
  reserved := by decide
  types := by
    refine ⟨by decide, (32, [0x14, 0x0F, 0x0E]), by decide, by decide⟩
  slices := by decide
  addresses := by decide
theorem not_entry : ¬ Claim.EntryValid [] := by
  rintro ⟨h, -⟩
  exact absurd h (by decide)

/-- The root's adapter table of eight entries at address 65536. -/
def tabled (s : State) : State := s.modCtx 0 fun k => { k with adBase := 65536, adCount := 8 }
/-- A group that issues mma.ad rows: ids 3 to 8, slices 0 and 1. -/
def adGroup : Group := { regs [(2, 65537), (3, 0x0000000100000003), (4, 0)] with v := [(288, 3), (289, 0x00010003), (290, 8), (319, 7)] }
def adState (segs : List Seg) : State := tabled (put adGroup fun s => { s with segs := segs })

theorem witness_AdapterTables :
    (Claim.depth (Claim.entry descPlain 0 0 5) ≠ 0 ∧
      (let s := adState []
       s.seg? 0 0 3 .entry 0 = none ∧ (Claim.table s adGroup).1 ≤ (adGroup.vGet 9 2).toNat % 2 ^ 16 ∧
        (adGroup.vGet 9 31).toNat % 2 ^ 16 < (Claim.table s adGroup).1) ∧
      (let s := adState [segOne .entry 0, segOne (.p 0) 5]
       s.seg? 0 0 3 .entry 0 = some (segOne .entry 0) ∧ Claim.EntryValid (segOne .entry 0).bytes ∧
        Claim.depth (Claim.number (segOne .entry 0).bytes 25 1) = Claim.depth (Claim.entry descPlain 0 0 5) ∧
        Claim.slices (segOne .entry 0).bytes false ≤ (adGroup.vGet 9 1).toNat / 2 ^ 16 ∧
        (adGroup.vGet 9 0).toNat / 2 ^ 16 < Claim.slices (segOne .entry 0).bytes false ∧
        s.seg? 0 0 3 (.p 0) (Claim.generation (segOne .entry 0).bytes) = some (segOne (.p 0) 5)) ∧
      (let s := adState [segOne .entry 0]
       s.seg? 0 0 3 (.p 0) (Claim.generation (segOne .entry 0).bytes) = none) ∧
      (let c := { segOne .entry 0 with bytes := [] }
       (adState [c]).seg? 0 0 3 .entry 0 = some c ∧ ¬ Claim.EntryValid c.bytes)) ∧
    (let s := adState [segOne .entry 0]
     AtIssue s adGroup 0 ∧ adGroup.exec 0 ≠ 0 ∧ Unheld adGroup 0 [(.s 2, true), (.s 4, true)] [] ∧
      Unheld adGroup 0 [(.s 3, true)] [] ∧ Unheld adGroup 0 [] (adGroup.srcRegs (.s 63) true) ∧
      (adGroup.sGet 2).toNat % 64 ≠ 0 ∧ (adGroup.sGet 4).toNat % 64 = 0 ∧ adBusy s adGroup = false ∧
      s.prefetchFull 0 0 = false ∧ (adGroup.sGet 3).toNat % 2 ^ 16 < (Claim.table s adGroup).1) ∧
    (AtIssue (put idle) idle 0 ∧ Unheld idle 0 [(.s 2, true), (.s 4, true)] [] ∧ Unheld idle 0 [] (idle.srcRegs (.s 63) true) ∧
      idle.exec 0 = 0) ∧
    let o : Out := { lgetOne with op := .adstat .f true, regs := [.s 63] }
    let x : Group := { grp 0 with outs := [o], ad := { (grp 0).ad with fails := [⟨31, 4, 3, 1, 2⟩] } }
    (put x).wq = [] ∧ (put x).group? 1 = some x ∧ x.outs.find? (·.id == 7) = some o ∧ o.op = .adstat .f true ∧ o.regs = [.s 63] ∧
      Reg.s 63 ∉ o.discard := by
  refine ⟨⟨by decide +kernel, by decide +kernel, ⟨by decide, entry_valid, by decide +kernel⟩, by decide, by decide, not_entry⟩,
    ⟨issue rfl rfl (by decide) (by decide) rfl, by decide, unheld rfl rfl rfl rfl _ _, unheld rfl rfl rfl rfl _ _,
      unheld rfl rfl rfl rfl _ _, by decide⟩,
    ⟨issue rfl rfl (by decide) (by decide) rfl, unheld rfl rfl rfl rfl _ _, unheld rfl rfl rfl rfl _ _, by decide⟩, by decide⟩

/-- The fill of an entry's 32 bytes at an address. -/
def fillOne (kind : SegKind) (size : Nat) : SegFill :=
  { id := 7, core := 0, ctx := 0, ad := 3, kind, addr := 65536, size, gen := 5, got := [], asks := [⟨1, 5, false⟩], wants := []
    doomed := none, doomGen := [], keys := [] }

theorem witness_AdapterUpdates :
    (let x : Group := { regs [(2, 4194304), (3, 4186112)] with v := [(288, 3), (289, 0xFFFF)] ++ (List.range 30).map fun i => (290 + i, 3) }
     let y : Group := { x with ad := { x.ad with fails := [⟨31, 4, 3, 1, 2⟩] } }
     let f := fun s : State => { s with segs := [segOne .entry 0, segOne (.q 0) 5] }
     Claim.EntryValid (segOne .entry 0).bytes ∧ 0 < Claim.slices (segOne .entry 0).bytes true ∧
      Claim.outOfRange (put x f) x (x.sGet 2).toNat 8192 ∧ ¬ Claim.outOfRange (put x f) x (x.sGet 3).toNat 8192 ∧
      (∀ z ∈ [x, y], (put z f).group? 1 = some z ∧ (∀ r ∈ (List.range 32).filter (· != 1), z.replayOn (4186112 + 4096) r = false ∧
        (put z f).seg? 0 0 ((z.vGet 9 r).toNat % 2 ^ 16) .entry 0 = some (segOne .entry 0) ∧
        (put z f).seg? 0 0 ((z.vGet 9 r).toNat % 2 ^ 16) (.q 0) (Claim.generation (segOne .entry 0).bytes) = some (segOne (.q 0) 5)) ∧
        z.applies = []) ∧
      (((List.range 32).filterMap fun r => y.ad.fails.find? (·.row == r)).head?).isSome = true ∧
      AtIssue (put x f) x 0 ∧ Unheld x 0 [(.s 2, true), (.v 9, false), (.s 4, true)] []) ∧
    (∀ k ∈ [(SegKind.entry, 32), (.p 0, 256)],
      let f := fun s : State => { s with fills := [fillOne k.1 k.2] }
      (put (grp 0) f).wq = [] ∧ (put (grp 0) f).fills.find? (·.id == 7) = some (fillOne k.1 k.2) ∧
        (∃ t e, (put (grp 0) f).ctxRead (some 0) 0 65536 (min k.2 (192 - 65536 % 192)) .r = (t, .error e)) ∧
        ∃ t b, (mapped (grp 0) (bytesAt 65536 entryOne) f).ctxRead (some 0) 0 65536 (min k.2 (192 - 65536 % 192)) .r = (t, .ok b)) := by
  refine ⟨⟨entry_valid, by decide, by unfold Claim.outOfRange; decide, by unfold Claim.outOfRange; decide, by decide +kernel,
    by decide, issue rfl rfl (by decide) (by decide) rfl, unheld rfl rfl rfl rfl _ _⟩, ?_⟩
  intro k hk
  simp only [List.mem_cons, List.not_mem_nil, or_false] at hk
  rcases hk with rfl | rfl <;> exact ⟨rfl, rfl, error_of (by decide +kernel), ok_of (by decide +kernel)⟩

/-- A segment of 4,096 bytes that an adfetch has filled. -/
def prefetchedSeg : Seg := { segOne (.q 9) 5 with prefetched := true, bytes := List.replicate 4096 0 }
theorem full : (put (grp 0) fun s => { s with segs := List.replicate 128 prefetchedSeg }).prefetchFull 0 0 = true := by decide +kernel

theorem witness_AdapterHolds :
    (let s := { adState [] with fills := [fillOne .entry 32] }
     AtIssue s adGroup 0 ∧ Unheld adGroup 0 [(.s 4, true), (.s 4, true)] [] ∧ adBusy s adGroup = true) ∧
    (∃ f : SegFill, (∀ a ∈ f.asks, a.prefetch = true) ∧ f.core = 0 ∧ f.ctx = 0) ∧
    (let f := fillOne .entry 32
     let s := put (grp 0) fun s => { s with fills := [f] }
     Claim.Fits f (grp 0) 9 3 .entry 0 ∧ (∃ k ∈ f.asks, k.group = 1 ∧ 4 ≤ k.no) ∧ (∀ k ∈ f.asks, k.group = 1 → k.no < 9) ∧
      Claim.Joins s f (grp 0) 9 ∧
      let y : Group := { grp 0 with sbuf := [storeOne] }
      ¬ Claim.Joins (put y fun s => { s with fills := [f] }) f y 9) ∧
    (let x : Group := { grp 0 with sbuf := [{ storeOne with id := 2 }] }
     let s := put x fun s => { s with fills := [fillOne .entry 32] }
     s.group? 1 = some x ∧ ¬ ∀ a ∈ (fillOne .entry 32).asks, ∀ y, s.group? a.group = some y → ∀ e ∈ y.sbuf, e.isClean = true ∨ a.no ≤ e.id) := by
  refine ⟨⟨issue rfl rfl (by decide) (by decide) rfl, unheld rfl rfl rfl rfl _ _, by decide⟩,
    ⟨{ fillOne .entry 32 with asks := [⟨1, 5, true⟩] }, by decide, rfl, rfl⟩, ⟨⟨rfl, rfl, rfl, rfl, .inl rfl, by simp [fillOne], by simp [fillOne]⟩,
      by decide, by decide, ⟨rfl, ?_⟩, ?_⟩, ⟨rfl, ?_⟩⟩
  · intro y h
    have : y = grp 0 := by simpa [State.group?, put] using h.symm
    subst this
    exact ⟨by decide, by decide⟩
  · intro y
    rintro ⟨-, h⟩
    obtain ⟨a, ha, hg, hn⟩ := (h _ rfl).1 storeOne (by decide) rfl (by decide)
    simp only [fillOne, List.mem_singleton] at ha
    subst ha; exact absurd hn (by decide)
  · intro h
    have := h ⟨1, 5, false⟩ (by decide) _ rfl { storeOne with id := 2 } (by decide)
    exact absurd this (by decide)

/-! ### Statements about control and deferral -/

/-- Quad 0 with mask 15 and a stack. -/
def quad0 (st : List JEntry) (f : Group → Group := id) : Group := f ((grp 0).setQuad 0 ⟨some 0, 15, 15, 0, st⟩)
/-- m1 with the lanes of a word. -/
def lanes1 (w : Word) (x : Group) : Group := { x with m := [(1, w)] }

theorem witness_PathsRegroup :
    let x := (grp 0).setPath 1 Path.freePath
    let goes : List QuadTo := [⟨0, 64, false, true, true, []⟩, ⟨3, 16, false, true, false, []⟩, ⟨7, 72, false, false, false, []⟩]
    (put x).group? x.uid = some x ∧ x.paths.length = 8 ∧ x.quads.length = 8 ∧ goes ≠ [] ∧
      (∀ t ∈ goes, t.form = false) ∧ (goes.map (·.quad)).Pairwise (· < ·) ∧ (∀ t ∈ goes, t.quad < 8) ∧
      (((goes.map (·.pc)).eraseDups).filter (· != 16)).length ≤ ((List.range 8).filter fun k => (x.path k).st == .free && k != 0).length ∧
      (x.path 0).st = .ready ∧ precedes 0 1 5 ((grp 0).path 0).agent [⟨1, 3, true⟩] = true :=
  ⟨rfl, rfl, rfl, by decide, by decide, by decide, by decide, by decide, rfl, by decide⟩

theorem witness_BranchesAndJoins :
    (let x := quad0 [] (lanes1 3)
     AtIssue (put x) x 0 ∧ Unheld x 0 (braSrcs (.m 1)) [] ∧
      (∃ q ∈ x.quadsOf 0, Claim.divides (x.quad q) (Claim.ofQuad q (Claim.takers (put x) x 0 (.m 1))) (Claim.branchTarget x 0 (-5)) (x.path 0).fall = true ∧
        ∀ m, (x.quad q).stack.head? = some m → m.pend ≠ 0)) ∧
    (let x := quad0 [⟨15, 0, false, 0, 0, []⟩] (lanes1 3)
     (∃ q ∈ x.quadsOf 0, Claim.divides (x.quad q) (Claim.ofQuad q (Claim.takers (put x) x 0 (.m 1))) (Claim.branchTarget x 0 (-5)) (x.path 0).fall = true) ∧
      ∀ q ∈ x.quadsOf 0, Claim.divides (x.quad q) (Claim.ofQuad q (Claim.takers (put x) x 0 (.m 1))) (Claim.branchTarget x 0 (-5)) (x.path 0).fall = true →
        ∃ m, (x.quad q).stack.head? = some m ∧ m.pend = 0) ∧
    ((Instr.brp true (.v 1535) (-1)).wf = true ∧ (Instr.brp false (.s 63) 0).wf = true ∧
      ∀ q ∈ (grp 0).quadsOf 0, ((grp 0).quad q).stack.length < 8) ∧
    (let x := quad0 (List.replicate 8 ⟨15, 0, false, 0, 0, []⟩)
     AtIssue (put x) x 0 ∧ ∃ q ∈ x.quadsOf 0, 8 ≤ (x.quad q).stack.length) ∧
    (let x := { grp 0 with quads := (grp 0).quads.map fun d => { d with stack := [⟨15, 12, false, 64, 0, []⟩] } }
     AtIssue (put x) x 0 ∧ Claim.Drained x 0 ∧ ∀ q ∈ x.quadsOf 0, ∃ m, (x.quad q).stack.head? = some m ∧ m.rj = (x.path 0).header) ∧
    (Claim.Drained (grp 0) 0 ∧ ∃ q ∈ (grp 0).quadsOf 0, ∀ m, ((grp 0).quad q).stack.head? = some m → m.rj ≠ ((grp 0).path 0).header) := by
  have u : ∀ x : Group, x.outs = [] → x.rcq = [] → x.badRows = [] → (x.path 0).dlatch = [] → ∀ a b, Unheld x 0 a b :=
    fun _ h1 h2 h3 h4 _ _ => unheld h1 h2 h3 h4 _ _
  refine ⟨⟨issue rfl rfl (by decide) (by decide) rfl, u _ rfl rfl rfl rfl _ _, 0, by decide, by decide, by decide⟩,
    ⟨⟨0, by decide, by decide⟩, ?_⟩, by decide,
    ⟨issue rfl rfl (by decide) (by decide) rfl, 0, by decide, by decide⟩,
    ⟨issue rfl rfl (by decide) (by decide) rfl, ⟨rfl, by decide⟩, ?_⟩, ⟨rfl, by decide⟩, 0, by decide, ?_⟩
  · intro q hq
    have : q = 0 ∨ q ∈ (List.range 8).drop 1 := by revert q; decide
    rcases this with rfl | h
    · exact fun _ => ⟨_, rfl, rfl⟩
    · intro hd
      exact absurd hd (by revert q; decide)
  · intro q hq
    exact Option.isSome_iff_exists.mp (by revert q; decide) |>.elim fun m hm => ⟨m, hm, by revert q m; decide⟩
  · intro m h
    exact absurd h (by simp [Group.quad, grp, oneGroup, Group.start])

/-- Two paths, quads 0 to 3 and 4 to 7, path 1 waiting at a regang that stands where f says. -/
def twoPaths (f : Path → Path) : Group :=
  let x := ((List.range 4).foldl (fun (y : Group) q => y.setQuad (q + 4) { y.quad (q + 4) with path := some 1 }) (grp 0))
  x.setPath 1 (f { x.path 0 with st := .regang })

theorem witness_ExitsAndRegangs :
    (AtIssue (put idle) idle 0 ∧ Unheld idle 0 [] [] ∧ Claim.Drained idle 0 ∧ idle.exec 0 = 0) ∧
    (AtIssue (at_ 0) (grp 0) 0 ∧ Claim.Drained (grp 0) 0 ∧ (grp 0).exec 0 ≠ 0 ∧ adBusy (at_ 0) (grp 0) = false ∧
      (grp 0).quads.length = 8 ∧ (grp 0).paths.length = 8 ∧ ((at_ 0).exitWaits (grp 0) 0 ((grp 0).exec 0)).2 = false) ∧
    (let x := (grp 0).setQuad 0 ⟨some 0, 3, 15, 0, [⟨15, 0, false, 0, 64, []⟩]⟩
     AtIssue (mapped x) x 0 ∧ Claim.Drained x 0 ∧ x.exec 0 ≠ 0 ∧ adBusy (mapped x) x = false ∧
      ((mapped x).exitWaits x 0 (x.exec 0)).2 = true) ∧
    (let x := twoPaths fun y => { y with st := .ready }
     AtIssue (put x) x 0 ∧ Claim.Drained x 0 ∧ x.exec 0 ≠ 0 ∧ adBusy (put x) x = false ∧ x.quads.length = 8 ∧ x.paths.length = 8 ∧
      ((put x).exitWaits x 0 (x.exec 0)).2 = false ∧ x.retired = false ∧ ∃ q, q < 8 ∧ (x.quad q).path.isSome = true ∧ q ∉ x.quadsOf 0) ∧
    (let x := twoPaths fun y => { y with st := .ready }
     AtIssue (put x) x 0 ∧ Unheld x 0 [] [] ∧ Claim.Drained x 0 ∧
      ∃ k ∈ (x.setPath 0 { x.path 0 with st := .regang }).usedPaths, ((x.setPath 0 { x.path 0 with st := .regang }).path k).st ≠ .regang) ∧
    (let x := twoPaths id
     let y := x.setPath 0 { x.path 0 with st := .regang }
     AtIssue (put x) x 0 ∧ Unheld x 0 [] [] ∧ Claim.Drained x 0 ∧ y.usedPaths.head? = some 0 ∧
      (∀ k ∈ y.usedPaths, (y.path k).st = .regang ∧ (y.path k).pc = (x.path 0).pc) ∧
      ∀ k ∈ y.usedPaths, (y.path k).stepping = false ∧ hdrCount (y.path k).head.toNat ≤ (y.path k).pos) ∧
    (let x := twoPaths fun z => { z with pc := 64, stepping := true }
     let y := x.setPath 0 { x.path 0 with st := .regang }
     AtIssue (put x) x 0 ∧ Unheld x 0 [] [] ∧ Claim.Drained x 0 ∧ y.usedPaths.head? = some 0 ∧
      (∀ k ∈ y.usedPaths, (y.path k).st = .regang ∧ (y.path k).stop = none) ∧ ∃ j ∈ y.usedPaths, (y.path j).pc ≠ (y.path 0).pc ∧ (y.path j).stepping = true) := by
  have u : ∀ x : Group, x.outs = [] → x.rcq = [] → x.badRows = [] → (x.path 0).dlatch = [] → Unheld x 0 [] [] :=
    fun _ h1 h2 h3 h4 => unheld h1 h2 h3 h4 _ _
  exact ⟨⟨issue rfl rfl (by decide) (by decide) rfl, u _ rfl rfl rfl rfl, ⟨rfl, by decide⟩, by decide⟩,
    ⟨at_issue 0, ⟨rfl, by decide⟩, by decide, by decide, rfl, rfl, by decide⟩,
    ⟨mapped_issue _ _ rfl (by decide) (by decide), ⟨rfl, by decide⟩, by decide, by decide, by decide +kernel⟩,
    ⟨issue rfl rfl (by decide) (by decide) rfl, ⟨rfl, by decide⟩, by decide +kernel⟩,
    ⟨issue rfl rfl (by decide) (by decide) rfl, u _ rfl rfl rfl rfl, ⟨rfl, by decide⟩, by decide⟩,
    ⟨issue rfl rfl (by decide) (by decide) rfl, u _ rfl rfl rfl rfl, ⟨rfl, by decide⟩, by decide⟩,
    issue_of rfl rfl (by decide) rfl (by decide) rfl, u _ rfl rfl rfl rfl, ⟨rfl, by decide⟩, by decide⟩

/-- A group at window base b whose lowest resident row is lo; s3 is 64. -/
def window (b lo : Nat) (f : Group → Group := id) : Group := f { regs [(3, 64)] with wb := b, rlo := lo }
/-- A 64-byte-record ring descriptor at an address, its ring at `base` (R307). -/
def ring (a base head tail : Nat) (log2n rsize : Byte) : List Host.Cell :=
  bytesAt a ((List.range 8).map (fun i => BitVec.ofNat 8 (base / 2 ^ (8 * i))) ++ (List.range 4).map (fun i => BitVec.ofNat 8 (head / 2 ^ (8 * i))) ++
    (List.range 4).map (fun i => BitVec.ofNat 8 (tail / 2 ^ (8 * i))) ++ [log2n, rsize])
/-- The root with a mailbox at address 65536, of 16 records. -/
def mailbox (x : Group) (f : State → State := id) : State :=
  mapped x (ring 65536 131072 0 0 4 6) fun s => f (s.modCtx 0 fun c => { c with desc := { c.desc with mbox := 65536 } })

/-- Rows that the spill handler may move at once. -/
def movable (x : Group) (u : State) (ps : List Place) : Bool :=
  (ps.all fun q => (List.range 128).all fun b => !u.placeBad (q.add b)) && !u.rowsHeld x 0 ps
/-- A group whose acquire has not been determined. -/
def acquiring : Group := { grp 0 with outs := [{ loadOne with id := 0, regs := [], acq := true, agent := ((grp 0).path 0).agent }] }

theorem witness_CallsAndTheirFrames :
    (AtIssue (put idle) idle 0 ∧ Unheld idle 0 [(.s 3, true)] [.s 63] ∧ idle.exec 0 = 0) ∧
    (let x := twoPaths fun y => { y with st := .ready }
     AtIssue (put x) x 0 ∧ Unheld x 0 [(.s 3, true)] [.s 63] ∧ x.exec 0 ≠ 0 ∧ 1 < x.usedPaths.length) ∧
    (∀ b ∈ [(512, 0), (513, 0), (2560, 512), (2561, 512)],
      let x := window b.1 b.2
      AtIssue (put x) x 0 ∧ Unheld x 0 [(.s 3, true)] [.s 63] ∧ x.exec 0 ≠ 0 ∧ ¬ 1 < x.usedPaths.length ∧ Claim.Drained x 0) ∧
    ((window 2561 512).wb + (window 2561 512).win > 4096 ∧ (window 513 0).rlo + (window 513 0).nres < (window 513 0).wb + (window 513 0).win ∧
      (window 512 0).wb + (window 512 0).win ≤ (window 512 0).rlo + (window 512 0).nres) ∧
    (let x := window 0 0 fun x => { x with handler := some (0, 0x28, 520) }
     (mapped x).group? 1 = some x ∧ (∀ j, j < 520 + x.win - x.nres - x.rlo → x.pending (.v (x.rlo + j)) = false) ∧
      520 + x.win - x.nres - x.rlo = 8 ∧
      ∃ u ps, (mapped x).rowPlaces x x.rlo .w 8 = (u, .ok ps) ∧ (movable x u ps && u.rowsHeld acquiring 0 ps) = true) ∧
    (let x := window 8 0 fun x => { x with nres := 1536, handler := some (0, 0x2A, 3) }
     (mapped { x with badRows := [3 * 32 + 1] }).group? 1 = some { x with badRows := [3 * 32 + 1] } ∧ min (8 * ((3 - x.freeRows.length + 7) / 8)) (x.wb - x.rlo) = 8 ∧
      ∃ u ps, (mapped x).rowPlaces x x.rlo .w 8 = (u, .ok ps) ∧ (movable x u ps && u.rowsHeld acquiring 0 ps) = true) ∧
    (let x := window 16 16 fun x => { x with handler := some (0, 0x29, 8) }
     (mapped x).group? 1 = some x ∧ x.rlo - 8 = 8 ∧
      ∃ u ps, (mapped x).rowPlaces x 8 .r 8 = (u, .ok ps) ∧ (movable x u ps && u.rowsHeld acquiring 0 ps) = true) := by
  have u : ∀ x : Group, x.outs = [] → x.rcq = [] → x.badRows = [] → (x.path 0).dlatch = [] → ∀ a b, Unheld x 0 a b :=
    fun _ h1 h2 h3 h4 _ _ => unheld h1 h2 h3 h4 _ _
  refine ⟨⟨issue rfl rfl (by decide) (by decide) rfl, u _ rfl rfl rfl rfl _ _, by decide⟩,
    ⟨issue rfl rfl (by decide) (by decide) rfl, u _ rfl rfl rfl rfl _ _, by decide⟩, ?_, by decide,
    ⟨rfl, by decide, by decide, ok_with (by decide +kernel)⟩, ⟨rfl, by decide +kernel, ok_with (by decide +kernel)⟩,
    rfl, by decide, ok_with (by decide +kernel)⟩
  intro b hb
  simp only [List.mem_cons, List.not_mem_nil, or_false] at hb
  rcases hb with rfl | rfl | rfl | rfl <;>
    exact ⟨issue rfl rfl (by decide) (by decide) rfl, u _ rfl rfl rfl rfl _ _, by decide, by decide, rfl, by decide⟩

/-- What a read of the usability of a ring, or of code, answers. -/
theorem answer_of {α : Type} {r : State × α} {a : α} (h : r.2 = a) : ∃ t, r = (t, a) := ⟨r.1, by rw [← h]⟩
theorem some_of {α : Type} {r : State × Option α} (h : r.2.isSome = true) : ∃ t a, r = (t, some a) := by
  obtain ⟨t, a⟩ := r
  obtain ⟨a, rfl⟩ := Option.isSome_iff_exists.mp h
  exact ⟨t, a, rfl⟩
theorem answer_is {α : Type} {r : State × α} {a : α} (h : r.2 = a) : r = (r.1, a) := by rw [← h]

theorem witness_ModesAndOtherControl :
    (AtIssue (put idle) idle 0 ∧ Unheld idle 0 [] [] ∧ idle.exec 0 = 0) ∧
    (AtIssue (at_ 0) (grp 0) 0 ∧ Unheld (grp 0) 0 [] [] ∧ (grp 0).exec 0 ≠ 0 ∧ Claim.Drained (grp 0) 0 ∧
      ∃ u, (at_ 0).mboxUsable (grp 0).ctx = (u, false)) ∧
    (let c : Closure := { id := 9, word := 0, pc := 8, lanes := 1, avail := 1, path := 0, pos := 0, a := .none, b := .none, c := .none
                          d := .none, regs := [], latchBase := [], base := none, discard := [] }
     let x := { grp 0 with rcq := [c], outs := [] }
     x.rcq ≠ [] ∧ x.poisonFor 0 (fun _ => true) true = none ∧ Unheld x 0 [] [] ∧ AtIssue (put x) x 0) ∧
    (∃ u, (mailbox (grp 0)).mboxUsable (grp 0).ctx = (u, true) ∧ (u.dbgWord (grp 0).ctx 0x1000).getLsbD 62 = false) ∧
    (let s := mailbox (twoPaths fun y => { y with st := .ready }) fun s => s.modCtx 0 fun c => { c with dbg := [(0x1000, 2#64 ^ 62)] }
     ∃ u, s.mboxUsable 0 = (u, true) ∧ (u.dbgWord 0 0x1000).getLsbD 62 = true) ∧
    (let x := { grp 0 with kent := 1032 }
     let t := bytesAt 832 (List.replicate 190 0 ++ [0xFF, 0] ++ [1, 0, 0, 0, 0, 0, 0xC0, 0xAF])
     (∃ t, (put x).codeRead x.core x.ctx (x.kent - 8) 8 = (t, none)) ∧
     (∃ u hd, (mapped x).codeRead x.core x.ctx (x.kent - 8) 8 = (u, some hd) ∧ Claim.number hd 0 8 / 2 ^ 16 ≠ 0x2BF * 2 ^ 38) ∧
     ∃ u hd w, (mapped x t).codeRead x.core x.ctx (x.kent - 8) 8 = (u, some hd) ∧ w = Claim.number hd 0 8 ∧ w / 2 ^ 16 = 0x2BF * 2 ^ 38 ∧
      0 < w % 2 ^ 16 ∧ ∃ t es, u.codeRead x.core x.ctx (x.kent - 8 - BitVec.ofNat 64 (192 * (w % 2 ^ 16 - 0))) 192 = (t, some es)) := by
  refine ⟨⟨issue rfl rfl (by decide) (by decide) rfl, unheld rfl rfl rfl rfl _ _, by decide⟩,
    ⟨at_issue 0, unheld rfl rfl rfl rfl _ _, by decide, ⟨rfl, by decide⟩, answer_of rfl⟩,
    ⟨by decide, by decide, ?_, issue rfl rfl (by decide) (by decide) rfl⟩,
    ⟨_, answer_is (by decide +kernel), by decide +kernel⟩, ⟨_, answer_is (by decide +kernel), by decide +kernel⟩,
    answer_of (by decide +kernel), ⟨_, List.replicate 8 0, answer_is (by decide +kernel), by decide +kernel⟩,
    _, [1, 0, 0, 0, 0, 0, 0xC0, 0xAF], _, answer_is (by decide +kernel), rfl, by decide +kernel, by decide +kernel,
    some_of (by decide +kernel)⟩
  exact ⟨by decide, by decide, by decide⟩

/-- A deferring group whose v3 awaits a load and whose words stand at base b. -/
def deferring (b lo nres : Nat) (q : List Closure := []) : Group :=
  { grp 0 with defer := true, outs := [{ loadOne with regs := [.v (b + 3)] }], wb := b, rlo := lo, nres := nres, rcq := q, s := [(2, 65536)] }
/-- A residual closure of `iadd v5, v3, -7` in lanes 0 and 31 whose source is in row 1600. -/
def closureOne (w : DWord) (d : CSlot) (a : CSlot) (r : List Reg) : Closure :=
  { id := 9, word := w, pc := 8, lanes := 0x80000001, avail := 0xFFFFFFFF, path := 0, pos := 0, a := a, b := .val 0xFFFFFFF9
    c := .none, d := d, regs := r, latchBase := List.replicate 32 7, base := none, discard := [] }

theorem witness_DeferralAndClosures :
    (let w : DWord := 0x0018005003FF9000
     let i := Instr.iadd ⟨false, true, true⟩ (.v 5) (.v 3) (.imm (-7))
     decode w.toNat = some i ∧ storeOf i = none ∧
      (∀ x ∈ [deferring 0 0 2048, deferring 0 0 1536, deferring 8 0 1536],
        AtIssue (put x) x 0 ∧ x.defers 0 i = true ∧ x.rcq.length < 32) ∧
      (deferring 0 0 1536).freeRows.length < (rowKeys (deferring 0 0 1536) (deferSrcs i)).length ∧
      (deferring 8 0 1536).freeRows.length < (rowKeys (deferring 8 0 1536) (deferSrcs i)).length ∧
      (rowKeys (deferring 0 0 2048) (deferSrcs i)).length ≤ (deferring 0 0 2048).freeRows.length ∧
      let c := closureOne w .none (.row 1600 0 false) [.v 5]
      let x := deferring 0 0 2048 (List.replicate 32 c)
      AtIssue (put x) x 0 ∧ x.defers 0 i = true ∧ 32 ≤ x.rcq.length) ∧
    (let i := Instr.st .b32 .cx false (.v 3) ⟨2, .s 0, 0, 0⟩
     let x := deferring 0 0 2048
     AtIssue (mapped x) x 0 ∧ x.defers 0 i = true ∧ (∃ w, encode i = some w ∧ decode w = some i) ∧
      ∃ st, storeOf i = some st ∧ st.op = .st ∧ ∃ t as, Claim.Passes (stForm st.n st.data st.mem) (mapped x) x 0 t as) ∧
    (let i := Instr.iadd ⟨false, true, true⟩ (.v 5) (.v 3) (.v 4)
     let x := { deferring 0 0 2048 with badRows := [4 * 32 + 31] }
     (∃ w, encode i = some w ∧ decode w = some i) ∧ x.defers 0 i = true ∧ x.rcq.length < 32 ∧ x.deferBad 0 i ≠ 0) ∧
    (let i := Instr.st .b32 .cx false (.v 3) ⟨2, .s 0, 0, 0⟩
     let x := (deferring 0 0 2048).modPath 0 fun y => { y with head := BitVec.ofNat 64 (oneHeader 2 + 2 ^ 40 + 2 ^ 23) }
     x.defers 0 i = true ∧ x.exec 0 = 0 ∧ (put x).replayHolds x = false ∧ x.deferBad 0 i = 0) ∧
    (let w : DWord := 0x0018005003FF9000
     let c := closureOne w .none (.row 1600 0 false) [.v 5]
     let x := { grp 0 with rcq := [c] }
     (put x).wq = [] ∧ (put x).group? 1 = some x ∧ x.resident = true ∧ x.active = true ∧ (put x).replayHolds x = false ∧ c.ready = true ∧
      decode c.word.toNat = some (.iadd ⟨false, true, true⟩ (.v 5) (.v 3) (.imm (-7))) ∧
      ((aluOf (.iadd ⟨false, true, true⟩ (.v 5) (.v 3) (.imm (-7)))).map (·.trans)) = some false) ∧
    (let i := Instr.fsqrt .rne ⟨Sys2Proof.FTy.f32, true, true, false, false⟩ (.v 5) (.v 3)
     (∃ w, encode i = some w ∧ decode w = some i ∧ (closureOne w .none (.row 1600 0 false) [.v 5]).ready = true) ∧
      ((aluOf i).map (·.trans)) = some true) ∧
    let x := deferring 0 0 2048
    x.awaits 9 (.v 4) = false ∧ (1600 : Nat) ≠ 1601 := by
  refine ⟨⟨by decide, by decide, ?_, by decide +kernel, by decide +kernel, by decide +kernel,
      issue rfl rfl (by decide) (by decide) rfl, by decide +kernel, by decide⟩,
    ⟨mapped_issue _ _ rfl (by decide) (by decide), by decide +kernel, ⟨_, rfl, by decide +kernel⟩, _, rfl, rfl,
      passes_of (by decide) (by decide) (by decide +kernel) (by decide +kernel) (by decide +kernel)⟩,
    ⟨⟨_, rfl, by decide +kernel⟩, by decide +kernel⟩, by decide +kernel,
    ⟨rfl, rfl, rfl, rfl, rfl, by decide, by decide, by decide⟩, ⟨⟨_, rfl, by decide +kernel, by decide +kernel⟩, by decide⟩, by decide, by decide⟩
  intro x hx
  simp only [List.mem_cons, List.not_mem_nil, or_false] at hx
  rcases hx with rfl | rfl | rfl <;>
    exact ⟨issue rfl rfl (by decide) (by decide) rfl, by decide +kernel, by decide⟩

/-! ### Statements about work, scheduling, copies, barriers and counters -/

/-- The root context as f makes it. -/
def root (f : Context → Context) (s : State) : State := s.modCtx 0 f
/-- A record whose entry word asks for one block of 64 registers. -/
def recOne : Rec := { entry := BitVec.ofNat 64 (2 ^ 59 + 64), payload := List.replicate 14 1, control := false, from_ := 1, bound := 1 }
def binOne (n idx : Nat) : Bin := ⟨0, idx, 0, List.replicate n recOne, false, 5, 0⟩

theorem witness_RecordsEnterBins :
    Claim.filling (put (grp 0) fun s => { s with bins := [binOne 31 0] }) 0 0 recOne = some (binOne 31 0) ∧
    Claim.filling (put (grp 0) fun s => { s with bins := [binOne 32 0] }) 0 1 recOne = none ∧
    (let s := put (grp 0) fun s => { s with bins := [{ binOne 31 0 with closed := true }] }
     Claim.filling s 0 0 recOne = none ∧ (∀ b ∈ s.bins, b.region = 0 → b.idx ≠ 1) ∧ ∀ j, j < 1 → ∃ b ∈ s.bins, b.region = 0 ∧ b.idx = j) ∧
    (let s := put (grp 0) fun s => { s with bins := (List.range 64).map fun i => { binOne 1 i with closed := true } }
     Claim.filling s 0 0 recOne = none ∧ ∀ i, i < 64 → ∃ b ∈ s.bins, b.region = 0 ∧ b.idx = i) ∧
    let s := put (grp 0) fun s => { s with bins := [binOne 1 0] }
    s.wq = [] ∧ (s.bins.find? fun b => b.region == 0 && b.idx == 0 && !b.closed) = some (binOne 1 0) ∧
      s.ns.toNat < 5 + ((s.ctx? 0).map (·.bint)).getD 0 := by decide +kernel

/-- A group whose s2 is an entry word, s3 a counter, s4 a value. -/
def spawner (e c : DWord) : Group := regs [(2, e), (3, c), (4, 7)]
/-- A context that has spill slots and a pool of 64 records at address 131072. -/
def pooled (c : Context) : Context := { c with desc := { c.desc with spilln := 8, pool := 131072, pooln := 64 } }

/-- The same with lane 31 alone, the state about it, and the record it spawns. -/
def spawnLast : Group :=
  { spawner (BitVec.ofNat 64 (24 * 2 ^ 59)) 65535 with
    quads := ((List.range 8).map fun q => if q = 7 then ⟨some 0, 8, 8, 0, []⟩ else ⟨none, 0, 0, 0, []⟩ : List Quad) }
def spawnState (bs : List Bin) : State := root pooled (mapped spawnLast [] fun s => { s with bins := bs })
def fullBins : List Bin := (List.range 64).map fun i => { binOne 1 i with closed := true }
def spawned : Rec := { entry := BitVec.ofNat 64 (24 * 2 ^ 59), payload := List.replicate 14 0, control := true, from_ := 1, bound := 2 }

theorem witness_SpawnsAndSuspends :
    (AtIssue (put idle) idle 0 ∧ Unheld idle 0 ((.s 3, true) :: (.s 4, true) :: (.s 2, true) :: (List.range 14).map fun i => (.v (1522 + i), false)) [] ∧
      Claim.Drained idle 0 ∧ idle.exec 0 = 0) ∧
    (let x := spawner (BitVec.ofNat 64 (25 * 2 ^ 59)) 65536
     AtIssue (put x) x 0 ∧ 24 < (x.sGet 2).toNat / 2 ^ 59 ∧ (((put x).ctx? x.ctx).map (·.counters)).getD 0 ≤ (x.sGet 3).toNat) ∧
    (let x := (spawner (BitVec.ofNat 64 (24 * 2 ^ 59)) 65535)
     let y := spawnLast
     let s := spawnState []
     let t := spawnState fullBins
     AtIssue s y 0 ∧ AtIssue t y 0 ∧ y.exec 0 = 0x80000000 ∧ ¬ 24 < (y.sGet 2).toNat / 2 ^ 59 ∧ ((s.ctx? 0).map (·.desc.spilln)).getD 0 ≠ 0 ∧
      (y.sGet 3).toNat < (((put x).ctx? x.ctx).map (·.counters)).getD 0 ∧ adBusy s y = false ∧ Claim.Drained y 0 ∧
      (∃ r u, Claim.records s y 0 (y.sGet 2) 1522 = [r] ∧ State.binRec { s with fresh := s.fresh + 1 } 0 0 r = some u) ∧
      ∃ r u, Claim.records t y 0 (y.sGet 2) 1522 = [r] ∧ State.binRec { t with fresh := t.fresh + 1 } 0 0 r = none ∧
        Claim.Pooled { t with fresh := t.fresh + 1 } 0 0 r none u) ∧
    (∃ w, (spawnState []).exitWaits spawnLast 0 (spawnLast.exec 0) = (w, false)) := by
  have w : ∀ x : Group, x.outs = [] → x.rcq = [] → x.badRows = [] → (x.path 0).dlatch = [] → ∀ a b, Unheld x 0 a b :=
    fun _ h1 h2 h3 h4 _ _ => unheld h1 h2 h3 h4 _ _
  refine ⟨⟨issue rfl rfl (by decide) (by decide) rfl, w _ rfl rfl rfl rfl _ _, ⟨rfl, by decide⟩, by decide⟩,
    ⟨issue rfl rfl (by decide) (by decide) rfl, by decide, by decide⟩,
    ⟨issue rfl rfl (by decide) (by decide) rfl, issue rfl rfl (by decide) (by decide) rfl, by decide, by decide, by decide, by decide,
    by decide, ⟨rfl, by decide⟩, ?_, ?_⟩, _, answer_is (by decide)⟩
  · obtain ⟨u, h⟩ := Option.isSome_iff_exists.mp (by decide +kernel : (State.binRec { spawnState [] with fresh := 3 } 0 0 spawned).isSome = true)
    exact ⟨spawned, u, by decide +kernel, h⟩
  · obtain ⟨u, b, h⟩ := ok_of (by decide +kernel : isOk (State.ctxWrite { spawnState fullBins with fresh := 3 } none 0
      (131072 + BitVec.ofNat 64 (64 * 0)) (Claim.recordBytes spawned)) = true)
    exact ⟨spawned, _, by decide +kernel, by decide +kernel, by decide +kernel, 0, u, b, by decide +kernel,
      fun j hj => absurd hj (Nat.not_lt_zero j), h, rfl⟩

/-- A packet of R329: one workgroup of 1024 lanes and one cohort of one workgroup, 64 registers, done counter 65535; a graph's;
and one with a reserved byte set. -/
def packetOf (flags done reserved : Byte) : List Byte :=
  [64, 0, 0, 0, 0, 0, 0, 0, 1, 0, 0, 0, 0, 4, 1, flags, 64, 0, 64, 0, 0, 0, 0, 0, 0, 0, 0, 0, 7] ++ List.replicate 11 0 ++
    [0xFF, 0xFF, 0, done] ++ List.replicate 4 0 ++ List.replicate 8 1 ++ List.replicate 71 0 ++ [reserved]
theorem packet_fits (f : Byte) (hf : f = 0 ∨ f = 2) : Claim.PacketFits (packetOf f 0x80 0) := by
  rcases hf with rfl | rfl <;>
    exact ⟨by decide, fun _ => by decide, fun _ => by decide, fun _ => by decide, fun _ => by decide +kernel, fun _ => by decide⟩
theorem not_packet : ¬ Claim.PacketFits (packetOf 0 0x80 1) := fun h => absurd (h.reserved (by decide)) (by decide +kernel)
def launchOne (f : Launch → Launch := id) : Launch :=
  f { uid := 7, ctx := 0, queue := 63, serial := 1, addr := 65536, via := 0, from_ := 1, bound := 1, control := true, read := false
      pkt := Packet.none, raw := [], walk := none, traced := false }

theorem witness_Reasons :
    let s := mapped (grp 0)
    let t := root (fun c => { c with desc := { c.desc with spilln := 31 } }) s
    let u := root (fun c => { c with desc := { c.desc with spilln := 32 } }) s
    Claim.Reason s 0 (packetOf 0 0x80 1) 1 ∧ Claim.Reason t 0 (packetOf 0 0x80 0) 2 ∧
      Claim.Reason (root (fun c => { c with counters := 65535 }) u) 0 (packetOf 0 0x80 0) 3 ∧ Claim.Reason u 0 (packetOf 0 0x80 0) 0 ∧
      Claim.Reason s 0 (packetOf 2 0x80 0) 0 := by
  refine ⟨.inl ⟨rfl, not_packet⟩, .inr (.inl ⟨rfl, packet_fits 0 (.inl rfl), by decide +kernel⟩),
    .inr (.inr (.inl ⟨rfl, packet_fits 0 (.inl rfl), by decide +kernel, fun h => absurd (h 65535 (by decide +kernel)) (by decide +kernel)⟩)),
    .inr (.inr (.inr ⟨rfl, packet_fits 0 (.inl rfl), by decide +kernel, fun i h => ?_⟩)),
    .inr (.inr (.inr ⟨rfl, packet_fits 2 (.inr rfl), by decide +kernel, fun i h => ?_⟩))⟩ <;>
  · have e : Claim.doneOf (packetOf 0 0x80 0) = some 65535 ∧ Claim.doneOf (packetOf 2 0x80 0) = some 65535 := by decide +kernel
    first | rw [e.1] at h | rw [e.2] at h
    obtain rfl := Option.some.inj h
    decide +kernel

/-- A well-formed node of a kind, with NEXT 128, a word at 196608, a bound, and the other fields as they must be (R335). -/
def nodeOf (kind sub : Byte) (a b c : Nat) : List Byte :=
  [kind, sub, 0, 0, 0, 0, 0, 0] ++ [(128 : Nat), a, b, c].flatMap (fun w => (List.range 8).map fun i => BitVec.ofNat 8 (w / 2 ^ (8 * i))) ++
    List.replicate 24 0
theorem nodes_valid : Claim.NodeValid (nodeOf 1 1 65536 0 0) ∧ Claim.NodeValid (nodeOf 2 5 196608 0xFFFFFFFF 192) ∧
    Claim.NodeValid (nodeOf 3 7 196608 192 0xFFFFFFFF) ∧ Claim.NodeValid (nodeOf 4 0 0 0 0) ∧ Claim.NodeValid (nodeOf 5 0 0 0 0) := by
  refine ⟨?_, ?_, ?_, ?_, ?_⟩ <;>
    exact ⟨by decide +kernel, by decide +kernel, by decide +kernel, by decide +kernel, by decide +kernel, by decide +kernel⟩
theorem not_node : ¬ Claim.NodeValid (List.replicate 64 0) := fun h => absurd h.type (by decide +kernel)

/-- A root that has launched a graph whose walk stands at a node; the node's bytes are at address 131072. -/
def walkOne (f : Walk → Walk) : Launch :=
  launchOne fun l => { l with read := true, walk := some (f ⟨131072, none, List.replicate 8 0, none, 65535, false⟩) }
def walking (f : Walk → Walk) (bytes : List Host.Cell := []) : State :=
  mapped (grp 0) bytes fun s => { s with launches := [walkOne f] }
/-- What a read that succeeds gives. -/
theorem reads_as {s : State} {c : Option Nat} {x n : Nat} {a : DWord} {bs : List Byte}
    (h : (match (s.ctxRead c x a n .r).2 with
      | .ok b => b == bs
      | .error _ => false) = true) : ∃ t, s.ctxRead c x a n .r = (t, .ok bs) := by
  revert h
  cases s.ctxRead c x a n .r with
  | mk t e =>
    cases e with
    | ok b => intro h; exact ⟨t, by simpa using h⟩
    | error e => intro h; simp at h

theorem witness_LaunchesAndGraphs :
    (AtIssue (put idle) idle 0 ∧ Unheld idle 0 [(.s 2, true), (.s 3, true)] [] ∧ idle.exec 0 = 0) ∧
    (let x := { ptr 65536 with control := false }
     let s := put x (root fun c => { c with desc := { c.desc with ctlq := 1 } })
     AtIssue s x 0 ∧ x.control = false ∧ ((s.ctx? 0).any fun k => k.desc.ctlq.toNat.testBit 0) = true ∧ x.exec 0 ≠ 0 ∧
      Unheld x 0 [(.s 2, true), (.s 3, true)] []) ∧
    (let x := ptr 65600
     let s := mapped x [] (root fun c => { c with store := 0 })
     AtIssue s x 0 ∧ AtIssue (put x) x 0 ∧ s.isChild 0 ((x.sGet 3).toNat % 2 ^ 12) = false ∧
      ((s.ctx? 0).any fun k => decide (63 < k.queues)) = true ∧ (x.sGet 2).toNat % 64 = 0 ∧ (ptr 65601).sGet 2 % 64 ≠ 0 ∧
      (∃ t f, (put x).rangeOk x .r [(x.sGet 2).toNat, (x.sGet 2).toNat + 127] = (t, .error f)) ∧
      (∃ t u, (mapped x).rangeOk x .r [(x.sGet 2).toNat, (x.sGet 2).toNat + 127] = (t, .ok u)) ∧ ∃ t u, s.rangeOk x .r [(x.sGet 2).toNat, (x.sGet 2).toNat + 127] = (t, .ok u)) ∧
    (let f := fun s : State => { s with launches := [launchOne] }
     let s := mapped (grp 0) (bytesAt 65536 (packetOf 2 0x80 0)) f
     s.wq = [] ∧ s.launch? 7 = some launchOne ∧ (∃ t e, (put (grp 0) f).ctxRead none 0 65536 128 .r = (t, .error e)) ∧
      ∃ t, s.ctxRead none 0 65536 128 .r = (t, .ok (packetOf 2 0x80 0))) ∧
    (let g : Grid := { uid := 8, launch := 7, ctx := 0, serial := 1, pkt := { Packet.none with grid := 1 }, control := false, placed := 1
                       gone := 1, traced := false }
     let s := put (grp 0) fun s => { s with launches := [launchOne fun l => { l with read := true }], grids := [g] }
     s.grid? 8 = some g ∧ (s.launch? 7).isSome = true ∧ g.pkt.grid ≤ g.placed ∧ (∀ x ∈ s.groups, x.grid ≠ some 8) ∧ g.placed ≤ g.gone ∧
      let x : Group := { grp 0 with grid := some 8 }
      let u : State := { s with groups := [x], l1 := [⟨0, 300, 0, 1, 1, [(1, true)], 1⟩] }
      u.wq = [] ∧ u.hostWq = [] ∧ u.grid? 8 = some g ∧
        ∃ x ∈ u.groups, x.grid = some g.uid ∧ ∃ l ∈ u.l1, l.dirty ≠ 0 ∧ ∃ w ∈ l.writers, w.1 = x.uid) ∧
    (let s := walking id
     s.launch? 7 = some (walkOne id) ∧ s.isEligible (walkOne id) = true ∧ s.isFrozen 0 = false ∧
      (∀ g, (Walk.waits ⟨131072, none, List.replicate 8 0, none, 65535, false⟩) = some g → s.grid? g = none) ∧
      (∃ t, s.ctxRead none 0 131072 64 .r = (t, .ok (List.replicate 64 0))) ∧
      ∃ t, (walking id (bytesAt 131072 (nodeOf 3 7 196608 192 0xFFFFFFFF))).ctxRead none 0 131072 64 .r =
        (t, .ok (nodeOf 3 7 196608 192 0xFFFFFFFF))) ∧
    (∀ b ∈ [nodeOf 1 1 65536 0 0, nodeOf 2 5 196608 0xFFFFFFFF 192, nodeOf 3 7 196608 192 0xFFFFFFFF, nodeOf 4 0 0 0 0, nodeOf 5 0 0 0 0],
      let f := fun w : Walk => { w with cur := some b }
      (walking f).launch? 7 = some (walkOne f) ∧ (walking f).isEligible (walkOne f) = true ∧ Claim.NodeValid b ∧
        ∀ g ∈ (walking f).grids, g.launch ≠ 7) ∧
    ∃ t, (walking id).ctxRead none 0 196608 4 .r = (t, .ok [0, 0, 0, 0]) := by
  refine ⟨⟨issue rfl rfl (by decide) (by decide) rfl, unheld rfl rfl rfl rfl _ _, by decide⟩,
    ⟨issue rfl rfl (by decide) (by decide) rfl, rfl, by decide, by decide, unheld rfl rfl rfl rfl _ _⟩,
    ⟨issue rfl rfl (by decide) (by decide) rfl, issue rfl rfl (by decide) (by decide) rfl, by decide, by decide, by decide, by decide,
      error_of (by decide +kernel), ok_of (by decide +kernel), ok_of (by decide +kernel)⟩,
    ⟨rfl, rfl, error_of (by decide +kernel), reads_as (by decide +kernel)⟩, ⟨rfl, rfl, by decide, by decide, by decide, rfl, rfl, rfl, _, List.mem_singleton.mpr rfl, rfl, _, List.mem_singleton.mpr rfl,
      by decide, _, List.mem_singleton.mpr rfl, rfl⟩,
    ⟨rfl, by decide +kernel, by decide, by decide, reads_as (by decide +kernel), reads_as (by decide +kernel)⟩, ?_, reads_as (by decide +kernel)⟩
  intro b hb
  have h : (walking fun w : Walk => { w with cur := some b }).isEligible (walkOne fun w => { w with cur := some b }) = true := by
    simp only [List.mem_cons, List.not_mem_nil, or_false] at hb
    rcases hb with rfl | rfl | rfl | rfl | rfl <;> decide +kernel
  have v := nodes_valid
  simp only [List.mem_cons, List.not_mem_nil, or_false] at hb
  refine ⟨rfl, h, ?_, fun g hg => absurd (show g ∈ ([] : List Grid) from hg) (by simp)⟩
  rcases hb with rfl | rfl | rfl | rfl | rfl
  exacts [v.1, v.2.1, v.2.2.1, v.2.2.2.1, v.2.2.2.2]

/-- A grid of one workgroup of one group, its first cohort not yet placed, and a closed bin of the root's. -/
def gridOne : Grid :=
  { uid := 8, launch := 7, ctx := 0, serial := 1, pkt := { Packet.none with grid := 2, wgl := 1, coh := 1, win := 64, stk := 64 }
    control := false, placed := 0, gone := 0, traced := false }
def oneGrid : State :=
  root (fun c => { c with desc := { c.desc with spilln := 8 } }) { State.reset with
    grids := [gridOne], launches := [launchOne fun l => { l with read := true }], bins := [{ binOne 32 0 with closed := true }] }

theorem witness_WorkIsPlaced :
    oneGrid.wq = [] ∧ oneGrid.need (.grid 8 0) = some ⟨0, [⟨1, 64, 0, 0, 0, 0⟩], 1, none⟩ ∧ (oneGrid.fit 95 (.grid 8 0)).isSome = true ∧
    (∃ m w, [(⟨1, 64, 0, 0, 0, 0⟩ : WgNeed)] = List.replicate m w) ∧ 1 ≤ (oneGrid.freeSlots 0).length ∧
    (let u := (oneGrid.contexts.map (·.id)).foldl State.blockHead oneGrid.tickUp.gainAll
     ∃ c ∈ u.contexts, .grid 8 0 ∈ u.cands c.id ∧ (u.head? c.id).isSome = true) ∧
    (binOne 32 0).recs.head? = some recOne ∧ (binOne 32 0).recs.length ≤ 32 ∧
    ∃ c, oneGrid.ctx? 0 = some c ∧ (smGet 0 c.obs 0x2028).getLsbD 63 = false ∧ oneGrid.sessions = [] := by
  refine ⟨rfl, rfl, by decide +kernel, ⟨1, _, rfl⟩, by decide +kernel, ?_, rfl, by decide, _, rfl, by decide +kernel, rfl⟩
  decide +kernel

/-- A blocked head of the root that has aged a steps, since 5 ns. -/
def blockedOne (a : Nat) : State :=
  root (fun c => { c with desc := { c.desc with spilln := 0 }, blocked := [⟨.grid 8 0, 0, 5, 5, a⟩] }) { oneGrid with ns := 64005, bins := [] }
/-- Five groups of partition 0 of core 0: four in the active set, the first of them waiting since cycle 1, and one that can issue. -/
def fiveGroups (active : Nat) : State :=
  { State.reset with
    cycle := 16
    groups := (List.range 5).map fun i => { grp 0 with
      uid := i + 1, startNo := i + 1, active := decide (i < active), waitSince := if i = 0 then 1 else 0
      paths := if i = 4 then (grp 0).paths else (grp 0).paths.set 0 { (grp 0).path 0 with st := .blocked } } }

theorem witness_ClocksAdvance :
    (∀ a ∈ [7, 8], let s := blockedOne a
      s.wq = [] ∧ (s.ctx? 0).bind (fun c => c.blocked.find? (·.cand == .grid 8 0)) = some ⟨.grid 8 0, 0, 5, 5, a⟩ ∧ s.isFrozen 0 = false ∧ s.head? 0 = some (.grid 8 0) ∧
        s.fitsSome (.grid 8 0) = false ∧ 5 + 64000 ≤ s.ns.toNat) ∧
    (let s := root (fun c => { c with desc := { c.desc with spilln := 8 } }) (blockedOne 7)
     s.wq = [] ∧ s.head? 0 = some (.grid 8 0) ∧ s.fitsSome (.grid 8 0) = true) ∧
    (let s : State := { put (grp 0) with ns := 10000000 }
     s.tickAt < s.ns.toNat / 1000 ∧ s.windowAt < s.ns.toNat / 10 ^ 7 ∧ Claim.busy s = [(0, 0)]) ∧
    (∀ n ∈ [3, 4], let u := (fiveGroups n).markWaits 0 0
      ∃ y ∈ (u.coreGroups 0).filter (·.part == 0), y.active = false ∧ u.groupReady y = true ∧ y.uid = 5) ∧
    (let u := (fiveGroups 4).markWaits 0 0
     4 ≤ (((u.coreGroups 0).filter (·.part == 0)).filter (·.active)).length ∧
      ∃ x ∈ (u.coreGroups 0).filter (·.part == 0), x.active = true ∧ x.waitSince ≠ 0 ∧ x.waitSince + 16 ≤ (16 : DWord).toNat + 1) := by decide +kernel

theorem witness_LaunchFields :
    (∀ b ∈ [packetOf 0 0x80 0, packetOf 3 0 0], Claim.Fields b (parsePacket b)) ∧
    (∀ ended ∈ [false, true],
      let w : Walk := ⟨131072, none, List.replicate 8 0, none, 5, ended⟩
      let l := launchOne fun l => { l with read := true, walk := some w }
      let g : Grid := { uid := 8, launch := 7, ctx := 0, serial := 1, pkt := { Packet.none with grid := 1 }, control := false, placed := 1
                        gone := 1, traced := false }
      let s := put (grp 0) fun s => { s with launches := [l] }
      let t := put (grp 0) fun s => { s with launches := [l], grids := [g] }
      s.grid? 7 = none ∧ s.launch? 7 = some l ∧ l.read = true ∧ l.walk = some w ∧ s.grids = [] ∧
        t.grid? 8 = some g ∧ t.launch? g.launch = some l ∧ ∀ x ∈ t.groups, x.grid ≠ some g.uid) := by
  refine ⟨fun b hb => ?_, by decide⟩
  simp only [List.mem_cons, List.not_mem_nil, or_false] at hb
  rcases hb with rfl | rfl <;>
    exact ⟨by decide +kernel, by decide +kernel, by decide +kernel, by decide +kernel, by decide +kernel, by decide +kernel⟩

/-- The registers of a cpy: destination 131072, source 65536, a control word, a ring address. -/
def copier (ctl ring : DWord) (src : Nat := 65536) : Group := regs [(8, 131072), (9, BitVec.ofNat 64 src), (10, ctl), (11, ring)]
/-- A layout record: one channel of two-byte elements, one tap of a 1 by 1 array at address 98304. -/
def layoutOne : List Byte :=
  [0, 0x80, 1, 0, 0, 0, 0, 0, 2, 0, 0, 0, 2, 0, 0, 0, 2, 0, 0, 0, 2, 0, 0, 0, 1, 0, 1, 0, 1, 0, 1, 0, 0, 0, 0, 0, 1, 0, 1, 0, 1, 1] ++ List.replicate 22 0
theorem layout_fits : Claim.LayoutFits layoutOne 131072 where
  sizes := by decide +kernel
  steps := by decide +kernel
  reserved := by decide +kernel
  aligned := by decide +kernel
  rows := by decide +kernel
  total := by decide +kernel
/-- A copy of two bytes from address 65536 to address 131072 that has been accepted, and one whose batch is closed. -/
def copyOne : Copy :=
  { id := 1, core := 0, ctx := 0, group := 1, pc := 8, pos := 0, lane := 0, who := 0, shape := .bytes 131072 65536 2, tag := 5, ring := none
    pages := [⟨10, .phys (50331648 + 122880) 0 0 0, []⟩], srcs := none, buf := [], cut := none, done := 0, failed := none
    moved := false, batch := 0, coh := 1, wg := 0 }
def batched (bs : List Batch) (rs : List (Word × CopyErr) := []) : Group := { regs [(3, 2)] with nb := 2, batches := bs, report := rs }

theorem witness_CopiesAndBatches :
    (AtIssue (put idle) idle 0 ∧ idle.exec 0 = 0 ∧ Unheld idle 0 [] (idle.srcRegs (.s 4) true) ∧
      Unheld idle 0 [(.s 8, true), (.s 9, true), (.s 10, true), (.s 11, true)] (idle.srcRegs (.s 4) true) ∧
      (Instr.cpy 4 8).wf = true ∧ (Instr.cpyl 63 60).wf = true) ∧
    (let x := { grp 0 with gi := 1 }
     AtIssue (put x) x 0 ∧ (put x).isProducer x = false ∧ (x.path 0).wake = .none ∧ x.exec 0 ≠ 0) ∧
    (let x := copier (BitVec.ofNat 64 (2 ^ 63 + 2 ^ 40 + 2 ^ 24 - 1)) 64
     AtIssue (put x) x 0 ∧ (put x).isProducer x = true ∧ Claim.controlFits false (x.sGet 10) (x.sGet 11) ∧
      ¬ Claim.controlFits false (x.sGet 10) 63 ∧ ¬ Claim.controlFits false (BitVec.ofNat 64 (2 ^ 24)) 0) ∧
    (let x := copier (BitVec.ofNat 64 (2 ^ 31 + 2 ^ 15)) 1
     AtIssue (mapped x) x 0 ∧ Claim.controlFits true (x.sGet 10) (x.sGet 11) ∧
      ∃ t q, Claim.ReadsNow 64 ⟨9, .imm 0, 0, 0⟩ (mapped x) x 0 t q) ∧
    (let x := batched []
     AtIssue (put x) x 0 ∧ (put x).isProducer x = true ∧ (Instr.cwait (.s 63) (.s 3)).wf = true ∧ (Instr.cwait .off (.imm 2)).wf = true ∧
      Unheld x 0 [(.s 3, false)] (x.dstRegs (.s 63) true) ∧ ∀ b ∈ x.batches, ¬ (BitVec.ofNat 32 2 - b.n).toNat < 2 ^ 31) ∧
    (let x := batched [⟨2, [1], []⟩]
     AtIssue (put x) x 0 ∧ ∃ b ∈ x.batches, (BitVec.ofNat 32 2 - b.n).toNat < 2 ^ 31) := by
  refine ⟨⟨issue rfl rfl (by decide) (by decide) rfl, by decide, unheld rfl rfl rfl rfl _ _, unheld rfl rfl rfl rfl _ _, by decide, by decide⟩,
    ⟨issue rfl rfl (by decide) (by decide) rfl, by decide, rfl, by decide⟩,
    ⟨issue rfl rfl (by decide) (by decide) rfl, by decide, by unfold Claim.controlFits; decide, by unfold Claim.controlFits; decide,
      by unfold Claim.controlFits; decide⟩,
    ⟨mapped_issue _ _ rfl (by decide) (by decide), by unfold Claim.controlFits; decide, _, .phys (50331648 + 65536) 0 0 0,
      readsNow_of (by decide) (by decide) (by decide +kernel) (by decide +kernel) (by decide +kernel) rfl rfl (by decide +kernel)⟩,
    ⟨issue rfl rfl (by decide) (by decide) rfl, by decide, by decide, by decide, unheld rfl rfl rfl rfl _ _, by decide⟩,
    issue rfl rfl (by decide) (by decide) rfl, by decide⟩

/-- The state with a copy, mapped or not. -/
def copying (m : List Host.Cell) (c : Copy := copyOne) : State := put (grp 0) fun s => { s with copies := [c], mem := m }
/-- The copy once it has its source line, and once it has read its bytes. -/
def copyRead : Copy := { copyOne with srcs := some [⟨341, .phys (50331648 + 65472) 0 0 0, []⟩] }
def copyFull : Copy := { copyRead with buf := [1, 2] }
/-- An older copy whose line the places lie on. -/
def waiting (c : Copy) : State := put (grp 0) fun s => { s with copies := [c, { c with id := 0 }], mem := tables }
def usableAt (s : State) (ps : List Place) : Bool := ps.all fun q => s.placeLive q && s.pinLive q && !s.placeBad q
theorem moving {m : List Host.Cell} {c : Copy} (h : c.moved = false ∧ c.failed = none ∧ c.cut = none) : Claim.Moving (copying m c) c where
  queued := by simp [copying, put, State.copy?]
  going := h
  only := by simp [copying, put]

theorem placed : (copyFull.shape.moves.filterMap fun m => copyFull.placeOf m.1) =
    [.phys (50331648 + 131072) 0 0 0, .phys (50331648 + 131073) 0 0 0] := by decide +kernel

theorem witness_CopiesMove :
    (∀ m ∈ [[], tables], Claim.Moving (copying m) copyOne ∧ (copying m).wq = [] ∧ (copying m).hostWq = [] ∧ copyOne.srcs = none) ∧
    (let lines := firstOf (fun a : DWord => a.toNat / 192) (copyOne.shape.moves.filterMap (·.2))
     (∃ t a f, (copying []).copyMaps 0 0 1 0 .r 192 lines = (t, .error (a, f)) ∧ copyOne.ring = none ∧ f.code ≠ 0xFF) ∧
      ∃ t ls, (copying tables).copyMaps 0 0 1 0 .r 192 lines = (t, .ok ls)) ∧
    (Claim.Moving (copying tables copyRead) copyRead ∧ copyRead.srcs.isSome = true ∧ copyRead.buf.length < copyRead.shape.moves.length ∧
      (let ps := (copyRead.shape.moves.map (·.2)).filterMap fun a => a.bind copyRead.srcPlace
       (copying tables copyRead).copyWaits copyRead ps = false ∧ Claim.usable (copying tables copyRead) ps ∧ ps.length = 2)) ∧
    (Claim.Moving (copying tables copyFull) copyFull ∧ copyFull.shape.moves.length ≤ copyFull.buf.length ∧
      (∀ m ∈ copyFull.shape.moves, (copyFull.placeOf m.1).isSome = true) ∧
      (let ps := copyFull.shape.moves.filterMap fun m => copyFull.placeOf m.1
       (copying tables copyFull).copyWaits copyFull ps = false ∧ (waiting copyFull).copyWaits copyFull ps = true ∧
        Claim.usable (copying tables copyFull) ps ∧
        ∀ q ∈ ps, ∃ pa h k i, q = .phys pa h k i ∧ smGet 0 (copying tables copyFull).blkKey (pa / 16) = i)) := by
  refine ⟨fun m _ => ⟨moving ⟨rfl, rfl, rfl⟩, rfl, rfl, rfl⟩, ⟨?_, ok_of (by decide +kernel)⟩,
    ⟨moving ⟨rfl, rfl, rfl⟩, by decide +kernel, by decide +kernel, by decide +kernel, ?_, by decide +kernel⟩,
    moving ⟨rfl, rfl, rfl⟩, by decide +kernel, List.all_eq_true.mp (by decide +kernel), by decide +kernel, by decide +kernel, ?_, ?_⟩
  · obtain ⟨t, ⟨a, f⟩, h⟩ := error_of (show isOk ((copying []).copyMaps 0 0 1 0 .r 192
      (firstOf (fun a : DWord => a.toNat / 192) (copyOne.shape.moves.filterMap (·.2)))) = false by decide +kernel)
    refine ⟨t, a, f, h, rfl, ?_⟩
    have k : (match ((copying []).copyMaps 0 0 1 0 .r 192
      (firstOf (fun a : DWord => a.toNat / 192) (copyOne.shape.moves.filterMap (·.2)))).2 with
      | .error (_, f) => f.code != 0xFF
      | .ok _ => false) = true := by decide +kernel
    rw [h] at k
    simpa using k
  · unfold Claim.usable; decide +kernel
  · have h := placed; unfold Claim.usable; rw [h]; decide +kernel
  · have h := placed
    rw [h]
    intro q hq
    simp only [List.mem_cons, List.not_mem_nil, or_false] at hq
    rcases hq with rfl | rfl <;> exact ⟨_, _, _, _, rfl, by decide +kernel⟩

/-- Banks that have accepted nothing hold nothing back. -/
theorem banks_done : (put (spawner 1 65535)).banksDone ((put (spawner 1 65535)).bankMarks 0) = true := by
  have h : (put (spawner 1 65535)).bankQ = [] := by decide
  unfold State.banksDone State.bankMarks
  rw [h]; rfl

/-- The line at which that copy writes is owned, and the next one is not: an adapter fill or a slot of the one waits. -/
theorem witness_OwnedLines :
    (∃ c ∈ (copying tables).copies, (0, 0, 0, (50331648 + 131072) / 192) ∈ c.lines ∧ (0, 0, 0, (50331648 + 131264) / 192) ∉ c.lines) ∧
    ∃ f, ((mapped (grp 0)).translate (some 0) 0 131072 .r).2 = .ok f ∧ f.target 131072 / 192 = (50331648 + 131072) / 192 := by
  refine ⟨⟨copyOne, List.mem_singleton.mpr rfl, by decide +kernel⟩, ?_⟩
  obtain ⟨t, f, h, hf⟩ := ok_with (f := fun _ f => f.target 131072 / 192 == (50331648 + 131072) / 192)
    (by decide +kernel : okWith ((mapped (grp 0)).translate (some 0) 0 131072 .r) _ = true)
  exact ⟨f, by rw [h], by simpa using hf⟩

theorem witness_BarriersAndCounters :
    (let x := twoPaths id
     AtIssue (put x) x 0 ∧ (x.path 0).wake = .none ∧ ¬ x.usedPaths.length ≤ 1) ∧
    (∀ v ∈ [(true, 0), (true, 1), (false, 0)],
      let x := { grp 0 with wv := v.1, wt := v.2 }
      AtIssue (put x) x 0 ∧ (x.path 0).wake = .none ∧ x.usedPaths.length ≤ 1 ∧ Claim.Drained x 0 ∧ x.arrivable = true ∧ (put x).wphOf x = 0) ∧
    (let x := { grp 0 with outs := [loadOne] }
     AtIssue (put x) x 0 ∧ Claim.Drained x 0 ∧ x.arrivable = false) ∧
    (∀ b ∈ [true, false], ∀ a ∈ [[0], []],
      let s := put { grp 0 with barc := b } fun s => { s with wgs := s.wgs.map fun w => { w with arrived := a } }
      (s.groups.map (·.uid)).Nodup ∧ (∃ y ∈ s.groups, (y.coh == 1 && y.wg == 0 && !y.retired) = true) ∧
        (s.wg? 1 0).map (·.arrived) = some a) ∧
    (let x := spawner 1 65535
     AtIssue (put x) x 0 ∧ AtIssue (put (spawner 1 65536)) (spawner 1 65536) 0 ∧ x.exec 0 ≠ 0 ∧
      Unheld x 0 [(.s 3, true), (.s 4, true)] (x.srcRegs (.s 63) true) ∧ (x.sGet 3).toNat < (((put x).ctx? x.ctx).map (·.counters)).getD 0 ∧
      (((put x).ctx? x.ctx).map (·.counters)).getD 0 ≤ ((spawner 1 65536).sGet 3).toNat ∧ x.readsBefore 0 (put x).fresh = false ∧
      (∀ l, x.writesBefore 0 (put x).fresh l = false) ∧ (put x).banksDone ((put x).bankMarks 0) = true ∧
      (put x).alone x 0 .cx = false ∧ { x with outs := [{ loadOne with id := 1 }] }.readsBefore 0 (put x).fresh = true) ∧
    (let s := put { grp 0 with barc := true } fun s => { s with lputs := [⟨0, 1, 0, false, 0, []⟩] }
     (s.groups.map (·.uid)).Nodup ∧ (s.wg? 1 0).isSome = true ∧ ∃ l ∈ s.lputs, l.coh = 1 ∧ l.wg = 0) ∧
    AtIssue (put idle) idle 0 ∧ Unheld idle 0 [(.s 3, true), (.s 4, true)] (idle.srcRegs (.s 63) true) ∧ idle.exec 0 = 0 := by
  refine ⟨⟨issue rfl rfl (by decide) (by decide) rfl, rfl, by decide⟩, ?_,
    ⟨issue rfl rfl (by decide) (by decide) rfl, ⟨rfl, by decide⟩, by decide⟩, by decide,
    ⟨issue rfl rfl (by decide) (by decide) rfl, issue rfl rfl (by decide) (by decide) rfl, by decide, unheld rfl rfl rfl rfl _ _,
      by decide, by decide, by decide, by decide, banks_done, rfl, by decide⟩,
    ⟨by decide, by decide, ⟨_, List.mem_singleton.mpr rfl, rfl, rfl⟩⟩,
    issue rfl rfl (by decide) (by decide) rfl, unheld rfl rfl rfl rfl _ _, by decide⟩
  intro v hv
  simp only [List.mem_cons, List.not_mem_nil, or_false] at hv
  rcases hv with rfl | rfl | rfl <;>
    exact ⟨issue rfl rfl (by decide) (by decide) rfl, rfl, by decide, ⟨rfl, by decide⟩, by decide, by decide⟩

/-- The root sampling its core's partitions every 16 cycles into a ring at address 65536. -/
def sampling (start cycle : Nat) : State :=
  uncached (mapped { grp 0 with startNo := 1 } (ring 65536 131072 0 0 4 5) fun s => root (fun c => { c with obs := [(0x2000, BitVec.ofNat 64 (2 ^ 63 + 4 * 2 ^ 58)), (0x2008, 65536)] })
    { s with samp := if start = 0 then [] else [(0, start)], cycle := BitVec.ofNat 64 cycle })
def traceOne : RingRec := ⟨0, 1, 8, List.replicate 32 7⟩
def tracing : State :=
  uncached (mapped (grp 0) (ring 65536 131072 0 0 4 5) fun s => root (fun c => { c with obs := [(0x2020, 65536)] })
    { s with sessions := [⟨0, 8, false⟩], traceHeld := [traceOne] })

theorem witness_ObserversRecord :
    (let s := put (grp 0)
     s.wq = [] ∧ s.coreCtx 0 = some 0 ∧ (s.obsWord 0 0x2000).getLsbD 63 = false) ∧
    (∀ k ∈ [(0, 5), (1, 15), (1, 16)],
      let s := sampling k.1 k.2
      s.wq = [] ∧ s.coreCtx 0 = some 0 ∧ (s.obsWord 0 0x2000).getLsbD 63 = true ∧ smGet 0 s.samp 0 = k.1 ∧
        (s.obsWord 0 0x2000).toNat / 2 ^ 58 % 32 = 4) ∧
    (∃ x ∈ (sampling 1 16).coreGroups 0, x.part = 0 ∧ x.ctx = 0 ∧ smGet 0 (sampling 1 16).sampRot 0 < x.startNo) ∧
    (∃ u n, State.ringAppend { sampling 1 16 with free := 1 } 0 65536 5 0 (List.replicate 32 1) = (u, .ok n)) ∧
    tracing.sessions = [⟨0, 8, false⟩] ∧ tracing.traceHeld.filter (·.grid == 8) = [traceOne] ∧
    ∃ u n, State.ringAppend { tracing with traceHeld := [] } 0 (tracing.traceRing 0) 5 1 traceOne.bytes = (u, .ok n) := by
  refine ⟨by decide +kernel, by decide +kernel, by decide +kernel, ?_, rfl, by decide +kernel, ?_⟩
  · exact ⟨_, 0, answer_is (by decide +kernel)⟩
  · exact ⟨_, 0, answer_is (by decide +kernel)⟩

/-! ### Statements about privileged forms -/

theorem controls {i : Instr} {s : State} {x : Group} (h : AtIssue s x 0) (hc : x.control = true) (he : x.exec 0 ≠ 0) (h1 : x.outs = [])
    (h2 : x.rcq = []) (h3 : x.badRows = []) (h4 : (x.path 0).dlatch = []) : Claim.Controls i s x 0 :=
  ⟨h, hc, he, fun _ _ => unheld h1 h2 h3 h4 _ _⟩

theorem witness_PrivilegedForms :
    (∀ i ∈ [Instr.dcreate 63 1, .sysr 62 1, .xinvAll, .hqdoneRedirect 1 2 3, .dump 1 2 3 4 5, .dtake 1 2 3 10],
      (Claim.controlForm i).isSome = true ∧ i.wf = true) ∧
    (let x := { grp 0 with control := false }
     AtIssue (put x) x 0 ∧ x.control = false) ∧
    AtIssue (put idle) idle 0 ∧ idle.control = true ∧ idle.exec 0 = 0 ∧
      Unheld idle 0 [(.s 1, true), (.s 2, true), (.s 3, true)] (idle.srcRegs (.s 63) true) :=
  ⟨by decide, ⟨issue rfl rfl (by decide) (by decide) rfl, rfl⟩, issue rfl rfl (by decide) (by decide) rfl, rfl, by decide,
    unheld rfl rfl rfl rfl _ _⟩

/-- A context that the root has made. -/
def child (f : Context → Context := id) : Context := f (Context.new 1 (some 0) 1 { Desc.root with bint := 250 } 0xFFFFFFFF)
/-- The root and that child, about a control group of the root. -/
def family (f : Context → Context := id) (s : State) : State := { s with contexts := s.contexts ++ [child f] }
/-- A descriptor that R380 admits. -/
def descBytes : List Byte := List.replicate 20 0 ++ [250] ++ List.replicate 15 0 ++ [0xFF, 0xFF] ++ List.replicate 90 0

theorem desc_fits : Claim.DescriptorFits descBytes where
  aligned := by decide +kernel
  ranges := by decide +kernel
  reserved := by decide +kernel
theorem not_desc : ¬ Claim.DescriptorFits (List.replicate 128 0) := fun h => absurd h.ranges (by decide +kernel)
/-- What a uniform read gives. -/
def gotBytes (r : State × UniGot) : Option (List Byte) := match r.2 with
  | .bytes bs => some bs
  | _ => none
theorem got {r : State × UniGot} {bs : List Byte} (h : gotBytes r = some bs) : r = (r.1, .bytes bs) := by
  obtain ⟨t, g⟩ := r
  cases g <;> simp_all [gotBytes]

/-- A store that waits to be performed, its translation through base page 0 of the root. -/
def entryVia : SEntry :=
  { id := 0, op := .st, accs := [], bytes := 4, agent := 0, hist := [], rel := false, scope := .cx, alone := true, waits := none
    deferred := false, heals := [], via := [⟨0, 0, 1⟩], rpl := none }

theorem witness_ContextsAndKeys :
    (let x := ptr 65537
     Claim.Controls (.dcreate 3 2) (put x) x 0 ∧ (x.sGet 2).toNat % 64 ≠ 0) ∧
    (∀ b ∈ [descBytes, List.replicate 128 0],
      let x := ptr 65536
      let s := uncached (mapped x (bytesAt 65536 b))
      Claim.Controls (.dcreate 3 2) s x 0 ∧ (x.sGet 2).toNat % 64 = 0 ∧
        ∃ t, s.uniGet x 0 65536 128 = (t, .bytes b) ∧ b.length = 128 ∧ (t.ctx? 0).map (·.depth) = some 0 ∧
          (t.contexts.filter fun k => k.parent == some 0).length < 255 ∧ (∀ k ∈ t.contexts, k.id ≠ 1) ∧
          (∀ m, m < 1 → ∃ k ∈ t.contexts, k.id = m) ∧ t.chipReached 0xFFFF = true) ∧
    (let x := regs [(2, 5), (3, 12288)]
     let s := put x fun s => { s with keyInst := [(5, 9)], nextInst := 10, contexts := s.contexts.map fun c => { c with keys := [(5, false)] } }
     (∀ i, Claim.Controls i s x 0) ∧ (∀ c ∈ s.contexts, ∀ b ∈ [true, false], (1, b) ∉ c.keys) ∧
      (s.keyMade 5 = true ∧ s.isUnder 0 (smGet 0 s.keyMaker 5) = true) ∧ s.keyInFlight 5 = false ∧ s.cmd? x 0 = none ∧
      (∀ lo hi, Claim.Unused s 0 lo hi) ∧
      let y : Group := { x with sbuf := [entryVia] }
      let t := put y
      (∀ i, Claim.Controls i t y 0) ∧ t.cmd? y 0 = none ∧ ¬ Claim.Unused t 0 (rangePages 5 12288).1 (rangePages 5 12288).2) := by
  refine ⟨⟨controls (issue rfl rfl (by decide) (by decide) rfl) rfl (by decide) rfl rfl rfl rfl, by decide⟩, ?_,
    fun i => controls (issue rfl rfl (by decide) (by decide) rfl) rfl (by decide) rfl rfl rfl rfl, by decide, by decide, by decide, by decide,
    fun lo hi => ⟨by simp [put, regs, grp, oneGroup, Group.start], 
      fun c h => absurd (show c ∈ ([] : List Copy) from h) (by simp), fun l h => absurd (show l ∈ ([] : List ICLine) from h) (by simp)⟩,
    fun i => controls (issue rfl rfl (by decide) (by decide) rfl) rfl (by decide) rfl rfl rfl rfl, by decide,
    fun h => absurd (h.entries _ (List.mem_singleton.mpr rfl) _ (List.mem_singleton.mpr rfl)) (by decide)⟩
  intro b hb
  simp only [List.mem_cons, List.not_mem_nil, or_false] at hb
  rcases hb with rfl | rfl <;>
    exact ⟨controls (issue rfl rfl (by decide) (by decide) rfl) rfl (by decide) rfl rfl rfl rfl, by decide, _,
      got (by decide +kernel), by decide +kernel⟩

/-- A line of the cache filled under key 5 with a dirty sector, whose bytes in main memory stand apart, and a copy that has read
its bytes from there. -/
def underKey : State :=
  put (grp 0) fun s => { s with
    keyInst := [(5, 9)]
    cache := [{ line := 341, ctx := 0, key := 5, locked := false, present := 15, dirty := 1, used := 0, clock := 0, writer := 0, via := [] }]
    stale := [{ sector := 1364, bytes := List.replicate 48 3, keys := [5, 5, 5], bad := false }]
    copies := [{ copyFull with srcs := some [⟨341, .phys 65472 0 5 9, []⟩] }] }
theorem witness_Erased :
    (∀ z ∈ underKey.stale, z.bytes.length = 48) ∧
    (∃ z ∈ underKey.stale, Claim.lost underKey 5 (z.sector / 4) ∧ ∀ y ∈ underKey.stale, y.sector = z.sector → y = z) ∧
    (∀ z ∈ underKey.stale, z.sector = 100 / 48 → ¬ Claim.lost underKey 5 (100 / 192)) ∧
    ∃ c ∈ underKey.copies, c.moved = false ∧ c.failed = none ∧ c.shape.moves.length ≤ c.buf.length ∧
      ∃ m ∈ c.shape.moves, ∃ pa h i, m.2.bind c.srcPlace = some (.phys pa h 5 i) :=
  ⟨by decide, ⟨_, List.mem_singleton.mpr rfl, .inl ⟨_, List.mem_singleton.mpr rfl, rfl, rfl⟩, by decide⟩,
    by unfold Claim.lost; decide, _, List.mem_singleton.mpr rfl, rfl, rfl, by decide +kernel, (131072, some 65536), by decide +kernel, 65536, 0, 9,
    by decide +kernel⟩

theorem witness_HoldingsMove :
    (let x := regs [(2, 0), (3, 64)]
     let s := put x (family)
     (∀ i, Claim.Controls i s x 0) ∧ (∃ c, s.ctx? 0 = some c) ∧ ∃ k, s.ctx? (Claim.named x 2) = some k ∧ k.parent ≠ some 0) ∧
    (∀ v : DWord, v ∈ [64, 65, 250, 249, 5, 65536] → 
      let x := regs [(2, 1), (3, v)]
      let s := put x (family)
      (∀ i, Claim.Controls i s x 0) ∧ s.cmd? x 0 = none ∧ ∃ k, s.ctx? (Claim.named x 2) = some k ∧ k.parent = some x.ctx) ∧
    (let k := child
     let par := Context.root
     -- queues: 64 moves, 65 is no value, and a child cannot be left with more than it has
     ((2, 7, 64) ∈ Claim.counted ∧ ¬ (64 < 64 % 2 ^ 7 ∨ 64 % 2 ^ 7 < Claim.heldOf k 2) ∧ ¬ Claim.heldOf par 2 < 64 - Claim.heldOf k 2 ∧ 64 < 65 % 2 ^ 7 ∧
      Claim.heldOf k 2 < 64) ∧
     Claim.heldOf { par with queues := 63 } 2 < 64 - Claim.heldOf k 2) ∧
    (let b : List Byte := List.replicate 9 0 ++ [0x30] ++ List.replicate 6 0
     let x := regs [(2, 1), (3, 65536)]
     let s := family (fun k => { k with ranges := [(0, 12288)] }) (mapped x (bytesAt 65536 b))
     ∃ t, s.uniGet x 0 65536 16 = (t, .bytes b) ∧ Claim.number b 0 8 = 0 ∧ Claim.number b 8 8 = 12288 ∧
      Claim.Unused (t.modCtx 1 fun q => { q with ranges := q.ranges.erase (0, 12288) }) 0 0 1) := by
  refine ⟨⟨fun i => controls (issue rfl rfl (by decide) (by decide) rfl) rfl (by decide) rfl rfl rfl rfl, ⟨_, rfl⟩, _, rfl, by decide⟩, ?_,
    by decide, _, got (by decide +kernel), by decide +kernel, by decide +kernel,
    ⟨by decide +kernel, by decide +kernel, by decide +kernel⟩⟩
  intro v hv
  simp only [List.mem_cons, List.not_mem_nil, or_false] at hv
  rcases hv with rfl | rfl | rfl | rfl | rfl | rfl <;>
    exact ⟨fun i => controls (issue rfl rfl (by decide) (by decide) rfl) rfl (by decide) rfl rfl rfl rfl, by rfl, _, rfl, rfl⟩

/-- The root with a handler queue at address 65536 whose record 0 stands, its token that of a parked path. -/
def parkedOne (code tok : Nat) : Group :=
  { regs [(2, 131072), (3, 64)] with paths := (grp 0).paths.set 1 { Path.freePath with st := .parked, stop := some ⟨code, tok, 0, false⟩ } }
def handling (x : Group) (take tail tok : Nat) : State :=
  uncached (mapped x (ring 65536 131072 0 tail 4 6) fun s => root (fun c => { c with
    desc := { c.desc with hq := 65536 }, take := BitVec.ofNat 32 take }) { s with standing := [⟨0, 0, 0, tok⟩] })
def isRing (r : State × HqRes) (f : State → Ring → Bool) : Bool := match r.2 with
  | .ring q => f r.1 q
  | _ => false
theorem ring_of {r : State × HqRes} {f : State → Ring → Bool} (h : isRing r f = true) : ∃ t q, r = (t, .ring q) ∧ f t q = true := by
  obtain ⟨t, g⟩ := r
  cases g <;> simp_all [isRing]

theorem witness_HandlersTakeRecords :
    (∀ i, Claim.Controls i (put (grp 0)) (grp 0) 0) ∧ (∃ c, (put (grp 0)).ctx? 0 = some c ∧ c.desc.hq = 0) ∧
    (∀ k ∈ [(0, 1), (1, 1)],
      ∃ t q, (handling (grp 0) k.1 k.2 0).hqRing 0 65536 = (t, .ring q) ∧
        ((t.ringUsable 0 65536 6).2 && ((t.ringUsable 0 65536 6).1.ctx? 0).map (·.take) == some (BitVec.ofNat 32 k.1) && q.tail == 1) = true) ∧
    (∀ k ∈ [(0x24, 5), (0x13, 5), (0x13, 0)],
      let x := parkedOne k.1 5
      let s := handling x 1 1 k.2
      (∀ i, Claim.Controls i s x 0) ∧
      ∃ t q, s.hqRing 0 65536 = (t, .ring q) ∧
        ((t.ringUsable 0 65536 6).2 && t.popped? 0 q (x.sGet 2) == some ⟨0, 0, 0, k.2⟩ && (t.popped? 0 q (x.sGet 3)).isNone && (t.canWrite none 0 [(65544, 4)]).2.isOk &&
          ((t.canWrite none 0 [(65544, 4)]).1.stopped 5).isSome) = true) := by
  have c : ∀ (x : Group) (s : State) (i : Instr), AtIssue s x 0 → x.control = true → x.exec 0 ≠ 0 → x.outs = [] → x.rcq = [] → x.badRows = [] →
      (x.path 0).dlatch = [] → Claim.Controls i s x 0 := fun _ _ _ => controls
  refine ⟨fun i => c _ _ i (issue rfl rfl (by decide) (by decide) rfl) rfl (by decide) rfl rfl rfl rfl, ⟨_, rfl, rfl⟩, ?_, ?_⟩
  · intro k hk
    simp only [List.mem_cons, List.not_mem_nil, or_false] at hk
    rcases hk with rfl | rfl <;> exact ring_of (by decide +kernel)
  · intro k hk
    simp only [List.mem_cons, List.not_mem_nil, or_false] at hk
    rcases hk with rfl | rfl | rfl <;>
      exact ⟨fun i => c _ _ i (issue rfl rfl (by decide) (by decide) rfl) rfl (by decide) rfl rfl rfl rfl, ring_of (by decide +kernel)⟩

/-- A control group whose s1 is the address of a word of context c, and s2 a value. -/
def wording (c at_ : Nat) (v : DWord) : Group := regs [(1, BitVec.ofNat 64 (c * 2 ^ 32 + at_)), (2, v)]

theorem witness_SystemWords :
    (∀ q : Nat × Nat × DWord, q ∈ [(4096, 0, 0), (5, 0, 0), (1, 0x80000000, 0), (1, 0x80000004, 0), (1, 4, 0), (1, 0, 0), (1, 0x10, 1), (1, 0x10, 2), (1, 0x18, 0x000F424000000001),
        (1, 0x18, 0), (0, 0x18, 0), (1, 0x20, 0x100), (1, 0x20, 0x8000), (1, 0x1000, 0xC000000000000000), (1, 0x1040, 1), (1, 0x10B8, 0x8000000000000001),
        (1, 0x2000, 0xA000000000000000), (1, 0x2008, 1), (1, 0x2028, 0x8000000000000000), (1, 0x2038, 0)] →
      let x := wording q.1 q.2.1 q.2.2
      let s := put x (family fun k => { k with queues := 1 })
      (∀ i, Claim.Controls i s x 0) ∧ s.cmd? x 0 = none) ∧
    (let s := put (grp 0) (family fun k => { k with queues := 1 })
     s.ctx? 5 = none ∧ (∃ k, s.ctx? 1 = some k) ∧ s.isUnder 0 1 = true ∧ (s.parent 0).isSome = false) ∧
    Claim.debugWord 0x1000 ∧ Claim.debugWord 0x10B8 ∧ ¬ Claim.debugWord 0x10C0 ∧ Claim.observeWord 0x2030 ∧
    Claim.debugFits 0x1000 (3 * 2 ^ 62) ∧ ¬ Claim.debugFits 0x1040 1 ∧ Claim.debugFits 0x1040 (2 ^ 63 + 2 ^ 57 - 8) ∧
    ¬ Claim.debugFits 0x1088 (2 ^ 63) ∧ Claim.debugFits 0x1088 (2 ^ 63 + 1) ∧ Claim.observeFits child 0x2000 (8 * 2 ^ 58) ∧
    Claim.observeFits child 0x2000 (20 * 2 ^ 58) ∧ ¬ Claim.observeFits child 0x2000 (21 * 2 ^ 58) ∧ ¬ Claim.observeFits child 0x2008 1 ∧
    (∃ t, (put (grp 0) (family fun k => { k with queues := 1 })).queueReset 1 0 1 = (t, [])) := by
  refine ⟨?_, ⟨by decide, ⟨_, rfl⟩, by decide, by decide⟩, by unfold Claim.debugWord; decide, by unfold Claim.debugWord; decide,
    by unfold Claim.debugWord; decide, by unfold Claim.observeWord; decide, by unfold Claim.debugFits; decide, by unfold Claim.debugFits; decide,
    by unfold Claim.debugFits; decide, by unfold Claim.debugFits; decide, by unfold Claim.debugFits; decide, by unfold Claim.observeFits; decide,
    by unfold Claim.observeFits; decide, by unfold Claim.observeFits; decide, by unfold Claim.observeFits; decide, answer_of (by decide +kernel)⟩
  intro q _
  exact ⟨fun i => controls ⟨rfl, rfl, by simp [wording, regs, grp, oneGroup], rfl, by intro q; rcases q with _|_|_|_|_|_|_|_|q <;> rfl, rfl, rfl⟩ rfl
    (by show (grp 0).exec 0 ≠ 0; decide) rfl rfl rfl rfl, rfl⟩

/-- A control group of the root with the target in s2, an address in s3 and a length in s4; the child frozen or not. -/
def commanding (v : DWord) (len : Nat) : Group := regs [(2, 1), (3, v), (4, BitVec.ofNat 64 len)]
def subtree (v : DWord) (len : Nat) (frozen : Bool) (snap : Option Snap) (bytes : List Host.Cell := []) : State :=
  uncached (mapped (commanding v len) bytes (family fun k => { k with frozen := frozen, snap := snap }))
def snapBytes : List Byte := List.replicate 8 0 ++ [1] ++ List.replicate 55 0

theorem commands (v : DWord) (len : Nat) (f : Bool) (n : Option Snap) (b : List Host.Cell) (i : Instr) :
    Claim.Controls i (subtree v len f n b) (commanding v len) 0 :=
  controls ⟨rfl, rfl, by simp [commanding, regs, grp, oneGroup], rfl, by intro q; rcases q with _|_|_|_|_|_|_|_|q <;> rfl, rfl, rfl⟩ rfl
    (by show (grp 0).exec 0 ≠ 0; decide) rfl rfl rfl rfl

/-- An image of one context: its CONTEXT and OBSERVE sections behind a directory of two. -/
def imageOne : List Byte :=
  (Claim.littleEndian 4 1 ++ Claim.littleEndian 4 1 ++ Claim.littleEndian 8 1728 ++ Claim.littleEndian 4 2 ++ List.replicate 108 0 ++
    Claim.littleEndian 4 1 ++ Claim.littleEndian 4 0 ++ Claim.littleEndian 4 192 ++ Claim.littleEndian 4 1280 ++
    Claim.littleEndian 4 8 ++ Claim.littleEndian 4 0 ++ Claim.littleEndian 4 1472 ++ Claim.littleEndian 4 256 ++ List.replicate 32 0) ++
  (Claim.littleEndian 4 0xFFFFFFFF ++ List.replicate 4 0 ++ descBytes ++ Claim.littleEndian 8 (10 * 2 ^ 48) ++ List.replicate 40 0 ++ [250] ++ List.replicate 1095 0) ++
  List.replicate 256 0
/-- A launch that waits in the child, at a node of its graph. -/
def graphLaunch (read : Bool) : Launch :=
  { (default : Launch) with uid := 9, ctx := 1, read := read, walk := some ⟨64, none, List.replicate 8 3, none, 0, false⟩ }

theorem witness_SubtreeCommands :
    (let s := put (regs [(2, 0)]) family
     s.targetOk 0 0 = false ∧ s.childOk 0 0 = false ∧ s.cmd? (regs [(2, 0)]) 0 = none) ∧
    (∀ f ∈ [true, false], let s := subtree 65536 0 f none
      s.targetOk 0 (Claim.named (commanding 65536 0) 2) = true ∧ s.childOk 0 1 = true ∧ Claim.Clear s (commanding 65536 0) 0 1 ∧ Claim.ClearForLoad s (commanding 65536 0) 0 0 ∧ Claim.ClearForThaw s (commanding 65536 0) 0 1 ∧ s.isFrozen 1 = f ∧
        ¬ Claim.resident ((Claim.begun .freeze s (commanding 65536 0) 0 1).freeze 1) 1 ∧ s.treeBusy 1 = false ∧
        (∀ k ∈ s.copies, s.isUnder 1 k.ctx = false) ∧ (commanding 65536 0).imageHolds = false) ∧
    (let s := put (commanding 65537 0) fun s => family id { s with groups := s.groups ++ [{ grp 0 with uid := 2, ctx := 1 }] }
     Claim.resident ((Claim.begun .freeze s (commanding 65537 0) 0 1).freeze 1) 1 ∧ (65537 : Nat) % 64 ≠ 0) ∧
    (∀ len ∈ [0, 1000000], ∃ u w,
      (let s := subtree 65536 len true none
       let b := Claim.begun .save s (commanding 65536 len) 0 1
       let v := (b.modCmd s.fresh fun k => { k with stage := 1 }).cleanTree 1 fun _ => true
       (v.image 1).1.ctxWrite none 0 65536 ((v.image 1).2.take 128)) = (u, .ok w)) ∧
    (∃ u e, State.ctxRead (Claim.begun .load (put (commanding 65536 0) family) (commanding 65536 0) 0 0) none 0 65536 128 .r = (u, .error e)) ∧
    (∃ u, (Claim.begun .load (subtree 65536 128 true none (bytesAt 65544 [128])) (commanding 65536 128) 0 0).ctxRead none 0 65536 128 .r = (u, .ok (List.replicate 8 0 ++ [128] ++ List.replicate 119 0))) ∧
    (∀ b ∈ [snapBytes, List.replicate 64 0],
      let s := subtree 65536 64 true none (bytesAt 65536 b)
      ∃ u, (Claim.begun .snap s (commanding 65536 64) 0 1).uniGet (commanding 65536 64) 0 65536 64 = (u, .bytes b) ∧
        (u.ctx? 1).map (·.snap) = some none) ∧
    (Claim.number snapBytes 0 8 % 12288 = 0 ∧ Claim.number snapBytes 8 4 ≠ 0 ∧ Claim.number (List.replicate 64 0) 8 4 = 0) ∧
    (let s := { subtree 65536 64 true none with launches := [graphLaunch false] }
     s.isFrozen 1 = true ∧ ∃ q ∈ s.launches, s.isUnder 1 q.ctx = true ∧ q.read = false) ∧
    (∀ k ∈ [1, 9], ∀ b ∈ [true, false],
      let c : Cmd := { (default : Cmd) with kind := .revoke, g := 1, p := 0, pc := ((commanding 65536 64).path 0).pc, target := k, stage := 2 }
      let s := { subtree 65536 64 true none with cmds := [c], copies := if b then [{ copyOne with ctx := 1 }] else [] }
      s.cmd? (commanding 65536 64) 0 = some c ∧ s.targetOk 0 k = (k == 1) ∧ (k = 1 → s.treeBusy k = b) ∧
        ∀ i, Claim.Controls i s (commanding 65536 64) 0) ∧
    (let s := subtree 65536 64 true (some ⟨0, 1, 0, 0⟩)
     (s.ctx? 1).map (·.snap) = some (some ⟨0, 1, 0, 0⟩)) := by
  refine ⟨by decide, ?_, ⟨by unfold Claim.resident; decide +kernel, by decide⟩, ?_, error_of (by decide +kernel), reads_as (by decide +kernel), ?_,
    by decide +kernel, by decide +kernel, ?_, by decide +kernel⟩
  rotate_right
  · intro k hk b hb
    simp only [List.mem_cons, List.not_mem_nil, or_false] at hk hb
    rcases hk with rfl | rfl <;> rcases hb with rfl | rfl <;>
      exact ⟨rfl, by decide, by decide, fun i => controls
        ⟨rfl, rfl, by simp [commanding, regs, grp, oneGroup], rfl, by intro q; rcases q with _|_|_|_|_|_|_|_|q <;> rfl, rfl, rfl⟩
        rfl (by show (grp 0).exec 0 ≠ 0; decide) rfl rfl rfl rfl⟩
  · intro f hf
    simp only [List.mem_cons, List.not_mem_nil, or_false] at hf
    rcases hf with rfl | rfl <;>
      exact ⟨by decide, by decide, ⟨by decide, by decide⟩, ⟨by decide, by decide⟩, ⟨by decide, by decide⟩, by decide, by unfold Claim.resident; decide +kernel, by decide +kernel, by decide, by decide⟩
  · intro len hl
    simp only [List.mem_cons, List.not_mem_nil, or_false] at hl
    rcases hl with rfl | rfl <;> exact ok_of (by decide +kernel)
  · intro b hb
    simp only [List.mem_cons, List.not_mem_nil, or_false] at hb
    rcases hb with rfl | rfl <;> exact ⟨_, got (by decide +kernel), by decide +kernel⟩

theorem witness_CheckpointImages :
    (let s := put (grp 0) fun s => family id { s with launches := [graphLaunch true] }
     (s.image 1).2.length < 2 ^ 32 ∧ ((s.subtree 1).map (·.id)).Nodup ∧ (s.subtree 1).map (·.id) = [1] ∧ (∀ c ∈ s.subtree 1, c.ranges.length ≤ 64) ∧
      (∀ l ∈ s.launches, ∀ w, l.walk = some w → w.counts.length = 8)) ∧
    imageOne.length = 1728 ∧ Claim.number imageOne 0 4 = 1 ∧ Claim.number (List.replicate 128 0) 0 4 ≠ 1 ∧
    ∃ q, (put (grp 0)).loadImage imageOne 0 = some q := by
  refine ⟨⟨by decide +kernel, by decide +kernel, by decide +kernel, by decide +kernel, ?_⟩, by decide +kernel, by decide +kernel, by decide +kernel,
    Option.isSome_iff_exists.mp (by decide +kernel)⟩
  intro l hl w hw
  simp only [put, family, List.mem_singleton] at hl
  subst hl; cases hw; rfl

/-- A group with a halted path 1 of token 5, and the command of an operation in s1. -/
def halting (op reg : Nat) (b : DWord) : Group :=
  { regs [(1, BitVec.ofNat 64 (op * 2 ^ 60 + reg * 2 ^ 48 + 5)), (2, b), (3, 0xFFFFFFFF)] with
    paths := (grp 0).paths.set 1 { Path.freePath with st := .halted, dtoken := 5 } }

theorem witness_DebuggerCommands :
    (∀ q ∈ [(1, 0), (2, 0), (3, 0), (4, 0x63F), (4, 0x5FF), (4, 0x60F), (5, 0x601), (5, 0x001), (6, 0), (7, 0), (1, 5)],
      let x := halting q.1 q.2 64
      (∀ i, Claim.Controls i (mailbox x) x 0) ∧ (mailbox x).mboxHolds x 0 = false ∧
        ∃ u, ((mailbox x).mboxFlush 0).mboxUsable 0 = (u, true)) ∧
    (let x := halting 1 0 0
     ∃ u, ((put x).mboxFlush 0).mboxUsable 0 = (u, false)) ∧
    (let x := { halting 1 0 0 with sbuf := [entryVia] }
     (mailbox x).mboxHolds x 0 = true ∧ ∀ i, Claim.Controls i (mailbox x) x 0) ∧
    (let x := halting 3 0 0
     (∀ y ∈ (mailbox x).groups, y.ctx = x.ctx → y.retired = false → y.who.toNat ≠ 5) ∧
      ((mailbox x).groups.find? fun y => y.ctx == x.ctx && !y.retired && y.who.toNat == x.who.toNat) = some x ∧
      (x.path 2).st = .free ∧ (x.path 1).st = .halted ∧ ((x.modPath 1 fun y => { y with st := .parked }).path 1).st = .parked) ∧
    ((mailbox (halting 1 0 0)).tokenPath 0 5).isSome = true ∧ ((mailbox (halting 1 0 0)).tokenPath 0 6) = none ∧
    (let r : RingRec := { ctx := 0, group := 1, grid := 0, bytes := [1] ++ List.replicate 27 0 ++ [5, 0, 0, 0] }
     ∀ h ∈ [[r], []], Claim.recordHeld { mailbox (halting 1 0 0) with mboxHeld := h } 0 5 = !h.isEmpty) ∧
    (let h : Path := { Path.freePath with st := .halted, hdr := false, pos := 1, words := [0x0018005003FF9000], dlatch := [⟨0, 9, 1, []⟩] }
     latchWritten h.words h.pos 0 = true ∧ latchWritten h.words h.pos 5 = false ∧
      (∃ e ∈ h.dlatch, e.latch = 0 ∧ laneOn e.lanes 0 = true) ∧ ¬ ∃ e ∈ h.dlatch, e.latch = 0 ∧ laneOn e.lanes 1 = true) ∧
    Claim.mailFits (4 * 2 ^ 60 + 31 * 2 ^ 43) ∧ Claim.mailFits (3 * 2 ^ 60 + 7 * 2 ^ 40) ∧ ¬ Claim.mailFits (7 * 2 ^ 60) ∧ ¬ Claim.mailFits (2 ^ 60 + 5 * 2 ^ 48) := by
  refine ⟨?_, ⟨_, answer_is (by decide +kernel)⟩, ⟨by decide, fun i => controls (issue rfl rfl (by decide) (by decide) rfl) rfl (by decide) rfl rfl rfl rfl⟩,
    by decide +kernel, by decide, by decide, by decide, by decide, ?_, ?_, fun h => absurd h.2.1 (by decide), fun h => absurd (h.2.2.2.1 (by decide) (by decide)) (by decide)⟩
  · intro q hq
    have h := (by decide +kernel : ∀ q ∈ [(1, 0), (2, 0), (3, 0), (4, 0x63F), (4, 0x5FF), (4, 0x60F), (5, 0x601), (5, 0x001), (6, 0), (7, 0), (1, 5)],
      (((mailbox (halting q.1 q.2 64)).mboxFlush 0).mboxUsable 0).2 = true) q hq
    exact ⟨fun i => controls ⟨rfl, rfl, by simp [halting, regs, grp, oneGroup], rfl, by intro q; rcases q with _|_|_|_|_|_|_|_|q <;> rfl, rfl, rfl⟩ rfl
      (by show (grp 0).exec 0 ≠ 0; decide) rfl rfl rfl rfl, rfl, _, answer_is h⟩
  · refine ⟨by decide, by decide, by decide, by decide, fun _ => ⟨by decide, 0, .inl (by decide)⟩, by decide⟩
  · refine ⟨by decide, by decide, by decide, by decide, fun h => absurd h (by decide), by decide⟩

/-! ### Statements about records, ladders, errors, the host and the device -/

/-- A record that a child's work has raised and that waits in the hub. -/
def recOf (c id : Nat) : HubRec := ⟨id, { TrapRec.empty with cause := 0x13, ctx := c, token := 9 }, none⟩
/-- The root with a handler queue whose ring has `tail` records, its child with a capacity, and that record. -/
def routing (cap tail : Nat) (hs : List HubRec) : State :=
  uncached (mapped (grp 0) (ring 65536 131072 0 tail 4 6) fun s => { s with
    hub := hs
    contexts := [{ Context.root with hctlEn := true, desc := { Desc.root with hq := 65536 } }, child fun k => { k with hqcap := cap }] })
def okTarget (r : State × Route) (q : Option Nat) : Bool := r.2.target == q

/-- Function 0 whose rings stand at 4096 and 8192 of host memory: head and tail of its submission ring, the RSIZE of both,
and the oldest submission. -/
def hosted (q : Nat × Nat × Byte × Byte) (e : List Byte) (f : State → State := id) : State :=
  { put (grp 0) f with
    hostMem := ring 4096 65536 q.1 q.2.1 4 q.2.2.1 ++ ring 8192 131072 0 15 4 q.2.2.2 ++ bytesAt 65536 e
    funcs := [{ fn := 0, ctx := 0, sub := 4096, comp := 8192, held := [], acc := 0xFFFFFFFF, cmp := 0 }]
    boot := { (put (grp 0)).boot with state := 1 } }
/-- The bytes of a submission. -/
def submission (seq op queue arg0 : Nat) : List Byte :=
  [(seq, 4), (op, 2), (queue, 2), (arg0, 8), (0, 48)].flatMap fun w => (List.range w.2).map fun i => BitVec.ofNat 8 (w.1 / 2 ^ (8 * i))
def hostFunc : Func := { fn := 0, ctx := 0, sub := 4096, comp := 8192, held := [], acc := 0xFFFFFFFF, cmp := 0 }

theorem witness_RecordsGoUp :
    (∃ t, (routing 1 0 [recOf 1 5]).handlerOpen { Context.root with hctlEn := true, desc := { Desc.root with hq := 65536 } } = (t, true)) ∧
    ((routing 1 0 [recOf 1 5]).parent 1 = some 0 ∧ (recOf 1 5).way = none ∧
      (routing 1 0 [recOf 1 5]).ctx? 0 = some { Context.root with hctlEn := true, desc := { Desc.root with hq := 65536 } }) ∧
    Claim.HostRoom { put (grp 0) with hostMem := ring 8192 131072 0 14 4 5 } hostFunc.comp 5 2 ∧
    (let s := hosted (0, 0, 6, 5) [] fun s => family id { s with hub := [recOf 1 5] }
     (∀ k ∈ s.contexts, k.hctlEn = false ∨ s.isFrozen k.id = true ∨ k.desc.hq = 0) ∧ s.wq = [] ∧
      s.hub.find? (·.id == 5) = some (recOf 1 5) ∧ (∀ k ∈ s.hub, k.id < 5 → k.rec_.ctx ≠ 1) ∧ (s.route (recOf 1 5)).2.target = none ∧
      (let t := Claim.routed (s.route (recOf 1 5)).1 (recOf 1 5) (s.route (recOf 1 5)).2
       ∃ f, t.func? (t.funcOf 1) = some f ∧ f.held = [] ∧ ¬ Claim.HostRoom t f.comp 5 2)) ∧
    (let s := put (grp 0) fun s => family id { s with hub := [recOf 1 4, recOf 1 5] }
     ∃ k ∈ s.hub, k.id < 5 ∧ k.rec_.ctx = 1) ∧
    (∀ q ∈ [(1, 0), (1, 16), (0, 0)],
      let s := routing q.1 q.2 [recOf 1 5]
      let r := s.route (recOf 1 5)
      let t := Claim.routed r.1 (recOf 1 5) r.2
      r.2.target = some 0 ∧ r.2.via = 1 ∧ (t.ctx? 1).map (·.hqcap) = some q.1 ∧ Claim.standing t 0 1 = 0) ∧
    (∃ u n, (routing 1 0 [recOf 1 5]).ringAppend 0 65536 6 0 (List.replicate 64 0) = (u, .ok n)) ∧
    ∃ u, (routing 1 16 [recOf 1 5]).ringAppend 0 65536 6 0 (List.replicate 64 0) = (u, .full) := by
  exact ⟨answer_of (by decide +kernel), by decide +kernel, by unfold Claim.HostRoom Claim.HostUsable; decide +kernel, ⟨by decide +kernel, rfl, rfl, by decide, by decide +kernel, hostFunc, by decide +kernel, rfl,
      fun h => absurd h (by unfold Claim.HostRoom Claim.HostUsable; decide +kernel)⟩,
    by decide +kernel, by decide +kernel, ⟨_, 0, answer_is (by decide +kernel)⟩, answer_of (by decide +kernel)⟩

/-- A child of that child, which takes no records. -/
def grand : Context := { child with id := 2, parent := some 1, depth := 2 }
def tall : State := { routing 1 0 [recOf 2 5] with contexts := (routing 1 0 []).contexts ++ [grand] }
/-- A record of the grandchild passes the child, whose handler is closed, and stands in the root's queue with one ancestor passed. -/
theorem witness_Climbs :
    (∃ t r, Claim.Climbs tall 2 0 t r ∧ r.target = some 0 ∧ r.via = 1 ∧ r.esc = 1 ∧ r.esc < 6) ∧
    (∃ r, Claim.Climbs (put (grp 0) family) 0 0 (put (grp 0) family) r ∧ r.target = none) ∧
    ∃ c, tall.ctx? 1 = some c ∧ tall.handlerOpen c = (tall, false) := by
  refine ⟨?_, ⟨_, .host _ _ _ rfl, rfl⟩, _, rfl, rfl⟩
  obtain ⟨t, h⟩ := answer_of (by decide +kernel :
    (tall.handlerOpen { Context.root with hctlEn := true, desc := { Desc.root with hq := 65536 } }).2 = true)
  exact ⟨t, _, .passes tall tall t 2 0 (child fun k => { k with hqcap := 1 }) _ rfl rfl (.stands tall t 1 1 _ rfl h), rfl, rfl, rfl, by decide⟩

/-- A ladder of the root on core 0, called 5 ns after reset, at a stage, the time now. -/
def laddered (stage now : Nat) (f : Group → Group := id) : State :=
  put (f (grp 0)) fun s => { s with ladders := [⟨0, 0, 5, stage, true⟩], ns := BitVec.ofNat 64 now }

theorem witness_LaddersRun :
    (∀ q ∈ [(0, 200005), (1, 200004), (1, 200005), (2, 1000004), (2, 1000005), (3, 1000005)],
      let s := laddered q.1 q.2
      s.wq = [] ∧ (∃ k, s.ctx? 0 = some k ∧ k.t1 * 1000 = 200000) ∧ s.ladders.find? (fun l => l.core == 0 && l.ctx == 0) = some ⟨0, 0, 5, q.1, true⟩ ∧
        s.ns.toNat = q.2) ∧
    (let rest : Group → Group := fun x => { x with paths := x.paths.map fun y => { y with st := if y.st = .ready then .parked else y.st } }
     let s := laddered 1 6 rest
     ∃ c, s.cohort? 1 = some c ∧ c.resident = true ∧ s.duskWants c = true ∧
      ∀ g ∈ Claim.ofCohort s 1, ((∀ y ∈ g.paths, y.st ≠ .ready) ∨ s.graced g = true) ∧ (∀ o ∈ g.outs, o.poison ≠ 0) ∧ g.sbuf = [] ∧
        g.mpend = [] ∧ adBusy s g = false ∧ g.handler = none) ∧
    (let s := routing 1 0 [recOf 1 5]
     s.hub = [recOf 1 5] ∧ (s.route (recOf 1 5)).2.target = some 0) ∧
    (let s := uncached (mailbox (grp 0) fun s => { s with mboxHeld := [⟨0, 1, 0, List.replicate 64 1⟩] })
     s.mboxHeld = [⟨0, 1, 0, List.replicate 64 1⟩] ∧ ∃ t n, s.ringAppend 0 (s.mboxOf 0) 6 0 (List.replicate 64 1) = (t, .ok n)) ∧
    (let s := uncached (mapped (grp 0) (ring 65536 131072 0 0 4 5) fun s => root (fun c => { c with obs := [(0x2030, 65536)] })
        { s with replayHeld := [⟨0, 1, 0, List.replicate 32 1⟩] })
     s.replayHeld = [⟨0, 1, 0, List.replicate 32 1⟩] ∧ ∃ t n, s.ringAppend 0 (s.rplRing 0) 5 0 (List.replicate 32 1) = (t, .ok n)) ∧
    (let s := put (grp 0) fun s => { s with copies := [{ copyOne with moved := true }] }
     s.copy? 1 = some { copyOne with moved := true }) ∧
    (let s := hosted (0, 1, 6, 5) []
     ∃ t, s.hostAppend { hostFunc with held := [List.replicate 32 1] } [List.replicate 32 1] = some t) ∧
    (let s := put (grp 0)
     (∃ f, s.func? 0 = some f) ∧ s.hub = [] ∧ ∀ g ∈ s.funcs, g.fn = 0) := by
  exact ⟨by decide +kernel, ⟨_, rfl, by decide +kernel⟩, by decide +kernel, ⟨rfl, _, 0, answer_is (by decide +kernel)⟩,
    ⟨rfl, _, 0, answer_is (by decide +kernel)⟩, rfl,
    Option.isSome_iff_exists.mp (by decide +kernel), ⟨_, rfl⟩, rfl, by decide⟩

theorem witness_MemoryErrorsAndLinks :
    (let s := put (grp 0) fun s => { s with
        cache := [⟨262144, 0, 0, false, 2, 2, 0, 0, 0, []⟩, ⟨262145, 0, 0, true, 1, 0, 0, 0, 0, []⟩, ⟨262146, 0, 0, false, 1, 0, 0, 0, 0, []⟩]
        l1 := [⟨0, 262144, 0, 8, 8, [(1, true)], 0⟩], stale := [⟨9, List.replicate 48 1, [0, 0, 0], false⟩, ⟨10, List.replicate 48 1, [0, 0, 0], true⟩], poison := [5]
        segs := [segOne .entry 0], notices := [1048576] }
     s.wq = [] ∧ (∃ m ∈ s.cache, m.line = 1048577 / 4 ∧ m.dirty.testBit 1 = true) ∧ (7 : Nat) * 48 < 1152 * 2 ^ 30 ∧
      s.stale.find? (·.sector == 9) = some ⟨9, List.replicate 48 1, [0, 0, 0], false⟩ ∧
      s.stale.find? (·.sector == 10) = some ⟨10, List.replicate 48 1, [0, 0, 0], true⟩ ∧ 5 ∈ s.poison ∧ 6 ∉ s.poison ∧ Claim.Skips s 1048577 ∧ ¬ Claim.Skips s 1048580 ∧ (∃ m, s.cache.find? (fun m => m.line == 262144 && m.present.testBit 1) = some m ∧ m.dirty.testBit 1 = true) ∧
      (∃ m, s.cache.find? (fun m => m.line == 262145 && m.present.testBit 0) = some m ∧ m.locked = true) ∧
      (∃ m, s.cache.find? (fun m => m.line == 262146 && m.present.testBit 0) = some m ∧ m.locked = false ∧ m.dirty.testBit 0 = false) ∧
      (∀ m ∈ s.cache, m.line = 262144 → m.present.testBit 0 = false) ∧
      (s.l1.find? fun l => l.core == 0 && l.line == 262144 && l.present.testBit 3).isSome = true ∧
      (∀ l ∈ s.l1, l.core = 0 → l.line = 262144 → l.present.testBit 2 = false) ∧
      (∃ k, s.wg? 1 0 = some k ∧ k.retired = false ∧ 1179647 < k.pages * 12288 ∧ 4194303 < k.accSize) ∧
      (∃ x, s.group? 1 = some x ∧ x.retired = false ∧ x.rlo ≤ 2047 ∧ 2047 < x.rlo + x.nres) ∧ s.segs[0]? = some (segOne .entry 0) ∧
      1048576 ∈ s.notices ∧ 0 ∉ s.notices) ∧
    (let s := put (grp 0) fun s => { s with chans := [(575, { Chan.zero with ended := true, togDbi := 100 })], gang := [1535] }
     s.wq = [] ∧ (Claim.chanAt s 575).ended = true ∧ (Claim.chanAt s 575).togTm.toNat <
        (Claim.chanAt s 575).togDbi.toNat - (Claim.chanAt s 575).togDbi.toNat / 16 ∧
      s.regionHeld 1535 = false ∧ s.gang.contains 1535 ≠ false ∧ s.gang.contains 0 ≠ true ∧ (smGet LinkWord.zero s.links 15).up = false) ∧
    (let s := put (grp 0) fun s => { s with links := [(15, ⟨true, 3, 0, 0⟩)] }
     (smGet LinkWord.zero s.links 15).up = true) ∧
    ((put (grp 0)).regionHeld 0 = true ∧ 1152 * 2 ^ 30 ≤ 25769803776 * 48) ∧
    (∃ stack sec, Claim.ScrubNext (put (grp 0)) stack sec) ∧ ¬ Claim.ScrubNext (put (grp 0)) 12 0 ∧
    (Chan.zero.wires.length = 6 ∧ Chan.zero.beats < 2 ^ 20 ∧ ¬ { Chan.zero with beats := 2 ^ 20 }.beats < 2 ^ 20) := by
  refine ⟨by decide +kernel, by decide +kernel, by decide +kernel, by decide +kernel,
    ⟨chanOf 0 / 48, 0, ⟨?_, rfl, by decide⟩, by decide, fun q _ h => absurd h (Nat.not_lt_zero q)⟩, fun h => absurd h.inside.1 (by decide), by decide⟩
  have : chanOf 0 < 576 := Nat.mod_lt _ (by decide)
  omega

theorem witness_HostSubmits :
    (∀ q ∈ [(2, 2), (3, 2), (1, 2), (2, 1), (3, 1), (1, 1), (9, 1)],
      Claim.Takes (hosted (0, 1, 6, 5) (submission q.2 q.1 63 65536)) 0 hostFunc ⟨BitVec.ofNat 32 q.2, q.1, 63, 65536, 0⟩) ∧
    (¬ Claim.follows 0xFFFFFFFF 2 ∧ Claim.follows 0xFFFFFFFF 1 ∧ Claim.follows 0 1) ∧
    (let s := hosted (0, 1, 5, 6) []
     (∃ st v, s.sysRead 0 0 = (st, v)) ∧ (∃ t st, s.sysWrite 0 0 0 = (t, st, [])) ∧ (((s.ctx? 0).map (·.queues)).getD 0 = 64) ∧
      (∃ t e, s.ctxRead none 0 65536 128 .r = (t, .error e)) ∧
      (∃ t bs, { s with mem := tables }.ctxRead none 0 65536 128 .r = (t, .ok bs)) ∧
      (∃ f, s.func? 0 = some f ∧ s.hostCmd 0 = none ∧ ¬ Claim.HostUsable s f.sub 6 ∧ ¬ Claim.HostRoom s f.comp 5 1 ∧
        ∀ z ∈ s.sessions, s.isUnder f.ctx z.ctx = false)) ∧
    (let s := hosted (0, 1, 6, 5) []
     Claim.HostRoom s hostFunc.comp 5 1 ∧ ¬ Claim.HostRoom s hostFunc.comp 5 2 ∧
      (let f := { hostFunc with held := [List.replicate 64 1] }
       let t := { s with funcs := [f] }
       t.func? 0 = some f ∧ ¬ Claim.HostRoom t f.comp 5 2) ∧
      ∃ r, s.hostRing hostFunc.comp 5 = some r ∧ (r.base + 32 * (r.tail.toNat % 2 ^ r.log2n)) % 2 ^ 64 = 131552) := by
  refine ⟨?_, by unfold Claim.follows; decide, ⟨⟨_, _, rfl⟩, ⟨_, 3, Prod.ext rfl (by decide +kernel)⟩, by decide,
    error_of (by decide +kernel), ok_of (by decide +kernel), _, rfl, by decide, fun h => absurd h (by unfold Claim.HostUsable; decide +kernel),
    fun h => absurd h.1 (by unfold Claim.HostUsable; decide +kernel), by decide⟩,
    by unfold Claim.HostRoom Claim.HostUsable; decide +kernel, by unfold Claim.HostRoom Claim.HostUsable; decide +kernel,
    ⟨rfl, by unfold Claim.HostRoom Claim.HostUsable; decide +kernel⟩, ⟨131072, 0, 15, 4, 0, 0⟩, by decide +kernel, by decide⟩
  intro q hq
  simp only [List.mem_cons, List.not_mem_nil, or_false] at hq
  rcases hq with rfl | rfl | rfl | rfl | rfl | rfl | rfl <;>
    exact ⟨⟨rfl, by decide, rfl, rfl⟩, rfl, by unfold Claim.HostUsable; decide +kernel, ⟨65536, 0, 1, 4, 0, 0⟩, by decide +kernel⟩

theorem witness_DeviceLives :
    (∀ b ∈ [0, 1, 2, 3], let s : State := { State.reset with boot := { State.reset.boot with state := b } }
      s.wq = [] ∧ s.boot.state = b) ∧
    (∀ k ∈ [(none, 3300, 0), (some 5, 3300, 1000004), (some 5, 3200, 1000005), (some 5, 100, 1000005)],
      let s : State := { State.reset with clockAt := k.1, clockMhz := k.2.1, ns := BitVec.ofNat 64 k.2.2 }
      s.wq = [] ∧ s.ns.toNat = k.2.2 ∧ s.clockAt = k.1) ∧
    (put (grp 0)).coreGroups 1 = [] ∧ (put (grp 0)).coreGroups 0 = [grp 0] ∧
    (∀ k ∈ [(0, 0, true), (6, 86400000000005, true), (6, 86400000000004, false)],
      let s : State := { State.reset with boot := { State.reset.boot with state := 1, asked := true }, planAt := [(95, k.1)].filter (·.2 ≠ 0), ns := BitVec.ofNat 64 k.2.1 }
      s.wq = [] ∧ s.hostWq = [] ∧ s.boot.asked = true ∧ (decide (s.boot.state = 1 ∧ (95 : Nat) < 96 ∧
        (smGet 0 s.planAt 95 = 0 ∨ smGet 0 s.planAt 95 - 1 + 24 * 3600 * 10 ^ 9 ≤ s.ns.toNat)) = k.2.2)) := by
  refine ⟨by decide +kernel, by decide +kernel, by decide, rfl, by decide +kernel⟩

/-! ### Statements about encodings, steps and stops -/

/-- The state whose next turn issues the word of path 0. -/
def next_ (w : Nat) (f : Group → Group := id) : State := { State.reset.withFetchWord 64 w with groups := [f (grp w)] }
/-- What the machine looks like when that word is tried. -/
def tried (w : Nat) (f : Group → Group := id) : State := { { (next_ w f).tick with sched := [] }.clearYields 0 0 with issued := none }
theorem next_issues (w : Nat) : Claim.Issues (next_ w) (tried w) (grp w) 0 :=
  ⟨_, grp w, ⟨_, grp w, 0, rfl, ⟨rfl, ⟨rfl, rfl, rfl, rfl, rfl⟩, rfl, rfl, rfl⟩, .inr ⟨grp w, .inl ⟨rfl, rfl⟩, rfl, rfl, rfl, rfl⟩⟩,
    .inl ⟨rfl, rfl, rfl⟩⟩
/-- The same at a header that waits for nothing, and with an older group of the partition that waits. -/
def atHeader (w : Nat) : Group := (grp w).modPath 0 fun y => { y with hdr := true, pc := 0 }
def older (w : Nat) : State :=
  { next_ w with groups := [{ grp w with startNo := 9 }, { grp w with uid := 2, startNo := 8, paths := [] }] }

theorem header_issues : Claim.Issues (next_ 0x0018005003FF9000 fun _ => atHeader 0x0018005003FF9000)
    { (tried 0x0018005003FF9000 fun _ => atHeader 0x0018005003FF9000).setGroup ((atHeader 0x0018005003FF9000).modPath 0 Path.enter) with
      issued := some ⟨1, 0⟩ } ((atHeader 0x0018005003FF9000).modPath 0 Path.enter) 0 :=
  ⟨_, atHeader 0x0018005003FF9000, ⟨_, atHeader 0x0018005003FF9000, 0, rfl, ⟨rfl, ⟨rfl, rfl, rfl, rfl, rfl⟩, rfl, rfl, rfl⟩,
    .inr ⟨atHeader 0x0018005003FF9000, .inl ⟨rfl, rfl⟩, rfl, rfl, rfl, rfl⟩⟩, .inr ⟨rfl, by decide +kernel, by decide +kernel, rfl, rfl⟩⟩
theorem younger_issues : Claim.Issues (older 0x0018005003FF9000)
    { { (older 0x0018005003FF9000).tick with sched := [] }.clearYields 0 0 with issued := none }
    { grp 0x0018005003FF9000 with startNo := 9 } 0 := by
  refine ⟨_, _, ⟨_, { grp 0x0018005003FF9000 with startNo := 9 }, 0, rfl, ⟨rfl, ⟨rfl, rfl, rfl, rfl, rfl⟩, rfl, rfl, rfl⟩,
    .inr ⟨{ grp 0x0018005003FF9000 with startNo := 9 }, .inr ⟨by decide +kernel, by decide +kernel,
      ⟨List.mem_cons_self, rfl, rfl, rfl, rfl, rfl, by decide +kernel⟩, ?_⟩, rfl, rfl, rfl, rfl⟩⟩, .inl ⟨rfl, rfl, rfl⟩⟩
  intro g h hn
  have hg : g ∈ (older 0x0018005003FF9000).groups := h.1
  simp only [older, List.mem_cons, List.not_mem_nil, or_false] at hg
  rcases hg with rfl | rfl
  · exact absurd rfl hn
  · exact absurd h.2.2.2.2.2.2 (by decide +kernel)

/-- The group whose clause stands in no buffer: its next turn fetches it. -/
def unfetched : State := next_ 0x0018005003FF9000 fun x => x.modPath 0 fun y => { y with hdr := true, pc := 0, fetched := false }
theorem fetches : ∃ t x, Claim.Fetches unfetched t x 0 ∧ Claim.FetchedNext t x 0 :=
  ⟨_, (grp 0x0018005003FF9000).modPath 0 fun y => { y with hdr := true, pc := 0, fetched := false },
    ⟨.inl rfl, rfl, ⟨rfl, rfl, rfl, rfl, rfl⟩, rfl, .inr rfl⟩, .inl ⟨by decide +kernel, by decide +kernel⟩⟩
/-- A group, alone on its core, whose next turn is to run a closure: it has one whose operands are ready, or none. -/
def closer (rcq : List Closure) : Group := { grp 0 with rcq }
def closing (rcq : List Closure) : State := { put (closer rcq) with sched := [.event (.closureRun 1)] }
theorem oldest_closes (r : List Closure) (hr : (closing r).tick.nextTurn.2.groupReady (closer r) = true) :
    (closing r).tick.nextTurn.1 = some (.event (.closureRun 1)) ∧ (closing r).tick.nextTurn.2.group? 1 = some (closer r) ∧
      Claim.Oldest (closing r).tick.nextTurn.2 0 0 (closer r) :=
  ⟨rfl, rfl, ⟨List.mem_singleton.mpr rfl, rfl, rfl, rfl, rfl, rfl, hr⟩, fun _ hg hn => absurd (List.mem_singleton.mp hg.1) hn⟩

theorem witness_DecodeAndEncodeAgree :
    (Instr.ld .b64 .cx true (.v 1534) ⟨62, .v 1535, 3, -1⟩).wf = true ∧ Instr.isWord (.ld .b64 .cx true (.v 1534) ⟨62, .v 1535, 3, -1⟩) = true ∧
      (decode 0x4108002080060000).isSome = true := by decide

theorem closes : ∀ r ∈ [[closureOne 0x0018005003FF9000 .none (.row 1600 0 false) [.v 5]], []],
    Claim.Oldest (closing r).tick.nextTurn.2 0 0 (closer r) ∧ (closing r).tick.nextTurn.2.closureReady (closer r) = !r.isEmpty := by
  intro r hr
  simp only [List.mem_cons, List.not_mem_nil, or_false] at hr
  rcases hr with rfl | rfl <;> exact ⟨(oldest_closes _ (by decide +kernel)).2.2, by decide +kernel⟩

theorem witness_StepsRunTheDecodedInstruction :
    (let w := 0x0018005003FF9000
     let i := Instr.iadd ⟨false, true, true⟩ (.v 5) (.v 3) (.imm (-7))
     Claim.Issues (next_ w) (tried w) (grp w) 0 ∧ Claim.unmet (tried w) (grp w) 0 ∧
      Claim.system w = false ∧ decode ((grp w).path 0).word.toNat = some i ∧ (grp w).fits i = true ∧
      (∀ n ∈ latchReads i, latchWritten ((grp w).path 0).words ((grp w).path 0).pos n = true) ∧
      (grp w).defers 0 i = false ∧ (∀ d a v, i ≠ .sysw d a v) ∧ ∀ d a b c n, i ≠ .resume d a b c n) ∧
    (let x := deferring 0 0 2048
     x.defers 0 (.iadd ⟨false, true, true⟩ (.v 5) (.v 3) (.imm (-7))) = true) ∧
    (∃ t, Claim.Issues (next_ 0x0018005003FF9000 fun _ => atHeader 0x0018005003FF9000) t ((atHeader 0x0018005003FF9000).modPath 0 Path.enter) 0) ∧
    (∃ t, Claim.Issues (older 0x0018005003FF9000) t { grp 0x0018005003FF9000 with startNo := 9 } 0) ∧
    (∃ t x, Claim.Fetches unfetched t x 0 ∧ Claim.FetchedNext t x 0) ∧
    (∀ r ∈ [[closureOne 0x0018005003FF9000 .none (.row 1600 0 false) [.v 5]], []], Claim.Oldest (closing r).tick.nextTurn.2 0 0 (closer r) ∧
      (closing r).tick.nextTurn.2.closureReady (closer r) = !r.isEmpty) ∧
    (let s : State := { put (grp 0) with sched := [.event .dispatchStep] }
     (s.tick.nextTurn).1 = some (.event .dispatchStep) ∧ Instr.isEvent .dispatchStep = true) :=
  ⟨⟨next_issues 0x0018005003FF9000, by unfold Claim.unmet; decide +kernel, by decide, by decide, by decide, by decide, by decide +kernel, by simp, by simp⟩,
    by decide +kernel, ⟨_, header_issues⟩, ⟨_, younger_issues⟩, fetches, fun r hr => closes r hr, by decide +kernel⟩

theorem witness_WordsAreChecked :
    (∀ w ∈ [0x0AC0000000000000, 0xE141100187000000, 0x0740004600000000, 0x00185FF003FF9000],
      Claim.Issues (next_ w) (tried w) (grp w) 0) ∧
    (∀ w ∈ [0x0AC0000000000000, 0x0740004600000000, 0x0018600003FF9000], Claim.unmet (tried w) (grp w) 0) ∧
    Claim.system 0xE141100187000000 = true ∧ decode (0x02B * 2 ^ 54) = none ∧
    (∃ i, decode 0x0740004600000000 = some i ∧ (grp 0x0740004600000000).fits i = true ∧
      ∃ n ∈ latchReads i, latchWritten ((grp 0x0740004600000000).path 0).words ((grp 0x0740004600000000).path 0).pos n = false) ∧
    (∃ i, decode 0x00185FF003FF9000 = some i ∧ { grp 0x00185FF003FF9000 with win := 64 }.fits i = false) :=
  ⟨fun w _ => next_issues w, by unfold Claim.unmet; decide +kernel, by decide, by decide, ⟨_, rfl, by decide, by decide⟩, _, rfl, by decide⟩

theorem witness_StepsKeepTheInvariant : (next_ 0x0018005003FF9000).Inv ∧ ∃ t, step (next_ 0x0018005003FF9000) = .next t := by
  refine ⟨⟨rfl, rfl, rfl, rfl, rfl⟩, ?_⟩
  have h : (match step (next_ 0x0018005003FF9000) with
      | .next _ => true
      | _ => false) = true := by decide +kernel
  revert h
  cases step (next_ 0x0018005003FF9000) with
  | next t => exact fun _ => ⟨t, rfl⟩
  | fault _ => simp
  | refused _ => simp

theorem witness_PreciseStops :
    (at_ 0).group? (grp 0).uid = some (grp 0) ∧ 0 < (grp 0).paths.length ∧ (Cause.plain 0x30 1).after = false ∧
    { Cause.plain 0x30 1 with after := true }.after = true ∧ ((grp 0).path 0).hdr = false ∧
    (let x := (grp 0).modPath 0 fun y => { y with head := BitVec.ofNat 64 (0xA * 2 ^ 60 + 15 * 2 ^ 53) }
     (put x).group? 1 = some x ∧ (x.path 0).pos < hdrCount (x.path 0).head.toNat) ∧
    (∃ c, (at_ 0).ctx? (grp 0).ctx = some c) := ⟨rfl, by decide, rfl, rfl, rfl, ⟨rfl, by decide⟩, _, rfl⟩

theorem witness_LanesAndPositions :
    ((grp 0).path 0).hdr = false ∧ ((grp 0).path 0).pos = fld ((grp 0).path 0).head.toNat 53 4 ∧
    (let y := ((grp 0).modPath 0 fun y => { y with head := BitVec.ofNat 64 (0xA * 2 ^ 60 + 15 * 2 ^ 53) }).path 0
     y.hdr = false ∧ y.pos < fld y.head.toNat 53 4) ∧
    (idle.path 0).head.toNat.testBit (23 + (idle.path 0).pos) = true ∧ fld (idle.path 0).head.toNat 40 4 = 1 := by decide

theorem witness_OperandsAreRead : 31 < 32 ∧ (63 : Nat) ≠ 0 ∧ (grp 0).bin = false ∧ { grp 0 with bin := true }.bin = true := by decide

theorem witness_RingsKeepTheirRecords :
    (let r := ringOf ([0, 0, 2, 0, 0, 0, 0, 0, 0xFF, 0xFF, 0xFF, 0xFF, 14, 0, 0, 0, 4, 6] : List Byte)
     4 ≤ r.log2n ∧ r.log2n ≤ 20 ∧ r.used = 15 ∧ r.used < 2 ^ r.log2n) ∧
    (let s := uncached (mapped (grp 0) (ring 65536 131072 0 15 4 6))
     (∃ t r, s.ringRead 0 65536 6 = (t, .ok r) ∧ (r.used == 15 && (t.canWrite none 0 [(65548, 4)]).2.isOk) = true)) ∧
    ∃ t c, (put (grp 0)).ringRead 0 65536 6 = (t, .error c) :=
  ⟨by decide +kernel, ok_with (by decide +kernel), error_of (by decide +kernel)⟩

theorem test_examples : Obligations.ExampleWordsDecode := by
  unfold Obligations.ExampleWordsDecode; decide +kernel

/-! ### Single steps, with the manual's own examples where it works one -/

/-- The group after one instruction; its lanes 0 to n - 1 of a register, and an s register. -/
def after (i : Instr) (x : Group) (f : State → State := id) : Option Group := match exec i (put x f) with
  | .next t => t.group? x.uid
  | _ => none
def lanesAt (g : Option Group) (r n : Nat) : List Nat := match g with
  | some x => (List.range n).map fun l => (x.vGet r l).toNat
  | none => []
def sAt (g : Option Group) (r : Nat) : Nat := match g with
  | some x => (x.sGet r).toNat
  | none => 2 ^ 65
def mAt (g : Option Group) (r : Nat) : Nat := match g with
  | some x => (x.mGet r).toNat
  | none => 2 ^ 65
/-- A group with v registers filled from lane 0 on, and its head guarding the word by m3 or not. -/
def vrow (r : Nat) (xs : List Nat) : SMap Word := (xs.zipIdx.filter (·.1 != 0)).map fun q => (r * 32 + q.2, BitVec.ofNat 32 q.1)
def filled (rows : List (Nat × List Nat)) (ss : SMap DWord := []) (ms : SMap Word := []) : Group :=
  { grp 0 with v := rows.flatMap fun q => vrow q.1 q.2, s := ss, m := ms }
def guardedBy (k : Nat) (x : Group) : Group :=
  x.modPath 0 fun y => { y with head := BitVec.ofNat 64 (oneHeader 0 + 2 ^ 40 * k + 2 ^ 23) }

/-- The group of the section "exchanges on a short group": lanes 0 to 7, of which 6 and 7 help. -/
def shortGroup : Group :=
  { filled [(1, [0, 1, 2, 3, 4, 5, 6, 7]), (10, [5, 1, 4, 1, 5, 9, 2, 6]), (12, List.replicate 32 100)] [] [(3, 0xFB), (4, 0x3F)] with
    quads := ((List.range 8).map fun q =>
      if q < 2 then ⟨some 0, 15, 15, if q = 1 then 12 else 0, []⟩ else ⟨none, 0, 0, 0, []⟩ : List Quad) }
theorem test_shfldn : lanesAt (after (.shfldn .w8 false (.v 11) (.v 10) (.imm 2)) shortGroup) 11 8 = [4, 1, 5, 9, 2, 6, 2, 6] := by decide +kernel
theorem test_qbc : lanesAt (after (.qbc false (.v 13) (.v 10) (.imm 3)) shortGroup) 13 8 = [1, 1, 1, 1, 6, 6, 6, 6] := by decide +kernel
theorem test_gscan : lanesAt (after (.gscan .add false false false (.v 12) (.v 10)) (guardedBy 3 shortGroup)) 12 8 =
    [5, 6, 100, 7, 12, 21, 23, 29] := by decide +kernel
theorem test_gscan_ex : lanesAt (after (.gscan .add true false false (.v 12) (.v 10)) (guardedBy 3 shortGroup)) 12 8 =
    [0, 5, 100, 6, 7, 12, 21, 23] := by decide +kernel
theorem test_gred : sAt (after (.gred .add false false (.s 9) (.v 10)) shortGroup) 9 = 33 ∧
    sAt (after (.gred .add false false (.s 9) (.v 10)) (guardedBy 4 shortGroup)) 9 = 25 := by decide +kernel
theorem test_vote : sAt (after (.vote .ballot (.s 10) (.v 10)) shortGroup) 10 = 0xFF := by decide +kernel
theorem test_icmp : mAt (after (.icmp .lt false false (.m 4) (.v 1) (.imm 6)) shortGroup) 4 = 0x3F := by decide +kernel

/-- R105's two selections. -/
theorem test_perm : lanesAt (after (.perm (.v 4) (.v 1) (.v 2) (.v 3))
    (filled [(1, [0x44332211, 0x44332211]), (2, [0x88776655, 0x88776655]), (3, [0xC123, 0x4123])])) 4 2 = [0x00223344, 0x55223344] := by decide +kernel

/-- R126's three values, 464 under .rne and .rna, and 470. -/
theorem test_e4m3 :
    (roundF fpE4m3 .rne (.fin false 460 0)).1 = 0x7E ∧ (roundF fpE4m3 .rne (.fin false 460 0)).2 = { FFlags.none with nx := true } ∧
    (roundF fpE4m3 .rne (.fin false 464 0)).2 = { FFlags.none with nx := true } ∧
    roundF fpE4m3 .rna (.fin false 464 0) = (0x7E, { FFlags.none with of := true, nx := true }) ∧
    roundF fpE4m3 .rne (.fin false 470 0) = (0x7E, { FFlags.none with of := true, nx := true }) := by decide +kernel

/-- Integer forms at their ranges' ends, by hand from R97 to R105. -/
theorem test_iadd : lanesAt (after (.iadd ⟨false, true, true⟩ (.v 5) (.v 3) (.imm (-7))) (filled [(3, [0x80000003, 9])])) 5 2 = [0x80000000, 2] ∧
    lanesAt (after (.iadd ⟨false, true, false⟩ (.v 5) (.v 3) (.imm (-7))) (filled [(3, [0x80000003])])) 5 1 = [0x7FFFFFFC] := by decide +kernel
theorem test_isub : lanesAt (after (.isub ⟨false, false, true⟩ (.v 5) (.v 3) (.imm 7)) (filled [(3, [6])])) 5 1 = [0] ∧
    lanesAt (after (.isub ⟨true, false, false⟩ (.v 6) (.v 2) (.v 4)) (filled [(2, [0]), (3, [1]), (4, [1])])) 7 1 = [0] := by decide +kernel
theorem test_imulh : lanesAt (after (.imulh false true (.v 5) (.v 3) (.v 4)) (filled [(3, [0xFFFFFFFF]), (4, [2])])) 5 1 = [0xFFFFFFFF] ∧
    lanesAt (after (.imulh false false (.v 5) (.v 3) (.v 4)) (filled [(3, [0xFFFFFFFF]), (4, [2])])) 5 1 = [1] := by decide +kernel
theorem test_idp4 : lanesAt (after (.idp4 true true (.v 1) (.v 2) (.v 3) (.v 4)) (filled [(2, [0x80FF0102]), (3, [0x02030405]), (4, [10])])) 1 1 =
    [(BitVec.ofInt 32 (10 + 2 * 5 + 1 * 4 - 1 * 3 - 128 * 2)).toNat] := by decide +kernel
theorem test_shifts : lanesAt (after (.shl false (.v 5) (.v 3) (.imm 32)) (filled [(3, [1])])) 5 1 = [0] ∧
    lanesAt (after (.sar false (.v 5) (.v 3) (.imm 32)) (filled [(3, [0x80000000])])) 5 1 = [0xFFFFFFFF] ∧
    lanesAt (after (.rot false (.v 5) (.v 3) (.imm 4)) (filled [(3, [0x12345678])])) 5 1 = [0x23456781] := by decide +kernel
theorem test_counts : lanesAt (after (.clz true (.v 4) (.v 2)) (filled [(2, [0]), (3, [1])])) 4 1 = [31] ∧
    lanesAt (after (.ctz false (.v 4) (.v 2)) (filled [])) 4 1 = [32] ∧
    lanesAt (after (.brev false (.v 4) (.v 2)) (filled [(2, [0x00000006])])) 4 1 = [0x60000000] := by decide +kernel
theorem test_mov_imm : sAt (after (.mov false true (.s 4) (.imm (-1))) (grp 0)) 4 = 2 ^ 64 - 1 ∧
    sAt (after (.mov false false (.s 4) (.imm (-1))) (grp 0)) 4 = 2 ^ 32 - 1 := by decide +kernel

/-- Floating point: 1.5 + 2.25 = 3.75 with no flag; 1 / 0 sets DZ (R144, R150); 2^-1 is exact (R151). -/
theorem test_fadd : lanesAt (after (.fadd .rne ⟨Sys2Proof.FTy.f32, false, false, false, false⟩ (.v 5) (.v 3) (.v 4))
    (filled [(3, [0x3FC00000]), (4, [0x40100000])])) 5 1 = [0x40700000] := by decide +kernel
theorem test_fma : lanesAt (after (.fma .rne ⟨Sys2Proof.FTy.f32, false, false, false, false⟩ (.v 6) (.v 3) (.v 4) (.v 5))
    (filled [(3, [0x40000000]), (4, [0x40400000]), (5, [0xC0C00000])])) 6 1 = [0] := by decide +kernel
theorem test_frcp : frcpF 0 = (0x7F800000, { FFlags.none with dz := true }) ∧ frcpF 0x40000000 = (0x3F000000, FFlags.none) := by decide +kernel
/-- 2.5 rounds to 2 under .rne and truncates under .rz; a NaN converts to 0 with IV (R153). -/
theorem test_cvt : lanesAt (after (.cvt .rne false .s32 .f32 (.v 7) (.v 3)) (filled [(3, [0x40200000, 0x40600000, 0xC0200000])])) 7 3 =
    [2, 4, 0xFFFFFFFE] ∧ lanesAt (after (.cvt .rz false .s32 .f32 (.v 7) (.v 3)) (filled [(3, [0x40600000])])) 7 1 = [3] := by decide +kernel

/-- The windows of the example under R78, with W = 64 and n = 128: the first call moves, the second calls the spill handler. -/
def called (wb rlo : Nat) : Group := { grp 0 with win := 64, nres := 128, wb, rlo }
theorem test_call_window : (after (.call 62 6 12) (called 0 0)).map (fun g => (g.wb, g.rlo, g.handler)) = some (48, 0, none) ∧
    (after (.call 62 6 12) (called 48 0)).map (fun g => (g.wb, g.handler)) = some (48, some (0, 0x28, 96)) := by decide +kernel
theorem test_ret_window : (after (.ret 62 6) (called 96 32)).map (fun g => (g.wb, g.rlo, g.handler)) = some (48, 32, none) ∧
    (after (.ret 62 6) (called 48 32)).map (fun g => (g.wb, g.handler)) = some (48, some (0, 0x29, 0)) := by decide +kernel

/-- Rounding to the nearest even, up and towards zero, at the formats' ends (R124, R125). -/
theorem test_round_to_nearest_even : (roundF fp32 .rne (.fin false (2 ^ 25 + 1) 0)).1 = 0x4C000000 ∧
    (roundF fp32 .rup (.fin false (2 ^ 25 + 1) 0)).1 = 0x4C000001 ∧ (roundF fp16 .rne (.fin false 65520 0)).1 = 0x7C00 ∧
    (roundF fp16 .rz (.fin false 65520 0)).1 = 0x7BFF := by decide +kernel

/-- "A tile worked through": a row of ones against halves: 7.0 becomes 39.0 with no flag, and keeps 7.0 in a marked block. -/
theorem test_mma_worked :
    (let a := aRow 0x13 (List.replicate 16 0x18181818) [0x78787878]
     let b := bCol 0x13 (List.replicate 64 0x10 ++ List.replicate 4 0x78) 64 0
     accGroups 0x40E00000 a b (fun _ => false) = (0x421C0000, FFlags.none) ∧
      accGroups 0x40E00000 a b (fun _ => true) = (0x40E00000, FFlags.none)) := by decide +kernel
theorem test_desc_worked : descOk (BitVec.ofNat 512 (0x0000000000100513 + 2 ^ 64 * 0x0000080008080513)) 0 64 (some 2304) = true ∧
    descOk (BitVec.ofNat 512 (0x0000000000100513 + 2 ^ 64 * 0x0000080008080513)) 48 64 (some 2304) = false := by decide +kernel

/-- A diverging bra: lanes 0 and 1 of quad 0 take, the others wait at their mark (R171). -/
theorem test_bra_divides : (after (.bra (.m 1) 5) (quad0 [⟨15, 0, false, 0, 0, []⟩] (lanes1 0xFFFFFFF3))).map (fun g =>
    ((g.quad 0).qm, (g.quad 0).stack.map (·.pend))) = some (3, [12]) := by decide +kernel
theorem test_exit_ends : (after .exit (grp 0)).map (·.retired) ≠ some false := by decide +kernel
theorem test_trap_parks : (after (.trap 5) (grp 0)).map (fun g => (g.path 0).st) = some .parked := by decide +kernel
/-- A counter goes up and s4 has the old value (R426). -/
theorem test_evinc : sAt (after (.evinc 4 5 6) (regs [(5, 65535), (6, 3)]) (root fun c => { c with ev := [(65535, 8)] })) 4 = 8 := by decide +kernel
theorem test_ends_with_privilege : (after (.xinvAll) { grp 0 with control := false }).map (fun g => ((g.path 0).stop.map (·.cause))) =
    some (some 0x03) := by decide +kernel

/-- What an event leaves of the group. -/
def onEvent (i : Instr) (s : State) : Option Group := match exec i s with
  | .next t => t.group? 1
  | _ => none
/-- A signed 16-bit load lands with the bytes of the group's own store still in the buffer, sign-extended (R206, R232). -/
theorem test_load_forwards :
    lanesAt (onEvent (.loadLanding 1 7) (put { grp 0 with
      outs := [{ loadOne with accs := [⟨0, 0, some (.phys 50331744 0 0 0), 0, 0⟩], lanes := 1 }]
      sbuf := [{ id := 3, op := .st, accs := [⟨4, 0, some (.phys 50331744 0 0 0), 0x8001, 0⟩], bytes := 2, agent := 0, hist := [], rel := false
                 scope := .wg, alone := false, waits := none, deferred := false, heals := [], via := [], rpl := none }] })) 5 1 = [0xFFFF8001] := by decide +kernel
/-- cas stores where the old value is equal, and the old value is answered (R234). -/
theorem test_cas : ((mapped (grp 0) (bytesAt 96 [5])).atomStep .cas 4 ⟨0, 0, some (.phys 50331744 0 0 0), 5, 9⟩).2 = 5 ∧
    ((mapped (grp 0) (bytesAt 96 [5])).atomStep .cas 4 ⟨0, 0, some (.phys 50331744 0 0 0), 5, 9⟩).1.byte 50331744 = 9 ∧
    ((mapped (grp 0) (bytesAt 96 [5])).atomStep .cas 4 ⟨0, 0, some (.phys 50331744 0 0 0), 6, 9⟩).1.byte 50331744 = 5 := by decide +kernel
/-- The root's scheduling word reads PARKTH 32, SLICE 10 and no budget; an address of 2^44 gives status 4 (R347, R398). -/
theorem test_sysr : sAt (after (.sysr 4 1) (regs [(1, 0)])) 4 = 32 * 2 ^ 58 + 10 * 2 ^ 48 + (2 ^ 32 - 1) ∧
    sAt (after (.sysr 4 1) (regs [(1, 2 ^ 44)])) 5 = 4 := by decide +kernel
/-- The only group of a workgroup passes its barrier at once (R423). -/
theorem test_bar : (after .bar (grp 0)).map (fun g => (g.path 0).st) = some .ready := by decide +kernel
/-- dmode.on sets the mode, and a deferrable word with a ready operand runs as usual (R310, R313). -/
theorem test_dmode : (after .dmodeOn (grp 0)).map (·.defer) = some true := by decide +kernel
/-- A transcendental lands with its flags (R144). -/
theorem test_trans_lands : lanesAt (onEvent (.transcendentalLanding 1 7) (put { grp 0 with outs := [{ transOne with lanes := 1, accs := [⟨0, 0, none, 7, 0⟩] }] })) 5 1 =
    [7] := by decide +kernel
/-- quant.ts8 of 1.0 in every element makes no row zero, and dequant gives 1.0 back (R156, R157). -/
theorem test_quant : lanesAt (after (.dequant .ts8 40 0 39) (filled [(0, [0x18181818]), (39, [0x7878])])) 43 1 = [0x3F800000] := by decide +kernel
end Sys2Proof.Tests
end

section
/-! SUPPORT. The lanes that a word executes in, and where its path stands after it (R37, R43, R49). -/

namespace Sys2Proof.Machine

/-! ### The lanes of a path and of a word (R37, R49, R165) -/

theorem getLsbD_quadMask {q l : Nat} (x : BitVec 4) (hl : l < 32) :
    (quadMask q x).getLsbD l = (decide (l / 4 = q) && x.getLsbD (l % 4)) := by
  simp only [quadMask, BitVec.getLsbD_shiftLeft, BitVec.getLsbD_setWidth, hl, decide_true, Bool.true_and]
  by_cases hq : l / 4 = q
  · have hlane : l - 4 * q = l % 4 := by omega
    have hnot : ¬ l < 4 * q := by omega
    have hlt : l % 4 < 32 := by omega
    simp [hq, hlane, hnot, hlt]
  · by_cases hlow : l < 4 * q
    · simp [hq, hlow]
    · have hout : 4 ≤ l - 4 * q := by omega
      simp [hq, BitVec.getLsbD_of_ge x _ hout]

theorem getLsbD_foldl_or {α : Type} (f : α → Word) (xs : List α) (m : Word) (l : Nat) :
    (xs.foldl (fun m a => m ||| f a) m).getLsbD l = (m.getLsbD l || xs.any fun a => (f a).getLsbD l) := by
  induction xs generalizing m with
  | nil => simp
  | cons a xs ih => rw [List.foldl_cons, ih, BitVec.getLsbD_or, List.any_cons, Bool.or_assoc]

theorem Group.mem_quadsOf {x : Group} {p q : Nat} : q ∈ x.quadsOf p ↔ q < 8 ∧ (x.quad q).path = some p := by
  simp [Group.quadsOf]

theorem Group.laneOn_mask (x : Group) (p : Nat) {l : Nat} (hl : l < 32) :
    laneOn (x.mask p) l = true ↔ (x.quad (l / 4)).path = some p ∧ (x.quad (l / 4)).qm.getLsbD (l % 4) = true := by
  have hq : l / 4 < 8 := by omega
  simp only [laneOn, Group.mask, getLsbD_foldl_or, getLsbD_quadMask _ hl, BitVec.ofNat_eq_ofNat, BitVec.getLsbD_zero,
    Bool.false_or, List.any_eq_true, Group.mem_quadsOf, Bool.and_eq_true, decide_eq_true_eq]
  constructor
  · rintro ⟨q, ⟨-, hp⟩, rfl, hm⟩
    exact ⟨hp, hm⟩
  · rintro ⟨hp, hm⟩
    exact ⟨l / 4, ⟨hq, hp⟩, rfl, hm⟩

theorem bitAt_eq_testBit (n i : Nat) : bitAt n i = n.testBit i := by
  rw [Nat.testBit_eq_decide_div_mod_eq, bitAt, beq_eq_decide]

/-- An unguarded word executes in the path's mask. -/
theorem Group.exec_unguarded {x : Group} {p : Nat} (h : (x.path p).head.toNat.testBit (23 + (x.path p).pos) = false) :
    x.exec p = x.mask p := by
  simp only [Group.exec, hdrGuarded, bitAt_eq_testBit, h, Bool.false_eq_true, if_false]

/-- A guarded word executes in the lanes of the mask where the guard register, inverted by GINV, is 1. -/
theorem Group.laneOn_exec_guarded {x : Group} {p l : Nat} (hl : l < 32)
    (h : (x.path p).head.toNat.testBit (23 + (x.path p).pos) = true) :
    laneOn (x.exec p) l = (laneOn (x.mask p) l &&
      (laneOn (x.mRead p (hdrGidx (x.path p).head.toNat)) l ^^ (x.path p).head.toNat.testBit 39)) := by
  simp only [Group.exec, hdrGuarded, hdrGinv, bitAt_eq_testBit, h, if_true, laneOn, Group.mRead, BitVec.getLsbD_and]
  cases (x.path p).head.toNat.testBit 39
  · simp
  · simp [hl]

theorem Group.laneOn_exec (x : Group) (p : Nat) {l : Nat} (hl : l < 32) :
    laneOn (x.exec p) l = true ↔ laneOn (x.mask p) l = true ∧
      ((x.path p).head.toNat.testBit (23 + (x.path p).pos) = true →
        (laneOn (x.mRead p (hdrGidx (x.path p).head.toNat)) l ^^ (x.path p).head.toNat.testBit 39) = true) := by
  cases hg : (x.path p).head.toNat.testBit (23 + (x.path p).pos)
  · simp [Group.exec_unguarded hg]
  · simp [Group.laneOn_exec_guarded hl hg]

theorem Group.laneOn_mRead (x : Group) (p n l : Nat) :
    laneOn (x.mRead p n) l = if n = 0 then laneOn (x.mask p) l else laneOn (x.mGet n) l := by
  unfold Group.mRead
  split <;> rfl

/-! ### The position after a word (R43, R49) -/

theorem Path.advance_inside {y : Path} (h : y.pos < hdrCount y.head.toNat) :
    y.advance = { y with pos := y.pos + 1, pc := y.pc + 8, skip := false, rjs := [], fence := none, stepped := y.stepping } :=
  if_pos h

theorem Path.advance_last {y : Path} (h : y.pos = hdrCount y.head.toNat) : y.advance = y.endClause y.fall :=
  if_neg (by omega)

/-- From the last word of a clause, the fall-through address is the next 8 bytes. -/
theorem Path.fall_of_last {y : Path} (hin : y.hdr = false) (h : y.pos = hdrCount y.head.toNat) : y.fall = y.pc + 8 := by
  have hsplit : BitVec.ofNat 64 (8 * (y.pos + 2)) = BitVec.ofNat 64 (8 * (y.pos + 1)) + 8 := by
    rw [show 8 * (y.pos + 2) = 8 * (y.pos + 1) + 8 by omega, BitVec.ofNat_add]
    rfl
  simp only [Path.fall, Path.header, hin, ← h, Bool.false_eq_true, if_false, hsplit]
  rw [← BitVec.add_assoc, BitVec.sub_add_cancel]

end Sys2Proof.Machine
end

section
open Sys2Proof Sys2Proof.Machine

/-- Settles O57: the lanes of a path are those that its quads hold, the guard selects among them, and the path advances by
8 bytes, which from the last word is the fall-through address. -/
theorem lanesAndPositions : Obligations.LanesAndPositions := by
  unfold Obligations.LanesAndPositions
  intro x p y h
  refine ⟨fun l hl => ?_, fun l hl => x.laneOn_mask p hl, fun hin hpos => ?_, fun hin hpos => ?_⟩
  · rw [x.laneOn_exec p hl, x.laneOn_mRead]
    rfl
  · rw [Path.advance_inside hpos]
    exact ⟨rfl, rfl, hin, rfl, rfl, rfl, rfl⟩
  · rw [Path.advance_last hpos, Path.fall_of_last hin hpos]
    exact ⟨rfl, rfl, rfl, rfl, rfl⟩

end

section
/-! SUPPORT. The group and path whose word a step tries (R45, R180, R351), and the precise stop of a word that fails a check
(R62 to R65). -/

namespace Sys2Proof.Machine

/-! ### Sorting by a number -/

theorem insertBy_perm {α : Type} (lt : α → α → Bool) (x : α) (ys : List α) : (insertBy lt x ys).Perm (x :: ys) := by
  induction ys with
  | nil => exact .refl _
  | cons y ys ih =>
    unfold insertBy
    split
    · exact .refl _
    · exact (ih.cons y).trans (.swap x y ys)

theorem pairwise_insertBy {α : Type} (f : α → Nat) (x : α) {ys : List α} (h : ys.Pairwise fun a b => f a ≤ f b) :
    (insertBy (fun a b => f a < f b) x ys).Pairwise fun a b => f a ≤ f b := by
  induction ys with
  | nil => exact List.pairwise_singleton _ x
  | cons y ys ih =>
    obtain ⟨hy, hys⟩ := List.pairwise_cons.1 h
    unfold insertBy
    split
    · next hlt =>
      have hxy : f x ≤ f y := Nat.le_of_lt (of_decide_eq_true hlt)
      exact .cons (List.forall_mem_cons.2 ⟨hxy, fun z hz => hxy.trans (hy z hz)⟩) h
    · next hge =>
      have hyx : f y ≤ f x := by simpa using hge
      refine .cons (fun z hz => ?_) (ih hys)
      rcases List.mem_cons.1 ((insertBy_perm _ x ys).mem_iff.1 hz) with rfl | hz
      · exact hyx
      · exact hy z hz

theorem sortOn_perm {α : Type} (f : α → Nat) (xs : List α) : (sortOn f xs).Perm xs := by
  suffices h : ∀ ys, (xs.foldl (fun ys x => insertBy (fun a b => f a < f b) x ys) ys).Perm (ys ++ xs) from h []
  induction xs with
  | nil => simp
  | cons x xs ih =>
    intro ys
    exact (ih _).trans (((insertBy_perm _ x ys).append_right xs).trans List.perm_middle.symm)

theorem pairwise_sortOn {α : Type} (f : α → Nat) (xs : List α) : (sortOn f xs).Pairwise fun a b => f a ≤ f b :=
  List.foldlRecOn xs _ .nil fun _ h x _ => pairwise_insertBy f x h

/-! ### The active set and its oldest ready group (R50, R351) -/

/-- Group a goes before group b in the order of the active set, or is level with it. -/
def Group.NotYounger (a b : Group) : Prop :=
  (a.yielded = false ∧ b.yielded = true) ∨ (a.yielded = b.yielded ∧ a.startNo ≤ b.startNo)

theorem Group.NotYounger.not_older {a b : Group} (h : a.NotYounger b) :
    ¬ ((b.yielded = false ∧ a.yielded = true) ∨ (b.yielded = a.yielded ∧ b.startNo < a.startNo)) := by
  rcases h with ⟨ha, hb⟩ | ⟨hyield, hstart⟩
  · simp [ha, hb]
  · simp [hyield, hstart]

theorem State.mem_activeSet {s : State} {core part : Nat} {g : Group} :
    g ∈ s.activeSet core part ↔
      g ∈ s.groups ∧ g.core = core ∧ g.part = part ∧ g.resident = true ∧ g.retired = false ∧ g.active = true := by
  simp only [State.activeSet, List.mem_append, List.mem_filter, (sortOn_perm _ _).mem_iff, State.coreGroups,
    Bool.and_eq_true, beq_iff_eq, Bool.not_eq_true']
  cases g.yielded <;> simp <;> tauto

theorem State.pairwise_activeSet (s : State) (core part : Nat) : (s.activeSet core part).Pairwise Group.NotYounger := by
  have level : ∀ (gs : List Group) (f : Group → Bool),
      (∀ a b, f a = true → f b = true → a.yielded = b.yielded) →
        ((sortOn (·.startNo) gs).filter f).Pairwise Group.NotYounger := fun gs f hf =>
    List.pairwise_filter.2 ((pairwise_sortOn _ gs).imp fun h ha hb => .inr ⟨hf _ _ ha hb, h⟩)
  unfold State.activeSet
  refine List.pairwise_append.2 ⟨level _ _ fun a b ha hb => ?_, level _ _ fun a b ha hb => ?_, fun a ha b hb => ?_⟩
  · simp_all
  · exact ha.trans hb.symm
  · exact .inl ⟨by simpa using List.of_mem_filter ha, List.of_mem_filter hb⟩

theorem contends_iff {s : State} {core part : Nat} {g : Group} :
    Claim.contends s core part g ↔ g ∈ s.activeSet core part ∧ s.groupReady g = true := by
  simp only [Claim.contends, State.mem_activeSet, and_assoc]

/-- The first ready group of the active set is the oldest one. -/
theorem State.find?_activeSet {s : State} {core part : Nat} {z : Group} (h : Claim.Oldest s core part z) :
    (s.activeSet core part).find? s.groupReady = some z := by
  obtain ⟨hz, hready⟩ := contends_iff.1 h.ready
  obtain ⟨g, hg⟩ := Option.isSome_iff_exists.1 (List.find?_isSome.2 ⟨z, hz, hready⟩)
  obtain ⟨hgr, before, after, hsplit, hbefore⟩ := List.find?_eq_some_iff_append.1 hg
  by_cases hgz : g = z
  · rw [hg, hgz]
  · have hlater : z ∈ after := by
      rw [hsplit, List.mem_append, List.mem_cons] at hz
      rcases hz with hz | rfl | hz
      · simpa [hready] using hbefore z hz
      · exact absurd rfl hgz
      · exact hz
    have hpair := s.pairwise_activeSet core part
    rw [hsplit] at hpair
    have hgz' : g.NotYounger z := List.rel_of_pairwise_cons (List.pairwise_append.1 hpair).2.1 hlater
    exact absurd (h.first g (contends_iff.2 ⟨by simp [hsplit], hgr⟩) hgz) hgz'.not_older

/-! ### The word that a step tries (R45, R47, R180, R351) -/

theorem State.nextTurn_cur (s : State) : s.nextTurn.2.cur = s.cur := by
  unfold State.nextTurn
  split <;> rfl

theorem State.tryGroup_buffered {s : State} {x : Group} {p : Nat} (hb : x.buffered = some p) (hc : s.closureReady x = false) :
    s.tryGroup x = s.tryPath x p := by
  simp [State.tryGroup, hb, hc]

/-- An issue slot that a buffered path may take: the only group of the active set tries its own path, a path that cannot
issue is tried again, and else the first ready group of the active set issues. -/
theorem State.chooseIssue_of_mayIssue {s : State} {y : Group} {q : Nat} (h : Claim.MayIssue s y q) :
    ((s.activeSet y.core y.part).length = 1 →
      s.chooseIssue y.uid q = (s.clearYields y.core y.part).tryGroup { y with yielded := false }) ∧
    ((s.activeSet y.core y.part).length ≠ 1 →
      (s.pathReady y q = false → s.chooseIssue y.uid q = s.tryPath y q) ∧
      ∀ z, s.pathReady y q = true → (s.activeSet y.core y.part).find? s.groupReady = some z →
        s.chooseIssue y.uid q = (s.clearYields y.core y.part).tryGroup { z with yielded := false }) := by
  obtain ⟨hgroup, ⟨hactive, hresident, hretired, hhandler, hgraced⟩, hready, hfetched, hform⟩ := h
  simp only [State.chooseIssue, hgroup, hactive, hresident, hretired, hhandler, hgraced, hready, hfetched, hform,
    Option.isSome_none, bne_self_eq_false, Bool.not_true, Bool.or_false, Bool.false_eq_true, if_false]
  refine ⟨fun hlone => ?_, fun hmany => ⟨fun hheld => ?_, fun z hissues hz => ?_⟩⟩
  · obtain ⟨g, hg⟩ := List.length_eq_one_iff.1 hlone
    rw [hg]
  · split
    · next hg => exact absurd (by rw [hg]; rfl) hmany
    · simp [hheld]
  · split
    · next hg => exact absurd (by rw [hg]; rfl) hmany
    · simp [hissues, hz]

/-- The turn that is slotted tries the word or header of its path, in a state of the slot's time. -/
theorem State.choice_of_slotted {s u : State} {x : Group} {p : Nat} (h : Claim.Slotted s u x p) :
    ∃ v, s.tick.choice = (v, u.tryPath x p) ∧ v.cur = s.cur ∧ v.mem = u.mem ∧ v.hostMem = u.hostMem := by
  obtain ⟨v, y, q, hturn, hmay, hslot⟩ := h
  obtain ⟨hlone, hmany⟩ := State.chooseIssue_of_mayIssue hmay
  have hchoice : s.tick.choice = (v, v.chooseIssue y.uid q) := by
    simp only [State.choice, hturn, State.choose]
  have hcur : v.cur = s.cur := by
    have := s.tick.nextTurn_cur
    rw [hturn] at this
    exact this
  refine ⟨v, ?_, hcur, ?_⟩
  · rw [hchoice]
    congr 1
    rcases hslot with ⟨hn, hheld, rfl, rfl, rfl⟩ | ⟨z, hz, hbuffered, rfl, rfl, hclosure⟩
    · exact (hmany hn).1 hheld
    · rw [← State.tryGroup_buffered (x := { z with yielded := false }) hbuffered hclosure]
      rcases hz with ⟨hl, rfl⟩ | ⟨hn, hready, hold⟩
      · exact hlone hl
      · exact (hmany hn).2 z hready (State.find?_activeSet hold)
  · rcases hslot with ⟨-, -, rfl, -, -⟩ | ⟨z, -, -, -, rfl, -⟩ <;> exact ⟨rfl, rfl⟩

/-- The step whose turn issues a word chooses what the checks of that word say. -/
theorem State.choice_of_issues {s t : State} {x : Group} {p : Nat} (h : Claim.Issues s t x p) :
    ∃ v, s.tick.choice = (v, t.chooseWord x p) ∧ v.cur = s.cur ∧ v.mem = t.mem ∧ v.hostMem = t.hostMem := by
  obtain ⟨u, w, hslot, hword⟩ := h
  obtain ⟨v, hchoice, hcur, hmem, hhost⟩ := State.choice_of_slotted hslot
  rcases hword with ⟨hin, rfl, rfl⟩ | ⟨hheader, hpoison, hover, rfl, rfl⟩
  · refine ⟨v, ?_, hcur, hmem, hhost⟩
    simp [hchoice, State.tryPath, hin]
  · refine ⟨v, ?_, hcur, hmem, hhost⟩
    simp [hchoice, State.tryPath, hheader, hpoison, hover, Group.entered]

/-! ### A step that stops the path at its word (R64, R84, R390) -/

theorem State.butRows_landWakes (s a : State) : Claim.ButRows (s.landWakes a) a := by
  refine ⟨rfl, ?_⟩
  simp [State.landWakes, Group.woke]

/-- Where no path stood at issue, settling a step wakes rows and leaves no path at issue. -/
theorem State.settled_of_cur_none {s : State} (h : s.cur = none) (a : State) :
    s.settled a = { s.landWakes a with cur := none, issued := none } := by
  simp only [State.settled, h]

theorem step_of_word_stop {s t a : State} {x : Group} {p : Nat} (hcur : s.cur = none) (h : Claim.Issues s t x p)
    (hstop : t.chooseWord x p = .set a) :
    ∃ u, step s = .next u ∧ Claim.ButRows u { Claim.committed t a with cur := none, issued := none } := by
  obtain ⟨v, hchoice, hv, hmem, hhost⟩ := State.choice_of_issues h
  have hstep : step s = .next (v.settled (Claim.committed t a)) := by
    simp only [step, hchoice, hstop, commit, settle, Claim.committed, hmem, hhost]
  rw [State.settled_of_cur_none (hv.trans hcur)] at hstep
  exact ⟨_, hstep, rfl, (v.butRows_landWakes (Claim.committed t a)).2⟩

/-! ### The checks of a word, in order (R62 to R64) -/

section
variable {s : State} {x : Group} {p : Nat} (h : Claim.unmet s x p)

/-- A word that no check of the privilege stops, in the words of the model's own test. -/
theorem not_denied {w : Nat} {control : Bool} (hallowed : Claim.system w = true → control = true) :
    (decide (0x380 ≤ opOf w) && decide (opOf w ≤ 0x38F) && !control) = false := by
  rw [← Claim.system]
  cases hw : Claim.system w
  · rfl
  · simp [hallowed hw]

include h

theorem State.chooseWord_of_denied (hsystem : Claim.system (x.path p).word.toNat = true) (hcontrol : x.control = false) :
    s.chooseWord x p = .set (s.stopHere x.uid p (Cause.plain 0x03 (x.exec p))) := by
  obtain ⟨hbreak, hreplay⟩ := h
  rw [Claim.system] at hsystem
  simp only [State.chooseWord, hbreak, hreplay, hsystem, hcontrol, Bool.not_false, Bool.and_self, Bool.false_eq_true,
    if_false, if_true]

variable (hallowed : Claim.system (x.path p).word.toNat = true → x.control = true)
include hallowed

theorem State.chooseWord_of_undecoded (hdecode : decode (x.path p).word.toNat = none) :
    s.chooseWord x p = .set (s.stopHere x.uid p (Cause.plain 0x02 (x.exec p))) := by
  obtain ⟨hbreak, hreplay⟩ := h
  simp only [State.chooseWord, hbreak, hreplay, not_denied hallowed, hdecode, Bool.false_eq_true, if_false]

variable {i : Instr} (hdecode : decode (x.path p).word.toNat = some i)
include hdecode

theorem State.chooseWord_of_unfit (hfits : x.fits i = false) :
    s.chooseWord x p = .set (s.stopHere x.uid p (Cause.plain 0x02 (x.exec p))) := by
  obtain ⟨hbreak, hreplay⟩ := h
  simp only [State.chooseWord, hbreak, hreplay, not_denied hallowed, hdecode, hfits, Bool.not_false, Bool.false_eq_true,
    if_false, if_true]

theorem State.chooseWord_of_unlatched (hfits : x.fits i = true)
    (hlatch : ∃ n ∈ latchReads i, latchWritten (x.path p).words (x.path p).pos n = false) :
    s.chooseWord x p = .set (s.stopHere x.uid p (Cause.plain 0x04 (x.exec p))) := by
  obtain ⟨hbreak, hreplay⟩ := h
  have hany : ((latchReads i).any fun n => !latchWritten (x.path p).words (x.path p).pos n) = true := by
    simpa using hlatch
  simp only [State.chooseWord, hbreak, hreplay, not_denied hallowed, hdecode, hfits, hany, Bool.not_true,
    Bool.false_eq_true, if_false, if_true]

end

end Sys2Proof.Machine
end

section
open Sys2Proof Sys2Proof.Machine

/-- Settles O53: the step that issues a word makes the choice of the word's checks, and the first check that fails chooses
the precise stop. -/
theorem wordsAreChecked : Obligations.WordsAreChecked := by
  unfold Obligations.WordsAreChecked
  intro s t x p hcur hissues hunmet w stops
  refine ⟨fun hsystem hcontrol => ?privilege, fun hallowed => ⟨fun hdecode => ?undecoded, fun i hdecode =>
    ⟨fun hfits => ?unfit, fun hfits hlatch => ?unlatched⟩⟩⟩
  case privilege => exact step_of_word_stop hcur hissues (State.chooseWord_of_denied hunmet hsystem hcontrol)
  case undecoded => exact step_of_word_stop hcur hissues (State.chooseWord_of_undecoded hunmet hallowed hdecode)
  case unfit => exact step_of_word_stop hcur hissues (State.chooseWord_of_unfit hunmet hallowed hdecode hfits)
  case unlatched =>
    exact step_of_word_stop hcur hissues (State.chooseWord_of_unlatched hunmet hallowed hdecode hfits hlatch)

end

section
/-! SUPPORT. The model's integer helpers as operations on bit vectors (R40, R41, R97). -/

namespace Sys2Proof.Machine

/-! ### Numbers and N bits -/

theorem toNat_ofInt_eq_wrapInt (n : Nat) (t : Int) : (BitVec.ofInt n t).toNat = wrapInt n t := by
  rw [BitVec.toNat_ofInt, wrapInt]
  norm_cast

theorem sext_eq_toInt (n x : Nat) : sext x n = (BitVec.ofNat n x).toInt := by
  have hsign : (bitAt x (n - 1) && n != 0) = (BitVec.ofNat n x).msb := by
    rw [bitAt_eq_testBit, BitVec.msb_eq_getLsbD_last, BitVec.getLsbD_ofNat, Bool.and_comm]
    cases n <;> simp
  rw [sext, hsign, BitVec.toInt_eq_msb_cond, BitVec.toNat_ofNat, Nat.cast_pow]
  rfl

theorem readInt_eq_num (signed : Bool) (n x : Nat) : readInt signed n x = Claim.num signed (BitVec.ofNat n x) := by
  cases signed
  · simp [readInt, Claim.num, zext]
  · simp [readInt, Claim.num, sext_eq_toInt]

theorem satInt_eq_clamp (signed : Bool) (n : Nat) (t : Int) :
    satInt signed n t =
      if signed then max (-2 ^ (n - 1)) (min (2 ^ (n - 1) - 1) t) else max 0 (min (2 ^ n - 1) t) := by
  have hhalf : (0 : Int) < 2 ^ (n - 1) := by positivity
  have hfull : (0 : Int) < 2 ^ n := by positivity
  cases signed <;> simp only [satInt, Bool.false_eq_true, if_true, if_false] <;> split_ifs <;> omega

theorem fitInt_eq_fitted (mo : IMod) (t : Int) : fitInt mo t = Claim.fitted mo.wide mo.signed mo.sat t := by
  rw [fitInt, ← toNat_ofInt_eq_wrapInt, Claim.fitted]
  cases mo.sat
  · rfl
  · simp only [satInt_eq_clamp]
    rfl

/-! ### The byte dot product (R98) -/

theorem extractLsb'_ofNat {n k len : Nat} (x : Nat) (h : k + len ≤ n) :
    (BitVec.ofNat n x).extractLsb' k len = BitVec.ofNat len (x / 2 ^ k) := by
  refine BitVec.eq_of_getLsbD_eq fun i hi => ?_
  have : k + i < n := by omega
  rw [BitVec.getLsbD_extractLsb', BitVec.getLsbD_ofNat, BitVec.getLsbD_ofNat, Nat.testBit_div_two_pow]
  simp [this, Nat.add_comm]

theorem idp4Sum_eq_dot4 (signed : Bool) (x y z : Nat) :
    idp4Sum signed x y z = Claim.dot4 signed (BitVec.ofNat 32 x) (BitVec.ofNat 32 y) (BitVec.ofNat 32 z) := by
  have hbyte : ∀ i, i < 4 → ∀ w, BitVec.ofNat 8 (w / 2 ^ (8 * i)) = (BitVec.ofNat 32 w).extractLsb' (8 * i) 8 :=
    fun i hi w => (extractLsb'_ofNat w (by omega)).symm
  simp only [idp4Sum, List.range_succ, List.range_zero, List.nil_append, List.cons_append, List.foldl_cons,
    List.foldl_nil, readInt_eq_num, hbyte 0 (by decide), hbyte 1 (by decide), hbyte 2 (by decide), hbyte 3 (by decide)]
  rfl

/-! ### Lists of bits -/

theorem testBit_ofBits (bs : List Bool) (i : Nat) : (ofBits bs).testBit i = bs[i]?.getD false := by
  induction bs generalizing i with
  | nil => simp [ofBits]
  | cons b bs ih =>
    rw [ofBits, Nat.add_comm]
    cases i with
    | zero => cases b <;> simp
    | succ i =>
      have hhalf : (2 * ofBits bs + b.toNat) / 2 = ofBits bs := by have := b.toNat_lt; omega
      rw [Nat.testBit_succ, List.getElem?_cons_succ, hhalf, ih]

theorem testBit_ofBits_map_range (n : Nat) (f : Nat → Bool) (i : Nat) :
    (ofBits ((List.range n).map f)).testBit i = (decide (i < n) && f i) := by
  rw [testBit_ofBits, List.getElem?_map]
  by_cases h : i < n <;> simp [h]

/-- A list of n bits as a number is an N-bit value with those bits. -/
theorem ofBits_map_range_eq_toNat {n : Nat} {f : Nat → Bool} {u : BitVec n} (h : ∀ i, i < n → f i = u.getLsbD i) :
    ofBits ((List.range n).map f) = u.toNat := by
  refine Nat.eq_of_testBit_eq fun i => ?_
  rw [testBit_ofBits_map_range, BitVec.testBit_toNat]
  by_cases hi : i < n
  · simp [hi, h i hi]
  · simp [hi, u.getLsbD_of_ge i (by omega)]

theorem toBits_toNat {n : Nat} (u : BitVec n) : toBits u.toNat n = (List.range n).map u.getLsbD :=
  List.map_congr_left fun i _ => by rw [bitAt_eq_testBit, BitVec.testBit_toNat]

theorem reverse_toBits_toNat {n : Nat} (u : BitVec n) : (toBits u.toNat n).reverse = (List.range n).map u.getMsbD := by
  rw [toBits_toNat, ← List.map_reverse, List.range_eq_range', List.reverse_range', ← List.range_eq_range', List.map_map]
  refine List.map_congr_left fun i hi => ?_
  have : i < n := List.mem_range.1 hi
  simp [BitVec.getMsbD_eq_getLsbD, this]

/-- The zeros before the first one bit of a list are as many as its index, or all. -/
theorem length_takeWhile_not_map_range (n : Nat) (f : Nat → Bool) :
    (((List.range n).map f).takeWhile (!·)).length = ((List.range n).find? f).getD n := by
  rw [List.takeWhile_eq_take_findIdx_not, List.length_take, Nat.min_eq_left List.findIdx_le_length]
  simp only [Bool.not_not, List.findIdx_map, Function.comp_def]
  cases h : (List.range n).find? f with
  | none =>
    have hnone : ∀ i ∈ List.range n, f i = false := by simpa using h
    simpa using List.findIdx_eq_length_of_false hnone
  | some i =>
    obtain ⟨hf, hi, hbefore⟩ := List.find?_range_eq_some.1 h
    have hlen : i < (List.range n).length := by simpa using hi
    exact (List.findIdx_eq hlen).2 (by simpa [hf] using hbefore)

/-! ### Logic and shifts of N bits (R99 to R101) -/

theorem notN_toNat {wide : Bool} (u : BitVec (Claim.width wide)) : notN wide u.toNat = (~~~u).toNat := by
  rw [notN, BitVec.toNat_not, Nat.mod_eq_of_lt (show u.toNat < 2 ^ widthOf wide from u.isLt)]
  rfl

theorem shlN_toNat {n : Nat} (u : BitVec n) (k : Nat) : shlN n u.toNat k = (u <<< k).toNat := by
  unfold shlN
  split
  · next h => rw [BitVec.shiftLeft_eq_zero h, BitVec.toNat_zero]
  · rw [BitVec.toNat_shiftLeft, Nat.shiftLeft_eq]

theorem shrN_toNat {n : Nat} (u : BitVec n) (k : Nat) : shrN n u.toNat k = (u >>> k).toNat := by
  unfold shrN
  split
  · next h => rw [BitVec.ushiftRight_eq_zero h, BitVec.toNat_zero]
  · rw [BitVec.toNat_ushiftRight, Nat.shiftRight_eq_div_pow, Nat.mod_eq_of_lt u.isLt]

/-- An arithmetic shift by N or more is the shift by N: only the sign is left. -/
theorem sshiftRight_min {n : Nat} (u : BitVec n) (k : Nat) : u.sshiftRight (min k n) = u.sshiftRight k := by
  rcases Nat.le_total k n with h | h
  · rw [Nat.min_eq_left h]
  · rw [Nat.min_eq_right h]
    refine BitVec.eq_of_getLsbD_eq fun i _ => ?_
    rw [BitVec.getLsbD_sshiftRight, BitVec.getLsbD_sshiftRight, if_neg (by omega), if_neg (by omega)]

theorem sarN_toNat {n : Nat} (u : BitVec n) (k : Nat) : sarN n u.toNat k = (u.sshiftRight k).toNat := by
  rw [sarN, sext_eq_toInt, BitVec.ofNat_toNat, BitVec.setWidth_eq, ← toNat_ofInt_eq_wrapInt, ← sshiftRight_min,
    BitVec.sshiftRight, Int.shiftRight_eq_div_pow, Int.fdiv_eq_ediv_of_nonneg _ (by positivity)]
  norm_cast

/-- The bits that leave above enter below: the two parts of a rotation have no bit in common. -/
theorem rotN_toNat {n : Nat} (u : BitVec n) (k : Nat) : rotN n u.toNat k = (u.rotateLeft k).toNat := by
  rcases Nat.eq_zero_or_pos n with rfl | hn
  · simp [rotN, Nat.mod_one, BitVec.eq_nil u]
  have hj : k % n < n := Nat.mod_lt k hn
  have hsplit : 2 ^ n = 2 ^ (k % n) * 2 ^ (n - k % n) := by rw [← pow_add]; congr 1; omega
  have hhigh : u.toNat * 2 ^ (k % n) % 2 ^ n = 2 ^ (k % n) * (u.toNat % 2 ^ (n - k % n)) := by
    rw [hsplit, Nat.mul_comm, Nat.mul_mod_mul_left]
  have hlow : u.toNat / 2 ^ (n - k % n) < 2 ^ (k % n) :=
    Nat.div_lt_of_lt_mul (by rw [Nat.mul_comm, ← hsplit]; exact u.isLt)
  rw [rotN, BitVec.toNat_rotateLeft, Nat.shiftLeft_eq, Nat.shiftRight_eq_div_pow, Nat.mod_eq_of_lt u.isLt, hhigh,
    Nat.two_pow_add_eq_or_of_lt hlow]

theorem toNat_append_eq_add {m n : Nat} (v : BitVec m) (u : BitVec n) : (v ++ u).toNat = v.toNat * 2 ^ n + u.toNat := by
  rw [BitVec.toNat_append, Nat.shiftLeft_eq, Nat.mul_comm, Nat.two_pow_add_eq_or_of_lt u.isLt]

/-- The model's pair {b, a} of two N-bit numbers is b and a side by side. -/
theorem pair_toNat {n : Nat} (u v : BitVec n) : v.toNat % 2 ^ n * 2 ^ n + u.toNat % 2 ^ n = (v ++ u).toNat := by
  rw [Nat.mod_eq_of_lt u.isLt, Nat.mod_eq_of_lt v.isLt, toNat_append_eq_add]

theorem shfN_right_toNat {n : Nat} (u v : BitVec n) (k : Nat) :
    shfN false n u.toNat v.toNat k = (((v ++ u) >>> min k n).setWidth n).toNat := by
  simp only [shfN, Bool.false_eq_true, if_false, BitVec.toNat_setWidth, BitVec.toNat_ushiftRight,
    Nat.shiftRight_eq_div_pow, pair_toNat]

theorem shfN_left_toNat {n : Nat} (u v : BitVec n) (k : Nat) :
    shfN true n u.toNat v.toNat k = ((((v ++ u) <<< min k n) >>> n).setWidth n).toNat := by
  simp only [shfN, if_true, BitVec.toNat_setWidth, BitVec.toNat_ushiftRight, BitVec.toNat_shiftLeft, Nat.shiftLeft_eq,
    Nat.shiftRight_eq_div_pow, pair_toNat, pow_add, Nat.mod_mul_right_div_self, Nat.mod_mod]

/-! ### Bit fields, counts and byte selection (R102 to R105) -/

/-- The field of bfx, copied bit by bit, with the sign above the operand where it is signed. -/
theorem ofNat_field {n : Nat} (signed : Bool) (u : BitVec n) (pos len : Nat) (h : len ≤ n) :
    BitVec.ofNat len (ofBits ((List.range len).map fun i =>
      if pos + i < n then bitAt u.toNat (pos + i) else signed && bitAt u.toNat (n - 1))) =
      (if signed then u.sshiftRight pos else u >>> pos).setWidth len := by
  refine BitVec.eq_of_getLsbD_eq fun i hi => ?_
  have hin : i < n := by omega
  rw [BitVec.getLsbD_ofNat, testBit_ofBits_map_range, BitVec.getLsbD_setWidth]
  simp only [hi, decide_true, Bool.true_and, bitAt_eq_testBit, BitVec.testBit_toNat]
  cases signed
  · by_cases hp : pos + i < n
    · simp [hp]
    · simp [hp, u.getLsbD_of_ge (pos + i) (by omega)]
  · rw [if_pos rfl, BitVec.getLsbD_sshiftRight, BitVec.msb_eq_getLsbD_last]
    simp [hin]

theorem bfxN_toNat {n : Nat} (signed : Bool) (u : BitVec n) (pos len : Nat) :
    bfxN signed n u.toNat pos len = (Claim.field signed u pos len).toNat := by
  by_cases h0 : min len n = 0
  · cases signed <;> simp [bfxN, Claim.field, BitVec.signExtend, BitVec.toInt_setWidth, h0, Nat.mod_one]
  · simp only [bfxN, h0, if_false, readInt_eq_num, ofNat_field signed u pos _ (Nat.min_le_right len n)]
    rw [← toNat_ofInt_eq_wrapInt]
    cases signed
    · rw [Claim.num, if_neg Bool.false_ne_true, BitVec.ofInt_natCast, BitVec.ofNat_toNat]
      rfl
    · simp [Claim.field, Claim.num, BitVec.signExtend]

theorem bfiN_toNat {n : Nat} (u v : BitVec n) (c : Nat) : bfiN n u.toNat v.toNat c = (Claim.inserted u v c).toNat := by
  refine ofBits_map_range_eq_toNat fun i hi => ?_
  simp only [Claim.inserted, bitAt_eq_testBit, BitVec.testBit_toNat, BitVec.getLsbD_or, BitVec.getLsbD_and,
    BitVec.getLsbD_not, BitVec.getLsbD_shiftLeft, BitVec.getLsbD_setWidth, BitVec.getLsbD_allOnes, hi, decide_true,
    Bool.true_and]
  have hin : i - c % 256 < n := by omega
  by_cases hlow : i < c % 256
  · simp [hlow, Nat.not_le_of_lt hlow]
  · have hlen : i < c % 256 + c / 256 % 256 ↔ i - c % 256 < c / 256 % 256 := by omega
    by_cases hhigh : i - c % 256 < c / 256 % 256 <;> simp [hlow, Nat.le_of_not_lt hlow, hlen, hhigh, hin]

theorem popcount_toNat {n : Nat} (u : BitVec n) : popcount u.toNat n = (List.range n).countP u.getLsbD := by
  rw [popcount, toBits_toNat, List.count, List.countP_map]
  exact List.countP_congr fun i _ => by simp

theorem clzN_toNat {n : Nat} (u : BitVec n) : clzN u.toNat n = ((List.range n).find? u.getMsbD).getD n := by
  rw [clzN, reverse_toBits_toNat, length_takeWhile_not_map_range]

theorem ctzN_toNat {n : Nat} (u : BitVec n) : ctzN u.toNat n = ((List.range n).find? u.getLsbD).getD n := by
  rw [ctzN, toBits_toNat, length_takeWhile_not_map_range]

theorem brevN_toNat {n : Nat} (u : BitVec n) : brevN u.toNat n = u.reverse.toNat := by
  rw [brevN, reverse_toBits_toNat]
  exact ofBits_map_range_eq_toNat fun i _ => (BitVec.getLsbD_reverse ..).symm

theorem permByte_toNat (u v : BitVec 32) (c i : Nat) : permByte u.toNat v.toNat c i = (Claim.selByte u v c i).toNat := by
  have hbyte : ∀ k, (v ++ u).toNat / 2 ^ k % 256 = ((v ++ u).extractLsb' k 8).toNat := fun k => by
    rw [BitVec.extractLsb'_toNat, Nat.shiftRight_eq_div_pow]
  simp only [permByte, Claim.selByte, pair_toNat, hbyte, BitVec.msb_eq_decide, decide_eq_true_eq]
  rcases Nat.lt_or_ge (c / 2 ^ (4 * i) % 16) 8 with h | h
  · rw [if_neg (Nat.not_le_of_lt h), if_pos h]
  · rw [if_pos h, if_neg (Nat.not_lt_of_ge h), apply_ite BitVec.toNat]
    rfl

theorem permN_toNat (u v : BitVec 32) (c : Nat) :
    permN u.toNat v.toNat c = (Claim.selByte u v c 3 ++ Claim.selByte u v c 2 ++ Claim.selByte u v c 1 ++
      Claim.selByte u v c 0).toNat := by
  have hbyte : ∀ i, permByte u.toNat v.toNat c i % 2 ^ 8 = (Claim.selByte u v c i).toNat := fun i => by
    rw [permByte_toNat, Nat.mod_eq_of_lt (BitVec.isLt _)]
  simp only [permN, List.range_succ, List.range_zero, List.nil_append, List.cons_append, List.map_cons, List.map_nil,
    packFields, hbyte, toNat_append_eq_add]
  omega

end Sys2Proof.Machine
end

section
/-! SUPPORT. The integer and bit forms by their shapes: a form that nothing holds completes with its function of the values
of its operands (R36 to R38, R93 to R105). -/

namespace Sys2Proof.Machine

open Claim

/-! ### The values of operands (R32, R54, R66 to R69) -/

/-- A source that a vector or uniform form admits fits in N bits. -/
theorem arg_lt {uniform wide : Bool} {a : Src} (h : a.arg uniform wide = true) (s : State) (x : Group) (p l : Nat) :
    arg s x p a wide l < 2 ^ width wide := by
  cases a with
  | v n =>
    have hlow := (x.vGet n l).isLt
    have hhigh := (x.vGet (n + 1) l).isLt
    cases wide <;> simp [arg, opI, Oper.val] <;> omega
  | b n =>
    have hlatch := ((x.path p).latchGet n l).isLt
    cases wide <;> simp [arg, opI, Oper.val] <;> omega
  | s n =>
    have hword := (x.sGet n).isLt
    cases wide <;> simp [arg, opI, Oper.val] <;> omega
  | imm i =>
    have h := (BitVec.ofInt (width wide) i.toInt).isLt
    rwa [toNat_ofInt_eq_wrapInt] at h
  | m n => cases uniform <;> cases h
  | idn n => cases uniform <;> cases h

theorem toNat_word {uniform wide : Bool} {a : Src} (h : a.arg uniform wide = true) (s : State) (x : Group) (p l : Nat) :
    (word s x p a wide l).toNat = arg s x p a wide l := by
  rw [word, BitVec.toNat_ofNat, Nat.mod_eq_of_lt (arg_lt h s x p l)]

/-- A 32-bit amount or selector, read as its low 32 bits. -/
theorem arg_mod {uniform : Bool} {a : Src} (h : a.arg uniform false = true) (s : State) (x : Group) (p l : Nat) :
    arg s x p a false l % 2 ^ 32 = arg s x p a false l := Nat.mod_eq_of_lt (arg_lt h s x p l)

/-! ### Forms by their shapes -/

section
variable {s : State} {x : Group} {p : Nat} {i : Instr} {d : Dst} {a b c : Src} {wide sign : Bool}

theorem Alu.reads_of_not_old {f : Alu} (h : f.old = false) : f.reads = f.srcs.map fun o => (o.src, o.wide) := by
  simp only [Alu.reads, Alu.oldSrc, h, List.append_nil]

/-- A form of sources alone completes with its function of their values. -/
theorem aluInt_computes {srcs : List Oper} {f : (Nat → Nat) → Nat} {r : Nat → Nat}
    (hexec : exec i s = commit s (aluIssue (aluInt d wide sign srcs f) s))
    (h : Runs s x p (srcs.map fun o => (o.src, o.wide)) d wide)
    (hr : ∀ l, f (fun k => ((srcs[k]?).map fun o => o.val s x p l).getD 0) = r l) :
    Computes (exec i s) s x p d wide sign r .none := by
  have hfree : Unheld x p (aluInt d wide sign srcs f).reads (x.dstRegs d wide) := by
    rw [Alu.reads_of_not_old rfl]
    exact h.free
  rw [hexec]
  exact aluIssue_int h.issue hfree rfl rfl fun l => congrArg (·, FFlags.none) (hr l)

/-- An arithmetic form completes with the exact result on its operands, wrapped or saturated once (R97). -/
theorem aluArith_computes {mo : IMod} {srcs : List Src} {t : Int → Int → Int → Int} {r : Nat → Int}
    (hexec : exec i s = commit s (aluIssue (aluArith mo d srcs t) s))
    (hr : let n := fun k l =>
        num mo.signed (BitVec.ofNat (width mo.wide) (((srcs[k]?).map fun a => arg s x p a mo.wide l).getD 0))
      ∀ l, t (n 0 l) (n 1 l) (n 2 l) = r l)
    (h : Runs s x p (srcs.map fun a => (a, mo.wide)) d mo.wide) :
    Computes (exec i s) s x p d mo.wide mo.signed (fun l => fitted mo.wide mo.signed mo.sat (r l)) .none := by
  have hsrcs : (srcs.map fun a => opI a mo.wide).map (fun o => (o.src, o.wide)) = srcs.map fun a => (a, mo.wide) := by
    rw [List.map_map]; rfl
  refine aluInt_computes hexec (hsrcs ▸ h) fun l => ?_
  simp only [← hr, fitInt_eq_fitted, readInt_eq_num, List.getElem?_map, Option.map_map]
  rfl

/-- A form of two N-bit operands (R99). -/
theorem aluLogic_computes {f : Nat → Nat → Nat} {r : Nat → BitVec (width wide)}
    (hexec : exec i s = commit s (aluIssue (aluLogic wide d a b f) s))
    (hr : ∀ l, f (word s x p a wide l).toNat (word s x p b wide l).toNat = (r l).toNat)
    (h : Runs s x p [(a, wide), (b, wide)] d wide) (hwf : (d.vs wide && a.arg d.isS wide && b.arg d.isS wide) = true) :
    Computes (exec i s) s x p d wide false (fun l => (r l).toNat) .none := by
  simp only [Bool.and_eq_true] at hwf
  obtain ⟨⟨-, ha⟩, hb⟩ := hwf
  exact aluInt_computes hexec h fun l => by rw [← hr l, toNat_word ha, toNat_word hb]; rfl

/-- A shift of an N-bit operand by a 32-bit amount (R100). -/
theorem aluShift_computes {f : Nat → Nat → Nat → Nat} {r : Nat → BitVec (width wide)}
    (hexec : exec i s = commit s (aluIssue (aluShift wide d a b f) s))
    (hr : ∀ l, f (width wide) (word s x p a wide l).toNat (arg s x p b false l % 2 ^ 32) = (r l).toNat)
    (h : Runs s x p [(a, wide), (b, false)] d wide) (hwf : (d.vs wide && a.arg d.isS wide && b.arg d.isS false) = true) :
    Computes (exec i s) s x p d wide false (fun l => (r l).toNat) .none := by
  simp only [Bool.and_eq_true] at hwf
  obtain ⟨⟨-, ha⟩, hb⟩ := hwf
  exact aluInt_computes hexec h fun l => by rw [← hr l, toNat_word ha, arg_mod hb]; rfl

/-- A count or reversal of N bits (R104). -/
theorem aluBits_computes {f : Nat → Nat → Nat} {r : Nat → Nat}
    (hexec : exec i s = commit s (aluIssue (aluBits wide d a f) s))
    (hr : ∀ l, f (word s x p a wide l).toNat (width wide) = r l)
    (h : Runs s x p [(a, wide)] d wide) (hwf : (d.vs wide && a.arg d.isS wide) = true) :
    Computes (exec i s) s x p d wide false r .none := by
  simp only [Bool.and_eq_true] at hwf
  obtain ⟨-, ha⟩ := hwf
  exact aluInt_computes hexec h fun l => by rw [← hr l, toNat_word ha]; rfl

/-- A form of an N-bit operand, a second one of N or 32 bits, and a 32-bit one: the funnel shift, the bit fields, and at
32 bits perm (R101 to R103, R105). -/
theorem aluThree_computes {second : Bool} {f : Nat → Nat → Nat → Nat} {r : Nat → Nat}
    (hexec : exec i s = commit s (aluIssue (aluInt d wide sign [opI a wide, opI b second, opI c false] fun v =>
      f (v 0) (v 1) (v 2)) s))
    (hr : ∀ l, f (word s x p a wide l).toNat (word s x p b second l).toNat (arg s x p c false l % 2 ^ 32) = r l)
    (h : Runs s x p [(a, wide), (b, second), (c, false)] d wide)
    (hwf : (d.vs wide && a.arg d.isS wide && b.arg d.isS second && c.arg d.isS false) = true) :
    Computes (exec i s) s x p d wide sign r .none := by
  simp only [Bool.and_eq_true] at hwf
  obtain ⟨⟨⟨-, ha⟩, hb⟩, hc⟩ := hwf
  exact aluInt_computes hexec h fun l => by rw [← hr l, toNat_word ha, toNat_word hb, arg_mod hc]; rfl

end

end Sys2Proof.Machine
end

section
open Sys2Proof Sys2Proof.Machine Sys2Proof.Claim

/-- R97: a form computes on its operands as its signedness reads them; imulh divides their product, rounding down. -/
theorem integerArithmetic : Part.IntegerArithmetic := by
  unfold Part.IntegerArithmetic
  intro s x p mo d a b c n done cut
  refine ⟨fun h => ⟨fun _ => ?iabs, fun _ => ?ineg⟩, fun h => ⟨fun _ => ?iadd, fun _ => ?isub, fun _ => ?imul,
    fun _ => ?imulh, fun _ => ?imin, fun _ => ?imax⟩, fun h _ => ?imad⟩
  case iabs => exact aluArith_computes (srcs := [a]) rfl (fun _ => rfl) h
  case ineg => exact aluArith_computes (srcs := [a]) rfl (fun _ => rfl) h
  case iadd => exact aluArith_computes (srcs := [a, b]) rfl (fun _ => rfl) h
  case isub => exact aluArith_computes (srcs := [a, b]) rfl (fun _ => rfl) h
  case imul => exact aluArith_computes (srcs := [a, b]) rfl (fun _ => rfl) h
  case imulh =>
    exact aluArith_computes (mo := ⟨mo.wide, mo.signed, false⟩) (srcs := [a, b]) rfl
      (fun _ => Int.fdiv_eq_ediv_of_nonneg _ (by positivity)) h
  case imin => exact aluArith_computes (mo := ⟨mo.wide, mo.signed, false⟩) (srcs := [a, b]) rfl (fun _ => rfl) h
  case imax => exact aluArith_computes (mo := ⟨mo.wide, mo.signed, false⟩) (srcs := [a, b]) rfl (fun _ => rfl) h
  case imad => exact aluArith_computes (srcs := [a, b, c]) rfl (fun _ => rfl) h

/-- R98: the model's sum over four bytes is the sum of the four products. -/
theorem byteDotProduct : Part.ByteDotProduct := by
  unfold Part.ByteDotProduct
  intro s x p signed sat d a b c h _
  exact aluInt_computes rfl h fun l => (fitInt_eq_fitted ⟨false, signed, sat⟩ _).trans
    (congrArg (fitted false signed sat) (idp4Sum_eq_dot4 ..))

/-- R99 to R101, by the operation on N bits of each form. -/
theorem logicAndShifts : Part.LogicAndShifts := by
  unfold Part.LogicAndShifts
  intro s x p wide d a b c n u k done
  refine ⟨fun h => ⟨?and, ?or, ?xor, ?andn, ?orn⟩, fun h => ⟨?shl, ?shr, ?sar, ?rot⟩, fun h => ⟨?right, ?left⟩⟩
  case and => exact aluLogic_computes rfl (fun l => (BitVec.toNat_and ..).symm) h
  case or => exact aluLogic_computes rfl (fun l => (BitVec.toNat_or ..).symm) h
  case xor => exact aluLogic_computes rfl (fun l => (BitVec.toNat_xor ..).symm) h
  case andn => exact aluLogic_computes rfl (fun l => by rw [notN_toNat, BitVec.toNat_and]) h
  case orn => exact aluLogic_computes rfl (fun l => by rw [notN_toNat, BitVec.toNat_or]) h
  case shl => exact aluShift_computes rfl (fun l => shlN_toNat _ _) h
  case shr => exact aluShift_computes rfl (fun l => shrN_toNat _ _) h
  case sar => exact aluShift_computes rfl (fun l => sarN_toNat _ _) h
  case rot => exact aluShift_computes rfl (fun l => rotN_toNat _ _) h
  case right => exact aluThree_computes rfl (fun l => shfN_right_toNat _ _ _) h
  case left => exact aluThree_computes rfl (fun l => shfN_left_toNat _ _ _) h

/-- R102 to R105, by the operation on N bits of each form. -/
theorem bitFields : Part.BitFields := by
  unfold Part.BitFields
  intro s x p wide signed d a b c n u k done
  refine ⟨fun h => ?bfx, fun h => ?bfi, fun h => ⟨?popc, ?clz, ?ctz, ?brev⟩, ?perm⟩
  case bfx => exact aluThree_computes rfl (fun l => bfxN_toNat _ _ _ _) h
  case bfi => exact aluThree_computes rfl (fun l => bfiN_toNat _ _ _) h
  case popc => exact aluBits_computes rfl (fun l => popcount_toNat _) h
  case clz => exact aluBits_computes rfl (fun l => clzN_toNat _) h
  case ctz => exact aluBits_computes rfl (fun l => ctzN_toNat _) h
  case brev => exact aluBits_computes rfl (fun l => brevN_toNat _) h
  case perm => exact aluThree_computes (wide := false) rfl (fun l => permN_toNat _ _ _)

end

section
open Sys2Proof Sys2Proof.Machine

/-- Settles O1: the model's readings, wrap and saturation are those of R97, and each form applies them once to the exact
result on its operands. -/
theorem integerForms : Obligations.IntegerForms := by
  unfold Obligations.IntegerForms
  exact ⟨integerArithmetic, byteDotProduct⟩

/-- Settles O2: on operands of N bits, each form's function of numbers is the bit-vector operation that its rule names. -/
theorem bitForms : Obligations.BitForms := by
  unfold Obligations.BitForms
  exact ⟨logicAndShifts, bitFields⟩

end

section
/-! SUPPORT. Rounding on a format's grid: what an encoding stands for, how many steps a magnitude rounds to, and the
encoding of that many steps (R121, R124 to R127). -/

namespace Sys2Proof.Machine

open Claim

/-! ### The grid of a format (R121) -/

theorem gridVal_of_lt {f : FFmt} {x : Nat} (h : x < 2 ^ f.fbits) : gridVal f x = (x, 1 - f.bias - f.fbits) := by
  simp [gridVal, Nat.div_eq_of_lt h]

theorem gridVal_normal {f : FFmt} {E F : Nat} (hE : E ≠ 0) (hF : F < 2 ^ f.fbits) :
    gridVal f (E * 2 ^ f.fbits + F) = (2 ^ f.fbits + F, E - f.bias - f.fbits) := by
  have hdiv : (E * 2 ^ f.fbits + F) / 2 ^ f.fbits = E := by
    rw [Nat.mul_comm, Nat.mul_add_div (Nat.two_pow_pos _), Nat.div_eq_of_lt hF, Nat.add_zero]
  simp [gridVal, hdiv, hE, Nat.mod_eq_of_lt hF]

/-- The magnitude that an encoding without sign stands for, on the grid with unbounded exponents. -/
def FFmt.mag (f : FFmt) (x : Nat) : ℚ := (gridVal f x).1 * 2 ^ (gridVal f x).2

/-- `n` steps of the grid's `E`-th spacing, an end of its binade included, are encoded by `n` places above `E` binades. -/
theorem FFmt.mag_steps {f : FFmt} {E n : Nat} (hlow : E = 0 ∨ 2 ^ f.fbits ≤ n) (hhigh : n ≤ 2 ^ (f.fbits + 1)) :
    f.mag (E * 2 ^ f.fbits + n) = n * 2 ^ (E + 1 - f.bias - f.fbits) := by
  rw [pow_succ] at hhigh
  rcases Nat.lt_or_ge n (2 ^ f.fbits) with hsub | hnorm
  · obtain rfl : E = 0 := hlow.resolve_right (Nat.not_le_of_lt hsub)
    simp [FFmt.mag, gridVal_of_lt hsub]
  obtain ⟨F, rfl⟩ := Nat.exists_eq_add_of_le hnorm
  rcases Nat.lt_or_ge F (2 ^ f.fbits) with hin | hend
  · have henc : E * 2 ^ f.fbits + (2 ^ f.fbits + F) = (E + 1) * 2 ^ f.fbits + F := by ring
    simp [FFmt.mag, henc, gridVal_normal (Nat.succ_ne_zero E) hin]
  · obtain rfl : F = 2 ^ f.fbits := by omega
    have henc : E * 2 ^ f.fbits + (2 ^ f.fbits + 2 ^ f.fbits) = (E + 2) * 2 ^ f.fbits + 0 := by ring
    have hexp : ((E + 2 : Nat) : Int) - f.bias - f.fbits = E + 1 - f.bias - f.fbits + 1 := by push_cast; ring
    rw [FFmt.mag, henc, gridVal_normal (Nat.succ_ne_zero _) (Nat.two_pow_pos _), hexp, zpow_add_one₀ two_ne_zero]
    push_cast
    ring

/-- Every encoding is some number of steps of its binade's spacing, short of the binade's end. -/
theorem exists_eq_steps (b x : Nat) :
    ∃ E n, x = E * 2 ^ b + n ∧ (E = 0 ∨ 2 ^ b ≤ n) ∧ n < 2 ^ (b + 1) := by
  have hpos := Nat.two_pow_pos b
  have hmod := Nat.mod_lt x hpos
  have hx := Nat.div_add_mod' x (2 ^ b)
  rw [pow_succ]
  rcases hE : x / 2 ^ b with _ | E
  · rw [hE] at hx
    exact ⟨0, x, by omega, .inl rfl, by omega⟩
  · rw [hE, Nat.succ_mul] at hx
    exact ⟨E, 2 ^ b + x % 2 ^ b, by omega, .inr (by omega), by omega⟩

theorem FFmt.mag_strictMono (f : FFmt) : StrictMono f.mag := by
  refine strictMono_nat_of_lt_succ fun x => ?_
  obtain ⟨E, n, rfl, hlow, hhigh⟩ := exists_eq_steps f.fbits x
  rw [Nat.add_assoc, FFmt.mag_steps hlow hhigh.le, FFmt.mag_steps (hlow.imp_right Nat.le_succ_of_le) hhigh]
  push_cast
  gcongr
  exact lt_add_one _

/-- The encoding 2^fbits is the smallest normal value. -/
theorem FFmt.mag_smallest_normal (f : FFmt) : f.mag (2 ^ f.fbits) = 2 ^ (1 - f.bias) := by
  have h := FFmt.mag_steps (f := f) (E := 0) (n := 2 ^ f.fbits) (.inl rfl) (by rw [pow_succ]; omega)
  rw [Nat.zero_mul, Nat.zero_add] at h
  rw [h]
  push_cast
  rw [← zpow_natCast, ← zpow_add₀ two_ne_zero]
  congr 1
  ring

/-! ### Finite encodings (R121 to R123) -/

/-- An encoding without sign that is neither an infinity nor a NaN. -/
def FFmt.Finite (f : FFmt) (x : Nat) : Prop :=
  x < if f.hasInf then f.infEnc else 2 ^ (f.ebits + f.fbits) - 1

theorem FFmt.finite_of_le_maxEnc {f : FFmt} (hf : f ∈ [fp32, fp16, bfp16, fpE4m3, fpE5m2]) {x : Nat} (h : x ≤ f.maxEnc) :
    f.Finite x := by
  have hmax : ∀ g ∈ [fp32, fp16, bfp16, fpE4m3, fpE5m2],
      g.maxEnc < if g.hasInf then g.infEnc else 2 ^ (g.ebits + g.fbits) - 1 := by decide
  exact h.trans_lt (hmax f hf)

theorem FFmt.Finite.lt_two_pow {f : FFmt} {x : Nat} (h : f.Finite x) : x < 2 ^ (f.ebits + f.fbits) := by
  have hinf : f.infEnc ≤ 2 ^ (f.ebits + f.fbits) := by
    rw [FFmt.infEnc, pow_add]
    exact Nat.mul_le_mul_right _ (Nat.sub_le ..)
  unfold FFmt.Finite at h
  split at h <;> omega

/-- A finite encoding has no all-ones exponent, or, where the format has no infinities, no all-ones fraction beside it. -/
theorem FFmt.Finite.not_all_ones {f : FFmt} {x : Nat} (h : f.Finite x) :
    ¬ (x / 2 ^ f.fbits = 2 ^ f.ebits - 1 ∧ (f.hasInf = true ∨ x % 2 ^ f.fbits = 2 ^ f.fbits - 1)) := by
  rintro ⟨hex, hfr⟩
  have hx := Nat.div_add_mod' x (2 ^ f.fbits)
  rw [hex] at hx
  unfold FFmt.Finite FFmt.infEnc at h
  cases hi : f.hasInf
  · have hfrac := hfr.resolve_left (by simp [hi])
    have hpos := Nat.two_pow_pos f.fbits
    have hle := Nat.le_mul_of_pos_left (2 ^ f.fbits) (Nat.two_pow_pos f.ebits)
    rw [hi, if_neg Bool.false_ne_true, pow_add] at h
    rw [Nat.sub_mul, Nat.one_mul] at hx
    omega
  · rw [hi, if_pos rfl] at h
    omega

/-- A finite encoding under a sign reads as its grid value under that sign. -/
theorem fval_of_finite {f : FFmt} {x : Nat} (neg : Bool) (h : f.Finite x) :
    fval f (neg.toNat * 2 ^ (f.width - 1) + x) = .fin neg (gridVal f x).1 (gridVal f x).2 := by
  have hlt := h.lt_two_pow
  have hwidth : f.width - 1 = f.ebits + f.fbits := by unfold FFmt.width; omega
  have hsign : bitAt (neg.toNat * 2 ^ (f.ebits + f.fbits) + x) (f.ebits + f.fbits) = neg := by
    rw [bitAt, Nat.mul_comm, Nat.mul_add_div (Nat.two_pow_pos _), Nat.div_eq_of_lt hlt]
    cases neg <;> rfl
  have hsplit : neg.toNat * 2 ^ (f.ebits + f.fbits) = 2 ^ f.fbits * (neg.toNat * 2 ^ f.ebits) := by rw [pow_add]; ring
  have hdiv : x / 2 ^ f.fbits < 2 ^ f.ebits := by
    rwa [Nat.div_lt_iff_lt_mul (Nat.two_pow_pos _), ← pow_add]
  have hexp : (neg.toNat * 2 ^ (f.ebits + f.fbits) + x) / 2 ^ f.fbits % 2 ^ f.ebits = x / 2 ^ f.fbits := by
    rw [hsplit, Nat.mul_add_div (Nat.two_pow_pos _), Nat.mul_add_mod', Nat.mod_eq_of_lt hdiv]
  have hfrac : (neg.toNat * 2 ^ (f.ebits + f.fbits) + x) % 2 ^ f.fbits = x % 2 ^ f.fbits := by
    rw [hsplit, Nat.mul_add_mod]
  have hones := h.not_all_ones
  have hspecial : (f.hasInf && x / 2 ^ f.fbits == 2 ^ f.ebits - 1) = false := by grind
  have hnan : (!f.hasInf && x / 2 ^ f.fbits == 2 ^ f.ebits - 1 && x % 2 ^ f.fbits == 2 ^ f.fbits - 1 &&
      f.nanEnc != 0) = false := by grind
  simp only [fval, hwidth, hsign, hexp, hfrac, hspecial, hnan, Bool.false_eq_true, if_false, gridVal]
  by_cases hsub : x / 2 ^ f.fbits = 0
  · simp [hsub, Nat.mod_eq_of_lt (Nat.lt_of_div_eq_zero (Nat.two_pow_pos _) hsub)]
  · simp [hsub]

theorem rat_fval_maxEnc {f : FFmt} (hf : f ∈ [fp32, fp16, bfp16, fpE4m3, fpE5m2]) :
    (rat (fval f f.maxEnc)).getD 0 = f.mag f.maxEnc := by
  have h := fval_of_finite false (FFmt.finite_of_le_maxEnc hf le_rfl)
  rw [Bool.toNat_false, Nat.zero_mul, Nat.zero_add] at h
  simp [h, rat, FFmt.mag]

/-! ### The number of steps that a mode chooses (R124) -/

/-- Every mode chooses one of the two neighbours. -/
theorem chosen_eq_floor_or (rm : Rm) (neg : Bool) (r : ℚ) : chosen rm neg r = ⌊r⌋ ∨ chosen rm neg r = ⌊r⌋ + 1 := by
  unfold chosen
  cases rm <;> grind

/-- The choice changes a value exactly where the value is no whole number of steps. -/
theorem chosen_eq_self_iff (rm : Rm) (neg : Bool) (r : ℚ) : (chosen rm neg r : ℚ) = r ↔ Int.fract r = 0 := by
  constructor
  · intro h
    rw [← h, Int.fract_intCast]
  · intro h
    have hself : r - ⌊r⌋ = 0 := h
    simp only [chosen, hself, if_true]
    linarith

theorem fract_div_two_pow (a sh : Nat) : Int.fract ((a : ℚ) / 2 ^ sh) = ((a % 2 ^ sh : Nat) : ℚ) / 2 ^ sh := by
  have h := Int.fract_div_natCast_eq_div_natCast_mod (k := ℚ) (m := a) (n := 2 ^ sh)
  rwa [Nat.cast_pow, Nat.cast_ofNat] at h

/-- The model's choice from a quotient and a remainder is that of the rule. -/
theorem chosen_div_two_pow (rm : Rm) (neg : Bool) (a sh : Nat) :
    chosen rm neg ((a : ℚ) / 2 ^ sh) =
      ((if goesUp rm neg (a / 2 ^ sh) (a % 2 ^ sh) sh then a / 2 ^ sh + 1 else a / 2 ^ sh : Nat) : Int) := by
  have hd : (0 : ℚ) < 2 ^ sh := by positivity
  have hfloor : ⌊(a : ℚ) / 2 ^ sh⌋ = ((a / 2 ^ sh : Nat) : Int) := by
    exact_mod_cast Rat.floor_natCast_div_natCast a (2 ^ sh)
  have hfract := fract_div_two_pow a sh
  rw [Int.fract, hfloor] at hfract
  generalize a / 2 ^ sh = n at *
  generalize a % 2 ^ sh = rem at *
  have hzero : ((rem : ℚ) / 2 ^ sh = 0) ↔ rem = 0 := by simp
  have hhalf : ((rem : ℚ) / 2 ^ sh < 1 / 2) ↔ 2 * rem < 2 ^ sh := by
    rw [div_lt_div_iff₀ hd two_pos, one_mul, mul_comm]
    exact_mod_cast Iff.rfl
  have htie : ((rem : ℚ) / 2 ^ sh = 1 / 2) ↔ 2 * rem = 2 ^ sh := by
    rw [div_eq_div_iff hd.ne' two_ne_zero, one_mul, mul_comm]
    exact_mod_cast Iff.rfl
  simp only [chosen, hfloor, hfract, hzero, hhalf, htie, goesUp]
  by_cases hrem : rem = 0
  · simp [hrem]
  cases rm with
  | rne =>
    have hup : (2 ^ sh < 2 * rem ∨ 2 * rem = 2 ^ sh ∧ n % 2 = 1) ↔
        ¬ (2 * rem < 2 ^ sh ∨ 2 * rem = 2 ^ sh ∧ (n : Int) % 2 = 0) := by omega
    simp [hrem, hup, -not_or]
  | rna =>
    have hup : 2 ^ sh ≤ 2 * rem ↔ ¬ 2 * rem < 2 ^ sh := Nat.not_lt.symm
    simp only [hrem, hup, beq_iff_eq, if_false, decide_eq_true_iff, ite_not]
    split_ifs <;> rfl
  | rz => simp [hrem]
  | rup => cases neg <;> simp [hrem]
  | rdn => cases neg <;> simp [hrem]

/-! ### The model's rounding as steps of the grid (R124, R127) -/

/-- The steps of 2^q that m · 2^e rounds to, and whether they differ from it. -/
def gridSteps (rm : Rm) (neg : Bool) (m : Nat) (e q : Int) : Nat × Bool :=
  let a := m * 2 ^ (e - q).toNat
  let sh := (q - e).toNat
  (if goesUp rm neg (a / 2 ^ sh) (a % 2 ^ sh) sh then a / 2 ^ sh + 1 else a / 2 ^ sh, a % 2 ^ sh != 0)

/-- One of the two powers is 1. -/
theorem steps_eq_div_two_pow (m : Nat) (e q : Int) :
    (m : ℚ) * 2 ^ e / 2 ^ q = ((m * 2 ^ (e - q).toNat : Nat) : ℚ) / 2 ^ (q - e).toNat := by
  have hexp : e - q = ((e - q).toNat : Int) - ((q - e).toNat : Int) := by omega
  have hpow : (2 : ℚ) ^ e / 2 ^ q = 2 ^ (e - q).toNat / 2 ^ (q - e).toNat := by
    rw [← zpow_sub₀ two_ne_zero, hexp, zpow_sub₀ two_ne_zero, zpow_natCast, zpow_natCast, ← hexp]
  rw [mul_div_assoc, hpow, Nat.cast_mul, Nat.cast_pow, Nat.cast_ofNat, mul_div_assoc]

theorem gridSteps_fst (rm : Rm) (neg : Bool) (m : Nat) (e q : Int) :
    ((gridSteps rm neg m e q).1 : Int) = chosen rm neg ((m : ℚ) * 2 ^ e / 2 ^ q) := by
  rw [steps_eq_div_two_pow, chosen_div_two_pow, gridSteps]

theorem gridSteps_snd (rm : Rm) (neg : Bool) (m : Nat) (e q : Int) :
    (gridSteps rm neg m e q).2 = decide ((chosen rm neg ((m : ℚ) * 2 ^ e / 2 ^ q) : ℚ) ≠ (m : ℚ) * 2 ^ e / 2 ^ q) := by
  rw [Bool.eq_iff_iff, decide_eq_true_iff, Ne, chosen_eq_self_iff, steps_eq_div_two_pow, fract_div_two_pow]
  simp [gridSteps]

theorem steps_lt (f : FFmt) (m : Nat) (e : Int) :
    (m : ℚ) * 2 ^ e / 2 ^ spacing f m e < 2 ^ (f.fbits + 1) := by
  have htop : (m : ℚ) < 2 ^ (Nat.log2 m + 1) := by exact_mod_cast Nat.lt_log2_self
  have hq : (Nat.log2 m : Int) + e - f.fbits ≤ spacing f m e := le_max_left ..
  rw [div_lt_iff₀ (by positivity)]
  calc (m : ℚ) * 2 ^ e < 2 ^ (Nat.log2 m + 1) * 2 ^ e := by gcongr
    _ = 2 ^ ((Nat.log2 m : Int) + 1 + e) := by rw [zpow_add₀ two_ne_zero]; norm_cast
    _ ≤ 2 ^ (((f.fbits + 1 : Nat) : Int) + spacing f m e) := zpow_le_zpow_right₀ one_le_two (by push_cast; omega)
    _ = 2 ^ (f.fbits + 1) * 2 ^ spacing f m e := by rw [zpow_add₀ two_ne_zero, zpow_natCast]

theorem le_steps {f : FFmt} {m : Nat} {e : Int} (hm : m ≠ 0) (hq : spacing f m e ≠ 1 - f.bias - f.fbits) :
    (2 : ℚ) ^ f.fbits ≤ m * 2 ^ e / 2 ^ spacing f m e := by
  have htop : (2 : ℚ) ^ Nat.log2 m ≤ m := by exact_mod_cast Nat.log2_self_le hm
  have hnorm : f.fbits + spacing f m e = (Nat.log2 m : Int) + e := by unfold spacing at *; omega
  rw [le_div_iff₀ (by positivity), ← zpow_natCast, ← zpow_add₀ two_ne_zero, hnorm, zpow_add₀ two_ne_zero, zpow_natCast]
  gcongr

theorem gridSteps_le (f : FFmt) (rm : Rm) (neg : Bool) (m : Nat) (e : Int) :
    (gridSteps rm neg m e (spacing f m e)).1 ≤ 2 ^ (f.fbits + 1) := by
  have hfloor : ⌊(m : ℚ) * 2 ^ e / 2 ^ spacing f m e⌋ < ((2 ^ (f.fbits + 1) : Nat) : Int) := by
    rw [Int.floor_lt]
    exact_mod_cast steps_lt f m e
  have hchosen := chosen_eq_floor_or rm neg ((m : ℚ) * 2 ^ e / 2 ^ spacing f m e)
  rw [← gridSteps_fst] at hchosen
  omega

theorem spacing_eq_or_le_gridSteps {f : FFmt} {m : Nat} (rm : Rm) (neg : Bool) (e : Int) (hm : m ≠ 0) :
    spacing f m e = 1 - f.bias - f.fbits ∨ 2 ^ f.fbits ≤ (gridSteps rm neg m e (spacing f m e)).1 := by
  rw [or_iff_not_imp_left]
  intro hq
  have hfloor : ((2 ^ f.fbits : Nat) : Int) ≤ ⌊(m : ℚ) * 2 ^ e / 2 ^ spacing f m e⌋ := by
    rw [Int.le_floor]
    exact_mod_cast le_steps hm hq
  have hchosen := chosen_eq_floor_or rm neg ((m : ℚ) * 2 ^ e / 2 ^ spacing f m e)
  rw [← gridSteps_fst] at hchosen
  omega

/-- The binades below the spacing of a value's steps, of which the subnormal spacing has none. -/
def binade (f : FFmt) (m : Nat) (e : Int) : Nat := (spacing f m e + f.fbits + f.bias - 1).toNat

theorem spacing_eq_binade (f : FFmt) (m : Nat) (e : Int) : spacing f m e = binade f m e + 1 - f.bias - f.fbits := by
  unfold binade spacing
  omega

/-- The model rounds only where the value's own spacing is finer than the grid's. -/
theorem ite_eq_gridSteps (rm : Rm) (neg : Bool) (m : Nat) (e q : Int) :
    (if q ≤ e then (m * 2 ^ (e - q).toNat, false)
     else (if goesUp rm neg (m / 2 ^ (q - e).toNat) (m % 2 ^ (q - e).toNat) (q - e).toNat then m / 2 ^ (q - e).toNat + 1
       else m / 2 ^ (q - e).toNat, m % 2 ^ (q - e).toNat != 0)) = gridSteps rm neg m e q := by
  split
  next hle => simp [gridSteps, Int.toNat_of_nonpos (Int.sub_nonpos_of_le hle), Nat.mod_one, goesUp]
  next hlt => simp [gridSteps, Int.toNat_of_nonpos (Int.sub_nonpos_of_le (Int.not_le.1 hlt).le)]

theorem roundMag_eq {f : FFmt} {m : Nat} (rm : Rm) (neg : Bool) (e : Int) (hm : m ≠ 0) :
    roundMag f rm neg m e =
      (binade f m e * 2 ^ f.fbits + (gridSteps rm neg m e (spacing f m e)).1, (gridSteps rm neg m e (spacing f m e)).2) := by
  have hlow := spacing_eq_or_le_gridSteps (f := f) rm neg e hm
  have hq := spacing_eq_binade f m e
  have hspacing : max (Int.ofNat (Nat.log2 m) + e - f.fbits) (1 - f.bias - f.fbits) = spacing f m e := rfl
  simp only [roundMag, hm, beq_iff_eq, if_false, hspacing, ite_eq_gridSteps]
  generalize gridSteps rm neg m e (spacing f m e) = s at *
  generalize spacing f m e = q at *
  generalize binade f m e = E at *
  obtain ⟨n, inexact⟩ := s
  split
  next hsub =>
    obtain rfl : E = 0 := by have := hlow.resolve_right (Nat.not_le_of_lt hsub); omega
    simp
  next hnorm =>
    split
    next hend =>
      have hexp : (q + 1 + f.fbits + f.bias).toNat = E + 2 := by omega
      obtain rfl : n = 2 ^ (f.fbits + 1) := hend
      simp only [hexp, Nat.sub_self]
      congr 1
      ring
    next =>
      have hexp : (q + f.fbits + f.bias).toNat = E + 1 := by omega
      simp only [hexp, Nat.succ_mul]
      congr 1
      omega

/-- R124: rounding gives the encoding of the steps that the mode chooses, and says whether they differ. -/
theorem mag_roundMag {f : FFmt} {m : Nat} (rm : Rm) (neg : Bool) (e : Int) (hm : m ≠ 0) :
    f.mag (roundMag f rm neg m e).1 =
      chosen rm neg ((m : ℚ) * 2 ^ e / 2 ^ spacing f m e) * 2 ^ spacing f m e := by
  have hlow : binade f m e = 0 ∨ 2 ^ f.fbits ≤ (gridSteps rm neg m e (spacing f m e)).1 :=
    (spacing_eq_or_le_gridSteps rm neg e hm).imp_left fun h => by rw [binade, h]; omega
  rw [roundMag_eq rm neg e hm, FFmt.mag_steps hlow (gridSteps_le ..), ← spacing_eq_binade, ← gridSteps_fst, Int.cast_natCast]

theorem roundMag_inexact {f : FFmt} {m : Nat} (rm : Rm) (neg : Bool) (e : Int) (hm : m ≠ 0) :
    (roundMag f rm neg m e).2 =
      decide (chosen rm neg ((m : ℚ) * 2 ^ e / 2 ^ spacing f m e) * 2 ^ spacing f m e ≠ (m : ℚ) * 2 ^ e) := by
  rw [roundMag_eq rm neg e hm, gridSteps_snd]
  have hpos : (2 : ℚ) ^ spacing f m e ≠ 0 := by positivity
  simp only [Ne, eq_div_iff hpos]

/-- A neighbour lies below the smallest normal value exactly where its encoding's exponent is 0 (R127). -/
theorem FFmt.lt_two_pow_iff_mag_lt (f : FFmt) (x : Nat) : x < 2 ^ f.fbits ↔ f.mag x < 2 ^ (1 - f.bias) := by
  rw [← f.mag_smallest_normal, f.mag_strictMono.lt_iff_lt]

theorem overflowEnc_eq_replaced (f : FFmt) (rm : Rm) (neg : Bool) : overflowEnc f rm neg = replaced f rm neg := by
  unfold overflowEnc replaced
  cases f.hasInf with
  | false => rfl
  | true => cases rm <;> cases neg <;> rfl

end Sys2Proof.Machine
end

section
open Sys2Proof Sys2Proof.Machine Sys2Proof.Claim

/-- Settles O6: rounding encodes the steps of the grid that the mode chooses, encodings are ordered as their values, and
one that is no greater than the largest finite encoding reads back as its value. -/
theorem roundingToAFormat : Obligations.RoundingToAFormat := by
  unfold Obligations.RoundingToAFormat
  intro f rm neg m e hf hm u v n top sgn
  have hmag : f.mag (roundMag f rm neg m e).1 = n * u := mag_roundMag rm neg e hm
  have hinexact : (roundMag f rm neg m e).2 = decide (n * u ≠ v) := roundMag_inexact rm neg e hm
  have hover : top < n * u ↔ f.maxEnc < (roundMag f rm neg m e).1 := by
    rw [← hmag, show top = f.mag f.maxEnc from rat_fval_maxEnc hf, f.mag_strictMono.lt_iff_lt]
  simp only [roundF, hinexact]
  split
  next h => rw [if_pos (hover.1 h), overflowEnc_eq_replaced]
  next h =>
    have hle := Nat.le_of_not_lt (mt hover.2 h)
    have hsub : (roundMag f rm neg m e).1 < 2 ^ f.fbits ↔ n * u < 2 ^ (1 - f.bias) := by
      rw [f.lt_two_pow_iff_mag_lt, hmag]
    refine ⟨_, _, _, ?_, hle, fval_of_finite neg (FFmt.finite_of_le_maxEnc hf hle), hmag⟩
    rw [if_neg hle.not_gt, decide_eq_decide.2 hsub, ← Bool.decide_and]

end
